-- ==== Sys2Proof/Word.lean ====
section
/-! DEFINITION. Words: the widths and the numbered things of the JBT-256. -/

namespace Sys2Proof

/-- One byte of a frame or of a cell copy. -/
abbrev Byte := BitVec 8

/-- A 16-bit figure: units, fee, boundary, rates, seconds of a duration (R162). -/
abbrev Half := BitVec 16

/-- A 32-bit figure: keys, balances, amounts, seconds, sequences (R1, R162). -/
abbrev Word := BitVec 32

/-- An account slot, 0 to 255 (R1). -/
abbrev SlotNo := Fin 256

/-- An account pair, 0 to 287 (R98). -/
abbrev PairNo := Fin 288

/-- A tariff class, and its tariff pair T*n*, 0 to 15 (R39, R98). -/
abbrev ClassNo := Fin 16

/-- An entry of the hold table, 0 to 31 (R55). -/
abbrev HoldNo := Fin 32

/-- The largest value of a 32-bit figure, 4,294,967,295. -/
abbrev maxWord : Nat := 4294967295

end Sys2Proof
end

