-- ==== Sys2Proof/Config.lean ====
section
/-! DEFINITION. Config: the constants the part fixes, and the one free value the manual leaves open. -/

namespace Sys2Proof.Config

/-- The wear limit, 400,000 programs for every pair (R102). -/
def wearLimit : Nat := 400000

/-- The places of the Terminal Port's request window (R148). -/
def terminalPlaces : Nat := 4

/-- The places of the Service Port's request window (R148). -/
def servicePlaces : Nat := 1

/-- The entries the alert queue holds at most (R137). -/
def alertPlaces : Nat := 16

/-- Where the occurrences of an alert entry stop (R138, R140). -/
def maxOccurrences : Nat := 255

/-- The longest duration of OPEN_HOLD, in seconds (R66). -/
def maxDuration : Nat := 7200

/-- The latest a deadline may stand after the opened second, in seconds (R69). -/
def maxHoldSpan : Nat := 14400

/-- The Service Port's target address with ADR1 and ADR0 low (R158). -/
def baseAddress : Nat := 82

/-- FREE VALUE (log 9, DESIGN CHOICE: nothing in the manual says what a wear becomes that would pass
4,294,967,295). The value read at the `n`-th use of the counter `freeUses` for the pair with index `i`
(account pairs 0 to 287, tariff pair T*n* at 288 + *n*). It has no body: nothing can evaluate it. -/
opaque wearPastRange : Nat → Nat → Word

end Sys2Proof.Config
end

