-- ==== Sys2Proof/Syntax.lean ====
section
/-! DEFINITION. Syntax: the commands of the part, one constructor per row of spec/opcode_table.json, and the
types of their operands. -/

namespace Sys2Proof

/-- The two ports (chapter 11). -/
inductive Port where
  | terminal
  | service
  deriving DecidableEq, Repr

/-- A handle as a frame carries it: the entry number and the generation, one byte each (R56, R162). -/
structure Handle where
  entry : Byte
  generation : Byte
  deriving DecidableEq, Repr

/-- The four values of a tariff (R39): fee, boundary, rate 1 and rate 2. -/
structure Rates where
  fee : Half
  boundary : Half
  rate1 : Half
  rate2 : Half
  deriving DecidableEq, Repr

/-- One copy of a cell pair: its 29 bytes, cut where R164 cuts them (kind 1, sequence 4, wear 4, body 18,
CRC-16 2), each part read most significant byte first. -/
structure Copy where
  kind : Byte
  sequence : Word
  wear : Word
  body : BitVec 144
  check : Half
  deriving DecidableEq, Repr

/-- What a reset leaves in the copy that an attempt was programming (Table 5-6 of R95; log 8): the valid
earlier content, a blank copy, a torn copy, or the new image where the program was complete. -/
inductive CutResult where
  | earlier
  | blank
  | torn (c : Copy)
  | written
  deriving DecidableEq, Repr

/-- The commands. A request command names the port that sent the request, its tag and its parameters (log 3). -/
inductive Instr where
  | lookup (port : Port) (tag : Byte) (key : Word)
  | listNext (port : Port) (tag : Byte) (key : Word)
  | openAccount (port : Port) (tag : Byte) (key : Word) (cls : Byte) (initial ceiling threshold : Word)
  | closeAccount (port : Port) (tag : Byte) (key : Word)
  | freeze (port : Port) (tag : Byte) (key : Word)
  | thaw (port : Port) (tag : Byte) (key : Word)
  | setClass (port : Port) (tag : Byte) (key : Word) (cls : Byte)
  | credit (port : Port) (tag : Byte) (key : Word) (amount : Word)
  | debitAmount (port : Port) (tag : Byte) (key : Word) (amount : Word)
  | debitUnits (port : Port) (tag : Byte) (key : Word) (units : Half)
  | setLimits (port : Port) (tag : Byte) (key : Word) (ceiling threshold : Word)
  | quote (port : Port) (tag : Byte) (cls : Byte) (units : Half)
  | readTariff (port : Port) (tag : Byte) (cls : Byte)
  | setTariff (port : Port) (tag : Byte) (cls : Byte) (rates : Rates)
  | openHold (port : Port) (tag : Byte) (key : Word) (amount : Word) (duration : Half)
  | extendHold (port : Port) (tag : Byte) (handle : Handle) (seconds : Half)
  | settleHold (port : Port) (tag : Byte) (handle : Handle) (units : Half)
  | cancelHold (port : Port) (tag : Byte) (handle : Handle)
  | holdStatus (port : Port) (tag : Byte) (handle : Handle)
  | readClock (port : Port) (tag : Byte)
  | fetchAlert (port : Port) (tag : Byte) (filter : Byte)
  | setAlertMask (port : Port) (tag : Byte) (mask : Byte)
  | readReport (port : Port) (tag : Byte)
  | restart (port : Port) (tag : Byte)
  /-- A taken request of a kind outside the catalogue, with its kind byte and its body as received. -/
  | badRequest (port : Port) (tag : Byte) (kind : Byte) (body : List Byte)
  /-- An SPI SUBMIT transaction with the whole bytes received after the code byte. -/
  | submit (bytes : List Byte)
  /-- An SPI COLLECT transaction with the number of whole bytes clocked after the port status. -/
  | collect (clocked : Nat)
  /-- An SPI transaction with another code byte, and the whole bytes received after it. -/
  | status (code : Byte) (received : List Byte)
  /-- An SPI transaction that ends after fewer than 8 clocks. -/
  | voidTransaction (clocks : Nat)
  /-- An I2C write to a 7-bit address with its data bytes. -/
  | i2cWrite (address : BitVec 7) (bytes : List Byte)
  /-- An I2C read from a 7-bit address with the number of bytes the controller reads, port status included. -/
  | i2cRead (address : BitVec 7) (count : Nat)
  | secondTick
  | firstProgram
  /-- The attempt under way completes; `readBack` is what the programmed copy reads as (log 7). -/
  | attemptComplete (readBack : Copy)
  | supplyRise
  | supplyRipple
  | changeToLow
  | changeToGood
  | supplyCollapse (cut : CutResult)
  | resetLine (cut : CutResult)
  /-- The reset's cause ends; the levels of ADR1 and ADR0 are sampled (R158). -/
  | resetEnd (adr1 adr0 : Bool)
  | scan
  | collectionWaitExpiry
  deriving DecidableEq, Repr

end Sys2Proof
end

