-- ==== Sys2Proof/Decode.lean ====
section
/-! DEFINITION. Decode: the commands that a word spells by the bits of spec/opcode_table.json. -/

namespace Sys2Proof

/-- The command a word of the opcode table spells. No row of the table gives bits, so no word spells a command
(log 30). The frames and the transaction codes that requesters send are read by Machine/Ports.lean. -/
def decodeTableWord (nbits w : Nat) : Option Instr :=
  match nbits, w with
  | _, _ => none

end Sys2Proof
end

