-- ==== Sys2Proof/Machine/State.lean ====
section
/-! DEFINITION. State: everything the manual gives the part, as plain data, and the machine right after reset. -/

namespace Sys2Proof.Machine

/-- The request kinds of the catalogue (Table 10-3, Table 12-1). -/
inductive Kind where
  | lookup | listNext | openAccount | closeAccount | freeze | thaw | setClass | credit
  | debitAmount | debitUnits | setLimits | quote | setTariff | readTariff | openHold | extendHold
  | settleHold | cancelHold | holdStatus | readClock | fetchAlert | setAlertMask | readReport | restart
  deriving DecidableEq, Repr

/-- The statuses of a response (Table 12-2). -/
inductive Status where
  | ok | capped | noAccount | duplicateKey | tableFull | noSpace | accountBusy | frozen | faulted
  | insufficient | overCeiling | badValue | badClass | holdsFull | noSuchHold | holdLapsed | notOwner
  | tooLong | holdsOpen | notPermitted | badRequest | supplyLow | storeFault | restarting | alertEmpty
  deriving DecidableEq, Repr

/-- The account states (Table 1-1). -/
inductive AccountState where
  | vacant | opening | active | frozen | faulted | closing
  deriving DecidableEq, Repr

/-- The change kinds of a pending image (R6). -/
inductive ChangeKind where
  | open | close | freeze | thaw | setClass | credit | debitAmount | debitUnits | setLimits | settle
  deriving DecidableEq, Repr

/-- The class states (Table 3-1). -/
inductive ClassState where
  | undefined | defined
  deriving DecidableEq, Repr

/-- The eight alert kinds (Table 9-1). -/
inductive AlertKind where
  | creditExhausted | storeFault | sparesExhausted | supplyLow
  | lowCredit | holdLapsed | pairRetired | supplyRestored
  deriving DecidableEq, Repr

/-- The five forms of an alert's subject (R138). -/
inductive AlertSubject where
  | none
  | account (slot : SlotNo) (key : Word)
  | hold (entry : HoldNo) (generation : Byte) (key : Word)
  | cls (n : ClassNo)
  | pair (n : PairNo)
  deriving DecidableEq, Repr

/-- An alert entry (R138). Its urgency is fixed by its kind and computed from it. -/
structure AlertEntry where
  kind : AlertKind
  subject : AlertSubject
  firstRaised : Word
  occurrences : Byte
  deriving DecidableEq, Repr

/-- The alert masks (Table 9-2). -/
inductive AlertMask where
  | none | urgent | all
  deriving DecidableEq, Repr

/-- The reset kinds (Table 7-1). -/
inductive ResetKind where
  | powerOn | resetLine | restart
  deriving DecidableEq, Repr

/-- The recovery report (R123). -/
structure Report where
  resetKind : ResetKind
  accountsLoaded : Nat
  tornCopies : Nat
  duplicateKeys : Nat
  pairsTidied : Nat
  tidyFailures : Nat
  wornCount : Nat
  freeCount : Nat
  excessAccounts : Nat
  classesDefined : Nat
  deriving DecidableEq, Repr

/-- The figures of a LOOKUP response (R8). -/
structure LookupFigures where
  slot : SlotNo
  state : AccountState
  cls : ClassNo
  balance : Word
  pendingBalance : Option Word
  heldTotal : Word
  spendable : Word
  ceiling : Word
  threshold : Word
  holdCount : Nat
  deriving DecidableEq, Repr

/-- A hold as it was opened and extended (R55): the fields it keeps while OPEN, SETTLING and LAPSED. -/
structure Hold where
  slot : SlotNo
  key : Word
  owner : Port
  amount : Word
  rates : Rates
  opened : Word
  deadline : Word
  deriving DecidableEq, Repr

/-- The state of a hold entry with the fields that state has (R55, Table 4-1). -/
inductive HoldState where
  | free
  | open (h : Hold)
  | settling (h : Hold) (charge residual : Word)
  | lapsed (h : Hold) (lapsedSecond : Word)
  deriving DecidableEq, Repr

/-- An entry of the hold table (R55). The generation is present in every state. -/
structure HoldEntry where
  generation : Byte
  state : HoldState
  deriving DecidableEq, Repr

/-- The figures a response carries, by what its request's rule reports. `zeros` is a body of the kind's
length with every field 0: a refusal's (R162), or the empty body of a kind that reports nothing. -/
inductive Figures where
  | zeros
  /-- LOOKUP (R8). -/
  | lookup (f : LookupFigures)
  /-- LIST_NEXT (R9), READ_CLOCK (R61) and the final or new balance of CLOSE_ACCOUNT (R12), CREDIT (R26) and
  DEBIT_AMOUNT (R27): one 32-bit figure. -/
  | word (w : Word)
  /-- OPEN_ACCOUNT: the slot (R11). -/
  | slot (n : SlotNo)
  /-- DEBIT_UNITS: charge and new balance (R28). -/
  | debit (charge newBalance : Word)
  /-- QUOTE: fee part, tier 1 part, tier 2 part, charge (R46). -/
  | quote (feePart tier1Part tier2Part charge : Word)
  /-- READ_TARIFF (R47). -/
  | tariff (state : ClassState) (rates : Rates) (pendingPresent storeFault : Bool)
  /-- OPEN_HOLD: handle and deadline (R68). -/
  | handle (entry : HoldNo) (generation : Byte) (deadline : Word)
  /-- EXTEND_HOLD: deadline and amount (R69, R65). -/
  | extend (deadline amount : Word)
  /-- SETTLE_HOLD: charge, capped flag, uncovered excess, new balance, amount, deadline (R71, R65). -/
  | settle (charge : Word) (capped : Bool) (excess newBalance amount deadline : Word)
  /-- CANCEL_HOLD: amount released and deadline (R74, R65). -/
  | release (amount deadline : Word)
  /-- HOLD_STATUS: the entry's state as it stands (R75). -/
  | hold (state : HoldState)
  /-- FETCH_ALERT with an entry: the entry, the lost indicator, the number of entries left (R144). -/
  | alert (entry : AlertEntry) (lost : Bool) (left : Nat)
  /-- FETCH_ALERT with none: the lost indicator and the number of entries (R144). -/
  | noAlert (lost : Bool) (entries : Nat)
  /-- SET_ALERT_MASK: the previous mask (R146). -/
  | mask (previous : AlertMask)
  /-- READ_REPORT: the report and the current FREE, WORN, account and hold counts (R124). -/
  | report (r : Report) (free worn accounts holds : Nat)
  deriving DecidableEq, Repr

/-- The pending image of an account (R6). -/
structure PendingImage where
  balance : Word
  ceiling : Word
  threshold : Word
  cls : ClassNo
  frozenMark : Bool
  change : ChangeKind
  port : Port
  tag : Byte
  /-- Present for SETTLE only: the entry and the generation of the hold. -/
  handle : Option (HoldNo × Byte)
  figures : Figures
  deriving DecidableEq, Repr

/-- A slot record (R1). -/
structure Slot where
  state : AccountState
  key : Option Word
  cls : ClassNo
  balance : Word
  ceiling : Word
  threshold : Word
  frozenMark : Bool
  sequence : Option Word
  currentPair : Option PairNo
  pending : Option PendingImage
  low : Bool
  exhausted : Bool
  deriving DecidableEq, Repr

/-- A VACANT slot (R1): no key, no pair, no sequence, no pending image, values 0, indicators clear. -/
def Slot.vacant : Slot where
  state := .vacant
  key := none
  cls := 0
  balance := 0
  ceiling := 0
  threshold := 0
  frozenMark := false
  sequence := none
  currentPair := none
  pending := none
  low := false
  exhausted := false

/-- The pending image of a tariff class (R39). -/
structure PendingTariff where
  rates : Rates
  port : Port
  tag : Byte
  deriving DecidableEq, Repr

/-- A class record (R39). -/
structure TariffClass where
  state : ClassState
  rates : Rates
  sequence : Option Word
  pending : Option PendingTariff
  storeFault : Bool
  deriving DecidableEq, Repr

/-- A class record after a reset (R40). -/
def TariffClass.undefined : TariffClass where
  state := .undefined
  rates := ⟨0, 0, 0, 0⟩
  sequence := none
  pending := none
  storeFault := false

/-- Copy A or copy B of a pair (R98). -/
inductive CopyName where
  | a | b
  deriving DecidableEq, Repr

/-- The two nonvolatile copies of a cell pair (R98). -/
structure CellPair where
  a : Copy
  b : Copy
  deriving DecidableEq, Repr

/-- An account pair or a tariff pair (R98). -/
inductive PairId where
  | account (n : PairNo)
  | tariff (n : ClassNo)
  deriving DecidableEq, Repr

/-- The role of an account pair with its bound slot where it has one (R104, Table 6-1). -/
inductive PairRole where
  | current (slot : SlotNo)
  | incoming (slot : SlotNo)
  | free
  | worn
  | stale
  deriving DecidableEq, Repr

/-- What the Cell Store keeps of every pair (R104): wear, newest valid copy, newest sequence. -/
structure PairTrack where
  wear : Word
  newest : Option CopyName
  newestSequence : Word
  deriving DecidableEq, Repr

/-- A pair table record of an account pair (R104). -/
structure PairRecord where
  role : Option PairRole
  track : PairTrack
  deriving DecidableEq, Repr

/-- The content to be programmed (R79, R80). -/
inductive Image where
  | account (key : Word) (cls : ClassNo) (frozenMark : Bool) (balance ceiling threshold : Word)
  | tariff (rates : Rates)
  | empty (key : Option Word)
  deriving DecidableEq, Repr

/-- The kind of a commit entry together with its subject (R79, R80). -/
inductive EntrySubject where
  | accountImage (slot : SlotNo)
  | accountEmpty (slot : SlotNo)
  | tariffImage (n : ClassNo)
  | tidyEmpty (pair : PairNo)
  deriving DecidableEq, Repr

/-- The attempt number, 1 or 2 (R79). -/
inductive AttemptNo where
  | first | second
  deriving DecidableEq, Repr

/-- The program attempt state (R79): what was settled when the first program began, the attempt number, and
whether an attempt is under way now (R81) or waits for the supply to return to GOOD (R92). -/
structure Attempt where
  target : PairId
  copy : CopyName
  sequence : Word
  number : AttemptNo
  underWay : Bool
  deriving DecidableEq, Repr

/-- The stage of a commit entry (Table 5-2). While RELOCATING the incoming pair and its copy are present. -/
inductive Stage where
  | waiting
  | programming (t : Attempt)
  | relocating (t : Attempt) (incoming : PairNo) (incomingCopy : CopyName)
  deriving DecidableEq, Repr

/-- An entry of the commit queue (R79). Port and tag are absent for TIDY_EMPTY. -/
structure CommitEntry where
  subject : EntrySubject
  image : Image
  port : Option Port
  tag : Option Byte
  stage : Stage
  deriving DecidableEq, Repr

/-- The states of a request in a window (Table 10-1). -/
inductive RequestState where
  | untaken | taken | answered
  deriving DecidableEq, Repr

/-- A request in a window (R148). Its acceptance order is its place in the window's list. -/
structure Request where
  tag : Byte
  kind : Byte
  parameters : List Byte
  state : RequestState
  deriving DecidableEq, Repr

/-- A response (R150): the tag and the kind of its request, a status and the figures. -/
structure Response where
  tag : Byte
  kind : Byte
  status : Status
  figures : Figures
  deriving DecidableEq, Repr

/-- The submit outcomes (R154). -/
inductive SubmitOutcome where
  | none | accepted | windowFull | duplicateTag | frameError | notReady
  deriving DecidableEq, Repr

/-- The record of a port's latest transaction (chapter 11, log 6): the bytes the port sent and the number of
bytes it acknowledged (I2C only). It says what went out on the wires, so no reset takes it back. -/
structure Wire where
  sent : List Byte
  acknowledged : Nat
  deriving DecidableEq, Repr

/-- What one port holds: window, response queue, submit outcome, alert mask, transaction record. -/
structure PortState where
  window : List Request
  responses : List Response
  outcome : SubmitOutcome
  mask : AlertMask
  wire : Wire
  deriving DecidableEq, Repr

/-- The device phases (Table 7-2). -/
inductive Phase where
  | starting | scanning | tidying | open | restarting
  deriving DecidableEq, Repr

/-- The supply state (R128). -/
inductive Supply where
  | good | low
  deriving DecidableEq, Repr

/-- The steady timer (R128, R129): stopped at 0, or running. Its count between 0 and 64 ms is time and is left
out (log 14). -/
inductive SteadyTimer where
  | stopped | running
  deriving DecidableEq, Repr

/-- The supply pin against the levels 2.30 V and 2.95 V (Table 8-1; log 13, log 23). -/
inductive SupplyLevel where
  | belowReset
  | belowSafe
  | safe
  deriving DecidableEq, Repr

/-- The state of the part. Plain data; the groups follow INVENTORY.md. -/
structure State where
  /-- The account table (R1). -/
  slots : Vector Slot 256
  /-- The key index, ascending by key (R7). -/
  keyIndex : List (Word × SlotNo)
  /-- The hold table (R55). -/
  holds : Vector HoldEntry 32
  /-- The seconds counter (R59). -/
  seconds : Word
  /-- The tariff table (R39). -/
  tariffs : Vector TariffClass 16
  /-- The commit queue, oldest first (R78). -/
  commitQueue : List CommitEntry
  /-- The nonvolatile account cells (R98). -/
  accountCells : Vector CellPair 288
  /-- The nonvolatile tariff cells (R98). -/
  tariffCells : Vector CellPair 16
  /-- The pair table (R104). -/
  accountPairs : Vector PairRecord 288
  /-- The records of the tariff pairs (R104). -/
  tariffPairs : Vector PairTrack 16
  /-- The free list, head first (R106). -/
  freeList : List PairNo
  /-- The worn set (R108), in ascending pair number (log 28). -/
  wornSet : List PairNo
  /-- The device phase (R114). -/
  phase : Phase
  /-- A reset lasts (R113; log 16). -/
  inReset : Bool
  /-- The recovery report (R123). -/
  report : Report
  /-- The collection wait runs (R126). -/
  collectionWait : Bool
  /-- The supply state (R128). -/
  supply : Supply
  /-- The steady timer (R129). -/
  steadyTimer : SteadyTimer
  /-- The supply pin (Table 8-1). -/
  vdd : SupplyLevel
  /-- The alert queue, head first (R137). -/
  alerts : List AlertEntry
  /-- The lost indicator (R142). -/
  lost : Bool
  /-- The Terminal Port. -/
  terminal : PortState
  /-- The Service Port. -/
  service : PortState
  /-- The port served last (R151). -/
  lastServed : Port
  /-- The Service Port's target address (R158). -/
  serviceAddress : BitVec 7
  /-- The model's own counter of free values (log 9). -/
  freeUses : Nat
  /-- The commands that wait, first in, first out. -/
  pending : List Instr
  deriving DecidableEq, Repr

/-- Why a step stops with a fault. No constructor: every error the manual names is a status, a submit outcome, an
alert, a FAULTED slot or a store-fault indicator, and the part goes on (log 34). -/
inductive Fault where
  deriving DecidableEq, Repr

/-- Why a command has no meaning. -/
inductive Refusal where
  /-- Raised by `exec`'s arm of a command without a meaning, by its mnemonic; safe, since the model stops. No arm
  raises it. -/
  | notModelled (mnemonic : String)
  deriving DecidableEq, Repr

/-- An erased copy: every one of its 29 bytes reads FFh (R99, R164). -/
def blankCopy : Copy where
  kind := 0xFF
  sequence := 0xFFFFFFFF
  wear := 0xFFFFFFFF
  body := BitVec.allOnes 144
  check := 0xFFFF

/-- A port after a reset with its default alert mask (R113, R148, R150, R154, R161). -/
def PortState.afterReset (mask : AlertMask) : PortState where
  window := []
  responses := []
  outcome := .none
  mask := mask
  wire := ⟨[], 0⟩

/-- The recovery report after a reset of kind `k` (R123). -/
def Report.afterReset (k : ResetKind) : Report where
  resetKind := k
  accountsLoaded := 0
  tornCopies := 0
  duplicateKeys := 0
  pairsTidied := 0
  tidyFailures := 0
  wornCount := 0
  freeCount := 0
  excessAccounts := 0
  classesDefined := 0

/-- A pair record that says nothing: cleared by a reset (R104). -/
def PairTrack.cleared : PairTrack := ⟨0, none, 0⟩

/-- The machine right after a POWER_ON reset has ended: every volatile field at the value its chapter gives
(R2, R7, R40, R57, R59, R78, R104, R113, R123, R128, R137, R146, R148, R150, R151, R154), every cell blank (log 11,
DESIGN CHOICE), ADR1 and ADR0 sampled low (log 12, DESIGN CHOICE), the supply between 2.30 V and 2.95 V (log 13,
DESIGN CHOICE), and no command waiting. -/
def State.reset : State where
  slots := Vector.replicate 256 Slot.vacant
  keyIndex := []
  holds := Vector.replicate 32 ⟨255, .free⟩
  seconds := 0
  tariffs := Vector.replicate 16 TariffClass.undefined
  commitQueue := []
  accountCells := Vector.replicate 288 ⟨blankCopy, blankCopy⟩
  tariffCells := Vector.replicate 16 ⟨blankCopy, blankCopy⟩
  accountPairs := Vector.replicate 288 ⟨none, PairTrack.cleared⟩
  tariffPairs := Vector.replicate 16 PairTrack.cleared
  freeList := []
  wornSet := []
  phase := .starting
  inReset := false
  report := Report.afterReset .powerOn
  collectionWait := false
  supply := .low
  steadyTimer := .stopped
  vdd := .belowSafe
  alerts := []
  lost := false
  terminal := PortState.afterReset .all
  service := PortState.afterReset .urgent
  lastServed := .service
  serviceAddress := 82
  freeUses := 0
  pending := []

end Sys2Proof.Machine
end

