-- ==== Sys2Proof/Machine/Layouts.lean ====
section
/-! DEFINITION. Layouts: the bytes of frames and cell copies, the value encodings and the two check codes
(chapter 12). Byte order is decided here and nowhere else. -/

namespace Sys2Proof.Machine

/-! ## Bytes, most significant first (R162, R164) -/

/-- A 16-bit figure as two bytes, most significant first (R162). -/
def halfBytes (h : Half) : List Byte := [h.extractLsb' 8 8, h.extractLsb' 0 8]

/-- A 32-bit figure as four bytes, most significant first (R162). -/
def wordBytes (w : Word) : List Byte :=
  [w.extractLsb' 24 8, w.extractLsb' 16 8, w.extractLsb' 8 8, w.extractLsb' 0 8]

/-- The byte at offset `i` of a body. -/
def byteAt (l : List Byte) (i : Nat) : Byte := l.getD i 0

/-- The 16-bit figure at offset `i` of a body, most significant byte first (R162). -/
def halfAt (l : List Byte) (i : Nat) : Half := byteAt l i ++ byteAt l (i + 1)

/-- The 32-bit figure at offset `i` of a body, most significant byte first (R162). -/
def wordAt (l : List Byte) (i : Nat) : Word :=
  byteAt l i ++ byteAt l (i + 1) ++ byteAt l (i + 2) ++ byteAt l (i + 3)

/-- A one-byte flag: 00h clear, 01h set (R162). -/
def flagByte (b : Bool) : Byte := if b then 1 else 0

/-- A count or a number as a one-byte field. -/
def natByte (n : Nat) : Byte := BitVec.ofNat 8 n

/-- A count or a number as a two-byte field. -/
def natHalf (n : Nat) : List Byte := halfBytes (BitVec.ofNat 16 n)

/-- A tariff's four values, two bytes each, in the order fee, boundary, rate 1, rate 2 (Table 12-1, R164). -/
def ratesBytes (r : Rates) : List Byte :=
  halfBytes r.fee ++ halfBytes r.boundary ++ halfBytes r.rate1 ++ halfBytes r.rate2

/-- The four values of a tariff at offset `i` of a body. -/
def ratesAt (l : List Byte) (i : Nat) : Rates :=
  ⟨halfAt l i, halfAt l (i + 2), halfAt l (i + 4), halfAt l (i + 6)⟩

/-- A handle: the entry number, then the generation (R162). -/
def handleBytes (h : Handle) : List Byte := [h.entry, h.generation]

/-- The handle at offset `i` of a body. -/
def handleAt (l : List Byte) (i : Nat) : Handle := ⟨byteAt l i, byteAt l (i + 1)⟩

/-! ## Check codes (R164) -/

/-- One bit of the CRC-8 with polynomial 07h, most significant bit first. -/
def crc8Bit (c : Byte) : Byte := if c.msb then (c <<< 1) ^^^ 0x07 else c <<< 1

/-- One byte of the CRC-8. -/
def crc8Byte (c b : Byte) : Byte :=
  crc8Bit (crc8Bit (crc8Bit (crc8Bit (crc8Bit (crc8Bit (crc8Bit (crc8Bit (c ^^^ b))))))))

/-- The CRC-8 of R164: polynomial 07h, initial value 00h, no reflection, no final inversion. -/
def crc8 (bytes : List Byte) : Byte := bytes.foldl crc8Byte 0

/-- One bit of the CRC-16 with polynomial 1021h, most significant bit first. -/
def crc16Bit (c : Half) : Half := if c.msb then (c <<< 1) ^^^ 0x1021 else c <<< 1

/-- One byte of the CRC-16. -/
def crc16Byte (c : Half) (b : Byte) : Half :=
  crc16Bit (crc16Bit (crc16Bit (crc16Bit (crc16Bit (crc16Bit (crc16Bit (crc16Bit
    (c ^^^ (b.setWidth 16 <<< 8)))))))))

/-- The CRC-16 of R164: polynomial 1021h, initial value FFFFh, no reflection, no final inversion. -/
def crc16 (bytes : List Byte) : Half := bytes.foldl crc16Byte 0xFFFF

/-! ## Kinds and statuses (Tables 10-3, 12-1, 12-2) -/

/-- The code of a request kind (Table 12-1). -/
def Kind.code : Kind → Byte
  | .lookup => 0x01
  | .listNext => 0x02
  | .openAccount => 0x03
  | .closeAccount => 0x04
  | .freeze => 0x05
  | .thaw => 0x06
  | .setClass => 0x07
  | .credit => 0x08
  | .debitAmount => 0x09
  | .debitUnits => 0x0A
  | .setLimits => 0x0B
  | .quote => 0x0C
  | .setTariff => 0x0D
  | .readTariff => 0x0E
  | .openHold => 0x0F
  | .extendHold => 0x10
  | .settleHold => 0x11
  | .cancelHold => 0x12
  | .holdStatus => 0x13
  | .readClock => 0x14
  | .fetchAlert => 0x15
  | .setAlertMask => 0x16
  | .readReport => 0x17
  | .restart => 0x18

/-- Every kind of the catalogue (Table 10-3). -/
def Kind.all : List Kind :=
  [.lookup, .listNext, .openAccount, .closeAccount, .freeze, .thaw, .setClass, .credit,
   .debitAmount, .debitUnits, .setLimits, .quote, .setTariff, .readTariff, .openHold, .extendHold,
   .settleHold, .cancelHold, .holdStatus, .readClock, .fetchAlert, .setAlertMask, .readReport, .restart]

/-- The known kind of a kind byte; 00h and 19h to FFh are unknown kinds (R162). -/
def Kind.ofCode (b : Byte) : Option Kind := Kind.all.find? (fun k => k.code == b)

/-- The request length of a kind (Table 12-1). -/
def Kind.requestLength : Kind → Nat
  | .lookup => 8
  | .listNext => 8
  | .openAccount => 21
  | .closeAccount => 8
  | .freeze => 8
  | .thaw => 8
  | .setClass => 9
  | .credit => 12
  | .debitAmount => 12
  | .debitUnits => 10
  | .setLimits => 16
  | .quote => 7
  | .setTariff => 13
  | .readTariff => 5
  | .openHold => 14
  | .extendHold => 8
  | .settleHold => 8
  | .cancelHold => 6
  | .holdStatus => 6
  | .readClock => 4
  | .fetchAlert => 5
  | .setAlertMask => 5
  | .readReport => 4
  | .restart => 4

/-- The response length of a kind, whatever the status (Table 12-1, R162). -/
def Kind.responseLength : Kind → Nat
  | .lookup => 34
  | .listNext => 9
  | .openAccount => 6
  | .closeAccount => 9
  | .freeze => 5
  | .thaw => 5
  | .setClass => 5
  | .credit => 9
  | .debitAmount => 9
  | .debitUnits => 13
  | .setLimits => 5
  | .quote => 21
  | .setTariff => 5
  | .readTariff => 16
  | .openHold => 11
  | .extendHold => 13
  | .settleHold => 26
  | .cancelHold => 13
  | .holdStatus => 44
  | .readClock => 9
  | .fetchAlert => 21
  | .setAlertMask => 6
  | .readReport => 30
  | .restart => 5

/-- The kinds marked Service in the request catalogue (Table 10-3). -/
def Kind.serviceOnly : Kind → Bool
  | .openAccount | .closeAccount | .freeze | .thaw | .setClass | .credit | .setLimits | .setTariff
  | .restart => true
  | .lookup | .listNext | .debitAmount | .debitUnits | .quote | .readTariff | .openHold | .extendHold
  | .settleHold | .cancelHold | .holdStatus | .readClock | .fetchAlert | .setAlertMask | .readReport => false

/-- The kinds marked "may" in the commit column of the request catalogue (Table 10-3), which are the kinds
refused SUPPLY_LOW in a LOW period (R132). -/
def Kind.mayCommit : Kind → Bool
  | .openAccount | .closeAccount | .freeze | .thaw | .setClass | .credit | .debitAmount | .debitUnits
  | .setLimits | .setTariff | .settleHold => true
  | .lookup | .listNext | .quote | .readTariff | .openHold | .extendHold | .cancelHold | .holdStatus
  | .readClock | .fetchAlert | .setAlertMask | .readReport | .restart => false

/-- The code of a status (Table 12-2). -/
def Status.code : Status → Byte
  | .ok => 0x00
  | .capped => 0x01
  | .noAccount => 0x02
  | .duplicateKey => 0x03
  | .tableFull => 0x04
  | .noSpace => 0x05
  | .accountBusy => 0x06
  | .frozen => 0x07
  | .faulted => 0x08
  | .insufficient => 0x09
  | .overCeiling => 0x0A
  | .badValue => 0x0B
  | .badClass => 0x0C
  | .holdsFull => 0x0D
  | .noSuchHold => 0x0E
  | .holdLapsed => 0x0F
  | .notOwner => 0x10
  | .tooLong => 0x11
  | .holdsOpen => 0x12
  | .notPermitted => 0x13
  | .badRequest => 0x14
  | .supplyLow => 0x15
  | .storeFault => 0x16
  | .restarting => 0x17
  | .alertEmpty => 0x18

/-! ## Value encodings (Table 12-2) -/

/-- The code of an account state (Table 12-2). -/
def AccountState.code : AccountState → Byte
  | .vacant => 0
  | .opening => 1
  | .active => 2
  | .frozen => 3
  | .faulted => 4
  | .closing => 5

/-- The code of an owner port (Table 12-2). -/
def portCode : Port → Byte
  | .terminal => 0
  | .service => 1

/-- The code of a class state (Table 12-2). -/
def ClassState.code : ClassState → Byte
  | .undefined => 0
  | .defined => 1

/-- The code of an alert kind (Table 12-2). -/
def AlertKind.code : AlertKind → Byte
  | .creditExhausted => 1
  | .storeFault => 2
  | .sparesExhausted => 3
  | .supplyLow => 4
  | .lowCredit => 5
  | .holdLapsed => 6
  | .pairRetired => 7
  | .supplyRestored => 8

/-- The urgency a kind fixes: set when URGENT (Table 9-1). -/
def AlertKind.urgent : AlertKind → Bool
  | .creditExhausted | .storeFault | .sparesExhausted | .supplyLow => true
  | .lowCredit | .holdLapsed | .pairRetired | .supplyRestored => false

/-- Form, number and key of a subject: one byte, two bytes, four bytes (Table 12-2 and the list after Table 12-1:
slot, or entry number in the high byte and generation in the low byte, or class, or pair; the key is 0 for a class,
a pair or no subject). -/
def AlertSubject.bytes : AlertSubject → List Byte
  | .none => 0 :: natHalf 0 ++ wordBytes 0
  | .account slot key => 1 :: natHalf slot.val ++ wordBytes key
  | .hold entry generation key => 2 :: [natByte entry.val, generation] ++ wordBytes key
  | .cls n => 3 :: natHalf n.val ++ wordBytes 0
  | .pair n => 4 :: natHalf n.val ++ wordBytes 0

/-- The code of a mask (Table 12-2). -/
def AlertMask.code : AlertMask → Byte
  | .none => 0
  | .urgent => 1
  | .all => 2

/-- The mask of a code; other values are BAD_VALUE (Table 12-2, R146). -/
def AlertMask.ofCode (b : Byte) : Option AlertMask :=
  if b = 0 then some .none else if b = 1 then some .urgent else if b = 2 then some .all else none

/-- The code of a reset kind (Table 12-2). -/
def ResetKind.code : ResetKind → Byte
  | .powerOn => 1
  | .resetLine => 2
  | .restart => 3

/-! ## Response bodies (Table 12-1) -/

/-- The body of a HOLD_STATUS response (R75, Table 12-1): the slot reads 0 for LAPSED, charge and residual read 0
outside SETTLING, the lapsed second reads 0 outside LAPSED. -/
def holdBody (code : Byte) (h : Hold) (slot : Byte) (charge residual lapsed : Word) : List Byte :=
  code :: wordBytes h.key ++ [slot, portCode h.owner] ++ wordBytes h.amount ++ ratesBytes h.rates
    ++ wordBytes h.opened ++ wordBytes h.deadline ++ wordBytes charge ++ wordBytes residual ++ wordBytes lapsed

/-- The body of a READ_REPORT response (R124, Table 12-1). -/
def reportBody (r : Report) (free worn accounts holds : Nat) : List Byte :=
  r.resetKind.code :: natHalf r.accountsLoaded ++ natHalf r.tornCopies ++ natHalf r.duplicateKeys
    ++ natHalf r.pairsTidied ++ natHalf r.tidyFailures ++ natHalf r.wornCount ++ natHalf r.freeCount
    ++ natHalf r.excessAccounts ++ [natByte r.classesDefined] ++ natHalf free ++ natHalf worn
    ++ natHalf accounts ++ [natByte holds]

/-- The body of a response whose kind has a body of `len` bytes (Table 12-1). `zeros` fills every field with 0
(R162). -/
def Figures.bytes (len : Nat) : Figures → List Byte
  | .zeros => List.replicate len 0
  | .lookup f => natByte f.slot.val :: f.state.code :: natByte f.cls.val :: wordBytes f.balance
      ++ flagByte f.pendingBalance.isSome :: wordBytes (f.pendingBalance.getD 0) ++ wordBytes f.heldTotal
      ++ wordBytes f.spendable ++ wordBytes f.ceiling ++ wordBytes f.threshold ++ [natByte f.holdCount]
  | .word w => wordBytes w
  | .slot n => [natByte n.val]
  | .debit charge newBalance => wordBytes charge ++ wordBytes newBalance
  | .quote feePart tier1Part tier2Part charge =>
      wordBytes feePart ++ wordBytes tier1Part ++ wordBytes tier2Part ++ wordBytes charge
  | .tariff state rates pendingPresent storeFault =>
      state.code :: ratesBytes rates ++ [flagByte pendingPresent, flagByte storeFault]
  | .handle entry generation deadline => [natByte entry.val, generation] ++ wordBytes deadline
  | .extend deadline amount => wordBytes deadline ++ wordBytes amount
  | .settle charge capped excess newBalance amount deadline =>
      wordBytes charge ++ flagByte capped :: wordBytes excess ++ wordBytes newBalance ++ wordBytes amount
        ++ wordBytes deadline
  | .release amount deadline => wordBytes amount ++ wordBytes deadline
  | .hold .free => List.replicate len 0
  | .hold (.open h) => holdBody 1 h (natByte h.slot.val) 0 0 0
  | .hold (.settling h charge residual) => holdBody 2 h (natByte h.slot.val) charge residual 0
  | .hold (.lapsed h second) => holdBody 3 h 0 0 0 second
  | .alert e lost left =>
      e.kind.code :: flagByte e.kind.urgent :: e.subject.bytes ++ wordBytes e.firstRaised
        ++ [e.occurrences, flagByte lost, natByte left]
  | .noAlert lost entries => List.replicate 14 0 ++ [flagByte lost, natByte entries]
  | .mask previous => [previous.code]
  | .report r free worn accounts holds => reportBody r free worn accounts holds

/-- The length of a response's body: Table 12-1's for a known kind, none for an unknown kind (R162). -/
def bodyLength (kind : Byte) : Nat :=
  match Kind.ofCode kind with
  | some k => k.responseLength - 5
  | none => 0

/-- A frame from the bytes between its length byte and its CRC-8: the length counts every byte of the frame,
itself and the CRC-8 included, and the CRC-8 covers every byte before it (R162, R155). -/
def frameOf (inner : List Byte) : List Byte :=
  let covered := natByte (inner.length + 2) :: inner
  covered ++ [crc8 covered]

/-- A request frame: length, tag, kind, body, CRC-8 (R162). -/
def requestFrame (tag kind : Byte) (body : List Byte) : List Byte := frameOf (tag :: kind :: body)

/-- The response frame of a response: length, tag, kind, status, body, CRC-8 (R162). -/
def responseFrame (r : Response) : List Byte :=
  frameOf (r.tag :: r.kind :: r.status.code :: r.figures.bytes (bodyLength r.kind))

/-- The empty frame, 04h 00h 00h ABh: length, tag 0, kind NONE, CRC-8 (R162). -/
def emptyFrame : List Byte := [0x04, 0x00, 0x00, 0xAB]

/-! ## Cell copies (R164, R99) -/

/-- The 18 bytes of a body, in order. -/
def bodyBytes (b : BitVec 144) : List Byte := (List.range 18).map (fun i => b.extractLsb' (8 * (17 - i)) 8)

/-- The 27 bytes the CRC-16 covers (R164). -/
def coveredBytes (c : Copy) : List Byte :=
  c.kind :: wordBytes c.sequence ++ wordBytes c.wear ++ bodyBytes c.body

/-- The CRC-16 of a copy checks (R99, R164). -/
def checkPasses (c : Copy) : Bool := crc16 (coveredBytes c) == c.check

/-- The three classes of a copy when it is read (R99). -/
inductive CopyClass where
  | valid | blank | torn
  deriving DecidableEq, Repr

/-- The kind codes of a copy: ACCOUNT, TARIFF, EMPTY (R164). -/
def knownCopyKind (b : Byte) : Bool := b == 1 || b == 2 || b == 3

/-- The class of a copy (R99): blank when every cell is erased; valid when it is not blank, its CRC-16 checks, its
kind is known and its sequence is 1 or more; torn otherwise. -/
def classify (c : Copy) : CopyClass :=
  if c = blankCopy then .blank
  else if knownCopyKind c.kind && decide (c.sequence ≠ 0) && checkPasses c then .valid
  else .torn

/-- The byte written for a frozen mark: 00h clear; for set, 01h (log 20: any non-zero byte reads as set). -/
def frozenByte (b : Bool) : Byte := flagByte b

/-- The kind byte of an image (R164). -/
def Image.kindByte : Image → Byte
  | .account .. => 1
  | .tariff _ => 2
  | .empty _ => 3

/-- The body of an image, most significant byte first, filler bytes 00h (R164). An EMPTY image with no key
carries 00000000h. -/
def Image.body : Image → BitVec 144
  | .account key cls frozenMark balance ceiling threshold =>
      key ++ BitVec.ofNat 8 cls.val ++ frozenByte frozenMark ++ balance ++ ceiling ++ threshold
  | .tariff r => r.fee ++ r.boundary ++ r.rate1 ++ r.rate2 ++ (0 : BitVec 80)
  | .empty key => key.getD 0 ++ (0 : BitVec 112)

/-- The copy an attempt programs: the image's kind and body, the settled sequence, the pair's new wear and the
CRC-16 (R84). -/
def programmedCopy (image : Image) (sequence wear : Word) : Copy :=
  let c : Copy := ⟨image.kindByte, sequence, wear, image.body, 0⟩
  ⟨c.kind, c.sequence, c.wear, c.body, crc16 (coveredBytes c)⟩

/-- Fields of an ACCOUNT or EMPTY body (R164). -/
def bodyKey (b : BitVec 144) : Word := b.extractLsb' 112 32
/-- The class byte of an ACCOUNT body (R164). -/
def bodyClass (b : BitVec 144) : Byte := b.extractLsb' 104 8
/-- The frozen mark of an ACCOUNT body: 00h reads as clear, any other value as set (R164). -/
def bodyFrozen (b : BitVec 144) : Bool := b.extractLsb' 96 8 != 0
/-- The balance of an ACCOUNT body (R164). -/
def bodyBalance (b : BitVec 144) : Word := b.extractLsb' 64 32
/-- The ceiling of an ACCOUNT body (R164). -/
def bodyCeiling (b : BitVec 144) : Word := b.extractLsb' 32 32
/-- The threshold of an ACCOUNT body (R164). -/
def bodyThreshold (b : BitVec 144) : Word := b.extractLsb' 0 32
/-- The four values of a TARIFF body (R164). -/
def bodyRates (b : BitVec 144) : Rates :=
  ⟨b.extractLsb' 128 16, b.extractLsb' 112 16, b.extractLsb' 96 16, b.extractLsb' 80 16⟩

/-- Every field of a body read back equals the image's field; filler bytes take no part (R84, R164). -/
def Image.matchesBody (b : BitVec 144) : Image → Bool
  | .account key cls frozenMark balance ceiling threshold =>
      bodyKey b == key && bodyClass b == BitVec.ofNat 8 cls.val && bodyFrozen b == frozenMark
        && bodyBalance b == balance && bodyCeiling b == ceiling && bodyThreshold b == threshold
  | .tariff r => bodyRates b == r
  | .empty key => bodyKey b == key.getD 0

/-- The verify of an attempt: the CRC-16 of the copy read back checks and every field read back equals the field
programmed (R84). -/
def verifyPasses (image : Image) (sequence wear : Word) (c : Copy) : Bool :=
  checkPasses c && c.kind == image.kindByte && c.sequence == sequence && c.wear == wear
    && image.matchesBody c.body

end Sys2Proof.Machine
end

