-- ==== Sys2Proof/Machine/Tables.lean ====
section
/-! DEFINITION. Tables: the one way to read and to write each numbered table of State. -/

namespace Sys2Proof.Machine

/-- A table of `n` records given record by record. -/
def tabulate {α : Type} {n : Nat} (f : Fin n → α) : Vector α n :=
  ⟨⟨List.ofFn f⟩, by simp⟩

/-- Slot `i` of the account table (R1). -/
def State.slot (s : State) (i : SlotNo) : Slot := s.slots.get i

/-- The state with slot `i` replaced. -/
def State.setSlot (s : State) (i : SlotNo) (v : Slot) : State :=
  { s with slots := s.slots.set i.val v i.isLt }

/-- Entry `n` of the hold table (R55). -/
def State.hold (s : State) (n : HoldNo) : HoldEntry := s.holds.get n

/-- The state with hold entry `n` replaced. -/
def State.setHold (s : State) (n : HoldNo) (v : HoldEntry) : State :=
  { s with holds := s.holds.set n.val v n.isLt }

/-- The record of class `n` (R39). -/
def State.tariff (s : State) (n : ClassNo) : TariffClass := s.tariffs.get n

/-- The state with the record of class `n` replaced. -/
def State.setTariff (s : State) (n : ClassNo) (v : TariffClass) : State :=
  { s with tariffs := s.tariffs.set n.val v n.isLt }

/-- The pair table record of account pair `p` (R104). -/
def State.pair (s : State) (p : PairNo) : PairRecord := s.accountPairs.get p

/-- The state with the record of account pair `p` replaced. -/
def State.setPair (s : State) (p : PairNo) (v : PairRecord) : State :=
  { s with accountPairs := s.accountPairs.set p.val v p.isLt }

/-- The state with the role of account pair `p` replaced (R104). -/
def State.setRole (s : State) (p : PairNo) (r : PairRole) : State :=
  s.setPair p { s.pair p with role := some r }

/-- Wear, newest copy and newest sequence of any pair (R104). -/
def State.track (s : State) : PairId → PairTrack
  | .account p => (s.pair p).track
  | .tariff n => s.tariffPairs.get n

/-- The state with wear, newest copy and newest sequence of a pair replaced. -/
def State.setTrack (s : State) (p : PairId) (t : PairTrack) : State :=
  match p with
  | .account p => s.setPair p { s.pair p with track := t }
  | .tariff n => { s with tariffPairs := s.tariffPairs.set n.val t n.isLt }

/-- One copy of a cell pair. -/
def CellPair.copy (c : CellPair) : CopyName → Copy
  | .a => c.a
  | .b => c.b

/-- A cell pair with one copy replaced. -/
def CellPair.setCopy (c : CellPair) (n : CopyName) (v : Copy) : CellPair :=
  match n with
  | .a => { c with a := v }
  | .b => { c with b := v }

/-- The cells of a pair (R98). -/
def State.cells (s : State) : PairId → CellPair
  | .account p => s.accountCells.get p
  | .tariff n => s.tariffCells.get n

/-- The state with one copy of a pair's cells replaced; a copy changes only when it is programmed (R98). -/
def State.setCopy (s : State) (p : PairId) (n : CopyName) (v : Copy) : State :=
  match p with
  | .account q => { s with accountCells := s.accountCells.set q.val ((s.accountCells.get q).setCopy n v) q.isLt }
  | .tariff q => { s with tariffCells := s.tariffCells.set q.val ((s.tariffCells.get q).setCopy n v) q.isLt }

/-- What a port holds. -/
def State.port (s : State) : Port → PortState
  | .terminal => s.terminal
  | .service => s.service

/-- The state with one port's record replaced. -/
def State.setPort (s : State) (p : Port) (v : PortState) : State :=
  match p with
  | .terminal => { s with terminal := v }
  | .service => { s with service := v }

/-- The state with the head of the commit queue replaced. -/
def State.setHead (s : State) (e : CommitEntry) : State :=
  { s with commitQueue := e :: s.commitQueue.tail }

/-- The state with the head of the commit queue gone (R78). -/
def State.leaveHead (s : State) : State := { s with commitQueue := s.commitQueue.tail }

end Sys2Proof.Machine
end

