-- ==== Sys2Proof/Machine/Operands.lean ====
section
/-! DEFINITION. Operands: the parameters of each request as the bytes of its body (Table 12-1), the command an
UNTAKEN request stands for, handles, keys and classes, and the Charge Calculator. -/

namespace Sys2Proof.Machine

/-! ## Request bodies (Table 12-1) -/

/-- The body of a request that names a key alone: LOOKUP, LIST_NEXT, CLOSE_ACCOUNT, FREEZE, THAW. -/
def keyBody (key : Word) : List Byte := wordBytes key

/-- The body of OPEN_ACCOUNT. -/
def openAccountBody (key : Word) (cls : Byte) (initial ceiling threshold : Word) : List Byte :=
  wordBytes key ++ cls :: wordBytes initial ++ wordBytes ceiling ++ wordBytes threshold

/-- The body of SET_CLASS. -/
def keyClassBody (key : Word) (cls : Byte) : List Byte := wordBytes key ++ [cls]

/-- The body of CREDIT and DEBIT_AMOUNT. -/
def keyAmountBody (key amount : Word) : List Byte := wordBytes key ++ wordBytes amount

/-- The body of DEBIT_UNITS. -/
def keyUnitsBody (key : Word) (units : Half) : List Byte := wordBytes key ++ halfBytes units

/-- The body of SET_LIMITS. -/
def limitsBody (key ceiling threshold : Word) : List Byte :=
  wordBytes key ++ wordBytes ceiling ++ wordBytes threshold

/-- The body of QUOTE. -/
def quoteBody (cls : Byte) (units : Half) : List Byte := cls :: halfBytes units

/-- The body of SET_TARIFF. -/
def tariffBody (cls : Byte) (rates : Rates) : List Byte := cls :: ratesBytes rates

/-- The body of OPEN_HOLD. -/
def openHoldBody (key amount : Word) (duration : Half) : List Byte :=
  wordBytes key ++ wordBytes amount ++ halfBytes duration

/-- The body of EXTEND_HOLD and SETTLE_HOLD. -/
def handleHalfBody (handle : Handle) (h : Half) : List Byte := handleBytes handle ++ halfBytes h

/-- The command of an UNTAKEN request of port `p`: its kind's row with the parameters of its body (Table 12-1),
or BAD_REQUEST for a kind outside the catalogue (R152). -/
def commandOf (p : Port) (q : Request) : Instr :=
  let b := q.parameters
  match Kind.ofCode q.kind with
  | some .lookup => .lookup p q.tag (wordAt b 0)
  | some .listNext => .listNext p q.tag (wordAt b 0)
  | some .openAccount => .openAccount p q.tag (wordAt b 0) (byteAt b 4) (wordAt b 5) (wordAt b 9) (wordAt b 13)
  | some .closeAccount => .closeAccount p q.tag (wordAt b 0)
  | some .freeze => .freeze p q.tag (wordAt b 0)
  | some .thaw => .thaw p q.tag (wordAt b 0)
  | some .setClass => .setClass p q.tag (wordAt b 0) (byteAt b 4)
  | some .credit => .credit p q.tag (wordAt b 0) (wordAt b 4)
  | some .debitAmount => .debitAmount p q.tag (wordAt b 0) (wordAt b 4)
  | some .debitUnits => .debitUnits p q.tag (wordAt b 0) (halfAt b 4)
  | some .setLimits => .setLimits p q.tag (wordAt b 0) (wordAt b 4) (wordAt b 8)
  | some .quote => .quote p q.tag (byteAt b 0) (halfAt b 1)
  | some .setTariff => .setTariff p q.tag (byteAt b 0) (ratesAt b 1)
  | some .readTariff => .readTariff p q.tag (byteAt b 0)
  | some .openHold => .openHold p q.tag (wordAt b 0) (wordAt b 4) (halfAt b 8)
  | some .extendHold => .extendHold p q.tag (handleAt b 0) (halfAt b 2)
  | some .settleHold => .settleHold p q.tag (handleAt b 0) (halfAt b 2)
  | some .cancelHold => .cancelHold p q.tag (handleAt b 0)
  | some .holdStatus => .holdStatus p q.tag (handleAt b 0)
  | some .readClock => .readClock p q.tag
  | some .fetchAlert => .fetchAlert p q.tag (byteAt b 0)
  | some .setAlertMask => .setAlertMask p q.tag (byteAt b 0)
  | some .readReport => .readReport p q.tag
  | some .restart => .restart p q.tag
  | none => .badRequest p q.tag q.kind b

/-- The request a request command stands for, as it waits UNTAKEN in its port's window (R148): port, and tag, kind
byte and body. The commands that are no request have none. -/
def requestOf : Instr → Option (Port × Request)
  | .lookup p t key => some (p, ⟨t, Kind.lookup.code, keyBody key, .untaken⟩)
  | .listNext p t key => some (p, ⟨t, Kind.listNext.code, keyBody key, .untaken⟩)
  | .openAccount p t key cls initial ceiling threshold =>
      some (p, ⟨t, Kind.openAccount.code, openAccountBody key cls initial ceiling threshold, .untaken⟩)
  | .closeAccount p t key => some (p, ⟨t, Kind.closeAccount.code, keyBody key, .untaken⟩)
  | .freeze p t key => some (p, ⟨t, Kind.freeze.code, keyBody key, .untaken⟩)
  | .thaw p t key => some (p, ⟨t, Kind.thaw.code, keyBody key, .untaken⟩)
  | .setClass p t key cls => some (p, ⟨t, Kind.setClass.code, keyClassBody key cls, .untaken⟩)
  | .credit p t key amount => some (p, ⟨t, Kind.credit.code, keyAmountBody key amount, .untaken⟩)
  | .debitAmount p t key amount => some (p, ⟨t, Kind.debitAmount.code, keyAmountBody key amount, .untaken⟩)
  | .debitUnits p t key units => some (p, ⟨t, Kind.debitUnits.code, keyUnitsBody key units, .untaken⟩)
  | .setLimits p t key ceiling threshold =>
      some (p, ⟨t, Kind.setLimits.code, limitsBody key ceiling threshold, .untaken⟩)
  | .quote p t cls units => some (p, ⟨t, Kind.quote.code, quoteBody cls units, .untaken⟩)
  | .readTariff p t cls => some (p, ⟨t, Kind.readTariff.code, [cls], .untaken⟩)
  | .setTariff p t cls rates => some (p, ⟨t, Kind.setTariff.code, tariffBody cls rates, .untaken⟩)
  | .openHold p t key amount duration =>
      some (p, ⟨t, Kind.openHold.code, openHoldBody key amount duration, .untaken⟩)
  | .extendHold p t handle seconds =>
      some (p, ⟨t, Kind.extendHold.code, handleHalfBody handle seconds, .untaken⟩)
  | .settleHold p t handle units => some (p, ⟨t, Kind.settleHold.code, handleHalfBody handle units, .untaken⟩)
  | .cancelHold p t handle => some (p, ⟨t, Kind.cancelHold.code, handleBytes handle, .untaken⟩)
  | .holdStatus p t handle => some (p, ⟨t, Kind.holdStatus.code, handleBytes handle, .untaken⟩)
  | .readClock p t => some (p, ⟨t, Kind.readClock.code, [], .untaken⟩)
  | .fetchAlert p t filter => some (p, ⟨t, Kind.fetchAlert.code, [filter], .untaken⟩)
  | .setAlertMask p t mask => some (p, ⟨t, Kind.setAlertMask.code, [mask], .untaken⟩)
  | .readReport p t => some (p, ⟨t, Kind.readReport.code, [], .untaken⟩)
  | .restart p t => some (p, ⟨t, Kind.restart.code, [], .untaken⟩)
  | .badRequest p t kind body => some (p, ⟨t, kind, body, .untaken⟩)
  | .submit _ | .collect _ | .status _ _ | .voidTransaction _ | .i2cWrite _ _ | .i2cRead _ _
  | .secondTick | .firstProgram | .attemptComplete _ | .supplyRise | .supplyRipple | .changeToLow
  | .changeToGood | .supplyCollapse _ | .resetLine _ | .resetEnd _ _ | .scan | .collectionWaitExpiry => none

/-! ## What a request names -/

/-- The slot of a key in the key index (R7). The part finds it by binary search; on an ordered index the answer is
the same (log 17). -/
def findKey (s : State) (key : Word) : Option SlotNo :=
  (s.keyIndex.find? (fun e => e.1 == key)).map (·.2)

/-- A class byte as a class, none above 15. -/
def classOf (cls : Byte) : Option ClassNo :=
  if h : cls.toNat < 16 then some ⟨cls.toNat, h⟩ else none

/-- The class of a class byte when it lies within 0 to 15 and its committed tariff state is DEFINED (R41). -/
def definedClass (s : State) (cls : Byte) : Option ClassNo :=
  match classOf cls with
  | none => none
  | some n => if (s.tariff n).state = .defined then some n else none

/-- The hold of a hold state, in the states that have one (R55). -/
def HoldState.hold? : HoldState → Option Hold
  | .free => none
  | .open h => some h
  | .settling h _ _ => some h
  | .lapsed h _ => some h

/-- The entry a handle resolves to (R56): entry number 0 to 31, the entry's generation, and the entry not FREE. -/
def resolve (s : State) (h : Handle) : Option HoldNo :=
  if b : h.entry.toNat < 32 then
    let n : HoldNo := ⟨h.entry.toNat, b⟩
    if (s.hold n).generation = h.generation ∧ (s.hold n).state ≠ .free then some n else none
  else none

/-! ## The Charge Calculator (R42) -/

/-- The tier 1 part: the lower of the units and the boundary, times rate 1. -/
def tier1Part (r : Rates) (units : Half) : Nat := min units.toNat r.boundary.toNat * r.rate1.toNat

/-- The tier 2 part: the units above the boundary, times rate 2. -/
def tier2Part (r : Rates) (units : Half) : Nat := (units.toNat - r.boundary.toNat) * r.rate2.toNat

/-- The charge: fee part plus tier 1 part plus tier 2 part, formed in full (R42, R43). -/
def charge (r : Rates) (units : Half) : Nat := r.fee.toNat + tier1Part r units + tier2Part r units

/-- A figure of credit units as a 32-bit field. Every figure the part forms fits (R23, R24, R43). -/
def asWord (n : Nat) : Word := BitVec.ofNat 32 n

end Sys2Proof.Machine
end

