-- ==== Sys2Proof/Machine/Flags.lean ====
section
/-! DEFINITION. Flags: everything worked out from the state rather than stored: held total and spendable amount,
the two account conditions, urgency and masks, the four lines and the port status byte. -/

namespace Sys2Proof.Machine

/-! ## Held total and spendable amount (R22, R23) -/

/-- What a hold entry adds to the held total of slot `i`: the amount of an OPEN hold, the residual of a SETTLING
hold, nothing else (R22). -/
def heldBy (i : SlotNo) (e : HoldEntry) : Nat :=
  match e.state with
  | .free => 0
  | .open h => if h.slot = i then h.amount.toNat else 0
  | .settling h _ residual => if h.slot = i then residual.toNat else 0
  | .lapsed _ _ => 0

/-- The held total of slot `i` (R22). -/
def heldTotal (s : State) (i : SlotNo) : Nat := (s.holds.toList.map (heldBy i)).sum

/-- The entry holds an OPEN or SETTLING hold on slot `i`. -/
def standsOn (i : SlotNo) (e : HoldEntry) : Bool :=
  match e.state with
  | .free => false
  | .open h => h.slot == i
  | .settling h _ _ => h.slot == i
  | .lapsed _ _ => false

/-- The number of holds on slot `i` that are OPEN or SETTLING (R8). -/
def holdCount (s : State) (i : SlotNo) : Nat := s.holds.toList.countP (standsOn i)

/-- The lower of the committed and the pending balance, or the committed balance where no image is pending (R23). -/
def lowerBalance (v : Slot) : Nat :=
  match v.pending with
  | none => v.balance.toNat
  | some img => min v.balance.toNat img.balance.toNat

/-- The spendable amount of slot `i`: the lower balance less the held total (R23). -/
def spendable (s : State) (i : SlotNo) : Nat := lowerBalance (s.slot i) - heldTotal s i

/-! ## The account conditions (R32) -/

/-- The low-credit condition: the threshold is above 0 and the spendable amount is below it (R32). -/
def lowCreditHolds (threshold : Word) (spend : Nat) : Bool := decide (0 < threshold.toNat ∧ spend < threshold.toNat)

/-- The exhausted condition: the spendable amount is 0 (R32). -/
def exhaustedHolds (spend : Nat) : Bool := decide (spend = 0)

/-! ## Alerts, masks and lines (R138, R146, R147, R160) -/

/-- The urgency of an entry is that of its kind (R138). -/
def AlertEntry.urgent (e : AlertEntry) : Bool := e.kind.urgent

/-- The entries a mask admits (Table 9-2). -/
def AlertMask.admits : AlertMask → AlertEntry → Bool
  | .none, _ => false
  | .urgent, e => e.urgent
  | .all, _ => true

/-- A port's ALERT line, T_ALERT or S_ALERT: asserted while the queue holds an entry the port's mask admits, and
deasserted throughout a reset (R147). -/
def alertLine (s : State) (p : Port) : Bool := !s.inReset && s.alerts.any (s.port p).mask.admits

/-- A port's RDY line, T_RDY or S_RDY: asserted while the port's response queue is not empty, and deasserted
throughout a reset (R160). -/
def rdyLine (s : State) (p : Port) : Bool := !s.inReset && !(s.port p).responses.isEmpty

/-! ## The port status byte (R154, R163) -/

/-- The phase-and-supply index of Table 12-3. STARTING has one index, as the supply is LOW throughout it. -/
def phaseIndex : Phase → Supply → Nat
  | .starting, _ => 0
  | .scanning, .good => 1
  | .scanning, .low => 2
  | .tidying, .good => 3
  | .tidying, .low => 4
  | .open, .good => 5
  | .open, .low => 6
  | .restarting, .good => 7
  | .restarting, .low => 8

/-- The submit outcome code of Table 12-3. -/
def SubmitOutcome.code : SubmitOutcome → Nat
  | .none => 0
  | .accepted => 1
  | .windowFull => 2
  | .duplicateTag => 3
  | .frameError => 4
  | .notReady => 5

/-- The condition code 6 × P + O (R163). -/
def conditionCode (s : State) (p : Port) : Nat := 6 * phaseIndex s.phase s.supply + (s.port p).outcome.code

/-- The port status byte: bit 7 response ready, bit 6 alert, bits 5 to 0 the condition code (R163). -/
def portStatus (s : State) (p : Port) : Byte :=
  BitVec.ofNat 8 ((if rdyLine s p then 128 else 0) + (if alertLine s p then 64 else 0) + conditionCode s p)

end Sys2Proof.Machine
end

