-- ==== Sys2Proof/Machine/Ops.lean ====
section
/-! DEFINITION. Ops: the operations the meanings share: taking and answering requests, raising alerts, re-evaluating
the indicators, the key index, the pair table with its free list and worn set, the commit queue's tail, tidying, and
the reset. -/

namespace Sys2Proof.Machine

/-! ## Taking, refusing and answering requests (R149 to R152) -/

/-- A port's candidate: its UNTAKEN request with the earliest acceptance order (R151). -/
def candidate (s : State) (p : Port) : Option Request :=
  (s.port p).window.find? (fun q => decide (q.state = .untaken))

/-- The other port. -/
def otherPort : Port → Port
  | .terminal => .service
  | .service => .terminal

/-- The request the Arbiter hands over next: only in phase OPEN; the candidate of the port that is not the last
served where both ports have one, and else the one port's candidate (R151). -/
def arbiterChoice (s : State) : Option (Port × Request) :=
  if s.inReset = true ∨ s.phase ≠ .open then none
  else
    match candidate s (otherPort s.lastServed) with
    | some q => some (otherPort s.lastServed, q)
    | none => (candidate s s.lastServed).map (fun q => (s.lastServed, q))

/-- A taking: where the Arbiter hands over exactly this request, last served becomes its port and the Table Engine
evaluates it (R151); where it does not, no such taking occurs and nothing changes (log 1). -/
def taking (p : Port) (q : Request) (s : State) (evaluate : State → State) : State :=
  if arbiterChoice s = some (p, q) then evaluate { s with lastServed := p } else s

/-- Marks the request with a tag in a window (R149). -/
def markRequest (tag : Byte) (st : RequestState) (window : List Request) : List Request :=
  window.map (fun q => if q.tag = tag then { q with state := st } else q)

/-- Places a response: it joins the tail of the port's response queue and its request becomes ANSWERED
(R149, R150). -/
def answerCode (p : Port) (tag kind : Byte) (st : Status) (f : Figures) (s : State) : State :=
  let v := s.port p
  s.setPort p { v with
    responses := v.responses ++ [⟨tag, kind, st, f⟩],
    window := markRequest tag .answered v.window }

/-- Places a response to a request of a known kind. -/
def answer (p : Port) (tag : Byte) (k : Kind) (st : Status) (f : Figures) (s : State) : State :=
  answerCode p tag k.code st f s

/-- Defers the response: the request becomes TAKEN (R6, R149). -/
def defer (p : Port) (tag : Byte) (s : State) : State :=
  let v := s.port p
  s.setPort p { v with window := markRequest tag .taken v.window }

/-- Steps 1 and 2 of the order of refusals: NOT_PERMITTED for a Service kind from the Terminal Port, SUPPLY_LOW for
a kind that may need a commit while the supply is LOW (R152, R132). -/
def admission (k : Kind) (p : Port) (s : State) : Option Status :=
  if k.serviceOnly && decide (p = .terminal) then some .notPermitted
  else if k.mayCommit && decide (s.supply = .low) then some .supplyLow
  else none

/-- What a verdict leads to: a refusal is answered at once with every figure 0, an acceptance goes on (R5, R152). -/
def serve {α : Type} (p : Port) (tag : Byte) (k : Kind) (verdict : Except Status α) (accept : α → State → State)
    (s : State) : State :=
  match verdict with
  | .error st => answer p tag k st .zeros s
  | .ok a => accept a s

/-! ## Alerts (R140 to R142) -/

/-- The entry is of this kind and subject. -/
def AlertEntry.concerns (k : AlertKind) (sub : AlertSubject) (e : AlertEntry) : Bool :=
  e.kind == k && e.subject == sub

/-- One more occurrence, which stops at 255 (R140). -/
def AlertEntry.again (e : AlertEntry) : AlertEntry :=
  if e.occurrences.toNat < Config.maxOccurrences then { e with occurrences := e.occurrences + 1 } else e

/-- A new entry's place (R141): URGENT directly after the last URGENT entry, ROUTINE at the tail. -/
def joinAlert (e : AlertEntry) (q : List AlertEntry) : List AlertEntry :=
  if e.urgent then q.takeWhile AlertEntry.urgent ++ e :: q.dropWhile AlertEntry.urgent else q ++ [e]

/-- One raise (R140 to R142): it coalesces, or joins, or displaces the youngest ROUTINE entry, or is discarded. -/
def raiseAlert (k : AlertKind) (sub : AlertSubject) (s : State) : State :=
  let e : AlertEntry := ⟨k, sub, s.seconds, 1⟩
  if s.alerts.any (AlertEntry.concerns k sub) then
    { s with alerts := s.alerts.map (fun x => if x.concerns k sub then x.again else x) }
  else if s.alerts.length < Config.alertPlaces then
    { s with alerts := joinAlert e s.alerts }
  else if k.urgent && s.alerts.any (fun x => !x.urgent) then
    { s with alerts := joinAlert e s.alerts.dropLast, lost := true }
  else
    { s with lost := true }

/-! ## Re-evaluating the indicators (R33 to R35) -/

/-- The subject of an alert about slot `i`: the slot with the key it holds (R138). -/
def accountSubject (i : SlotNo) (v : Slot) : AlertSubject := .account i (v.key.getD 0)

/-- Sets both indicators of slot `i` to the conditions as they hold now (R32). -/
def setIndicators (i : SlotNo) (s : State) : State :=
  s.setSlot i { s.slot i with
    low := lowCreditHolds (s.slot i).threshold (spendable s i),
    exhausted := exhaustedHolds (spendable s i) }

/-- Raises an alert when a condition is crossed into (R33). -/
def raiseIf (c : Bool) (k : AlertKind) (sub : AlertSubject) (s : State) : State :=
  if c then raiseAlert k sub s else s

/-- A re-evaluation of slot `i` (R33): both indicators follow their conditions, and a crossing into a condition
raises its alert, CREDIT_EXHAUSTED first and LOW_CREDIT second (R143). -/
def reevaluate (i : SlotNo) (s : State) : State :=
  let v := s.slot i
  let spend := spendable s i
  raiseIf (lowCreditHolds v.threshold spend && !v.low) .lowCredit (accountSubject i v)
    (raiseIf (exhaustedHolds spend && !v.exhausted) .creditExhausted (accountSubject i v) (setIndicators i s))

/-! ## The key index (R7) -/

/-- A key joins the index at its place in key order. -/
def insertKey (key : Word) (i : SlotNo) : List (Word × SlotNo) → List (Word × SlotNo)
  | [] => [(key, i)]
  | e :: rest => if key.toNat < e.1.toNat then (key, i) :: e :: rest else e :: insertKey key i rest

/-- A key leaves the index. -/
def removeKey (key : Option Word) (index : List (Word × SlotNo)) : List (Word × SlotNo) :=
  index.filter (fun e => decide (some e.1 ≠ key))

/-- Slot `i` becomes VACANT with the values of R1, and its key leaves the key index (R16 to R18). -/
def vacate (i : SlotNo) (s : State) : State :=
  { s.setSlot i Slot.vacant with keyIndex := removeKey (s.slot i).key s.keyIndex }

/-! ## Holds -/

/-- A hold entry becomes FREE, its generation kept (R65, R70, R72, R74). -/
def freeHold (n : HoldNo) (s : State) : State := s.setHold n { s.hold n with state := .free }

/-- A SETTLING hold returns to OPEN as it was before the settle (R73). -/
def reopenHold (n : HoldNo) (s : State) : State :=
  match (s.hold n).state with
  | .settling h _ _ => s.setHold n { s.hold n with state := .open h }
  | .free | .open _ | .lapsed _ _ => s

/-! ## The pair table, the free list and the worn set (R104 to R110) -/

/-- The wear of an account pair. -/
def wearOf (s : State) (p : PairNo) : Nat := (s.pair p).track.wear.toNat

/-- The order of the free list: ascending wear, then ascending pair number (R106). -/
def freeBefore (s : State) (p q : PairNo) : Bool :=
  decide (wearOf s p < wearOf s q ∨ (wearOf s p = wearOf s q ∧ p.val < q.val))

/-- A pair takes its place in the free list (R106, R107). -/
def insertFree (s : State) (p : PairNo) : List PairNo → List PairNo
  | [] => [p]
  | q :: rest => if freeBefore s p q then p :: q :: rest else q :: insertFree s p rest

/-- A pair joins the worn set, kept in ascending number, each pair once (R108, log 28). -/
def insertWorn (p : PairNo) : List PairNo → List PairNo
  | [] => [p]
  | q :: rest =>
      if p.val < q.val then p :: q :: rest else if p = q then q :: rest else q :: insertWorn p rest

/-- A pair becomes WORN and joins the worn set (R108). -/
def retire (p : PairNo) (s : State) : State :=
  { s.setRole p .worn with wornSet := insertWorn p s.wornSet }

/-- The wear of a pair is at or above the limit (R102). -/
def atLimit (s : State) (p : PairNo) : Bool := decide (Config.wearLimit ≤ wearOf s p)

/-- A hand-back (R107): the pair becomes FREE at its place in the free list, or WORN when its wear is at or above
the limit. -/
def handBack (p : PairNo) (s : State) : State :=
  if atLimit s p then retire p s
  else { s.setRole p .free with freeList := insertFree s p s.freeList }

/-- The pairs a hand-back retires: the pair itself at or above the limit (R107). -/
def retiredByHandBack (p : PairNo) (s : State) : List PairNo := if atLimit s p then [p] else []

/-- Two retired pairs in ascending number (R110). -/
def ascending : List PairNo → List PairNo
  | [p, q] => if q.val < p.val then [q, p] else [p, q]
  | l => l

/-- The PAIR_RETIRED alerts of one event, in ascending pair number (R110). -/
def raiseRetired (ps : List PairNo) (s : State) : State :=
  (ascending ps).foldl (fun s p => raiseAlert .pairRetired (.pair p) s) s

/-- A claim takes the head of the free list and gives it its new role (R106). -/
def claim (p : PairNo) (role : PairRole) (s : State) : State :=
  { s.setRole p role with freeList := s.freeList.tail }

/-- SPARES_EXHAUSTED, raised when a claim has left the free list empty (R106), after the other raises of its event
(R110, R143). -/
def raiseSpares (s : State) : State :=
  if s.freeList = [] then raiseAlert .sparesExhausted .none s else s

/-! ## The commit queue's tail (R78) -/

/-- An entry joins at the tail, WAITING (R78). -/
def joinQueue (sub : EntrySubject) (image : Image) (p : Option Port) (tag : Option Byte) (s : State) : State :=
  { s with commitQueue := s.commitQueue ++ [⟨sub, image, p, tag, .waiting⟩] }

/-! ## Tidying and the phase OPEN (R120, R122) -/

/-- TIDYING ends (R122): the phase becomes OPEN and the report takes the WORN and FREE counts (R123). -/
def openPhase (s : State) : State :=
  { s with
    phase := .open,
    report := { s.report with wornCount := s.wornSet.length, freeCount := s.freeList.length } }

/-- The Start-up Controller takes the STALE pairs in ascending number from the given ones (R120): a pair at or above
the wear limit becomes WORN without a program and without an alert; the first other one is handed to the Commit
Engine as a TIDY_EMPTY entry; when none remains, TIDYING ends. -/
def tidyFrom : List PairNo → State → State
  | [], s => openPhase s
  | p :: rest, s =>
    if (s.pair p).role = some .stale then
      if atLimit s p then tidyFrom rest (retire p s)
      else joinQueue (.tidyEmpty p) (.empty none) none none s
    else tidyFrom rest s

/-- The next STALE pair, in phase TIDYING only (R120). -/
def tidyNext (s : State) : State :=
  if s.phase = .tidying then tidyFrom (List.finRange 288) s else s

/-! ## Resets (R113, R95, R126) -/

/-- The inactive copy of a pair: the copy that is not its newest valid copy, or copy A when it has none (R100). -/
def inactiveCopy (t : PairTrack) : CopyName :=
  match t.newest with
  | none => .a
  | some .a => .b
  | some .b => .a

/-- The pair and the copy an entry's attempts program. -/
def Stage.site : Stage → Option (PairId × CopyName)
  | .waiting => none
  | .programming t => some (t.target, t.copy)
  | .relocating _ p c => some (.account p, c)

/-- The program attempt state of a stage. -/
def Stage.attempt : Stage → Option Attempt
  | .waiting => none
  | .programming t => some t
  | .relocating t _ _ => some t

/-- An attempt is under way on the entry. -/
def Stage.underWay (st : Stage) : Bool :=
  match st.attempt with
  | none => false
  | some t => t.underWay

/-- What the copy under program holds after a reset cut its attempt (Table 5-6): a copy given as torn that does not
class as torn counts as the earlier content (log 8). -/
def cutContent (earlier programmed : Copy) : CutResult → Copy
  | .earlier => earlier
  | .blank => blankCopy
  | .torn c => if classify c = .torn then c else earlier
  | .written => programmed

/-- The image an entry's attempt programs, with its settled sequence and the pair's new wear (R84). -/
def entryCopy (e : CommitEntry) (t : Attempt) (p : PairId) (s : State) : Copy :=
  programmedCopy e.image t.sequence (s.track p).wear

/-- A POWER_ON or RESET_LINE reset abandons the attempt under way: only the copy being programmed is left changed
(R95). -/
def abandonAttempt (cut : CutResult) (s : State) : State :=
  match s.commitQueue with
  | [] => s
  | e :: _ =>
    match e.stage.attempt, e.stage.site with
    | some t, some (p, c) =>
      if t.underWay then s.setCopy p c (cutContent ((s.cells p).copy c) (entryCopy e t p s) cut) else s
    | _, _ => s

/-- The kind recorded for a reset: POWER_ON over RESET_LINE over RESTART when a further cause arrives (R113). -/
def recordedKind (inReset : Bool) (before now : ResetKind) : ResetKind :=
  if inReset then
    match before, now with
    | .powerOn, _ => .powerOn
    | _, .powerOn => .powerOn
    | .resetLine, _ => .resetLine
    | _, .resetLine => .resetLine
    | .restart, .restart => .restart
  else now

/-- A reset begins, or a further cause lengthens it (R113): every volatile field takes the value its chapter gives,
the report is cleared and takes the kind, and the part is held in reset. The cells stay; so do the supply pin, the
held target address, which the end of the reset samples afresh (R158), the record of what each port last sent (log 6),
and the model's own two fields. -/
def beginReset (k : ResetKind) (s : State) : State :=
  { State.reset with
    accountCells := s.accountCells
    tariffCells := s.tariffCells
    inReset := true
    report := Report.afterReset (recordedKind s.inReset s.report.resetKind k)
    vdd := s.vdd
    terminal := { State.reset.terminal with wire := s.terminal.wire }
    service := { State.reset.service with wire := s.service.wire }
    serviceAddress := s.serviceAddress
    freeUses := s.freeUses
    pending := s.pending }

/-- In RESTARTING, with the commit queue empty, the collection wait begins; with both response queues empty too it
ends at once, and the RESTART reset is made (R126). -/
def checkDrain (s : State) : State :=
  if s.phase = .restarting ∧ s.commitQueue = [] then
    if s.terminal.responses = [] ∧ s.service.responses = [] then beginReset .restart s
    else { s with collectionWait := true }
  else s

end Sys2Proof.Machine
end

