-- ==== Sys2Proof/Machine/Accounts.lean ====
section
/-! DEFINITION. Accounts: LOOKUP, LIST_NEXT, OPEN_ACCOUNT, CLOSE_ACCOUNT, FREEZE, THAW and SET_CLASS (chapter 1), with
the account-state check, the one-pending rule and the pending image that the balance and hold requests share. -/

namespace Sys2Proof.Machine

/-! ## Step 4: account state and the one-pending rule (R3, R4) -/

/-- The pending check: ACCOUNT_BUSY while an image is pending (R4). -/
def pendingCheck (v : Slot) : Option Status := if v.pending.isSome then some .accountBusy else none

/-- OPEN_HOLD and EXTEND_HOLD on an ACTIVE account: FROZEN when the pending image carries the frozen mark
(Table 1-3). -/
def frozenPending (v : Slot) : Option Status :=
  match v.pending with
  | none => none
  | some img => if img.frozenMark then some .frozen else none

/-- The account-state check of Table 1-3 with the pending check of R4: the status a request is refused with, or none
when it passes step 4. Kinds that name no account pass. A VACANT slot is named by no key and no hold (R7, R58); it
is answered NO_ACCOUNT (log 18). -/
def stateCheck (k : Kind) (v : Slot) : Option Status :=
  match k with
  | .credit | .setLimits | .setClass | .freeze | .thaw | .closeAccount | .settleHold =>
    match v.state with
    | .active | .frozen => pendingCheck v
    | .opening | .closing => some .accountBusy
    | .faulted => some .faulted
    | .vacant => some .noAccount
  | .debitAmount | .debitUnits =>
    match v.state with
    | .active => pendingCheck v
    | .frozen => some .frozen
    | .opening | .closing => some .accountBusy
    | .faulted => some .faulted
    | .vacant => some .noAccount
  | .openHold | .extendHold =>
    match v.state with
    | .active => frozenPending v
    | .frozen => some .frozen
    | .opening | .closing => some .accountBusy
    | .faulted => some .faulted
    | .vacant => some .noAccount
  | .cancelHold | .holdStatus =>
    match v.state with
    | .active | .frozen | .faulted => none
    | .opening | .closing => some .accountBusy
    | .vacant => some .noAccount
  | .lookup | .listNext | .openAccount | .quote | .setTariff | .readTariff | .readClock | .fetchAlert
  | .setAlertMask | .readReport | .restart => none

/-- Steps 1 to 4 for a request that names an account by its key (R5, R25): the account's slot, or the refusal. -/
def judgeAccount (k : Kind) (p : Port) (key : Word) (s : State) : Except Status SlotNo :=
  match admission k p s with
  | some st => .error st
  | none =>
    match findKey s key with
    | none => .error .noAccount
    | some i =>
      match stateCheck k (s.slot i) with
      | some st => .error st
      | none => .ok i

/-! ## The pending image (R6) -/

/-- A pending image in which every field the request does not change carries the committed value (R6). -/
def committedImage (v : Slot) (c : ChangeKind) (p : Port) (tag : Byte) (f : Figures) : PendingImage where
  balance := v.balance
  ceiling := v.ceiling
  threshold := v.threshold
  cls := v.cls
  frozenMark := v.frozenMark
  change := c
  port := p
  tag := tag
  handle := none
  figures := f

/-- The image the Commit Engine programs for a pending account image (R79, R80). -/
def imageOf (key : Word) (img : PendingImage) : Image :=
  .account key img.cls img.frozenMark img.balance img.ceiling img.threshold

/-- An account image is made pending on slot `i`, its ACCOUNT_IMAGE entry joins the commit queue, and the response
is deferred (R6). -/
def makePending (i : SlotNo) (img : PendingImage) (s : State) : State :=
  let v := s.slot i
  defer img.port img.tag
    (joinQueue (.accountImage i) (imageOf (v.key.getD 0) img) (some img.port) (some img.tag)
      (s.setSlot i { v with pending := some img }))

/-- The acceptance of a change to an account that is open already: the image is made pending and the slot is
re-evaluated (R6, R34). -/
def acceptImage (i : SlotNo) (img : PendingImage) (s : State) : State := reevaluate i (makePending i img s)

/-! ## LOOKUP and LIST_NEXT -/

/-- The figures of a LOOKUP on slot `i`, as the slot stands (R8). -/
def lookupFigures (i : SlotNo) (s : State) : LookupFigures where
  slot := i
  state := (s.slot i).state
  cls := (s.slot i).cls
  balance := (s.slot i).balance
  pendingBalance := (s.slot i).pending.map (·.balance)
  heldTotal := asWord (heldTotal s i)
  spendable := asWord (spendable s i)
  ceiling := (s.slot i).ceiling
  threshold := (s.slot i).threshold
  holdCount := holdCount s i

/-- LOOKUP (R8). -/
def evalLookup (p : Port) (tag : Byte) (key : Word) (s : State) : State :=
  serve p tag .lookup (judgeAccount .lookup p key s)
    (fun i s => answer p tag .lookup .ok (.lookup (lookupFigures i s)) s) s

/-- A taken LOOKUP (R8). -/
def execLookup (p : Port) (tag : Byte) (key : Word) (s : State) : Host.Outcome State Fault Refusal :=
  .next (taking p ⟨tag, Kind.lookup.code, keyBody key, .untaken⟩ s (evalLookup p tag key))

/-- The smallest key of the index greater than the given key, or 0 at the end of the list (R9). -/
def nextKey (s : State) (key : Word) : Word :=
  match s.keyIndex.find? (fun e => decide (key.toNat < e.1.toNat)) with
  | some e => e.1
  | none => 0

/-- LIST_NEXT (R9). -/
def evalListNext (p : Port) (tag : Byte) (key : Word) (s : State) : State :=
  answer p tag .listNext .ok (.word (nextKey s key)) s

/-- A taken LIST_NEXT (R9). -/
def execListNext (p : Port) (tag : Byte) (key : Word) (s : State) : Host.Outcome State Fault Refusal :=
  .next (taking p ⟨tag, Kind.listNext.code, keyBody key, .untaken⟩ s (evalListNext p tag key))

/-! ## OPEN_ACCOUNT -/

/-- The lowest-numbered VACANT slot (R11). -/
def lowestVacant (s : State) : Option SlotNo :=
  (List.finRange 256).find? (fun i => decide ((s.slot i).state = .vacant))

/-- The order of refusals of OPEN_ACCOUNT (R5, R10): the slot, the pair and the class it is accepted with. -/
def judgeOpen (p : Port) (key : Word) (cls : Byte) (initial ceiling : Word) (s : State) :
    Except Status (SlotNo × PairNo × ClassNo) :=
  match admission .openAccount p s with
  | some st => .error st
  | none =>
    if (findKey s key).isSome then .error .duplicateKey
    else if key = 0 then .error .badValue
    else
      match definedClass s cls with
      | none => .error .badClass
      | some c =>
        if ceiling.toNat < initial.toNat then .error .badValue
        else
          match lowestVacant s with
          | none => .error .tableFull
          | some i =>
            match s.freeList with
            | [] => .error .noSpace
            | q :: _ => .ok (i, q, c)

/-- The slot record of an OPENING account (R11). -/
def openingSlot (key : Word) (c : ClassNo) (q : PairNo) : Slot :=
  { Slot.vacant with state := .opening, key := some key, cls := c, currentPair := some q }

/-- The pending image of an open (R11). -/
def openImage (p : Port) (tag : Byte) (i : SlotNo) (c : ClassNo) (initial ceiling threshold : Word) :
    PendingImage where
  balance := initial
  ceiling := ceiling
  threshold := threshold
  cls := c
  frozenMark := false
  change := .open
  port := p
  tag := tag
  handle := none
  figures := .slot i

/-- The acceptance of OPEN_ACCOUNT (R11): the slot becomes OPENING, the pair is claimed, the key joins the index, the
image is made pending; SPARES_EXHAUSTED where the claim emptied the free list (R106). -/
def acceptOpen (p : Port) (tag : Byte) (key initial ceiling threshold : Word) (i : SlotNo) (q : PairNo) (c : ClassNo)
    (s : State) : State :=
  let s := claim q (.current i) s
  let s := s.setSlot i (openingSlot key c q)
  let s := { s with keyIndex := insertKey key i s.keyIndex }
  raiseSpares (makePending i (openImage p tag i c initial ceiling threshold) s)

/-- OPEN_ACCOUNT (R10, R11). -/
def evalOpenAccount (p : Port) (tag : Byte) (key : Word) (cls : Byte) (initial ceiling threshold : Word) (s : State) :
    State :=
  serve p tag .openAccount (judgeOpen p key cls initial ceiling s)
    (fun a s => acceptOpen p tag key initial ceiling threshold a.1 a.2.1 a.2.2 s) s

/-- A taken OPEN_ACCOUNT (R11). -/
def execOpenAccount (p : Port) (tag : Byte) (key : Word) (cls : Byte) (initial ceiling threshold : Word) (s : State) :
    Host.Outcome State Fault Refusal :=
  .next (taking p ⟨tag, Kind.openAccount.code, openAccountBody key cls initial ceiling threshold, .untaken⟩ s
    (evalOpenAccount p tag key cls initial ceiling threshold))

/-! ## CLOSE_ACCOUNT -/

/-- The order of refusals of CLOSE_ACCOUNT (R12): after step 4, HOLDS_OPEN while a hold on the slot is OPEN or
SETTLING. -/
def judgeClose (p : Port) (key : Word) (s : State) : Except Status SlotNo :=
  match judgeAccount .closeAccount p key s with
  | .error st => .error st
  | .ok i => if holdCount s i ≠ 0 then .error .holdsOpen else .ok i

/-- The acceptance of CLOSE_ACCOUNT (R12): the slot becomes CLOSING, the image carries the committed values, the
ACCOUNT_EMPTY entry joins with the account's key (R80), the response is deferred, the slot is re-evaluated (R34). -/
def acceptClose (p : Port) (tag : Byte) (i : SlotNo) (s : State) : State :=
  let v := s.slot i
  let img := committedImage v .close p tag (.word v.balance)
  reevaluate i
    (defer p tag
      (joinQueue (.accountEmpty i) (.empty v.key) (some p) (some tag)
        (s.setSlot i { v with state := .closing, pending := some img })))

/-- CLOSE_ACCOUNT (R12). -/
def evalCloseAccount (p : Port) (tag : Byte) (key : Word) (s : State) : State :=
  serve p tag .closeAccount (judgeClose p key s) (acceptClose p tag) s

/-- A taken CLOSE_ACCOUNT (R12). -/
def execCloseAccount (p : Port) (tag : Byte) (key : Word) (s : State) : Host.Outcome State Fault Refusal :=
  .next (taking p ⟨tag, Kind.closeAccount.code, keyBody key, .untaken⟩ s (evalCloseAccount p tag key))

/-! ## FREEZE and THAW -/

/-- FREEZE or THAW on slot `i` (R13): answered at once when the state is already the one asked for, else an image
with the new frozen mark. -/
def acceptMark (k : Kind) (c : ChangeKind) (mark : Bool) (already : AccountState) (p : Port) (tag : Byte) (i : SlotNo)
    (s : State) : State :=
  if (s.slot i).state = already then answer p tag k .ok .zeros s
  else acceptImage i { committedImage (s.slot i) c p tag .zeros with frozenMark := mark } s

/-- FREEZE (R13). -/
def evalFreeze (p : Port) (tag : Byte) (key : Word) (s : State) : State :=
  serve p tag .freeze (judgeAccount .freeze p key s) (acceptMark .freeze .freeze true .frozen p tag) s

/-- A taken FREEZE (R13). -/
def execFreeze (p : Port) (tag : Byte) (key : Word) (s : State) : Host.Outcome State Fault Refusal :=
  .next (taking p ⟨tag, Kind.freeze.code, keyBody key, .untaken⟩ s (evalFreeze p tag key))

/-- THAW (R13). -/
def evalThaw (p : Port) (tag : Byte) (key : Word) (s : State) : State :=
  serve p tag .thaw (judgeAccount .thaw p key s) (acceptMark .thaw .thaw false .active p tag) s

/-- A taken THAW (R13). -/
def execThaw (p : Port) (tag : Byte) (key : Word) (s : State) : Host.Outcome State Fault Refusal :=
  .next (taking p ⟨tag, Kind.thaw.code, keyBody key, .untaken⟩ s (evalThaw p tag key))

/-! ## SET_CLASS -/

/-- The order of refusals of SET_CLASS (R14): after step 4, BAD_CLASS for a class above 15 or UNDEFINED. -/
def judgeSetClass (p : Port) (key : Word) (cls : Byte) (s : State) : Except Status (SlotNo × ClassNo) :=
  match judgeAccount .setClass p key s with
  | .error st => .error st
  | .ok i =>
    match definedClass s cls with
    | none => .error .badClass
    | some c => .ok (i, c)

/-- SET_CLASS on slot `i` (R14): answered at once when the class is the account's own, else an image with the new
class. -/
def acceptSetClass (p : Port) (tag : Byte) (i : SlotNo) (c : ClassNo) (s : State) : State :=
  if (s.slot i).cls = c then answer p tag .setClass .ok .zeros s
  else acceptImage i { committedImage (s.slot i) .setClass p tag .zeros with cls := c } s

/-- SET_CLASS (R14). -/
def evalSetClass (p : Port) (tag : Byte) (key : Word) (cls : Byte) (s : State) : State :=
  serve p tag .setClass (judgeSetClass p key cls s) (fun a s => acceptSetClass p tag a.1 a.2 s) s

/-- A taken SET_CLASS (R14). -/
def execSetClass (p : Port) (tag : Byte) (key : Word) (cls : Byte) (s : State) : Host.Outcome State Fault Refusal :=
  .next (taking p ⟨tag, Kind.setClass.code, keyClassBody key cls, .untaken⟩ s (evalSetClass p tag key cls))

end Sys2Proof.Machine
end

