-- ==== Sys2Proof/Machine/AlertRequests.lean ====
section
/-! DEFINITION. AlertRequests: FETCH_ALERT and SET_ALERT_MASK (chapter 9). -/

namespace Sys2Proof.Machine

/-! ## FETCH_ALERT -/

/-- The filters of FETCH_ALERT (R144). -/
inductive AlertFilter where
  | any | urgent
  deriving DecidableEq, Repr

/-- The filter of a code; other values are BAD_VALUE (Table 12-2, R144). -/
def AlertFilter.ofCode (b : Byte) : Option AlertFilter :=
  if b = 0 then some .any else if b = 1 then some .urgent else none

/-- The entries a filter admits (R144). -/
def AlertFilter.admits : AlertFilter → AlertEntry → Bool
  | .any, _ => true
  | .urgent, e => e.urgent

/-- The order of refusals of FETCH_ALERT (R144): BAD_VALUE at step 5. -/
def judgeFetch (p : Port) (filter : Byte) (s : State) : Except Status AlertFilter :=
  match admission .fetchAlert p s with
  | some st => .error st
  | none =>
    match AlertFilter.ofCode filter with
    | none => .error .badValue
    | some f => .ok f

/-- No entry found (R144): ALERT_EMPTY with the lost indicator, which is cleared. -/
def fetchNone (p : Port) (tag : Byte) (s : State) : State :=
  answer p tag .fetchAlert .alertEmpty (.noAlert s.lost s.alerts.length) { s with lost := false }

/-- FETCH_ALERT with a filter (R144): the head, where the filter admits it, is removed and reported. -/
def acceptFetch (p : Port) (tag : Byte) (f : AlertFilter) (s : State) : State :=
  match s.alerts with
  | [] => fetchNone p tag s
  | e :: rest =>
    if f.admits e then
      answer p tag .fetchAlert .ok (.alert e s.lost rest.length) { s with alerts := rest, lost := false }
    else fetchNone p tag s

/-- FETCH_ALERT (R144). -/
def evalFetchAlert (p : Port) (tag : Byte) (filter : Byte) (s : State) : State :=
  serve p tag .fetchAlert (judgeFetch p filter s) (acceptFetch p tag) s

/-- A taken FETCH_ALERT (R144). -/
def execFetchAlert (p : Port) (tag : Byte) (filter : Byte) (s : State) : Host.Outcome State Fault Refusal :=
  .next (taking p ⟨tag, Kind.fetchAlert.code, [filter], .untaken⟩ s (evalFetchAlert p tag filter))

/-! ## SET_ALERT_MASK -/

/-- The order of refusals of SET_ALERT_MASK (R146): BAD_VALUE at step 5. -/
def judgeMask (p : Port) (mask : Byte) (s : State) : Except Status AlertMask :=
  match admission .setAlertMask p s with
  | some st => .error st
  | none =>
    match AlertMask.ofCode mask with
    | none => .error .badValue
    | some m => .ok m

/-- SET_ALERT_MASK with a mask (R146): the mask of the port that asked, and no other. -/
def acceptMask (p : Port) (tag : Byte) (m : AlertMask) (s : State) : State :=
  answer p tag .setAlertMask .ok (.mask (s.port p).mask) (s.setPort p { s.port p with mask := m })

/-- SET_ALERT_MASK (R146). -/
def evalSetAlertMask (p : Port) (tag : Byte) (mask : Byte) (s : State) : State :=
  serve p tag .setAlertMask (judgeMask p mask s) (acceptMask p tag) s

/-- A taken SET_ALERT_MASK (R146). -/
def execSetAlertMask (p : Port) (tag : Byte) (mask : Byte) (s : State) : Host.Outcome State Fault Refusal :=
  .next (taking p ⟨tag, Kind.setAlertMask.code, [mask], .untaken⟩ s (evalSetAlertMask p tag mask))

end Sys2Proof.Machine
end

