-- ==== Sys2Proof/Machine/Balances.lean ====
section
/-! DEFINITION. Balances: CREDIT, DEBIT_AMOUNT, DEBIT_UNITS and SET_LIMITS (chapter 2). -/

namespace Sys2Proof.Machine

/-! ## CREDIT -/

/-- The order of refusals of CREDIT (R25, R26): after step 4, BAD_VALUE for an amount of 0, OVER_CEILING when the
balance plus the amount, formed in full, exceeds the committed ceiling. -/
def judgeCredit (p : Port) (key amount : Word) (s : State) : Except Status SlotNo :=
  match judgeAccount .credit p key s with
  | .error st => .error st
  | .ok i =>
    if amount = 0 then .error .badValue
    else if (s.slot i).ceiling.toNat < (s.slot i).balance.toNat + amount.toNat then .error .overCeiling
    else .ok i

/-- The acceptance of CREDIT (R26). -/
def acceptCredit (p : Port) (tag : Byte) (amount : Word) (i : SlotNo) (s : State) : State :=
  let v := s.slot i
  let b := asWord (v.balance.toNat + amount.toNat)
  acceptImage i { committedImage v .credit p tag (.word b) with balance := b } s

/-- CREDIT (R26). -/
def evalCredit (p : Port) (tag : Byte) (key amount : Word) (s : State) : State :=
  serve p tag .credit (judgeCredit p key amount s) (acceptCredit p tag amount) s

/-- A taken CREDIT (R26). -/
def execCredit (p : Port) (tag : Byte) (key amount : Word) (s : State) : Host.Outcome State Fault Refusal :=
  .next (taking p ⟨tag, Kind.credit.code, keyAmountBody key amount, .untaken⟩ s (evalCredit p tag key amount))

/-! ## DEBIT_AMOUNT -/

/-- The order of refusals of DEBIT_AMOUNT (R25, R27): after step 4, BAD_VALUE for an amount of 0, INSUFFICIENT for an
amount above the spendable amount. -/
def judgeDebitAmount (p : Port) (key amount : Word) (s : State) : Except Status SlotNo :=
  match judgeAccount .debitAmount p key s with
  | .error st => .error st
  | .ok i =>
    if amount = 0 then .error .badValue
    else if spendable s i < amount.toNat then .error .insufficient
    else .ok i

/-- The acceptance of DEBIT_AMOUNT (R27). -/
def acceptDebitAmount (p : Port) (tag : Byte) (amount : Word) (i : SlotNo) (s : State) : State :=
  let v := s.slot i
  let b := asWord (v.balance.toNat - amount.toNat)
  acceptImage i { committedImage v .debitAmount p tag (.word b) with balance := b } s

/-- DEBIT_AMOUNT (R27). -/
def evalDebitAmount (p : Port) (tag : Byte) (key amount : Word) (s : State) : State :=
  serve p tag .debitAmount (judgeDebitAmount p key amount s) (acceptDebitAmount p tag amount) s

/-- A taken DEBIT_AMOUNT (R27). -/
def execDebitAmount (p : Port) (tag : Byte) (key amount : Word) (s : State) : Host.Outcome State Fault Refusal :=
  .next (taking p ⟨tag, Kind.debitAmount.code, keyAmountBody key amount, .untaken⟩ s
    (evalDebitAmount p tag key amount))

/-! ## DEBIT_UNITS -/

/-- The charge of units on slot `i`, priced at the committed values of the account's class (R28, R44). -/
def chargeOn (s : State) (i : SlotNo) (units : Half) : Nat := charge (s.tariff (s.slot i).cls).rates units

/-- The order of refusals of DEBIT_UNITS (R25, R28): after step 4, BAD_CLASS for an UNDEFINED class, INSUFFICIENT for a
charge above the spendable amount. -/
def judgeDebitUnits (p : Port) (key : Word) (units : Half) (s : State) : Except Status SlotNo :=
  match judgeAccount .debitUnits p key s with
  | .error st => .error st
  | .ok i =>
    if (s.tariff (s.slot i).cls).state = .undefined then .error .badClass
    else if spendable s i < chargeOn s i units then .error .insufficient
    else .ok i

/-- DEBIT_UNITS on slot `i` (R28, R29): a charge of 0 is answered at once, another charge is fixed in the pending
image. -/
def acceptDebitUnits (p : Port) (tag : Byte) (units : Half) (i : SlotNo) (s : State) : State :=
  let v := s.slot i
  let c := chargeOn s i units
  if c = 0 then answer p tag .debitUnits .ok (.debit 0 v.balance) s
  else
    let b := asWord (v.balance.toNat - c)
    acceptImage i { committedImage v .debitUnits p tag (.debit (asWord c) b) with balance := b } s

/-- DEBIT_UNITS (R28). -/
def evalDebitUnits (p : Port) (tag : Byte) (key : Word) (units : Half) (s : State) : State :=
  serve p tag .debitUnits (judgeDebitUnits p key units s) (acceptDebitUnits p tag units) s

/-- A taken DEBIT_UNITS (R28). -/
def execDebitUnits (p : Port) (tag : Byte) (key : Word) (units : Half) (s : State) :
    Host.Outcome State Fault Refusal :=
  .next (taking p ⟨tag, Kind.debitUnits.code, keyUnitsBody key units, .untaken⟩ s (evalDebitUnits p tag key units))

/-! ## SET_LIMITS -/

/-- The order of refusals of SET_LIMITS (R25, R30): after step 4, OVER_CEILING for a ceiling below the committed
balance. -/
def judgeSetLimits (p : Port) (key ceiling : Word) (s : State) : Except Status SlotNo :=
  match judgeAccount .setLimits p key s with
  | .error st => .error st
  | .ok i => if ceiling.toNat < (s.slot i).balance.toNat then .error .overCeiling else .ok i

/-- SET_LIMITS on slot `i` (R30): answered at once when both values are the committed ones, else an image with the new
ceiling and threshold. -/
def acceptSetLimits (p : Port) (tag : Byte) (ceiling threshold : Word) (i : SlotNo) (s : State) : State :=
  let v := s.slot i
  if v.ceiling = ceiling ∧ v.threshold = threshold then answer p tag .setLimits .ok .zeros s
  else acceptImage i { committedImage v .setLimits p tag .zeros with ceiling := ceiling, threshold := threshold } s

/-- SET_LIMITS (R30). -/
def evalSetLimits (p : Port) (tag : Byte) (key ceiling threshold : Word) (s : State) : State :=
  serve p tag .setLimits (judgeSetLimits p key ceiling s) (acceptSetLimits p tag ceiling threshold) s

/-- A taken SET_LIMITS (R30). -/
def execSetLimits (p : Port) (tag : Byte) (key ceiling threshold : Word) (s : State) :
    Host.Outcome State Fault Refusal :=
  .next (taking p ⟨tag, Kind.setLimits.code, limitsBody key ceiling threshold, .untaken⟩ s
    (evalSetLimits p tag key ceiling threshold))

end Sys2Proof.Machine
end

