-- ==== Sys2Proof/Machine/Commit.lean ====
section
/-! DEFINITION. Commit: the Commit Engine's programs and outcomes (chapters 5 and 6): FIRST_PROGRAM and
ATTEMPT_COMPLETE, with the done, fault and dropped outcomes as the owners apply them. -/

namespace Sys2Proof.Machine

/-! ## Program attempts (R81, R84, R101, R102) -/

/-- A number for every pair: account pairs 0 to 287, tariff pair T*n* at 288 + *n* (log 9). -/
def pairIndex : PairId → Nat
  | .account p => p.val
  | .tariff n => 288 + n.val

/-- The wear of a pair rises by one as an attempt on it begins (R101, R102). A wear that would pass 4,294,967,295 is a
free value (log 9). -/
def addWear (p : PairId) (s : State) : State :=
  let t := s.track p
  if t.wear.toNat < maxWord then s.setTrack p { t with wear := t.wear + 1 }
  else
    { s.setTrack p { t with wear := Config.wearPastRange s.freeUses (pairIndex p) } with freeUses := s.freeUses + 1 }

/-- A stage with its program attempt state replaced. -/
def Stage.setAttempt (st : Stage) (t : Attempt) : Stage :=
  match st with
  | .waiting => .waiting
  | .programming _ => .programming t
  | .relocating _ p c => .relocating t p c

/-- The incoming pair of a stage. -/
def Stage.incoming : Stage → Option PairNo
  | .waiting => none
  | .programming _ => none
  | .relocating _ p _ => some p

/-- The next attempt of the head `e` begins (R81, R84, R101): the wear of the pair rises, the attempt is under way. -/
def beginAttempt (e : CommitEntry) (s : State) : State :=
  match e.stage.attempt, e.stage.site with
  | some t, some (p, _) => (addWear p s).setHead { e with stage := e.stage.setAttempt { t with underWay := true } }
  | _, _ => s.setHead e

/-- The head takes a stage whose next attempt starts now while the supply is GOOD, and waits for GOOD while it is LOW
(R81, R85, R86, R92). -/
def enterStage (e : CommitEntry) (st : Stage) (s : State) : State :=
  if s.supply = .good then beginAttempt { e with stage := st } s else s.setHead { e with stage := st }

/-! ## What a program settles (R82, R83) -/

/-- The change kind of the slot's pending image is OPEN. -/
def openPending (v : Slot) : Bool :=
  match v.pending with
  | none => false
  | some img => decide (img.change = .open)

/-- The target pair (R82). -/
def targetOf (s : State) : EntrySubject → Option PairId
  | .accountImage i => (s.slot i).currentPair.map .account
  | .accountEmpty i => (s.slot i).currentPair.map .account
  | .tariffImage n => some (.tariff n)
  | .tidyEmpty p => some (.account p)

/-- The sequence of the subject's durable image, 0 where it has none (R82). -/
def durableSequence (s : State) : EntrySubject → Nat
  | .accountImage i => ((s.slot i).sequence.getD 0).toNat
  | .accountEmpty i => ((s.slot i).sequence.getD 0).toNat
  | .tariffImage n => ((s.tariff n).sequence.getD 0).toNat
  | .tidyEmpty _ => 0

/-- The sequence settled for a program into pair `p`, formed in full (R82). -/
def settledSequence (s : State) (sub : EntrySubject) (p : PairId) : Nat :=
  max (durableSequence s sub) (s.track p).newestSequence.toNat + 1

/-- The program of an account image on target `p` is a wear relocation (R83). -/
def wearRelocates (s : State) (sub : EntrySubject) (p : PairId) : Bool :=
  match sub with
  | .accountImage i =>
    !openPending (s.slot i) && decide (Config.wearLimit ≤ (s.track p).wear.toNat) && !s.freeList.isEmpty
  | .accountEmpty _ | .tariffImage _ | .tidyEmpty _ => false

/-! ## Applying outcomes: what all of them share -/

/-- The request kind of a change kind (R6). -/
def ChangeKind.kind : ChangeKind → Kind
  | .open => .openAccount
  | .close => .closeAccount
  | .freeze => .freeze
  | .thaw => .thaw
  | .setClass => .setClass
  | .credit => .credit
  | .debitAmount => .debitAmount
  | .debitUnits => .debitUnits
  | .setLimits => .setLimits
  | .settle => .settleHold

/-- The deferred response of a pending image is placed (R89). -/
def answerImage (img : PendingImage) (st : Status) (f : Figures) (s : State) : State :=
  answer img.port img.tag img.change.kind st f s

/-- The status of a done outcome: CAPPED for a capped settle (R72), else OK (R15). -/
def doneStatus : Figures → Status
  | .settle _ true _ _ _ _ => .capped
  | _ => .ok

/-- Pairs that become WORN (R88, R108). -/
def retireAll (ps : List PairNo) (s : State) : State := ps.foldl (fun s p => retire p s) s

/-- The hold of a settle image is freed (R72). -/
def freeSettled (img : PendingImage) (s : State) : State :=
  match img.handle with
  | none => s
  | some (n, _) => freeHold n s

/-- The hold of a settle image returns to OPEN (R73). -/
def reopenSettled (img : PendingImage) (s : State) : State :=
  match img.handle with
  | none => s
  | some (n, _) => reopenHold n s

/-- The state the committed frozen mark says (R17, R118). -/
def markedState (frozenMark : Bool) : AccountState := if frozenMark then .frozen else .active

/-! ## Done outcomes -/

/-- The pair that a done outcome names as holding the image: the incoming pair of a relocation, else the slot's pair
(R89). -/
def holderOf (v : Slot) (e : CommitEntry) : Option PairNo := e.stage.incoming <|> v.currentPair

/-- The pairs a done outcome retires by R88: the target pair of a relocation. -/
def wornByDone (v : Slot) (e : CommitEntry) : List PairNo :=
  if e.stage.incoming.isSome then v.currentPair.toList else []

/-- The state after a done account image (R15). -/
def doneState (before : AccountState) : ChangeKind → AccountState
  | .open => .active
  | .freeze => .frozen
  | .thaw => .active
  | .close | .setClass | .credit | .debitAmount | .debitUnits | .setLimits | .settle => before

/-- The slot record after a done account image (R15). -/
def doneSlot (v : Slot) (img : PendingImage) (sequence : Word) (holder : Option PairNo) : Slot :=
  { v with
    state := doneState v.state img.change
    cls := img.cls
    balance := img.balance
    ceiling := img.ceiling
    threshold := img.threshold
    frozenMark := img.frozenMark
    sequence := some sequence
    currentPair := holder
    pending := none }

/-- The incoming pair of a done relocation becomes CURRENT, bound to the slot (R88). -/
def bindIncoming (i : SlotNo) (e : CommitEntry) (s : State) : State :=
  match e.stage.incoming with
  | none => s
  | some q => s.setRole q (.current i)

/-- The indicators after a done account image: set without an alert for an open, re-evaluated for every other kind
(R15, R35). -/
def settleIndicators (c : ChangeKind) (i : SlotNo) (s : State) : State :=
  if c = .open then setIndicators i s else reevaluate i s

/-- An ACCOUNT_IMAGE entry done (R15, R72, R88, R110). -/
def doneImage (i : SlotNo) (img : PendingImage) (e : CommitEntry) (sequence : Word) (s : State) : State :=
  let v := s.slot i
  let worn := wornByDone v e
  let s := (retireAll worn (bindIncoming i e s)).leaveHead
  let s := freeSettled img (s.setSlot i (doneSlot v img sequence (holderOf v e)))
  let s := answerImage img (doneStatus img.figures) img.figures s
  settleIndicators img.change i (raiseRetired worn s)

/-- The hand-back of a pair, where there is one (R107). -/
def handBackAll (ps : List PairNo) (s : State) : State := ps.foldl (fun s p => handBack p s) s

/-- The pairs a hand-back of these pairs retires. -/
def retiredBack (ps : List PairNo) (s : State) : List PairNo := ps.filter (atLimit s)

/-- An ACCOUNT_EMPTY entry done (R16, R88, R110). -/
def doneEmpty (i : SlotNo) (img : PendingImage) (e : CommitEntry) (s : State) : State :=
  let v := s.slot i
  let worn := wornByDone v e
  let back := (holderOf v e).toList
  let retired := worn ++ retiredBack back s
  let s := (handBackAll back (retireAll worn s)).leaveHead
  let s := answerImage img .ok img.figures (vacate i s)
  raiseRetired retired s

/-- A TARIFF_IMAGE entry done (R50). -/
def doneTariff (n : ClassNo) (img : PendingTariff) (sequence : Word) (s : State) : State :=
  let v := s.tariff n
  answer img.port img.tag .setTariff .ok .zeros
    (s.leaveHead.setTariff n
      { v with state := .defined, rates := img.rates, sequence := some sequence, pending := none })

/-- A TIDY_EMPTY entry done (R121): the pair is handed back and counted, and the next STALE pair is taken. -/
def doneTidy (p : PairNo) (s : State) : State :=
  let retired := retiredByHandBack p s
  let s := (handBack p s).leaveHead
  let s := { s with report := { s.report with pairsTidied := s.report.pairsTidied + 1 } }
  tidyNext (raiseRetired retired s)

/-- The head's done outcome, as its owner applies it (Table 5-5). An account or tariff entry always has its pending
image (R4, R49; log 18). -/
def doneOutcome (e : CommitEntry) (sequence : Word) (s : State) : State :=
  match e.subject with
  | .accountImage i =>
    match (s.slot i).pending with
    | none => s.leaveHead
    | some img => doneImage i img e sequence s
  | .accountEmpty i =>
    match (s.slot i).pending with
    | none => s.leaveHead
    | some img => doneEmpty i img e s
  | .tariffImage n =>
    match (s.tariff n).pending with
    | none => s.leaveHead
    | some img => doneTariff n img sequence s
  | .tidyEmpty p => doneTidy p s

/-! ## Fault outcomes -/

/-- A fault of an open (R18, R88): the slot becomes VACANT and every pair of the open becomes WORN. -/
def faultOpen (i : SlotNo) (img : PendingImage) (e : CommitEntry) (s : State) : State :=
  let v := s.slot i
  let worn := v.currentPair.toList ++ e.stage.incoming.toList
  let s := vacate i (retireAll worn s).leaveHead
  let s := answerImage img .storeFault .zeros s
  raiseRetired worn (raiseAlert .storeFault (accountSubject i v) s)

/-- A fault of any other account entry (R19, R73, R88): the slot becomes FAULTED, the incoming pair WORN. -/
def faultChange (i : SlotNo) (img : PendingImage) (e : CommitEntry) (s : State) : State :=
  let v := s.slot i
  let worn := e.stage.incoming.toList
  let s := (retireAll worn s).leaveHead
  let s := reopenSettled img (s.setSlot i { v with state := .faulted, pending := none })
  let s := answerImage img .storeFault .zeros s
  reevaluate i (raiseRetired worn (raiseAlert .storeFault (accountSubject i v) s))

/-- A fault of an account entry, by its change kind (R18, R19). -/
def faultAccount (i : SlotNo) (e : CommitEntry) (s : State) : State :=
  match (s.slot i).pending with
  | none => s.leaveHead
  | some img => if img.change = .open then faultOpen i img e s else faultChange i img e s

/-- A fault of a TARIFF_IMAGE entry (R52). -/
def faultTariff (n : ClassNo) (s : State) : State :=
  match (s.tariff n).pending with
  | none => s.leaveHead
  | some img =>
    raiseAlert .storeFault (.cls n)
      (answer img.port img.tag .setTariff .storeFault .zeros
        (s.leaveHead.setTariff n { s.tariff n with pending := none, storeFault := true }))

/-- A fault of a TIDY_EMPTY entry (R121): the pair becomes WORN, counted as a tidy failure. -/
def faultTidy (p : PairNo) (s : State) : State :=
  let s := (retire p s).leaveHead
  let s := { s with report := { s.report with tidyFailures := s.report.tidyFailures + 1 } }
  tidyNext (raiseRetired [p] s)

/-- The head's fault outcome, as its owner applies it (Table 5-5). -/
def faultOutcome (e : CommitEntry) (s : State) : State :=
  match e.subject with
  | .accountImage i => faultAccount i e s
  | .accountEmpty i => faultAccount i e s
  | .tariffImage n => faultTariff n s
  | .tidyEmpty p => faultTidy p s

/-! ## Dropped outcomes -/

/-- The slot record after a drop of a change to an open account (R17). -/
def droppedSlot (v : Slot) (c : ChangeKind) : Slot :=
  { v with state := if c = .close then markedState v.frozenMark else v.state, pending := none }

/-- An open dropped (R17): the slot becomes VACANT and the pair claimed for it is handed back. -/
def dropOpen (i : SlotNo) (img : PendingImage) (s : State) : State :=
  let back := (s.slot i).currentPair.toList
  let retired := retiredBack back s
  raiseRetired retired (answerImage img .supplyLow .zeros (vacate i (handBackAll back s)))

/-- Another account change dropped (R17, R73). -/
def dropChange (i : SlotNo) (img : PendingImage) (s : State) : State :=
  let s := reopenSettled img (s.setSlot i (droppedSlot (s.slot i) img.change))
  reevaluate i (answerImage img .supplyLow .zeros s)

/-- A dropped account entry (R17). -/
def dropAccount (i : SlotNo) (s : State) : State :=
  match (s.slot i).pending with
  | none => s
  | some img => if img.change = .open then dropOpen i img s else dropChange i img s

/-- A dropped TARIFF_IMAGE entry (R51). -/
def dropTariff (n : ClassNo) (s : State) : State :=
  match (s.tariff n).pending with
  | none => s
  | some img =>
    answer img.port img.tag .setTariff .supplyLow .zeros (s.setTariff n { s.tariff n with pending := none })

/-- The dropped outcome of an entry, as its owner applies it (R90). A TIDY_EMPTY entry is never dropped. -/
def dropOutcome (s : State) (e : CommitEntry) : State :=
  match e.subject with
  | .accountImage i => dropAccount i s
  | .accountEmpty i => dropAccount i s
  | .tariffImage n => dropTariff n s
  | .tidyEmpty _ => s

/-- The entries a change to LOW drops: the WAITING ones that a request made (R92). -/
def CommitEntry.droppable (e : CommitEntry) : Bool :=
  match e.stage, e.subject with
  | .waiting, .accountImage _ => true
  | .waiting, .accountEmpty _ => true
  | .waiting, .tariffImage _ => true
  | .waiting, .tidyEmpty _ => false
  | .programming _, _ => false
  | .relocating _ _ _, _ => false

/-- Every WAITING request-made entry leaves the queue, dropped in queue order (R91, R92). -/
def dropWaiting (s : State) : State :=
  let dropped := s.commitQueue.filter CommitEntry.droppable
  dropped.foldl dropOutcome { s with commitQueue := s.commitQueue.filter (fun e => !e.droppable) }

/-! ## Relocation and the first program -/

/-- A relocation of the head begins, on wear (R83) or after a failed pair (R86): the head of the free list is claimed
as INCOMING, its copy and the sequence are settled; past the sequence limit the entry ends with a fault.
SPARES_EXHAUSTED is raised last where the claim emptied the list (R106, R110; log 35). -/
def relocate (e : CommitEntry) (i : SlotNo) (target : PairId) (copy : CopyName) (s : State) : State :=
  match s.freeList with
  | [] => s
  | q :: _ =>
    let n := settledSequence s e.subject (.account q)
    let st : Stage := .relocating ⟨target, copy, asWord n, .first, false⟩ q (inactiveCopy (s.pair q).track)
    let s := claim q (.incoming i) s
    raiseSpares (if maxWord < n then faultOutcome { e with stage := st } s else enterStage e st s)

/-- The slot of an account entry. -/
def EntrySubject.slot? : EntrySubject → Option SlotNo
  | .accountImage i => some i
  | .accountEmpty i => some i
  | .tariffImage _ => none
  | .tidyEmpty _ => none

/-- The first program of the head `e` into target pair `p` (R82, R83): a fault past the sequence limit, a wear
relocation, or attempt 1 on the target's inactive copy. -/
def programHead (e : CommitEntry) (p : PairId) (s : State) : State :=
  let n := settledSequence s e.subject p
  let c := inactiveCopy (s.track p)
  if maxWord < n then faultOutcome e s
  else
    match wearRelocates s e.subject p, e.subject.slot? with
    | true, some i => relocate e i p c s
    | _, _ => enterStage e (.programming ⟨p, c, asWord n, .first, false⟩) s

/-- The head's first program begins, where it may: outside a reset, with the supply GOOD and the head WAITING
(R81). -/
def firstProgram (s : State) : State :=
  match s.commitQueue with
  | [] => s
  | e :: _ =>
    if s.inReset = false ∧ s.supply = .good ∧ e.stage = .waiting then
      match targetOf s e.subject with
      | none => s
      | some p => programHead e p s
    else s

/-- The beginning of the head's first program as one event (R81 to R83), with the drain of RESTARTING where it ends the
entry (R126). -/
def beginFirst (s : State) : State := checkDrain (firstProgram s)

/-- The head's first program (R81 to R83). -/
def execFirstProgram (s : State) : Host.Outcome State Fault Refusal := .next (beginFirst s)

/-! ## The completion of an attempt -/

/-- The programmed copy becomes the pair's newest valid copy (R101). -/
def recordVerified (p : PairId) (c : CopyName) (sequence : Word) (s : State) : State :=
  s.setTrack p { s.track p with newest := some c, newestSequence := sequence }

/-- Attempt 2 on the target copy has failed (R86): an account entry is relocated while the free list is not empty, and
every other case ends with a fault. -/
def targetRefused (e : CommitEntry) (t : Attempt) (s : State) : State :=
  match e.subject.slot? with
  | none => faultOutcome e s
  | some i => if s.freeList = [] then faultOutcome e s else relocate e i t.target t.copy s

/-- A verify has failed (R85 to R87). -/
def attemptFailed (e : CommitEntry) (t : Attempt) (s : State) : State :=
  match t.number, e.stage with
  | .first, st => enterStage e (st.setAttempt { t with number := .second, underWay := false }) s
  | .second, .relocating _ _ _ => faultOutcome e s
  | .second, .programming _ => targetRefused e t s
  | .second, .waiting => s

/-- The attempt `t` of the head `e` on copy `c` of pair `p` completes and the copy reads back as `readBack` (R84): a
verify that passes ends the entry done, one that fails leads on. -/
def completeAttempt (e : CommitEntry) (t : Attempt) (p : PairId) (c : CopyName) (readBack : Copy) (s : State) :
    State :=
  let programmed := s.setCopy p c readBack
  if verifyPasses e.image t.sequence (s.track p).wear readBack then
    doneOutcome e t.sequence (recordVerified p c t.sequence programmed)
  else attemptFailed e t programmed

/-- The attempt under way on the head completes, where there is one outside a reset (R84). -/
def attemptComplete (readBack : Copy) (s : State) : State :=
  match s.commitQueue with
  | [] => s
  | e :: _ =>
    match e.stage.attempt, e.stage.site with
    | some t, some (p, c) =>
      if s.inReset = false ∧ t.underWay = true then completeAttempt e t p c readBack s else s
    | _, _ => s

/-- A program attempt completes (R84 to R89, R101), and the drain of RESTARTING where it ends the entry (R126). -/
def execAttemptComplete (readBack : Copy) (s : State) : Host.Outcome State Fault Refusal :=
  .next (checkDrain (attemptComplete readBack s))

end Sys2Proof.Machine
end

