-- ==== Sys2Proof/Machine/Holds.lean ====
section
/-! DEFINITION. Holds: READ_CLOCK, OPEN_HOLD, EXTEND_HOLD, SETTLE_HOLD, CANCEL_HOLD, HOLD_STATUS and the second tick
(chapter 4). -/

namespace Sys2Proof.Machine

/-! ## READ_CLOCK -/

/-- READ_CLOCK (R61). -/
def evalReadClock (p : Port) (tag : Byte) (s : State) : State := answer p tag .readClock .ok (.word s.seconds) s

/-- A taken READ_CLOCK (R61). -/
def execReadClock (p : Port) (tag : Byte) (s : State) : Host.Outcome State Fault Refusal :=
  .next (taking p ⟨tag, Kind.readClock.code, [], .untaken⟩ s (evalReadClock p tag))

/-! ## OPEN_HOLD -/

/-- The lowest-numbered FREE entry (R67). -/
def lowestFree (s : State) : Option HoldNo :=
  (List.finRange 32).find? (fun n => decide ((s.hold n).state = .free))

/-- Of two candidates the LAPSED entry with the lower lapsed second, the first of them where both share it (R67). -/
def earlierLapsed (s : State) (best : Option (HoldNo × Word)) (n : HoldNo) : Option (HoldNo × Word) :=
  match (s.hold n).state with
  | .lapsed _ second =>
    match best with
    | none => some (n, second)
    | some (_, t) => if second.toNat < t.toNat then some (n, second) else best
  | .free | .open _ | .settling _ _ _ => best

/-- The LAPSED entry with the lowest lapsed second, the lowest-numbered of several (R67). -/
def earliestLapsed (s : State) : Option HoldNo :=
  ((List.finRange 32).foldl (earlierLapsed s) none).map (·.1)

/-- The entry for a new hold (R67): a FREE one, else a LAPSED one, else none. -/
def entryForHold (s : State) : Option HoldNo :=
  match lowestFree s with
  | some n => some n
  | none => earliestLapsed s

/-- The generation after `g`: one more, and 1 after 255 (R55, R68). -/
def nextGeneration (g : Byte) : Byte := if g = 255 then 1 else g + 1

/-- The order of refusals of OPEN_HOLD (R62, R66): the slot and the entry it is served with. -/
def judgeOpenHold (p : Port) (key amount : Word) (duration : Half) (s : State) : Except Status (SlotNo × HoldNo) :=
  match judgeAccount .openHold p key s with
  | .error st => .error st
  | .ok i =>
    if amount = 0 then .error .badValue
    else if duration = 0 ∨ Config.maxDuration < duration.toNat then .error .badValue
    else if maxWord < s.seconds.toNat + duration.toNat then .error .tooLong
    else if (s.tariff (s.slot i).cls).state = .undefined then .error .badClass
    else if spendable s i < amount.toNat then .error .insufficient
    else
      match entryForHold s with
      | none => .error .holdsFull
      | some n => .ok (i, n)

/-- The hold OPEN_HOLD makes on slot `i` (R68): the rate snapshot holds the committed values of the class field (R44). -/
def newHold (p : Port) (key amount : Word) (duration : Half) (i : SlotNo) (s : State) : Hold where
  slot := i
  key := key
  owner := p
  amount := amount
  rates := (s.tariff (s.slot i).cls).rates
  opened := s.seconds
  deadline := asWord (s.seconds.toNat + duration.toNat)

/-- OPEN_HOLD served on slot `i` in entry `n` (R68). -/
def acceptOpenHold (p : Port) (tag : Byte) (key amount : Word) (duration : Half) (i : SlotNo) (n : HoldNo)
    (s : State) : State :=
  let h := newHold p key amount duration i s
  let g := nextGeneration (s.hold n).generation
  reevaluate i (answer p tag .openHold .ok (.handle n g h.deadline) (s.setHold n ⟨g, .open h⟩))

/-- OPEN_HOLD (R66 to R68). -/
def evalOpenHold (p : Port) (tag : Byte) (key amount : Word) (duration : Half) (s : State) : State :=
  serve p tag .openHold (judgeOpenHold p key amount duration s)
    (fun a s => acceptOpenHold p tag key amount duration a.1 a.2 s) s

/-- A taken OPEN_HOLD (R66 to R68). -/
def execOpenHold (p : Port) (tag : Byte) (key amount : Word) (duration : Half) (s : State) :
    Host.Outcome State Fault Refusal :=
  .next (taking p ⟨tag, Kind.openHold.code, openHoldBody key amount duration, .untaken⟩ s
    (evalOpenHold p tag key amount duration))

/-! ## Steps 1 to 4 for a request that names a hold (R62 to R65) -/

/-- What steps 1 to 4 of EXTEND_HOLD, SETTLE_HOLD and CANCEL_HOLD lead to: a refusal, the HOLD_LAPSED answer on an
entry, or the OPEN hold of an entry. -/
inductive HoldVerdict where
  | refuse (st : Status)
  | lapsed (n : HoldNo) (h : Hold)
  | open (n : HoldNo) (h : Hold)
  deriving DecidableEq, Repr

/-- The ownership check on an OPEN hold (R63): its owner port, or the Service Port for CANCEL_HOLD. -/
def mayAsk (k : Kind) (p : Port) (h : Hold) : Bool :=
  decide (h.owner = p) || (decide (k = .cancelHold) && decide (p = .service))

/-- Steps 1 to 4 (R62): resolution, then ownership and hold state, then the account's state. -/
def judgeHold (k : Kind) (p : Port) (handle : Handle) (s : State) : HoldVerdict :=
  match admission k p s with
  | some st => .refuse st
  | none =>
    match resolve s handle with
    | none => .refuse .noSuchHold
    | some n =>
      match (s.hold n).state with
      | .free => .refuse .noSuchHold
      | .open h =>
        if mayAsk k p h then
          match stateCheck k (s.slot h.slot) with
          | some st => .refuse st
          | none => .open n h
        else .refuse .notOwner
      | .settling h _ _ => if h.owner = p then .refuse .accountBusy else .refuse .notOwner
      | .lapsed h _ => if h.owner = p then .lapsed n h else .refuse .notOwner

/-- What a hold verdict leads to: a refusal is answered with every figure 0; HOLD_LAPSED is answered with the hold's
amount and deadline and frees the entry (R65); an OPEN hold goes on to step 5. -/
def serveHold (p : Port) (tag : Byte) (k : Kind) (verdict : HoldVerdict) (lapsedFigures : Hold → Figures)
    (accept : HoldNo → Hold → State → State) (s : State) : State :=
  match verdict with
  | .refuse st => answer p tag k st .zeros s
  | .lapsed n h => answer p tag k .holdLapsed (lapsedFigures h) (freeHold n s)
  | .open n h => accept n h s

/-! ## EXTEND_HOLD -/

/-- The deadline an EXTEND_HOLD asks for, formed in full (R69). -/
def extendedDeadline (h : Hold) (seconds : Half) : Nat := h.deadline.toNat + seconds.toNat

/-- Step 5 of EXTEND_HOLD (R69). -/
def judgeExtend (h : Hold) (seconds : Half) : Option Status :=
  if seconds = 0 then some .badValue
  else if h.opened.toNat + Config.maxHoldSpan < extendedDeadline h seconds ∨ maxWord < extendedDeadline h seconds then
    some .tooLong
  else none

/-- EXTEND_HOLD on the OPEN hold of entry `n` (R69). -/
def acceptExtend (p : Port) (tag : Byte) (seconds : Half) (n : HoldNo) (h : Hold) (s : State) : State :=
  match judgeExtend h seconds with
  | some st => answer p tag .extendHold st .zeros s
  | none =>
    let d := asWord (extendedDeadline h seconds)
    answer p tag .extendHold .ok (.extend d h.amount)
      (s.setHold n { s.hold n with state := .open { h with deadline := d } })

/-- EXTEND_HOLD (R69). -/
def evalExtendHold (p : Port) (tag : Byte) (handle : Handle) (seconds : Half) (s : State) : State :=
  serveHold p tag .extendHold (judgeHold .extendHold p handle s) (fun h => .extend h.deadline h.amount)
    (acceptExtend p tag seconds) s

/-- A taken EXTEND_HOLD (R69). -/
def execExtendHold (p : Port) (tag : Byte) (handle : Handle) (seconds : Half) (s : State) :
    Host.Outcome State Fault Refusal :=
  .next (taking p ⟨tag, Kind.extendHold.code, handleHalfBody handle seconds, .untaken⟩ s
    (evalExtendHold p tag handle seconds))

/-! ## SETTLE_HOLD -/

/-- The charge a settle debits: the priced charge, or the hold's amount where the priced charge exceeds it (R70). -/
def settleCharge (h : Hold) (units : Half) : Nat := min (charge h.rates units) h.amount.toNat

/-- The settle is capped (R70). -/
def settleCapped (h : Hold) (units : Half) : Bool := decide (h.amount.toNat < charge h.rates units)

/-- The uncovered excess of a settle: what the priced charge has above the amount (R70). -/
def settleExcess (h : Hold) (units : Half) : Nat := charge h.rates units - h.amount.toNat

/-- The figures of a settle with the given new balance (R70, R71). -/
def settleFigures (h : Hold) (units : Half) (newBalance : Word) : Figures :=
  .settle (asWord (settleCharge h units)) (settleCapped h units) (asWord (settleExcess h units)) newBalance h.amount
    h.deadline

/-- SETTLE_HOLD with a charge of 0 (R70): the hold is freed at once. -/
def settleFree (p : Port) (tag : Byte) (units : Half) (n : HoldNo) (h : Hold) (s : State) : State :=
  reevaluate h.slot
    (answer p tag .settleHold .ok (settleFigures h units (s.slot h.slot).balance) (freeHold n s))

/-- The pending image of a settle of entry `n` (R71). -/
def settleImage (p : Port) (tag : Byte) (units : Half) (n : HoldNo) (h : Hold) (s : State) : PendingImage :=
  let v := s.slot h.slot
  let b := asWord (v.balance.toNat - settleCharge h units)
  { committedImage v .settle p tag (settleFigures h units b) with
    balance := b
    handle := some (n, (s.hold n).generation) }

/-- SETTLE_HOLD accepted with a charge above 0 (R71): the hold becomes SETTLING, the settle image is made pending on
its slot. -/
def settlePending (p : Port) (tag : Byte) (units : Half) (n : HoldNo) (h : Hold) (s : State) : State :=
  let c := settleCharge h units
  acceptImage h.slot (settleImage p tag units n h s)
    (s.setHold n { s.hold n with state := .settling h (asWord c) (asWord (h.amount.toNat - c)) })

/-- SETTLE_HOLD on the OPEN hold of entry `n` (R70, R71). -/
def acceptSettle (p : Port) (tag : Byte) (units : Half) (n : HoldNo) (h : Hold) (s : State) : State :=
  if settleCharge h units = 0 then settleFree p tag units n h s else settlePending p tag units n h s

/-- SETTLE_HOLD (R70, R71). -/
def evalSettleHold (p : Port) (tag : Byte) (handle : Handle) (units : Half) (s : State) : State :=
  serveHold p tag .settleHold (judgeHold .settleHold p handle s)
    (fun h => .settle 0 false 0 0 h.amount h.deadline) (acceptSettle p tag units) s

/-- A taken SETTLE_HOLD (R70, R71). -/
def execSettleHold (p : Port) (tag : Byte) (handle : Handle) (units : Half) (s : State) :
    Host.Outcome State Fault Refusal :=
  .next (taking p ⟨tag, Kind.settleHold.code, handleHalfBody handle units, .untaken⟩ s
    (evalSettleHold p tag handle units))

/-! ## CANCEL_HOLD -/

/-- CANCEL_HOLD on the OPEN hold of entry `n` (R74). -/
def acceptCancel (p : Port) (tag : Byte) (n : HoldNo) (h : Hold) (s : State) : State :=
  reevaluate h.slot (answer p tag .cancelHold .ok (.release h.amount h.deadline) (freeHold n s))

/-- CANCEL_HOLD (R74). -/
def evalCancelHold (p : Port) (tag : Byte) (handle : Handle) (s : State) : State :=
  serveHold p tag .cancelHold (judgeHold .cancelHold p handle s) (fun h => .release h.amount h.deadline)
    (acceptCancel p tag) s

/-- A taken CANCEL_HOLD (R74). -/
def execCancelHold (p : Port) (tag : Byte) (handle : Handle) (s : State) : Host.Outcome State Fault Refusal :=
  .next (taking p ⟨tag, Kind.cancelHold.code, handleBytes handle, .untaken⟩ s (evalCancelHold p tag handle))

/-! ## HOLD_STATUS -/

/-- The order of refusals of HOLD_STATUS (R62, R75): resolution, and Table 1-3 for an OPEN or SETTLING hold; a LAPSED
hold does not reach that check (R3). -/
def judgeHoldStatus (p : Port) (handle : Handle) (s : State) : Except Status HoldState :=
  match admission .holdStatus p s with
  | some st => .error st
  | none =>
    match resolve s handle with
    | none => .error .noSuchHold
    | some n =>
      match (s.hold n).state with
      | .free => .error .noSuchHold
      | .lapsed h second => .ok (.lapsed h second)
      | .open h =>
        match stateCheck .holdStatus (s.slot h.slot) with
        | some st => .error st
        | none => .ok (.open h)
      | .settling h c r =>
        match stateCheck .holdStatus (s.slot h.slot) with
        | some st => .error st
        | none => .ok (.settling h c r)

/-- HOLD_STATUS (R75). -/
def evalHoldStatus (p : Port) (tag : Byte) (handle : Handle) (s : State) : State :=
  serve p tag .holdStatus (judgeHoldStatus p handle s) (fun h s => answer p tag .holdStatus .ok (.hold h) s) s

/-- A taken HOLD_STATUS (R75). -/
def execHoldStatus (p : Port) (tag : Byte) (handle : Handle) (s : State) : Host.Outcome State Fault Refusal :=
  .next (taking p ⟨tag, Kind.holdStatus.code, handleBytes handle, .untaken⟩ s (evalHoldStatus p tag handle))

/-! ## The second tick -/

/-- The hold of entry `n` when it is OPEN with its deadline at or before the counter's value (R60). -/
def dueHold (s : State) (n : HoldNo) : Option Hold :=
  match (s.hold n).state with
  | .open h => if h.deadline.toNat ≤ s.seconds.toNat then some h else none
  | .free | .settling _ _ _ | .lapsed _ _ => none

/-- The lapse of entry `n` when it is due (R60): LAPSED with the counter's value, and HOLD_LAPSED is raised. -/
def lapseEntry (s : State) (n : HoldNo) : State :=
  match dueHold s n with
  | none => s
  | some h =>
    raiseAlert .holdLapsed (.hold n (s.hold n).generation h.key)
      (s.setHold n { s.hold n with state := .lapsed h s.seconds })

/-- The slots of the holds that are due, in ascending order of entry. -/
def dueSlots (s : State) : List SlotNo := (List.finRange 32).filterMap (fun n => (dueHold s n).map (·.slot))

/-- The lapses of a tick, then the re-evaluation of each slot that lost a hold (R60; log 26). -/
def lapseHolds (s : State) : State :=
  (dueSlots s).foldl (fun s i => reevaluate i s) ((List.finRange 32).foldl lapseEntry s)

/-- The seconds counter ticks (R59): in OPEN and RESTARTING, until it stands at 4,294,967,295. -/
def ticks (s : State) : Bool :=
  !s.inReset && (decide (s.phase = .open) || decide (s.phase = .restarting)) && decide (s.seconds.toNat < maxWord)

/-- The second tick (R59, R60). -/
def execSecondTick (s : State) : Host.Outcome State Fault Refusal :=
  .next (if ticks s then lapseHolds { s with seconds := s.seconds + 1 } else s)

end Sys2Proof.Machine
end

