-- ==== Sys2Proof/Machine/Ports.lean ====
section
/-! DEFINITION. Ports: BAD_REQUEST, the SPI transactions of the Terminal Port and the I2C transactions of the Service
Port (chapters 10 and 11). -/

namespace Sys2Proof.Machine

/-! ## BAD_REQUEST -/

/-- A taken request of an unknown kind is answered BAD_REQUEST before step 1, with no body (R152, R162). -/
def evalBadRequest (p : Port) (tag kind : Byte) (s : State) : State :=
  answerCode p tag kind .badRequest .zeros s

/-- A taken request outside the catalogue (R152). A kind of the catalogue is no such request (log 31). -/
def execBadRequest (p : Port) (tag kind : Byte) (body : List Byte) (s : State) : Host.Outcome State Fault Refusal :=
  .next (if Kind.ofCode kind = none then taking p ⟨tag, kind, body, .untaken⟩ s (evalBadRequest p tag kind) else s)

/-! ## The checks of a submitted frame (R155) -/

/-- The places of a port's window (R148). -/
def windowPlaces : Port → Nat
  | .terminal => Config.terminalPlaces
  | .service => Config.servicePlaces

/-- A length byte within 4 to 32 (R155). -/
def lengthInRange (n : Nat) : Bool := decide (4 ≤ n ∧ n ≤ 32)

/-- The kind is unknown, or the length is the one its frame has (R155). -/
def lengthFitsKind (kind : Byte) (n : Nat) : Bool :=
  match Kind.ofCode kind with
  | none => true
  | some k => decide (k.requestLength = n)

/-- The request a frame of `n` bytes carries (R162). -/
def requestIn (n : Nat) (bytes : List Byte) : Request :=
  ⟨byteAt bytes 1, byteAt bytes 2, (bytes.take (n - 1)).drop 3, .untaken⟩

/-- The frame check of a submit (R155): the request of a good frame, none for a FRAME_ERROR. Bytes after the number
the length byte gives are ignored. -/
def checkFrame (bytes : List Byte) : Option Request :=
  match bytes with
  | [] => none
  | b :: _ =>
    let n := b.toNat
    if lengthInRange n && decide (n ≤ bytes.length) && crc8 (bytes.take (n - 1)) == byteAt bytes (n - 1)
        && lengthFitsKind (byteAt bytes 2) n then
      some (requestIn n bytes)
    else none

/-- The Terminal tag check (R155): a request in the window carries the tag. The Service Port makes none. -/
def tagInUse (p : Port) (window : List Request) (tag : Byte) : Bool :=
  match p with
  | .terminal => window.any (fun q => q.tag == tag)
  | .service => false

/-- The checks at the end of a submit, in order (R155): the outcome, and the request where it is ACCEPTED. -/
def judgeSubmit (p : Port) (bytes : List Byte) (s : State) : Except SubmitOutcome Request :=
  if s.phase ≠ .open then .error .notReady
  else
    match checkFrame bytes with
    | none => .error .frameError
    | some q =>
      if windowPlaces p ≤ (s.port p).window.length then .error .windowFull
      else if tagInUse p (s.port p).window q.tag then .error .duplicateTag
      else .ok q

/-- The end of a submit (R154, R155, R148): the outcome is recorded, and an accepted request takes the last place in
acceptance order as UNTAKEN. -/
def endSubmit (p : Port) (bytes : List Byte) (s : State) : State :=
  let v := s.port p
  match judgeSubmit p bytes s with
  | .error o => s.setPort p { v with outcome := o }
  | .ok q => s.setPort p { v with outcome := .accepted, window := v.window ++ [q] }

/-! ## Collecting (R157, R159) -/

/-- The frame a collect sends: the head of the response queue, or the empty frame (R157). -/
def collectFrame (v : PortState) : List Byte :=
  match v.responses with
  | [] => emptyFrame
  | r :: _ => responseFrame r

/-- The bytes of a fixed frame that `n` clocked bytes carry, 255 after its CRC-8 (R157, R159). -/
def clockedOut (frame : List Byte) (n : Nat) : List Byte :=
  frame.take n ++ List.replicate (n - frame.length) 255

/-- The head response leaves its queue and its request leaves the window (R150, R157). -/
def removeHead (v : PortState) : PortState :=
  match v.responses with
  | [] => v
  | r :: rest => { v with responses := rest, window := v.window.eraseP (fun q => q.tag == r.tag) }

/-- A collection of `n` frame bytes ends (R157, R159): complete where every byte of the frame has gone out, and cut
short otherwise. -/
def endCollect (p : Port) (n : Nat) (s : State) : State :=
  if (collectFrame (s.port p)).length ≤ n then s.setPort p (removeHead (s.port p)) else s

/-- The bytes a port has sent in a transaction, and what it acknowledged (log 6). -/
def recordWire (p : Port) (sent : List Byte) (acknowledged : Nat) (s : State) : State :=
  s.setPort p { s.port p with wire := ⟨sent, acknowledged⟩ }

/-- The whole port status byte has gone out: the submit outcome becomes NONE (R154). -/
def clearOutcome (p : Port) (s : State) : State := s.setPort p { s.port p with outcome := .none }

/-- What a status-bearing transaction of port `p` sends and clears: the port status as it stood when the transaction
began, then the given bytes (R154). -/
def sendStatus (p : Port) (rest : List Byte) (acknowledged : Nat) (s : State) : State :=
  clearOutcome p (recordWire p (portStatus s p :: rest) acknowledged s)

/-! ## SPI (R156, R157) -/

/-- The transaction code SUBMIT (R163). -/
def submitCode : Byte := 0x0A

/-- The transaction code COLLECT (R163). -/
def collectCode : Byte := 0x0C

/-- The course of an SPI transaction (R156, R157). -/
inductive SpiCourse where
  | submit
  | collect
  | status
  deriving DecidableEq, Repr

/-- The course the code byte gives (R156, R163): STATUS for its own code 0Fh and for every code byte that is no code. -/
def spiCourse (code : Byte) : SpiCourse :=
  if code = submitCode then .submit else if code = collectCode then .collect else .status

/-- The course SUBMIT (R156): the status goes out, 255 after it, and the submit ends at the rise of nCS. -/
def spiSubmit (received : List Byte) (s : State) : State :=
  endSubmit .terminal received (sendStatus .terminal (List.replicate received.length 255) 0 s)

/-- The course COLLECT with `n` bytes clocked after the port status (R157), and the end of the collection wait where it
takes the last response (R126). -/
def spiCollect (n : Nat) (s : State) : State :=
  checkDrain (endCollect .terminal n (sendStatus .terminal (clockedOut (collectFrame s.terminal) n) 0 s))

/-- The course STATUS with `n` bytes clocked after the port status (R156): the status goes out and 255 after it. -/
def spiStatus (n : Nat) (s : State) : State := sendStatus .terminal (List.replicate n 255) 0 s

/-- An SPI transaction with this code byte and the bytes received after it, those of a COLLECT and of a STATUS ignored
(R156, R157, R163). During a reset no transaction takes part (R161). -/
def spiTransaction (code : Byte) (received : List Byte) (s : State) : State :=
  if s.inReset then s
  else
    match spiCourse code with
    | .submit => spiSubmit received s
    | .collect => spiCollect received.length s
    | .status => spiStatus received.length s

/-- An SPI transaction with the code byte of SUBMIT (R156, R163). -/
def execSubmit (bytes : List Byte) (s : State) : Host.Outcome State Fault Refusal :=
  .next (spiTransaction submitCode bytes s)

/-- An SPI transaction with the code byte of COLLECT (R157, R163); what comes in on SDI has no effect. -/
def execCollect (clocked : Nat) (s : State) : Host.Outcome State Fault Refusal :=
  .next (spiTransaction collectCode (List.replicate clocked 0) s)

/-- An SPI transaction with the code byte given (R156, R163): a STATUS for every code byte but those of SUBMIT and
COLLECT, which make it the transaction of that code. -/
def execStatus (code : Byte) (received : List Byte) (s : State) : Host.Outcome State Fault Refusal :=
  .next (spiTransaction code received s)

/-- An SPI transaction of fewer than 8 clocks is void: the outcome stays and nothing else changes (R156). -/
def execVoidTransaction (_clocks : Nat) (s : State) : Host.Outcome State Fault Refusal := .next s

/-! ## I2C (R158, R159) -/

/-- The Service Port takes part in a transaction to this address (R158, R161). -/
def addressed (address : BitVec 7) (s : State) : Bool := !s.inReset && decide (address = s.serviceAddress)

/-- An I2C write to the port (R158): the address and every data byte are acknowledged, no status goes out, and a write
with at least one data byte is a submit. -/
def serviceWrite (bytes : List Byte) (s : State) : State :=
  let s := recordWire .service [] (bytes.length + 1) s
  if bytes = [] then s else endSubmit .service bytes s

/-- An I2C write (R158). A write to another address does not concern the part. -/
def execI2cWrite (address : BitVec 7) (bytes : List Byte) (s : State) : Host.Outcome State Fault Refusal :=
  .next (if addressed address s then serviceWrite bytes s else s)

/-- An I2C read of `count` bytes from the port (R159): the status is the first byte, the fixed frame follows. A read of
no byte sends no status and collects nothing (log 25). -/
def serviceRead (count : Nat) (s : State) : State :=
  match count with
  | 0 => recordWire .service [] 1 s
  | n + 1 =>
    checkDrain (endCollect .service n (sendStatus .service (clockedOut (collectFrame s.service) n) 1 s))

/-- An I2C read (R159). -/
def execI2cRead (address : BitVec 7) (count : Nat) (s : State) : Host.Outcome State Fault Refusal :=
  .next (if addressed address s then serviceRead count s else s)

end Sys2Proof.Machine
end

