-- ==== Sys2Proof/Machine/Startup.lean ====
section
/-! DEFINITION. Startup: the Start-up Controller (chapter 7): READ_REPORT, RESTART, the RESET line, the end of a reset,
the scan and the end of the collection wait. -/

namespace Sys2Proof.Machine

/-! ## READ_REPORT -/

/-- The slots that are not VACANT (R124). -/
def accountsInUse (s : State) : Nat := s.slots.toList.countP (fun v => decide (v.state ≠ .vacant))

/-- The hold entries that are OPEN, SETTLING or LAPSED (R124). -/
def holdsInUse (s : State) : Nat := s.holds.toList.countP (fun e => decide (e.state ≠ .free))

/-- The figures of a READ_REPORT (R124). -/
def reportFigures (s : State) : Figures :=
  .report s.report s.freeList.length s.wornSet.length (accountsInUse s) (holdsInUse s)

/-- READ_REPORT (R124). -/
def evalReadReport (p : Port) (tag : Byte) (s : State) : State := answer p tag .readReport .ok (reportFigures s) s

/-- A taken READ_REPORT (R124). -/
def execReadReport (p : Port) (tag : Byte) (s : State) : Host.Outcome State Fault Refusal :=
  .next (taking p ⟨tag, Kind.readReport.code, [], .untaken⟩ s (evalReadReport p tag))

/-! ## RESTART -/

/-- An UNTAKEN Terminal request is answered RESTARTING (R125). -/
def answerRestarting (s : State) (q : Request) : State := answerCode .terminal q.tag q.kind .restarting .zeros s

/-- The UNTAKEN requests of the Terminal window, in acceptance order. -/
def untakenTerminal (s : State) : List Request := s.terminal.window.filter (fun q => decide (q.state = .untaken))

/-- RESTART accepted (R125, R126): OK, phase RESTARTING, RESTARTING to every UNTAKEN Terminal request, and the
collection wait where the commit queue is empty already. -/
def acceptRestart (p : Port) (tag : Byte) (s : State) : State :=
  let s := answer p tag .restart .ok .zeros s
  let s := { s with phase := .restarting }
  checkDrain ((untakenTerminal s).foldl answerRestarting s)

/-- Step 1 of RESTART (R125). -/
def judgeRestart (p : Port) (s : State) : Except Status Unit :=
  match admission .restart p s with
  | some st => .error st
  | none => .ok ()

/-- RESTART (R125). -/
def evalRestart (p : Port) (tag : Byte) (s : State) : State :=
  serve p tag .restart (judgeRestart p s) (fun _ s => acceptRestart p tag s) s

/-- A taken RESTART (R125). -/
def execRestart (p : Port) (tag : Byte) (s : State) : Host.Outcome State Fault Refusal :=
  .next (taking p ⟨tag, Kind.restart.code, [], .untaken⟩ s (evalRestart p tag))

/-! ## The RESET line, the end of a reset, the end of the wait -/

/-- The RESET line is asserted: the attempt under way is abandoned and a RESET_LINE reset begins (R95, R113). -/
def execResetLine (cut : CutResult) (s : State) : Host.Outcome State Fault Refusal :=
  .next (beginReset .resetLine (abandonAttempt cut s))

/-- The target address from the levels of ADR1 and ADR0 (R158). -/
def sampledAddress (adr1 adr0 : Bool) : BitVec 7 :=
  BitVec.ofNat 7 (Config.baseAddress + 2 * adr1.toNat + adr0.toNat)

/-- At the end of a reset the supply is at or above the reset level (R113). -/
def SupplyLevel.atResetEnd : SupplyLevel → SupplyLevel
  | .belowReset => .belowSafe
  | .belowSafe => .belowSafe
  | .safe => .safe

/-- The steady timer as a reset ends: it starts as soon as the supply is at or above 2.95 V (R129). -/
def SupplyLevel.timerAtResetEnd : SupplyLevel → SteadyTimer
  | .belowReset => .stopped
  | .belowSafe => .stopped
  | .safe => .running

/-- The reset's cause has ended (R113, R129, R158): phase STARTING, the address sampled. -/
def resetEnd (adr1 adr0 : Bool) (s : State) : State :=
  if s.inReset then
    { s with
      inReset := false
      phase := .starting
      serviceAddress := sampledAddress adr1 adr0
      vdd := s.vdd.atResetEnd
      steadyTimer := s.vdd.timerAtResetEnd }
  else s

/-- The end of a reset (R113). -/
def execResetEnd (adr1 adr0 : Bool) (s : State) : Host.Outcome State Fault Refusal := .next (resetEnd adr1 adr0 s)

/-- 2 s of crystal time have passed since the collection wait began: the RESTART reset is made (R126). -/
def execCollectionWaitExpiry (s : State) : Host.Outcome State Fault Refusal :=
  .next (if s.collectionWait then beginReset .restart s else s)

/-! ## What the scan reads of a pair (R99, R100, R103) -/

/-- The copy is valid (R99). -/
def isValid (c : Copy) : Bool := decide (classify c = .valid)

/-- The copy is torn (R99). -/
def isTorn (c : Copy) : Bool := decide (classify c = .torn)

/-- The newest of two copies of which some count: the higher sequence, copy A on a tie, none where none counts. -/
def newestOf (counts : Copy → Bool) (c : CellPair) : Option CopyName :=
  if counts c.a then
    if counts c.b && decide (c.a.sequence.toNat < c.b.sequence.toNat) then some .b else some .a
  else if counts c.b then some .b
  else none

/-- The newest valid copy (R100). -/
def newestValid (c : CellPair) : Option CopyName := newestOf isValid c

/-- The newest sequence (R100). -/
def newestSequence (c : CellPair) : Word :=
  match newestValid c with
  | none => 0
  | some n => (c.copy n).sequence

/-- The wear of a copy's header, 0 where the copy is not valid. -/
def headerWear (c : Copy) : Nat := if isValid c then c.wear.toNat else 0

/-- The wear of a pair from its copies, formed in full (R103). -/
def scannedWear (c : CellPair) : Nat :=
  max (headerWear c.a) (headerWear c.b) + (if isTorn c.a || isTorn c.b then 1 else 0)

/-- What the pair table holds of a pair after the scan. A wear that would pass 4,294,967,295 is a free value (log 9). -/
def scannedTrack (uses : Nat) (p : PairId) (c : CellPair) : PairTrack where
  wear := if scannedWear c ≤ maxWord then asWord (scannedWear c) else Config.wearPastRange uses (pairIndex p)
  newest := newestValid c
  newestSequence := newestSequence c

/-- The torn copies of a pair. -/
def tornIn (c : CellPair) : Nat := (if isTorn c.a then 1 else 0) + (if isTorn c.b then 1 else 0)

/-! ## The tariff classes (R40) -/

/-- A valid copy of kind TARIFF (R40). -/
def isTariff (c : Copy) : Bool := isValid c && c.kind == 2

/-- A class as the scan loads it (R40; two such copies of equal sequence: copy A, log 21). -/
def loadedClass (c : CellPair) : TariffClass :=
  match newestOf isTariff c with
  | none => TariffClass.undefined
  | some n =>
    { TariffClass.undefined with
      state := .defined
      rates := bodyRates (c.copy n).body
      sequence := some (c.copy n).sequence }

/-! ## The content of the account pairs (R116, R117) -/

/-- An account image or a close record in a pair, with its key and sequence (Table 7-3). -/
structure Claimant where
  pair : PairNo
  key : Word
  sequence : Word
  isImage : Bool
  body : BitVec 144
  deriving DecidableEq, Repr

/-- The copy holds an account image: kind ACCOUNT, a key, a class of 0 to 15, a balance not above its ceiling
(Table 7-3). -/
def holdsAccount (c : Copy) : Bool :=
  c.kind == 1 && bodyKey c.body != 0 && decide ((bodyClass c.body).toNat < 16)
    && decide ((bodyBalance c.body).toNat ≤ (bodyCeiling c.body).toNat)

/-- The copy holds a close record: kind EMPTY carrying a key (Table 7-3). -/
def holdsClose (c : Copy) : Bool := c.kind == 3 && bodyKey c.body != 0

/-- The content of a pair, from its newest valid copy alone (R116). -/
def contentOf (p : PairNo) (c : CellPair) : Option Claimant :=
  match newestValid c with
  | none => none
  | some n =>
    let k := c.copy n
    if holdsAccount k then some ⟨p, bodyKey k.body, k.sequence, true, k.body⟩
    else if holdsClose k then some ⟨p, bodyKey k.body, k.sequence, false, k.body⟩
    else none

/-- Every account image and close record in the account pairs, in ascending pair number. -/
def claimants (s : State) : List Claimant :=
  (List.finRange 288).filterMap (fun p => contentOf p (s.cells (.account p)))

/-- `x` beats `y` for their key: the higher sequence, the lower pair number where they share it (R117). -/
def Claimant.beats (x y : Claimant) : Bool :=
  x.key == y.key
    && decide (y.sequence.toNat < x.sequence.toNat ∨ (x.sequence = y.sequence ∧ x.pair.val < y.pair.val))

/-- `x` is the winner of its key (R117). -/
def winsKey (all : List Claimant) (x : Claimant) : Bool := !all.any (fun y => y.beats x)

/-- An account image takes its place in key order. -/
def insertByKey (x : Claimant) : List Claimant → List Claimant
  | [] => [x]
  | y :: rest => if x.key.toNat < y.key.toNat then x :: y :: rest else y :: insertByKey x rest

/-- The winners to be loaded, in ascending order of key (R117, R118). -/
def winners (all : List Claimant) : List Claimant :=
  (all.filter (fun x => x.isImage && winsKey all x)).foldr insertByKey []

/-- The account images that lost their key: their pairs become STALE (R117). -/
def losers (all : List Claimant) : List Claimant := all.filter (fun x => x.isImage && !winsKey all x)

/-- The keys for which at least one pair became STALE (R117): each has one winner. -/
def duplicateKeys (all : List Claimant) : Nat :=
  all.countP (fun x => winsKey all x && (losers all).any (fun y => y.key == x.key))

/-! ## Loading and placing (R118, R119) -/

/-- The slot of a loaded account (R2): its indicators follow the conditions, with no hold and no pending image. -/
def loadedSlot (x : Claimant) : Slot :=
  let b := x.body
  { Slot.vacant with
    state := markedState (bodyFrozen b)
    key := some x.key
    cls := (classOf (bodyClass b)).getD 0
    balance := bodyBalance b
    ceiling := bodyCeiling b
    threshold := bodyThreshold b
    frozenMark := bodyFrozen b
    sequence := some x.sequence
    currentPair := some x.pair
    low := lowCreditHolds (bodyThreshold b) (bodyBalance b).toNat
    exhausted := exhaustedHolds (bodyBalance b).toNat }

/-- Slot `i` after the scan: the `i`-th loaded account in key order, VACANT where none is left (R2, R118). -/
def scannedSlot (loaded : List Claimant) (i : SlotNo) : Slot :=
  match loaded[i.val]? with
  | none => Slot.vacant
  | some x => loadedSlot x

/-- The loaded accounts with their slots, in key order (R118). -/
def numbered (loaded : List Claimant) : List (Claimant × SlotNo) := loaded.zip (List.finRange 256)

/-- The role of pair `p` (R117 to R119): CURRENT for a loaded winner, WORN for an excess account, STALE for a losing
image, and FREE or WORN by wear for every other pair. -/
def scannedRole (loaded excess lost : List Claimant) (p : PairNo) (wear : Nat) : PairRole :=
  match (numbered loaded).find? (fun x => x.1.pair == p) with
  | some x => .current x.2
  | none =>
    if excess.any (fun x => x.pair == p) then .worn
    else if lost.any (fun x => x.pair == p) then .stale
    else if Config.wearLimit ≤ wear then .worn
    else .free

/-- The pair table record of account pair `p` after the scan (R104). -/
def scannedPair (s : State) (loaded excess lost : List Claimant) (p : PairNo) : PairRecord :=
  let t := scannedTrack s.freeUses (.account p) (s.cells (.account p))
  ⟨some (scannedRole loaded excess lost p t.wear.toNat), t⟩

/-- The account pairs of a role without a slot, in ascending number. -/
def pairsWith (s : State) (r : PairRole) : List PairNo :=
  (List.finRange 288).filter (fun p => decide ((s.pair p).role = some r))

/-- The counts of the recovery report that the scan fills in (R123). -/
def scannedReport (r : Report) (accounts torn duplicates excess classes : Nat) : Report :=
  { r with
    accountsLoaded := accounts
    tornCopies := torn
    duplicateKeys := duplicates
    excessAccounts := excess
    classesDefined := classes }

/-- The torn copies of every pair (R116). -/
def tornCopies (s : State) : Nat :=
  (s.accountCells.toList.map tornIn).sum + (s.tariffCells.toList.map tornIn).sum

/-- The tables as the scan reads them: classes, pair table, slots, key index and report, without the free list and the
worn set (R116 to R118, R40). -/
def scanTables (s : State) : State :=
  let all := claimants s
  let winning := winners all
  let loaded := winning.take 256
  let excess := winning.drop 256
  let classes := tabulate (fun n => loadedClass (s.cells (.tariff n)))
  { s with
    slots := tabulate (scannedSlot loaded)
    keyIndex := (numbered loaded).map (fun x => (x.1.key, x.2))
    tariffs := classes
    accountPairs := tabulate (scannedPair s loaded excess (losers all))
    tariffPairs := tabulate (fun n => scannedTrack s.freeUses (.tariff n) (s.cells (.tariff n)))
    report := scannedReport s.report loaded.length (tornCopies s) (duplicateKeys all) excess.length
      (classes.toList.countP (fun c => decide (c.state = .defined)))
    freeUses := s.freeUses + 1 }

/-- The free list and the worn set built from the roles (R106, R108, R119). -/
def buildLists (s : State) : State :=
  { s with
    freeList := (pairsWith s .free).foldr (insertFree s) []
    wornSet := pairsWith s .worn }

/-- SCAN: the tables are built, the phase becomes TIDYING, and tidying begins (R116 to R120). -/
def scan (s : State) : State :=
  if s.inReset = false ∧ s.phase = .scanning then
    tidyNext { buildLists (scanTables s) with phase := .tidying }
  else s

/-- The scan (R116). -/
def execScan (s : State) : Host.Outcome State Fault Refusal := .next (scan s)

end Sys2Proof.Machine
end

