-- ==== Sys2Proof/Machine/Supply.lean ====
section
/-! DEFINITION. Supply: the Supply Monitor's events (chapter 8): the supply pin, the change to LOW, the change to GOOD
and the collapse. -/

namespace Sys2Proof.Machine

/-! ## The pin and the steady timer (R129) -/

/-- SUPPLY_RISE: the supply rises to 2.95 V or above; in LOW, outside a reset, the steady timer starts (R129). -/
def supplyRise (s : State) : State :=
  if s.inReset = false ∧ s.supply = .low then { s with vdd := .safe, steadyTimer := .running }
  else { s with vdd := .safe }

/-- A rise of the supply (R129). -/
def execSupplyRise (s : State) : Host.Outcome State Fault Refusal := .next (supplyRise s)

/-- The pin after a fall below 2.95 V that stays above the level the state turns on: a pin below the reset level
stays there. -/
def SupplyLevel.ripple : SupplyLevel → SupplyLevel
  | .belowReset => .belowReset
  | .belowSafe => .belowSafe
  | .safe => .belowSafe

/-- SUPPLY_RIPPLE: the supply falls below 2.95 V without a change of state; the timer returns to 0 and stops
(R129). -/
def supplyRipple (s : State) : State := { s with vdd := s.vdd.ripple, steadyTimer := .stopped }

/-- A ripple of the supply (R129). -/
def execSupplyRipple (s : State) : Host.Outcome State Fault Refusal := .next (supplyRipple s)

/-! ## The change to LOW (R130) -/

/-- The phases in which supply alerts are raised (R134). -/
def supplyAlertsOn (s : State) : Bool := decide (s.phase = .open) || decide (s.phase = .restarting)

/-- The change from GOOD to LOW (R130): SUPPLY_LOW is raised as the state changes, then the WAITING entries are dropped
in queue order. -/
def enterLow (s : State) : State :=
  let s := { s with supply := .low, steadyTimer := .stopped, vdd := .belowSafe }
  dropWaiting (raiseIf (supplyAlertsOn s) .supplyLow .none s)

/-- CHANGE_TO_LOW: in GOOD the change of R130 with the drain of RESTARTING (R126); otherwise the supply only falls
below 2.95 V (log 23). -/
def changeToLow (s : State) : State :=
  if s.inReset = false ∧ s.supply = .good then checkDrain (enterLow s) else supplyRipple s

/-- A fall of the supply below 2.85 V (R130). -/
def execChangeToLow (s : State) : Host.Outcome State Fault Refusal := .next (changeToLow s)

/-! ## The change to GOOD (R133) -/

/-- Programming resumes with the head (R93): a WAITING head has its first program begun, with target and sequence
settled from the tables as they stand; a head stopped after a failed verify has its next attempt started on the copy
already settled; an empty queue starts nothing. -/
def resumeHead (s : State) : State :=
  match s.commitQueue with
  | [] => s
  | e :: _ =>
    match e.stage.attempt with
    | none => beginFirst s
    | some t => if t.underWay then s else beginAttempt e s

/-- STARTING ends at the change to GOOD (R115). -/
def phaseAtGood : Phase → Phase
  | .starting => .scanning
  | .scanning => .scanning
  | .tidying => .tidying
  | .open => .open
  | .restarting => .restarting

/-- The change of state itself (R133): GOOD with the timer stopped, the end of STARTING, and SUPPLY_RESTORED in OPEN or
RESTARTING, decided on the phase at the change (R134). -/
def supplyGood (s : State) : State :=
  raiseIf (supplyAlertsOn s) .supplyRestored .none
    { s with supply := .good, steadyTimer := .stopped, phase := phaseAtGood s.phase }

/-- The change from LOW to GOOD (R133): the change of state, and programming resumes with the head. -/
def enterGood (s : State) : State := resumeHead (supplyGood s)

/-- CHANGE_TO_GOOD: the running steady timer reaches 64 ms (R129, R133). -/
def changeToGood (s : State) : State :=
  if s.inReset = false ∧ s.supply = .low ∧ s.steadyTimer = .running then enterGood s else s

/-- The steady timer reaches 64 ms (R133). -/
def execChangeToGood (s : State) : Host.Outcome State Fault Refusal := .next (changeToGood s)

/-! ## The collapse (R135) -/

/-- SUPPLY_COLLAPSE: the supply falls below 2.30 V; the attempt under way is abandoned and a POWER_ON reset begins
(R95, R113, R135). -/
def supplyCollapse (cut : CutResult) (s : State) : State :=
  { beginReset .powerOn (abandonAttempt cut s) with vdd := .belowReset }

/-- A collapse of the supply (R135). -/
def execSupplyCollapse (cut : CutResult) (s : State) : Host.Outcome State Fault Refusal :=
  .next (supplyCollapse cut s)

end Sys2Proof.Machine
end

