-- ==== Sys2Proof/Machine/Tariffs.lean ====
section
/-! DEFINITION. Tariffs: QUOTE, READ_TARIFF and SET_TARIFF (chapter 3). -/

namespace Sys2Proof.Machine

/-- Steps 1 to 3 for a tariff request (R45): the class between 0 and 15, or the refusal. -/
def judgeClass (k : Kind) (p : Port) (cls : Byte) (s : State) : Except Status ClassNo :=
  match admission k p s with
  | some st => .error st
  | none =>
    match classOf cls with
    | none => .error .badClass
    | some n => .ok n

/-! ## QUOTE -/

/-- The order of refusals of QUOTE (R45): BAD_CLASS at step 4 for an UNDEFINED class. -/
def judgeQuote (p : Port) (cls : Byte) (s : State) : Except Status ClassNo :=
  match judgeClass .quote p cls s with
  | .error st => .error st
  | .ok n => if (s.tariff n).state = .undefined then .error .badClass else .ok n

/-- The figures of a QUOTE (R46): the three parts and the charge at given values. -/
def quoteFigures (r : Rates) (units : Half) : Figures :=
  .quote (asWord r.fee.toNat) (asWord (tier1Part r units)) (asWord (tier2Part r units)) (asWord (charge r units))

/-- QUOTE (R46). -/
def evalQuote (p : Port) (tag : Byte) (cls : Byte) (units : Half) (s : State) : State :=
  serve p tag .quote (judgeQuote p cls s)
    (fun n s => answer p tag .quote .ok (quoteFigures (s.tariff n).rates units) s) s

/-- A taken QUOTE (R46). -/
def execQuote (p : Port) (tag : Byte) (cls : Byte) (units : Half) (s : State) : Host.Outcome State Fault Refusal :=
  .next (taking p ⟨tag, Kind.quote.code, quoteBody cls units, .untaken⟩ s (evalQuote p tag cls units))

/-! ## READ_TARIFF -/

/-- The figures of a READ_TARIFF (R47). -/
def tariffFigures (v : TariffClass) : Figures := .tariff v.state v.rates v.pending.isSome v.storeFault

/-- READ_TARIFF (R47). -/
def evalReadTariff (p : Port) (tag : Byte) (cls : Byte) (s : State) : State :=
  serve p tag .readTariff (judgeClass .readTariff p cls s)
    (fun n s => answer p tag .readTariff .ok (tariffFigures (s.tariff n)) s) s

/-- A taken READ_TARIFF (R47). -/
def execReadTariff (p : Port) (tag : Byte) (cls : Byte) (s : State) : Host.Outcome State Fault Refusal :=
  .next (taking p ⟨tag, Kind.readTariff.code, [cls], .untaken⟩ s (evalReadTariff p tag cls))

/-! ## SET_TARIFF -/

/-- The order of refusals of SET_TARIFF (R45): STORE_FAULT at step 4 while the store-fault indicator is set. -/
def judgeSetTariff (p : Port) (cls : Byte) (s : State) : Except Status ClassNo :=
  match judgeClass .setTariff p cls s with
  | .error st => .error st
  | .ok n => if (s.tariff n).storeFault then .error .storeFault else .ok n

/-- SET_TARIFF on class `n` (R48): answered at once when the class is DEFINED with these values, else the values are
the class's pending image and a TARIFF_IMAGE entry joins, the response deferred. -/
def acceptSetTariff (p : Port) (tag : Byte) (rates : Rates) (n : ClassNo) (s : State) : State :=
  let v := s.tariff n
  if v.state = .defined ∧ v.rates = rates then answer p tag .setTariff .ok .zeros s
  else
    defer p tag
      (joinQueue (.tariffImage n) (.tariff rates) (some p) (some tag)
        (s.setTariff n { v with pending := some ⟨rates, p, tag⟩ }))

/-- SET_TARIFF (R48). -/
def evalSetTariff (p : Port) (tag : Byte) (cls : Byte) (rates : Rates) (s : State) : State :=
  serve p tag .setTariff (judgeSetTariff p cls s) (acceptSetTariff p tag rates) s

/-- A taken SET_TARIFF (R48). -/
def execSetTariff (p : Port) (tag : Byte) (cls : Byte) (rates : Rates) (s : State) :
    Host.Outcome State Fault Refusal :=
  .next (taking p ⟨tag, Kind.setTariff.code, tariffBody cls rates, .untaken⟩ s (evalSetTariff p tag cls rates))

end Sys2Proof.Machine
end

