-- ==== Sys2Proof/Machine/Dispatch.lean ====
section
/-! DEFINITION. Dispatch: one meaning for every command. -/

namespace Sys2Proof.Machine

/-- The effect of a command on everything but the queue of commands. -/
def exec (i : Instr) (s : State) : Host.Outcome State Fault Refusal :=
  match i with
  | .lookup p tag key => Sys2Proof.Machine.execLookup p tag key s
  | .listNext p tag key => Sys2Proof.Machine.execListNext p tag key s
  | .openAccount p tag key cls initial ceiling threshold => Sys2Proof.Machine.execOpenAccount p tag key cls initial ceiling threshold s
  | .closeAccount p tag key => Sys2Proof.Machine.execCloseAccount p tag key s
  | .freeze p tag key => Sys2Proof.Machine.execFreeze p tag key s
  | .thaw p tag key => Sys2Proof.Machine.execThaw p tag key s
  | .setClass p tag key cls => Sys2Proof.Machine.execSetClass p tag key cls s
  | .credit p tag key amount => Sys2Proof.Machine.execCredit p tag key amount s
  | .debitAmount p tag key amount => Sys2Proof.Machine.execDebitAmount p tag key amount s
  | .debitUnits p tag key units => Sys2Proof.Machine.execDebitUnits p tag key units s
  | .setLimits p tag key ceiling threshold => Sys2Proof.Machine.execSetLimits p tag key ceiling threshold s
  | .quote p tag cls units => Sys2Proof.Machine.execQuote p tag cls units s
  | .readTariff p tag cls => Sys2Proof.Machine.execReadTariff p tag cls s
  | .setTariff p tag cls rates => Sys2Proof.Machine.execSetTariff p tag cls rates s
  | .openHold p tag key amount duration => Sys2Proof.Machine.execOpenHold p tag key amount duration s
  | .extendHold p tag handle seconds => Sys2Proof.Machine.execExtendHold p tag handle seconds s
  | .settleHold p tag handle units => Sys2Proof.Machine.execSettleHold p tag handle units s
  | .cancelHold p tag handle => Sys2Proof.Machine.execCancelHold p tag handle s
  | .holdStatus p tag handle => Sys2Proof.Machine.execHoldStatus p tag handle s
  | .readClock p tag => Sys2Proof.Machine.execReadClock p tag s
  | .fetchAlert p tag filter => Sys2Proof.Machine.execFetchAlert p tag filter s
  | .setAlertMask p tag mask => Sys2Proof.Machine.execSetAlertMask p tag mask s
  | .readReport p tag => Sys2Proof.Machine.execReadReport p tag s
  | .restart p tag => Sys2Proof.Machine.execRestart p tag s
  | .badRequest p tag kind body => Sys2Proof.Machine.execBadRequest p tag kind body s
  | .submit bytes => Sys2Proof.Machine.execSubmit bytes s
  | .collect clocked => Sys2Proof.Machine.execCollect clocked s
  | .status code received => Sys2Proof.Machine.execStatus code received s
  | .voidTransaction clocks => Sys2Proof.Machine.execVoidTransaction clocks s
  | .i2cWrite address bytes => Sys2Proof.Machine.execI2cWrite address bytes s
  | .i2cRead address count => Sys2Proof.Machine.execI2cRead address count s
  | .secondTick => Sys2Proof.Machine.execSecondTick s
  | .firstProgram => Sys2Proof.Machine.execFirstProgram s
  | .attemptComplete readBack => Sys2Proof.Machine.execAttemptComplete readBack s
  | .supplyRise => Sys2Proof.Machine.execSupplyRise s
  | .supplyRipple => Sys2Proof.Machine.execSupplyRipple s
  | .changeToLow => Sys2Proof.Machine.execChangeToLow s
  | .changeToGood => Sys2Proof.Machine.execChangeToGood s
  | .supplyCollapse cut => Sys2Proof.Machine.execSupplyCollapse cut s
  | .resetLine cut => Sys2Proof.Machine.execResetLine cut s
  | .resetEnd adr1 adr0 => Sys2Proof.Machine.execResetEnd adr1 adr0 s
  | .scan => Sys2Proof.Machine.execScan s
  | .collectionWaitExpiry => Sys2Proof.Machine.execCollectionWaitExpiry s

end Sys2Proof.Machine
end

