-- ==== Sys2Proof/Safety.lean ====
section
/-! DEFINITION. Safety: the laws of the manual, in the terms that claims use. -/

namespace Sys2Proof.Machine

/-- `t` is what exec answers for `c` on `s`. -/
abbrev Runs (c : Instr) (s t : State) : Prop := exec c s = .next t

/-- A law that every step keeps. -/
def StepKeeps (law : State → Prop) : Prop := ∀ s t : State, law s → step s = .next t → law t

/-! ## Alerts (R137) -/

/-- What makes two alert entries the same condition: kind and subject (R138). -/
def AlertEntry.condition (e : AlertEntry) : AlertKind × AlertSubject := (e.kind, e.subject)

/-- R137: at most 16 entries, no two with the same kind and subject, every URGENT entry before every ROUTINE entry. -/
abbrev AlertLaw (s : State) : Prop :=
  s.alerts.length ≤ Config.alertPlaces ∧ (s.alerts.map AlertEntry.condition).Nodup
    ∧ s.alerts.Pairwise (fun x y => y.urgent = true → x.urgent = true)

/-- An entry of this kind and subject stands in the alert queue, or the lost indicator is set (R140 to R142). -/
def Recorded (c : AlertKind × AlertSubject) (s : State) : Prop :=
  (∃ e ∈ s.alerts, e.condition = c) ∨ s.lost = true

/-! ## Windows (R148) -/

/-- R148: at most 4 Terminal requests and 1 Service request, and no two Terminal requests with the same tag. -/
abbrev WindowLaw (s : State) : Prop :=
  s.terminal.window.length ≤ Config.terminalPlaces ∧ s.service.window.length ≤ Config.servicePlaces
    ∧ (s.terminal.window.map (·.tag)).Nodup

/-! ## Balances (R24) -/

/-- R24: the committed balance is at most the committed ceiling, and a pending image's balance at most that image's
ceiling. -/
abbrev CeilingLaw (s : State) : Prop :=
  ∀ i : SlotNo, (s.slot i).balance.toNat ≤ (s.slot i).ceiling.toNat
    ∧ ∀ img ∈ (s.slot i).pending, img.balance.toNat ≤ img.ceiling.toNat

/-! ## The key index (R7) -/

/-- R7: the key index is strictly ascending by key, with no key twice, and holds no key 0. -/
abbrev KeyIndexLaw (s : State) : Prop :=
  s.keyIndex.Pairwise (fun x y => x.1.toNat < y.1.toNat) ∧ ∀ e ∈ s.keyIndex, e.1 ≠ 0

/-! ## Holds (R55, R66, R69, R71) -/

/-- The figures of a hold lie within their ranges: amount 1 or more (R55, R66), and a deadline after the opened second
by at most 14,400 s (R66, R69). -/
abbrev holdWithinSpan (h : Hold) : Prop :=
  1 ≤ h.amount.toNat ∧ h.opened.toNat < h.deadline.toNat ∧ h.deadline.toNat ≤ h.opened.toNat + Config.maxHoldSpan

/-- The fields of a hold entry in its state: a SETTLING hold's charge and residual add up to its amount with a charge
above 0 (R71), and a LAPSED hold lapsed at or after its deadline (R60). -/
def entryWithinRange (e : HoldEntry) : Bool :=
  match e.state with
  | .free => true
  | .open h => decide (holdWithinSpan h)
  | .settling h charge residual =>
    decide (holdWithinSpan h ∧ 1 ≤ charge.toNat ∧ charge.toNat + residual.toNat = h.amount.toNat)
  | .lapsed h second => decide (holdWithinSpan h ∧ h.deadline.toNat ≤ second.toNat)

/-- R55: every entry has a generation of 1 to 255, and its fields lie within their ranges. -/
abbrev HoldLaw (s : State) : Prop :=
  ∀ n : HoldNo, (s.hold n).generation ≠ 0 ∧ entryWithinRange (s.hold n) = true

/-! ## The commit queue (R81, R92) -/

/-- An entry stands stopped between two attempts: it has begun and no attempt is under way. -/
def CommitEntry.stopped (e : CommitEntry) : Bool := decide (e.stage ≠ .waiting) && !e.stage.underWay

/-- R81, R92: every entry behind the head is WAITING, and a head stopped between attempts stands so only while the
supply is LOW. -/
abbrev CommitLaw (s : State) : Prop :=
  (∀ e ∈ s.commitQueue.tail, e.stage = .waiting)
    ∧ ∀ e ∈ s.commitQueue, e.stopped = true → s.supply = .low

/-! ## Supply, phases and resets (R59, R78, R113, R115, R128, R129, R137, R153) -/

/-- R128, R129, R115: the steady timer runs only in LOW and outside a reset, and a part in STARTING is LOW; log 16: a
reset holds the part at STARTING. -/
abbrev SupplyLaw (s : State) : Prop :=
  (s.steadyTimer = .running → s.supply = .low ∧ s.inReset = false)
    ∧ (s.phase = .starting → s.supply = .low) ∧ (s.inReset = true → s.phase = .starting)

/-- The part serves its ports: phase OPEN or RESTARTING. -/
abbrev servesPorts (s : State) : Prop := s.phase = .open ∨ s.phase = .restarting

/-- The entry is a tidy entry. -/
def CommitEntry.isTidy (e : CommitEntry) : Bool :=
  match e.subject with
  | .tidyEmpty _ => true
  | .accountImage _ | .accountEmpty _ | .tariffImage _ => false

/-- What a port holds before OPEN: an empty window and an empty response queue (R153). -/
abbrev PortState.idle (v : PortState) : Prop := v.window = [] ∧ v.responses = []

/-- R153, R59, R57, R78, R137: outside OPEN and RESTARTING both windows and response queues are empty, the counter
stands at 0, every hold entry is FREE and the commit queue holds tidy entries only; in STARTING and SCANNING the
commit queue and the alert queue are empty too; and the collection wait runs only in RESTARTING with an empty commit
queue (R126). -/
abbrev PhaseLaw (s : State) : Prop :=
  (¬ servesPorts s → s.terminal.idle ∧ s.service.idle ∧ s.seconds = 0 ∧ (∀ n : HoldNo, (s.hold n).state = .free)
      ∧ ∀ e ∈ s.commitQueue, e.isTidy = true)
    ∧ (s.phase = .starting ∨ s.phase = .scanning → s.commitQueue = [] ∧ s.alerts = [])
    ∧ (s.collectionWait = true → s.phase = .restarting ∧ s.commitQueue = [])

/-! ## What a reset leaves (R113) -/

/-- Every volatile field has the value its chapter gives for a reset, but the recovery report, which has the reset's
kind, and the fields no reset sets (the cells, the supply pin, the held target address, the record of what each port
last sent, the model's own two). -/
def resetFields (s : State) : State :=
  { State.reset with
    accountCells := s.accountCells
    tariffCells := s.tariffCells
    report := s.report
    vdd := s.vdd
    terminal := { State.reset.terminal with wire := s.terminal.wire }
    service := { State.reset.service with wire := s.service.wire }
    serviceAddress := s.serviceAddress
    freeUses := s.freeUses
    pending := s.pending }

/-- The cells are the same (R98). -/
def sameCells (s t : State) : Prop := t.accountCells = s.accountCells ∧ t.tariffCells = s.tariffCells

/-- The cells after an attempt on copy `c` of pair `p`: that copy holds what it reads back, every other copy is the
same (R84). -/
def ReadBackIn (p : PairId) (c : CopyName) (v : Copy) (s t : State) : Prop :=
  t.cells p = (s.cells p).setCopy c v ∧ ∀ q, q ≠ p → t.cells q = s.cells q

/-- The cells after an event: the copy an attempt has written, if one has, holds what it reads back, and every other
copy is the same (R84, R98). -/
def CellsAfter (written : Option (PairId × CopyName × Copy)) (s t : State) : Prop :=
  match written with
  | none => sameCells s t
  | some (p, c, v) => ReadBackIn p c v s t

/-- What a reset leaves of the cells (R95, Table 5-6): with no attempt under way they are the same; with one, every pair
but the one being programmed is the same, and of that one the copy being programmed alone is left as the cut says. -/
def CutLeaves (cut : CutResult) (s t : State) : Prop :=
  ((∀ e ∈ s.commitQueue.head?, e.stage.underWay = false) → sameCells s t)
  ∧ ∀ (e : CommitEntry) (rest : List CommitEntry) (a : Attempt) (p : PairId) (c : CopyName),
    s.commitQueue = e :: rest → a.underWay = true →
    (e.stage = .programming a ∧ p = a.target ∧ c = a.copy) ∨ (∃ q, e.stage = .relocating a q c ∧ p = .account q) →
    (∀ q, q ≠ p → t.cells q = s.cells q)
      ∧ ∃ v, t.cells p = (s.cells p).setCopy c v
        ∧ (cut = .earlier → v = (s.cells p).copy c) ∧ (cut = .blank → v = blankCopy)
        ∧ (∀ x, cut = .torn x → classify x = .torn → v = x)
        ∧ (cut = .written → v = programmedCopy e.image a.sequence (s.track p).wear)

/-! ## Requests taken, answered and deferred (R149 to R151) -/

/-- The Arbiter hands over exactly the request that command `c` stands for (R151). -/
abbrev Handed (c : Instr) (s : State) : Prop := (requestOf c).isSome = true ∧ arbiterChoice s = requestOf c

/-- The state after the handing: last served is the port whose request was handed over (R151). -/
def servedBy (p : Port) (s : State) : State := { s with lastServed := p }

/-- Command `c` is answered at once with status `st` and figures `f`, and nothing else happens but the handing
(R149, R150). -/
def AnswersOnly (c : Instr) (p : Port) (tag : Byte) (k : Kind) (st : Status) (f : Figures) (s : State) : Prop :=
  exec c s = .next (answer p tag k st f (servedBy p s))

/-- A window in which the requests with a tag have the given state, and every other request the state it had. -/
def windowWith (tag : Byte) (st : RequestState) (w : List Request) : List Request :=
  w.map (fun q => if q.tag = tag then { q with state := st } else q)

/-- In `t` port `p` has one more response at the tail of its queue and the request of that tag ANSWERED; the other port
is as in `s` (R149, R150). -/
def Answered (p : Port) (tag : Byte) (k : Kind) (st : Status) (f : Figures) (s t : State) : Prop :=
  t.port p = { s.port p with
      responses := (s.port p).responses ++ [⟨tag, k.code, st, f⟩],
      window := windowWith tag .answered (s.port p).window }
    ∧ t.port (otherPort p) = s.port (otherPort p)

/-- In `t` port `p` has the request of that tag TAKEN, its response deferred; the other port is as in `s` (R149). -/
def Deferred (p : Port) (tag : Byte) (s t : State) : Prop :=
  t.port p = { s.port p with window := windowWith tag .taken (s.port p).window }
    ∧ t.port (otherPort p) = s.port (otherPort p)

/-- The deferred response of a done account image is placed (R15, R72): CAPPED where its figures are those of a capped
settle, and else OK. -/
def DoneAnswered (img : PendingImage) (s t : State) : Prop :=
  (∀ charge excess balance amount deadline, img.figures = .settle charge true excess balance amount deadline →
    Answered img.port img.tag img.change.kind .capped img.figures s t)
  ∧ ((∀ charge excess balance amount deadline, img.figures ≠ .settle charge true excess balance amount deadline) →
    Answered img.port img.tag img.change.kind .ok img.figures s t)

/-! ## Slots, holds and pairs of which one changes -/

/-- Every slot but `i` is as in `s`. -/
def OtherSlots (i : SlotNo) (s t : State) : Prop := ∀ j : SlotNo, j ≠ i → t.slot j = s.slot j

/-- Slot `i` of `t` is `v` with its indicators at the conditions as they hold in `t` (R32, R33), and every other slot
is as in `s`. -/
def SlotBecomes (i : SlotNo) (v : Slot) (s t : State) : Prop :=
  t.slot i = { v with
      low := lowCreditHolds v.threshold (spendable t i),
      exhausted := exhaustedHolds (spendable t i) }
    ∧ OtherSlots i s t

/-- Entry `n` of the hold table of `t` is `e`, and every other entry is as in `s`. -/
def HoldBecomes (n : HoldNo) (e : HoldEntry) (s t : State) : Prop :=
  t.hold n = e ∧ ∀ m : HoldNo, m ≠ n → t.hold m = s.hold m

/-- Account pair `p` of `t` has role `r` with its wear, newest copy and newest sequence as in `s`, and every other pair
is as in `s`. -/
def RoleBecomes (p : PairNo) (r : PairRole) (s t : State) : Prop :=
  t.pair p = { s.pair p with role := some r } ∧ ∀ q : PairNo, q ≠ p → t.pair q = s.pair q

/-- The alert queue and the lost indicator of `t` are those of `u`. -/
def AlertsLike (u t : State) : Prop := t.alerts = u.alerts ∧ t.lost = u.lost

/-- What a re-evaluation of slot `i` makes of the alerts and the indicators that stood in `s` and of the slot and its
spendable amount as they stand in `t` (R33, R34). -/
def reevaluation (i : SlotNo) (s t : State) : State :=
  reevaluate i
    { t.setSlot i { t.slot i with low := (s.slot i).low, exhausted := (s.slot i).exhausted } with
      alerts := s.alerts, lost := s.lost }

/-- The alerts of `t` are those that the re-evaluation of slot `i` leaves (R33, R34). -/
def Reevaluated (i : SlotNo) (s t : State) : Prop := AlertsLike (reevaluation i s t) t

/-- PAIR_RETIRED raised for one pair, or for two in ascending number (R110). -/
def retirementAlerts : List PairNo → State → State
  | [p], s => raiseAlert .pairRetired (.pair p) s
  | [p, q], s =>
    if q < p then raiseAlert .pairRetired (.pair p) (raiseAlert .pairRetired (.pair q) s)
    else raiseAlert .pairRetired (.pair q) (raiseAlert .pairRetired (.pair p) s)
  | _, s => s

/-- The alerts of `t` are those of `u`, with SPARES_EXHAUSTED raised after them where a claim has emptied the free list:
it was not empty in `s` and is now `spare` (R106, R110). -/
def WithSpares (spare : List PairNo) (s u t : State) : Prop :=
  (spare ≠ [] ∨ s.freeList = [] → AlertsLike u t)
    ∧ (spare = [] → s.freeList ≠ [] →
      AlertsLike (raiseAlert .sparesExhausted .none u) t ∧ Recorded (.sparesExhausted, .none) t)

/-- Pair `p` stands before pair `q` in the order of the free list: by ascending wear, then by number (R106). -/
abbrev standsBefore (s : State) (p q : PairNo) : Prop :=
  (s.pair p).track.wear.toNat < (s.pair q).track.wear.toNat
    ∨ ((s.pair p).track.wear = (s.pair q).track.wear ∧ p < q)

/-- The free list of `t` is that of `s` with `p` at its place: after pairs it does not stand before, and directly before
one it stands before, where there is one (R106, R107). -/
def Placed (p : PairNo) (s t : State) : Prop :=
  ∃ x y, s.freeList = x ++ y ∧ t.freeList = x ++ p :: y
    ∧ (∀ q ∈ x, ¬ standsBefore s p q) ∧ ∀ q ∈ y.head?, standsBefore s p q

/-- The worn set of `t` is that of `s` with the pairs `ps`, each once in ascending number (R108, log 28). -/
def WornWith (ps : List PairNo) (s t : State) : Prop :=
  (∀ q, q ∈ t.wornSet ↔ q ∈ ps ∨ q ∈ s.wornSet)
    ∧ (s.wornSet.Pairwise (fun x y => x < y) → t.wornSet.Pairwise (fun x y => x < y))
    ∧ (ps = [] → t.wornSet = s.wornSet)

/-- Pair `p` has been handed back, in an event that has made the pairs `others` WORN besides (R107): below the wear limit
it is FREE at its place in the free list, at or above it it is WORN and in the worn set. -/
def HandedBack (p : PairNo) (others : List PairNo) (s t : State) : Prop :=
  ((s.pair p).track.wear.toNat < 400000 →
    (t.pair p).role = some .free ∧ Placed p s t ∧ WornWith others s t)
  ∧ (400000 ≤ (s.pair p).track.wear.toNat →
    (t.pair p).role = some .worn ∧ t.freeList = s.freeList ∧ WornWith (others ++ [p]) s t)

/-- The collection wait runs, or is to begin: in RESTARTING with an empty commit queue (R126). -/
def waitsNow (s : State) : Bool := s.collectionWait || decide (s.phase = .restarting ∧ s.commitQueue = [])

/-- With these response queues an event does not end in the RESTART reset: the part is not in RESTARTING, or an entry or
a response is left (R126). -/
def SomethingLeft (s : State) (terminal service : List Response) : Prop :=
  s.phase ≠ .restarting ∨ s.commitQueue ≠ [] ∨ terminal ≠ [] ∨ service ≠ []

/-- The collection wait after an outcome that leaves the commit queue at `rest` and a response to collect: it begins in
RESTARTING with nothing left in the queue, and else it is as before (R126). -/
def WaitAfter (rest : List CommitEntry) (s t : State) : Prop :=
  t.collectionWait = (s.collectionWait || decide (s.phase = .restarting ∧ rest = []))

/-- The pairs `ps` have become WORN with PAIR_RETIRED raised for each, every other pair is as in `s`, and the worn set
holds exactly them beside those it held (R88, R108, R110). -/
def Retired (ps : List PairNo) (s t : State) : Prop :=
  (∀ p ∈ ps, t.pair p = { s.pair p with role := some .worn } ∧ Recorded (.pairRetired, .pair p) t)
    ∧ (∀ p, p ∉ ps → t.pair p = s.pair p) ∧ ∀ p, p ∈ t.wornSet ↔ p ∈ ps ∨ p ∈ s.wornSet

/-- After the tidy of pair `p` has ended, the STALE pairs are taken in ascending number (R120, R122): those at the wear
limit become WORN in passing, the first below it follows as a tidy entry, and with none left TIDYING ends and the report
takes the WORN and FREE counts, which stay as they were until then (log 33). No other pair changes, and the worn set takes
the pairs that have become WORN, in ascending number (log 28). -/
def TidyFollows (p : PairNo) (s t : State) : Prop :=
  (∀ q, q ≠ p → (s.pair q).role ≠ some .stale → t.pair q = s.pair q)
  ∧ ((∀ q, q ≠ p → (s.pair q).role = some .stale → 400000 ≤ (s.pair q).track.wear.toNat) →
      (∀ q, q ≠ p → (s.pair q).role = some .stale → t.pair q = { s.pair q with role := some .worn })
      ∧ t.phase = .open ∧ t.commitQueue = s.commitQueue.tail
      ∧ t.report.wornCount = t.wornSet.length ∧ t.report.freeCount = t.freeList.length)
  ∧ (∀ q, q ≠ p → (s.pair q).role = some .stale → (s.pair q).track.wear.toNat < 400000 →
      (∀ r, r ≠ p → r < q → (s.pair r).role = some .stale → 400000 ≤ (s.pair r).track.wear.toNat) →
      (∀ r, r ≠ p → r < q → (s.pair r).role = some .stale → t.pair r = { s.pair r with role := some .worn })
      ∧ (∀ r, r ≠ p → q ≤ r → t.pair r = s.pair r) ∧ t.phase = .tidying
      ∧ t.commitQueue = s.commitQueue.tail ++ [⟨.tidyEmpty q, .empty none, none, none, .waiting⟩]
      ∧ t.report.wornCount = s.report.wornCount ∧ t.report.freeCount = s.report.freeCount)
  ∧ (∀ q, q ∈ t.wornSet ↔ q ∈ s.wornSet
      ∨ ((t.pair q).role = some .worn ∧ (q = p ∨ (s.pair q).role = some .stale)))
  ∧ (s.wornSet.Pairwise (fun x y => x < y) → t.wornSet.Pairwise (fun x y => x < y))

/-- The HOLD_LAPSED alerts of a second tick that brings the counter to `now` (R60, R143): one for each OPEN hold whose
deadline is reached, in ascending order of entry. -/
def lapseAlerts (now : Word) (s : State) : State :=
  (List.finRange 32).foldl
    (fun u n =>
      match (s.hold n).state with
      | .open h =>
        if h.deadline.toNat ≤ now.toNat then
          raiseAlert .holdLapsed (.hold n (s.hold n).generation h.key) u
        else u
      | _ => u)
    { s with seconds := now }

/-- An account image is pending on slot `i` (R6, R34): the image is on the slot, its ACCOUNT_IMAGE entry stands at the
tail of the commit queue, the response is deferred, the slot is re-evaluated, and nothing else changes. -/
def ImagePending (i : SlotNo) (img : PendingImage) (s t : State) : Prop :=
  SlotBecomes i { s.slot i with pending := some img } s t
    ∧ t.commitQueue = s.commitQueue ++ [⟨.accountImage i,
        .account ((s.slot i).key.getD 0) img.cls img.frozenMark img.balance img.ceiling img.threshold,
        some img.port, some img.tag, .waiting⟩]
    ∧ Deferred img.port img.tag s t ∧ Reevaluated i s t
    ∧ t = { s with
        slots := t.slots, commitQueue := t.commitQueue, terminal := t.terminal, service := t.service,
        alerts := t.alerts, lost := t.lost, lastServed := img.port }

/-- Slot `i` passes step 4 for a request that would produce an image: ACTIVE or FROZEN with no pending image
(Table 1-3, R4). -/
abbrev Unpended (i : SlotNo) (s : State) : Prop :=
  ((s.slot i).state = .active ∨ (s.slot i).state = .frozen) ∧ (s.slot i).pending = none

/-- Slot `i` passes step 4 for OPEN_HOLD and EXTEND_HOLD: ACTIVE, and no pending image carries the frozen mark
(Table 1-3). -/
abbrev Reservable (i : SlotNo) (s : State) : Prop :=
  (s.slot i).state = .active ∧ ∀ img ∈ (s.slot i).pending, img.frozenMark = false

/-- The handle names entry `n`, which is not FREE (R56). -/
abbrev Names (handle : Handle) (n : HoldNo) (s : State) : Prop :=
  handle.entry.toNat = n.val ∧ handle.generation = (s.hold n).generation ∧ (s.hold n).state ≠ .free

/-! ## Requests that name an account or a hold (R3, R5, R62) -/

/-- Port, tag, kind and key of a request that names an account by its key. -/
def namesKey : Instr → Option (Port × Byte × Kind × Word)
  | .lookup p tag key => some (p, tag, .lookup, key)
  | .closeAccount p tag key => some (p, tag, .closeAccount, key)
  | .freeze p tag key => some (p, tag, .freeze, key)
  | .thaw p tag key => some (p, tag, .thaw, key)
  | .setClass p tag key _ => some (p, tag, .setClass, key)
  | .credit p tag key _ => some (p, tag, .credit, key)
  | .debitAmount p tag key _ => some (p, tag, .debitAmount, key)
  | .debitUnits p tag key _ => some (p, tag, .debitUnits, key)
  | .setLimits p tag key _ _ => some (p, tag, .setLimits, key)
  | .openHold p tag key _ _ => some (p, tag, .openHold, key)
  | _ => none

/-- Port, tag, kind and handle of a request that names a hold by its handle. -/
def namesHold : Instr → Option (Port × Byte × Kind × Handle)
  | .extendHold p tag handle _ => some (p, tag, .extendHold, handle)
  | .settleHold p tag handle _ => some (p, tag, .settleHold, handle)
  | .cancelHold p tag handle => some (p, tag, .cancelHold, handle)
  | .holdStatus p tag handle => some (p, tag, .holdStatus, handle)
  | _ => none

/-! ## Events that end the head with a fault (R82, R83, R86, R87) -/

/-- The sequence of a program of subject `sub` into pair `p` would pass 4,294,967,295 (R82). -/
abbrev noSequenceLeft (s : State) (sub : EntrySubject) (p : PairId) : Prop :=
  4294967295 ≤ max (durableSequence s sub) (s.track p).newestSequence.toNat

/-- Command `c` on `s` ends the head `e` with a fault, with the pair a relocation has claimed as incoming, the free list
it leaves, and the copy an attempt has written. -/
inductive EndsInFault : Instr → State → CommitEntry → Option PairNo → List PairNo →
    Option (PairId × CopyName × Copy) → Prop
  /-- Attempt 2 on the target has failed and no relocation is open to the entry (R86). -/
  | refused (s : State) (e : CommitEntry) (rest : List CommitEntry) (a : Attempt) (readBack : Copy) :
      s.inReset = false → s.commitQueue = e :: rest → e.stage = .programming a → a.underWay = true →
      a.number = .second → verifyPasses e.image a.sequence (s.track a.target).wear readBack = false →
      s.freeList = [] ∨ e.subject.slot? = none →
      EndsInFault (.attemptComplete readBack) s e none s.freeList (some (a.target, a.copy, readBack))
  /-- Attempt 2 on the incoming pair has failed (R87). -/
  | relocationFailed (s : State) (e : CommitEntry) (rest : List CommitEntry) (a : Attempt) (q : PairNo) (k : CopyName)
      (readBack : Copy) :
      s.inReset = false → s.commitQueue = e :: rest → e.stage = .relocating a q k → a.underWay = true →
      a.number = .second → verifyPasses e.image a.sequence (s.pair q).track.wear readBack = false →
      EndsInFault (.attemptComplete readBack) s e (some q) s.freeList (some (.account q, k, readBack))
  /-- The first program has no sequence left (R82). -/
  | noSequence (s : State) (e : CommitEntry) (rest : List CommitEntry) (p : PairId) :
      s.inReset = false → s.supply = .good → s.commitQueue = e :: rest → e.stage = .waiting →
      targetOf s e.subject = some p → noSequenceLeft s e.subject p →
      EndsInFault .firstProgram s e none s.freeList none
  /-- A wear relocation has no sequence left in the incoming pair (R83). -/
  | noSequenceOnWear (s : State) (e : CommitEntry) (rest : List CommitEntry) (p : PairId) (q : PairNo)
      (spare : List PairNo) :
      s.inReset = false → s.supply = .good → s.commitQueue = e :: rest → e.stage = .waiting →
      targetOf s e.subject = some p → ¬ noSequenceLeft s e.subject p → wearRelocates s e.subject p = true →
      s.freeList = q :: spare → noSequenceLeft s e.subject (.account q) →
      EndsInFault .firstProgram s e (some q) spare none
  /-- A relocation after a failed pair has no sequence left in the incoming pair (R86). -/
  | noSequenceOnSpare (s : State) (e : CommitEntry) (rest : List CommitEntry) (a : Attempt) (readBack : Copy)
      (q : PairNo) (spare : List PairNo) :
      s.inReset = false → s.commitQueue = e :: rest → e.stage = .programming a → a.underWay = true →
      a.number = .second → verifyPasses e.image a.sequence (s.track a.target).wear readBack = false →
      e.subject.slot?.isSome = true → s.freeList = q :: spare → noSequenceLeft s e.subject (.account q) →
      EndsInFault (.attemptComplete readBack) s e (some q) spare (some (a.target, a.copy, readBack))

/-! ## What a response frame holds (R162, Table 12-1) -/

/-- `n` bytes of a figure, most significant first (R162). -/
def bigEndian (n v : Nat) : List Byte := (List.range n).map (fun i => BitVec.ofNat 8 (v / 256 ^ (n - 1 - i)))

/-- A one-byte flag: 00h clear, 01h set (R162). -/
def flagOf (b : Bool) : Byte := if b then 0x01 else 0x00

/-- Kind, code and response length of the rows of Table 12-1. -/
def responseRows : List (Kind × Byte × Nat) :=
  [(.lookup, 0x01, 34), (.listNext, 0x02, 9), (.openAccount, 0x03, 6), (.closeAccount, 0x04, 9), (.freeze, 0x05, 5),
    (.thaw, 0x06, 5), (.setClass, 0x07, 5), (.credit, 0x08, 9), (.debitAmount, 0x09, 9), (.debitUnits, 0x0A, 13),
    (.setLimits, 0x0B, 5), (.quote, 0x0C, 21)]
  ++ [(.setTariff, 0x0D, 5), (.readTariff, 0x0E, 16), (.openHold, 0x0F, 11), (.extendHold, 0x10, 13),
    (.settleHold, 0x11, 26), (.cancelHold, 0x12, 13), (.holdStatus, 0x13, 44), (.readClock, 0x14, 9),
    (.fetchAlert, 0x15, 21), (.setAlertMask, 0x16, 6), (.readReport, 0x17, 30), (.restart, 0x18, 5)]

/-- Fee, boundary, rate 1, rate 2, two bytes each (Table 12-1). -/
def ratesFields (r : Rates) : List Byte :=
  bigEndian 2 r.fee.toNat ++ bigEndian 2 r.boundary.toNat ++ bigEndian 2 r.rate1.toNat ++ bigEndian 2 r.rate2.toNat

/-- The fields of a HOLD_STATUS response (R75, Table 12-1). -/
def holdFields (state : Byte) (h : Hold) (slot : Nat) (charge residual lapsed : Word) : List Byte :=
  state :: bigEndian 4 h.key.toNat ++ bigEndian 1 slot ++ [if h.owner = .terminal then 0x00 else 0x01]
    ++ bigEndian 4 h.amount.toNat ++ ratesFields h.rates ++ bigEndian 4 h.opened.toNat ++ bigEndian 4 h.deadline.toNat
    ++ bigEndian 4 charge.toNat ++ bigEndian 4 residual.toNat ++ bigEndian 4 lapsed.toNat

/-- Subject form, subject number and subject key of an alert (Tables 12-1 and 12-2). -/
def subjectFields : AlertSubject → List Byte
  | .none => 0x00 :: bigEndian 2 0 ++ bigEndian 4 0
  | .account slot key => 0x01 :: bigEndian 2 slot.val ++ bigEndian 4 key.toNat
  | .hold entry generation key => 0x02 :: bigEndian 2 (256 * entry.val + generation.toNat) ++ bigEndian 4 key.toNat
  | .cls n => 0x03 :: bigEndian 2 n.val ++ bigEndian 4 0
  | .pair n => 0x04 :: bigEndian 2 n.val ++ bigEndian 4 0

/-- The statuses in the order of their codes, from 00h on (Table 12-2). -/
def statusesByCode : List Status :=
  [.ok, .capped, .noAccount, .duplicateKey, .tableFull, .noSpace, .accountBusy, .frozen, .faulted, .insufficient,
    .overCeiling, .badValue, .badClass, .holdsFull, .noSuchHold, .holdLapsed, .notOwner, .tooLong, .holdsOpen,
    .notPermitted, .badRequest, .supplyLow, .storeFault, .restarting, .alertEmpty]

/-- The codes of the encoded fields of a response (Table 12-2): statuses 00h to 18h, account states, class states, alert
kinds from 01h on with the first four URGENT (Table 9-1), masks, and reset kinds from 01h on. -/
def CodesOfTable122 : Prop :=
  statusesByCode.map (·.code) = (List.range 25).map (BitVec.ofNat 8)
    ∧ [AccountState.vacant, .opening, .active, .frozen, .faulted, .closing].map (·.code) = [0, 1, 2, 3, 4, 5]
    ∧ [ClassState.undefined, .defined].map (·.code) = [0, 1]
    ∧ [AlertKind.creditExhausted, .storeFault, .sparesExhausted, .supplyLow, .lowCredit, .holdLapsed, .pairRetired,
        .supplyRestored].map (fun k => (k.code, k.urgent))
      = [(1, true), (2, true), (3, true), (4, true), (5, false), (6, false), (7, false), (8, false)]
    ∧ [AlertMask.none, .urgent, .all].map (·.code) = [0, 1, 2]
    ∧ [ResetKind.powerOn, .resetLine, .restart].map (·.code) = [1, 2, 3]

/-- The body that a response of a kind with these figures has (Table 12-1). -/
inductive ResponseBody : Kind → Figures → List Byte → Prop
  /-- A refusal, and a response with no body, fills every field with 0 (R162). -/
  | refusal (k : Kind) (code : Byte) (len : Nat) : (k, code, len) ∈ responseRows →
      ResponseBody k .zeros (List.replicate (len - 5) 0)
  | lookup (f : LookupFigures) : ResponseBody .lookup (.lookup f)
      (bigEndian 1 f.slot.val ++ [f.state.code] ++ bigEndian 1 f.cls.val ++ bigEndian 4 f.balance.toNat
        ++ [flagOf f.pendingBalance.isSome] ++ bigEndian 4 (f.pendingBalance.getD 0).toNat
        ++ bigEndian 4 f.heldTotal.toNat ++ bigEndian 4 f.spendable.toNat ++ bigEndian 4 f.ceiling.toNat
        ++ bigEndian 4 f.threshold.toNat ++ bigEndian 1 f.holdCount)
  /-- Next key, final balance, new balance, seconds counter. -/
  | word (k : Kind) (w : Word) : k ∈ [Kind.listNext, .closeAccount, .credit, .debitAmount, .readClock] →
      ResponseBody k (.word w) (bigEndian 4 w.toNat)
  | slot (n : SlotNo) : ResponseBody .openAccount (.slot n) (bigEndian 1 n.val)
  | debit (charge balance : Word) : ResponseBody .debitUnits (.debit charge balance)
      (bigEndian 4 charge.toNat ++ bigEndian 4 balance.toNat)
  | quote (fee tier1 tier2 charge : Word) : ResponseBody .quote (.quote fee tier1 tier2 charge)
      (bigEndian 4 fee.toNat ++ bigEndian 4 tier1.toNat ++ bigEndian 4 tier2.toNat ++ bigEndian 4 charge.toNat)
  | tariff (st : ClassState) (r : Rates) (pending fault : Bool) : ResponseBody .readTariff (.tariff st r pending fault)
      ([st.code] ++ ratesFields r ++ [flagOf pending, flagOf fault])
  | handle (n : HoldNo) (g : Byte) (deadline : Word) : ResponseBody .openHold (.handle n g deadline)
      (bigEndian 1 n.val ++ [g] ++ bigEndian 4 deadline.toNat)
  | extend (deadline amount : Word) : ResponseBody .extendHold (.extend deadline amount)
      (bigEndian 4 deadline.toNat ++ bigEndian 4 amount.toNat)
  | settle (charge : Word) (capped : Bool) (excess balance amount deadline : Word) :
      ResponseBody .settleHold (.settle charge capped excess balance amount deadline)
        (bigEndian 4 charge.toNat ++ [flagOf capped] ++ bigEndian 4 excess.toNat ++ bigEndian 4 balance.toNat
          ++ bigEndian 4 amount.toNat ++ bigEndian 4 deadline.toNat)
  | release (amount deadline : Word) : ResponseBody .cancelHold (.release amount deadline)
      (bigEndian 4 amount.toNat ++ bigEndian 4 deadline.toNat)
  | openHold (h : Hold) : ResponseBody .holdStatus (.hold (.open h)) (holdFields 0x01 h h.slot.val 0 0 0)
  | settlingHold (h : Hold) (charge residual : Word) : ResponseBody .holdStatus (.hold (.settling h charge residual))
      (holdFields 0x02 h h.slot.val charge residual 0)
  /-- The slot of a LAPSED hold is reported as 0 (R75). -/
  | lapsedHold (h : Hold) (second : Word) : ResponseBody .holdStatus (.hold (.lapsed h second))
      (holdFields 0x03 h 0 0 0 second)
  | alert (e : AlertEntry) (lost : Bool) (left : Nat) : ResponseBody .fetchAlert (.alert e lost left)
      ([e.kind.code, flagOf e.kind.urgent] ++ subjectFields e.subject ++ bigEndian 4 e.firstRaised.toNat
        ++ [e.occurrences, flagOf lost] ++ bigEndian 1 left)
  | noAlert (lost : Bool) (entries : Nat) : ResponseBody .fetchAlert (.noAlert lost entries)
      (List.replicate 14 0 ++ [flagOf lost] ++ bigEndian 1 entries)
  | mask (m : AlertMask) : ResponseBody .setAlertMask (.mask m) [m.code]
  | report (r : Report) (free worn accounts holds : Nat) : ResponseBody .readReport (.report r free worn accounts holds)
      ([r.resetKind.code] ++ bigEndian 2 r.accountsLoaded ++ bigEndian 2 r.tornCopies ++ bigEndian 2 r.duplicateKeys
        ++ bigEndian 2 r.pairsTidied ++ bigEndian 2 r.tidyFailures ++ bigEndian 2 r.wornCount ++ bigEndian 2 r.freeCount
        ++ bigEndian 2 r.excessAccounts ++ bigEndian 1 r.classesDefined ++ bigEndian 2 free ++ bigEndian 2 worn
        ++ bigEndian 2 accounts ++ bigEndian 1 holds)

/-! ## What the scan makes of the cells (R116, R117) -/

/-- `x` is the account image or close record that an account pair holds in its newest valid copy (R116). -/
abbrev Content (s : State) (x : Claimant) : Prop := contentOf x.pair (s.cells (.account x.pair)) = some x

/-- `x` is the winner of its key: the highest sequence, and the lowest pair among equal sequences (R117). -/
abbrev Winner (s : State) (x : Claimant) : Prop :=
  Content s x ∧ ∀ y, Content s y → y.key = x.key →
    y.sequence.toNat < x.sequence.toNat ∨ (y.sequence = x.sequence ∧ x.pair ≤ y.pair)

end Sys2Proof.Machine
end

