-- ==== Sys2Proof/WellFormed.lean ====
section
/-! DEFINITION. WellFormed: the operands a command may carry. An ill-formed command is no event of the part: it changes
nothing (log 31), and what an ill-formed cut leaves counts as the earlier content (log 8). -/

namespace Sys2Proof

/-- What a cut program leaves is well formed when a copy given as torn classes as torn (R95, R99; log 8). -/
def CutResult.wellFormed : CutResult → Bool
  | .earlier => true
  | .blank => true
  | .torn c => decide (Machine.classify c = .torn)
  | .written => true

/-- The check on a command's operands: BAD_REQUEST carries a kind outside the catalogue (R152), STATUS a code other
than SUBMIT and COLLECT, which have rows of their own (R156, R163), a void transaction fewer than 8 clocks (R156). Every other operand is limited by
its type. -/
def Instr.wellFormed : Instr → Bool
  | .badRequest _ _ kind _ => (Machine.Kind.ofCode kind).isNone
  | .status code _ => code != 0x0A && code != 0x0C
  | .voidTransaction clocks => decide (clocks < 8)
  | .supplyCollapse cut => cut.wellFormed
  | .resetLine cut => cut.wellFormed
  | .lookup .. | .listNext .. | .openAccount .. | .closeAccount .. | .freeze .. | .thaw .. | .setClass ..
  | .credit .. | .debitAmount .. | .debitUnits .. | .setLimits .. | .quote .. | .readTariff .. | .setTariff ..
  | .openHold .. | .extendHold .. | .settleHold .. | .cancelHold .. | .holdStatus .. | .readClock ..
  | .fetchAlert .. | .setAlertMask .. | .readReport .. | .restart .. | .submit .. | .collect .. | .i2cWrite ..
  | .i2cRead .. | .secondTick | .firstProgram | .attemptComplete .. | .supplyRise | .supplyRipple | .changeToLow
  | .changeToGood | .resetEnd .. | .scan | .collectionWaitExpiry => true

end Sys2Proof
end

