-- ==== Sys2Proof/Certificates/Slice0/Obligations.lean ====
section
/-! DEFINITION. Obligations: the statements for the provers. -/

open Sys2Proof Sys2Proof.Machine

/-! ## The machine -/

/-- A step takes the command at the front of the queue and executes it on the state with the rest of the queue; with no
command waiting the part idles (the model's choice, log 2). -/
def Obligations.StepRunsFrontCommand : Prop :=
  (∀ (c : Instr) (rest : List Instr) (s : State),
    step { s with pending := c :: rest } = exec c { s with pending := rest })
  ∧ ∀ s : State, s.pending = [] → step s = .next s

/-- Every command answers a next state in every state (the model's reading, log 34), and every command leaves the
queue of commands as it is, a reset too (the model's choice, log 10). A request command whose request the Arbiter does
not hand over changes nothing (the model's choice, log 1). -/
def Obligations.EveryCommandAnswersNext : Prop :=
  (∀ (c : Instr) (s : State), ∃ t, exec c s = .next t ∧ t.pending = s.pending)
  ∧ ∀ (c : Instr) (s : State), (requestOf c).isSome = true → arbiterChoice s ≠ requestOf c → exec c s = .next s

/-- What a reset that has ended leaves in the volatile fields of every block: the tables, the queues, the counter, the
supply state, the masks and the windows (R2, R7, R40, R57, R59, R78, R104, R113, R123, R128, R137, R146, R148,
R150, R151, R154). -/
def Obligations.ResetLeavesTheManualsValues : Prop :=
  (∀ i, State.reset.slot i = Slot.vacant) ∧ State.reset.keyIndex = []
  ∧ (∀ n, State.reset.hold n = ⟨255, .free⟩) ∧ State.reset.seconds = 0
  ∧ (∀ n, State.reset.tariff n = TariffClass.undefined) ∧ State.reset.commitQueue = []
  ∧ (∀ p, State.reset.pair p = ⟨none, ⟨0, none, 0⟩⟩) ∧ (∀ n, State.reset.tariffPairs.get n = ⟨0, none, 0⟩)
  ∧ State.reset.freeList = [] ∧ State.reset.wornSet = []
  ∧ State.reset.inReset = false ∧ State.reset.phase = .starting ∧ State.reset.collectionWait = false
  ∧ State.reset.report = ⟨.powerOn, 0, 0, 0, 0, 0, 0, 0, 0, 0⟩
  ∧ State.reset.supply = .low ∧ State.reset.steadyTimer = .stopped
  ∧ State.reset.alerts = [] ∧ State.reset.lost = false
  ∧ State.reset.terminal.mask = .all ∧ State.reset.service.mask = .urgent
  ∧ (∀ p, (State.reset.port p).window = [] ∧ (State.reset.port p).responses = []
      ∧ (State.reset.port p).outcome = .none ∧ rdyLine State.reset p = false ∧ alertLine State.reset p = false)
  ∧ State.reset.lastServed = .service

/-- A frame carries its command whole: the frame of a well-formed request command passes the frame check whatever bytes
follow it, and the request it gives is the command's own, with every operand. A request outside the catalogue fits a
frame of 32 bytes (R155, R162). -/
def Obligations.RequestFrameCarriesItsCommand : Prop :=
  ∀ (c : Instr) (p : Port) (q : Request) (extra : List Byte),
    c.wellFormed = true → requestOf c = some (p, q) → q.parameters.length ≤ 28 →
    checkFrame (requestFrame q.tag q.kind q.parameters ++ extra) = some q ∧ commandOf p q = c

/-- The Arbiter hands over the oldest UNTAKEN request of a port, and with both ports waiting that of the port not
served last; outside OPEN it hands over nothing (R151). A response joins the tail of its port's queue and its request
becomes ANSWERED; nothing else changes (R149, R150). -/
def Obligations.ArbiterTakesTurnsAndResponsesQueue : Prop :=
  (∀ (s : State) (p : Port) (q : Request), candidate s p = some q ↔
    ∃ before after, (s.port p).window = before ++ q :: after ∧ q.state = .untaken
      ∧ ∀ x ∈ before, x.state ≠ .untaken)
  ∧ (∀ s : State, s.inReset = true ∨ s.phase ≠ .open → arbiterChoice s = none)
  ∧ (∀ s : State, s.inReset = false → s.phase = .open →
    (∀ q, candidate s (otherPort s.lastServed) = some q → arbiterChoice s = some (otherPort s.lastServed, q))
    ∧ (∀ q, candidate s (otherPort s.lastServed) = none → candidate s s.lastServed = some q →
        arbiterChoice s = some (s.lastServed, q))
    ∧ (candidate s .terminal = none → candidate s .service = none → arbiterChoice s = none))
  ∧ ∀ (p : Port) (tag : Byte) (k : Kind) (st : Status) (f : Figures) (s : State),
    Answered p tag k st f s (answer p tag k st f s)
    ∧ answer p tag k st f s = { s with
        terminal := (answer p tag k st f s).terminal, service := (answer p tag k st f s).service }

/-! ## Refusals before the owner's checks (R152, R132) -/

/-- The kinds marked Service in Table 10-3 are answered NOT_PERMITTED from the Terminal Port; the kinds that may need a
commit are answered SUPPLY_LOW in a LOW period; each with every figure 0 and no other change (steps 1 and 2 of
R152). -/
def Obligations.PrivilegeAndSupplyRefuse : Prop :=
  ∀ (c : Instr) (s : State) (p : Port) (q : Request) (k : Kind),
    c.wellFormed = true → requestOf c = some (p, q) → arbiterChoice s = some (p, q) → Kind.ofCode q.kind = some k →
    (p = .terminal
      ∧ k ∈ [Kind.openAccount, .closeAccount, .freeze, .thaw, .setClass, .credit, .setLimits, .setTariff, .restart] →
      AnswersOnly c p q.tag k .notPermitted .zeros s)
    ∧ (p = .service
        ∧ k ∈ [Kind.openAccount, .closeAccount, .freeze, .thaw, .setClass, .credit, .setLimits, .setTariff]
        ∨ k ∈ [Kind.debitAmount, .debitUnits, .settleHold] →
      s.supply = .low → AnswersOnly c p q.tag k .supplyLow .zeros s)

/-- A taken request of an unknown kind is answered BAD_REQUEST in either supply state with a frame of 5 bytes, and
nothing else changes (R152, R162). -/
def Obligations.UnknownKindIsBadRequest : Prop :=
  ∀ (p : Port) (tag kind : Byte) (body : List Byte) (s : State),
    Kind.ofCode kind = none → Handed (.badRequest p tag kind body) s →
    exec (.badRequest p tag kind body) s = .next (answerCode p tag kind .badRequest .zeros (servedBy p s))
    ∧ (responseFrame ⟨tag, kind, .badRequest, .zeros⟩).length = 5

/-! ## Accounts -/

/-- LOOKUP reports the slot as it stands, or NO_ACCOUNT for a key absent from the index (R8); READ_REPORT reports the
recovery report with the current FREE, WORN, account and hold counts (R124); both from either port, in either supply
state, and with nothing changed. -/
def Obligations.LookupAndReadReportAnswerTheTables : Prop :=
  (∀ (p : Port) (tag : Byte) (key : Word) (s : State), Handed (.lookup p tag key) s →
    (∀ i, findKey s key = some i →
      AnswersOnly (.lookup p tag key) p tag .lookup .ok (.lookup {
        slot := i
        state := (s.slot i).state
        cls := (s.slot i).cls
        balance := (s.slot i).balance
        pendingBalance := (s.slot i).pending.map (fun img => img.balance)
        heldTotal := asWord (heldTotal s i)
        spendable := asWord (lowerBalance (s.slot i) - heldTotal s i)
        ceiling := (s.slot i).ceiling
        threshold := (s.slot i).threshold
        holdCount := s.holds.toList.countP (standsOn i) }) s)
    ∧ (findKey s key = none → AnswersOnly (.lookup p tag key) p tag .lookup .noAccount .zeros s))
  ∧ ∀ (p : Port) (tag : Byte) (s : State), Handed (.readReport p tag) s →
    AnswersOnly (.readReport p tag) p tag .readReport .ok (.report s.report s.freeList.length s.wornSet.length
      (s.slots.toList.countP (fun v => decide (v.state ≠ .vacant)))
      (s.holds.toList.countP (fun e => decide (e.state ≠ .free)))) s

/-- LIST_NEXT answers the smallest indexed key above the given one, and 0 at the end of the list (R9). The index is
ascending (KeyIndexLaw). -/
def Obligations.ListNextAnswersTheNextKey : Prop :=
  ∀ (p : Port) (tag : Byte) (key : Word) (s : State), KeyIndexLaw s → Handed (.listNext p tag key) s →
    (∀ e ∈ s.keyIndex, key.toNat < e.1.toNat → (∀ x ∈ s.keyIndex, key.toNat < x.1.toNat → e.1.toNat ≤ x.1.toNat) →
      AnswersOnly (.listNext p tag key) p tag .listNext .ok (.word e.1) s)
    ∧ ((∀ x ∈ s.keyIndex, x.1.toNat ≤ key.toNat) →
      AnswersOnly (.listNext p tag key) p tag .listNext .ok (.word 0) s)

/-- What steps 3 and 4 answer. Table 1-3 with the one-pending rule gives each request and account state its answer
(R3, R4). A handed request that steps 1 and 2 let pass (privilege, supply) and that names an account by a key is
answered NO_ACCOUNT where the key is absent from the index, and else the refusal of the table, with every figure 0 and
nothing changed (R5). One that names a hold is answered NO_SUCH_HOLD where the handle names none; NOT_OWNER from the
port that does not own it, but for a CANCEL_HOLD of the Service Port on an OPEN hold and for HOLD_STATUS; ACCOUNT_BUSY
on a SETTLING hold, but for HOLD_STATUS; and else the refusal of the table for the hold's account (R62 to R64). -/
def Obligations.AccountStateCheckIsTable13 : Prop :=
  (∀ v : Slot,
    stateCheck .lookup v = none
    ∧ (∀ k ∈ [Kind.credit, .setLimits, .setClass, .freeze, .thaw, .closeAccount, .settleHold],
        (v.state = .active ∨ v.state = .frozen →
          stateCheck k v = if v.pending.isSome then some .accountBusy else none)
        ∧ (v.state = .opening ∨ v.state = .closing → stateCheck k v = some .accountBusy)
        ∧ (v.state = .faulted → stateCheck k v = some .faulted))
    ∧ (∀ k ∈ [Kind.debitAmount, .debitUnits],
        (v.state = .active → stateCheck k v = if v.pending.isSome then some .accountBusy else none)
        ∧ (v.state = .frozen → stateCheck k v = some .frozen)
        ∧ (v.state = .opening ∨ v.state = .closing → stateCheck k v = some .accountBusy)
        ∧ (v.state = .faulted → stateCheck k v = some .faulted))
    ∧ (∀ k ∈ [Kind.openHold, .extendHold],
        (v.state = .active →
          stateCheck k v = if v.pending.any (fun img => img.frozenMark) then some .frozen else none)
        ∧ (v.state = .frozen → stateCheck k v = some .frozen)
        ∧ (v.state = .opening ∨ v.state = .closing → stateCheck k v = some .accountBusy)
        ∧ (v.state = .faulted → stateCheck k v = some .faulted))
    ∧ (∀ k ∈ [Kind.cancelHold, .holdStatus],
        (v.state = .active ∨ v.state = .frozen ∨ v.state = .faulted → stateCheck k v = none)
        ∧ (v.state = .opening ∨ v.state = .closing → stateCheck k v = some .accountBusy)))
  ∧ (∀ (s : State) (key : Word), findKey s key = none ↔ ∀ e ∈ s.keyIndex, e.1 ≠ key)
  ∧ (∀ (c : Instr) (p : Port) (tag : Byte) (k : Kind) (key : Word) (s : State),
    namesKey c = some (p, tag, k, key) → Handed c s →
    p = .service ∨ k ∈ [Kind.lookup, .debitAmount, .debitUnits, .openHold] →
    s.supply = .good ∨ k ∈ [Kind.lookup, .openHold] →
    (findKey s key = none → AnswersOnly c p tag k .noAccount .zeros s)
    ∧ ∀ (i : SlotNo) (st : Status), findKey s key = some i → stateCheck k (s.slot i) = some st →
      AnswersOnly c p tag k st .zeros s)
  ∧ ∀ (c : Instr) (p : Port) (tag : Byte) (k : Kind) (handle : Handle) (s : State),
    namesHold c = some (p, tag, k, handle) → Handed c s → s.supply = .good ∨ k ≠ .settleHold →
    ((∀ n : HoldNo, ¬ Names handle n s) → AnswersOnly c p tag k .noSuchHold .zeros s)
    ∧ (∀ (n : HoldNo) (h : Hold), Names handle n s → (s.hold n).state = .open h →
      (k ≠ .holdStatus → h.owner ≠ p → ¬ (k = .cancelHold ∧ p = .service) → AnswersOnly c p tag k .notOwner .zeros s)
      ∧ ∀ st : Status, k = .holdStatus ∨ h.owner = p ∨ (k = .cancelHold ∧ p = .service) →
        stateCheck k (s.slot h.slot) = some st → AnswersOnly c p tag k st .zeros s)
    ∧ ∀ (n : HoldNo) (h : Hold) (charge residual : Word), Names handle n s →
      (s.hold n).state = .settling h charge residual →
      (k ≠ .holdStatus → h.owner = p → AnswersOnly c p tag k .accountBusy .zeros s)
      ∧ (k ≠ .holdStatus → h.owner ≠ p → AnswersOnly c p tag k .notOwner .zeros s)
      ∧ ∀ st : Status, k = .holdStatus → stateCheck k (s.slot h.slot) = some st → AnswersOnly c p tag k st .zeros s

/-- OPEN_ACCOUNT. Accepted (R11): the lowest VACANT slot becomes OPENING with the claimed head of the free list, the
key joins the index, the image is pending, its entry joins the commit queue, the response is deferred, and
SPARES_EXHAUSTED is the only alert, raised where the claim emptied the list: it stands in the queue or is recorded
lost (R106). Refused from the Service Port with the supply GOOD, in this order: DUPLICATE_KEY for a key in the index
(R5), BAD_VALUE for key 0, BAD_CLASS for a class above 15 or UNDEFINED, BAD_VALUE for an initial balance above the
ceiling, TABLE_FULL with no slot VACANT, NO_SPACE with the free list empty (R10). -/
def Obligations.OpenAccountTakesSlotAndPair : Prop :=
  (∀ (tag : Byte) (key : Word) (cls : Byte) (initial ceiling threshold : Word) (s : State) (i : SlotNo) (c : ClassNo)
    (pair : PairNo) (rest : List PairNo),
    Handed (.openAccount .service tag key cls initial ceiling threshold) s → s.supply = .good →
    findKey s key = none → key ≠ 0 → cls.toNat = c.val → (s.tariff c).state = .defined →
    initial.toNat ≤ ceiling.toNat → (s.slot i).state = .vacant → (∀ j : SlotNo, j < i → (s.slot j).state ≠ .vacant) →
    s.freeList = pair :: rest →
    ∃ t, exec (.openAccount .service tag key cls initial ceiling threshold) s = .next t
      ∧ t.slot i = {
          state := .opening, key := some key, cls := c, balance := 0, ceiling := 0, threshold := 0,
          frozenMark := false, sequence := none, currentPair := some pair,
          pending := some {
            balance := initial, ceiling := ceiling, threshold := threshold, cls := c, frozenMark := false,
            change := .open, port := .service, tag := tag, handle := none, figures := .slot i },
          low := false, exhausted := false }
      ∧ OtherSlots i s t ∧ RoleBecomes pair (.current i) s t ∧ t.freeList = rest
      ∧ (∀ e, e ∈ t.keyIndex ↔ e = (key, i) ∨ e ∈ s.keyIndex)
      ∧ t.commitQueue = s.commitQueue ++ [⟨.accountImage i, .account key c false initial ceiling threshold,
          some .service, some tag, .waiting⟩]
      ∧ Deferred .service tag s t
      ∧ (rest ≠ [] → t.alerts = s.alerts ∧ t.lost = s.lost)
      ∧ (rest = [] → AlertsLike (raiseAlert .sparesExhausted .none s) t ∧ Recorded (.sparesExhausted, .none) t)
      ∧ t = { s with
          slots := t.slots, keyIndex := t.keyIndex, accountPairs := t.accountPairs, freeList := rest,
          commitQueue := t.commitQueue, terminal := t.terminal, service := t.service, alerts := t.alerts,
          lost := t.lost, lastServed := .service })
  ∧ ∀ (tag : Byte) (key : Word) (cls : Byte) (initial ceiling threshold : Word) (s : State),
    Handed (.openAccount .service tag key cls initial ceiling threshold) s → s.supply = .good →
    ((findKey s key).isSome = true →
      AnswersOnly (.openAccount .service tag key cls initial ceiling threshold) .service tag .openAccount
        .duplicateKey .zeros s)
    ∧ (findKey s key = none →
      (key = 0 →
        AnswersOnly (.openAccount .service tag key cls initial ceiling threshold) .service tag .openAccount
          .badValue .zeros s)
      ∧ (key ≠ 0 →
        ((16 ≤ cls.toNat ∨ ∃ c : ClassNo, cls.toNat = c.val ∧ (s.tariff c).state = .undefined) →
          AnswersOnly (.openAccount .service tag key cls initial ceiling threshold) .service tag .openAccount
            .badClass .zeros s)
        ∧ ∀ c : ClassNo, cls.toNat = c.val → (s.tariff c).state = .defined →
          (ceiling.toNat < initial.toNat →
            AnswersOnly (.openAccount .service tag key cls initial ceiling threshold) .service tag .openAccount
              .badValue .zeros s)
          ∧ (initial.toNat ≤ ceiling.toNat →
            ((∀ i : SlotNo, (s.slot i).state ≠ .vacant) →
              AnswersOnly (.openAccount .service tag key cls initial ceiling threshold) .service tag .openAccount
                .tableFull .zeros s)
            ∧ ((∃ i : SlotNo, (s.slot i).state = .vacant) → s.freeList = [] →
              AnswersOnly (.openAccount .service tag key cls initial ceiling threshold) .service tag .openAccount
                .noSpace .zeros s))))

/-- CLOSE_ACCOUNT (R12): refused HOLDS_OPEN while a hold on the slot is OPEN or SETTLING; accepted with none, the slot
becomes CLOSING with the committed values pending, the ACCOUNT_EMPTY entry with the account's key joins the commit
queue, and the response is deferred. The slot is re-evaluated at this acceptance (R34; log 35). -/
def Obligations.CloseAccountQueuesEmptyImage : Prop :=
  ∀ (tag : Byte) (key : Word) (s : State) (i : SlotNo),
    Handed (.closeAccount .service tag key) s → s.supply = .good → findKey s key = some i → Unpended i s →
    (holdCount s i ≠ 0 →
      AnswersOnly (.closeAccount .service tag key) .service tag .closeAccount .holdsOpen .zeros s)
    ∧ (holdCount s i = 0 →
      ∃ t, exec (.closeAccount .service tag key) s = .next t
        ∧ SlotBecomes i { s.slot i with
            state := .closing
            pending := some {
              balance := (s.slot i).balance, ceiling := (s.slot i).ceiling, threshold := (s.slot i).threshold,
              cls := (s.slot i).cls, frozenMark := (s.slot i).frozenMark, change := .close, port := .service,
              tag := tag, handle := none, figures := .word (s.slot i).balance } } s t
        ∧ t.commitQueue = s.commitQueue
            ++ [⟨.accountEmpty i, .empty (s.slot i).key, some .service, some tag, .waiting⟩]
        ∧ Deferred .service tag s t ∧ Reevaluated i s t
        ∧ t = { s with
            slots := t.slots, commitQueue := t.commitQueue, terminal := t.terminal, service := t.service,
            alerts := t.alerts, lost := t.lost, lastServed := .service })

/-- FREEZE and THAW (R13): a change makes an image with the new frozen mark pending, and a request for the state that
stands already is answered OK at once. -/
def Obligations.FreezeAndThawSetTheMark : Prop :=
  ∀ (tag : Byte) (key : Word) (s : State) (i : SlotNo), s.supply = .good → findKey s key = some i →
    (s.slot i).pending = none →
    (Handed (.freeze .service tag key) s → (s.slot i).state = .active →
      ∃ t, exec (.freeze .service tag key) s = .next t ∧ ImagePending i {
        balance := (s.slot i).balance, ceiling := (s.slot i).ceiling, threshold := (s.slot i).threshold,
        cls := (s.slot i).cls, frozenMark := true, change := .freeze, port := .service, tag := tag, handle := none,
        figures := .zeros } s t)
    ∧ (Handed (.freeze .service tag key) s → (s.slot i).state = .frozen →
      AnswersOnly (.freeze .service tag key) .service tag .freeze .ok .zeros s)
    ∧ (Handed (.thaw .service tag key) s → (s.slot i).state = .frozen →
      ∃ t, exec (.thaw .service tag key) s = .next t ∧ ImagePending i {
        balance := (s.slot i).balance, ceiling := (s.slot i).ceiling, threshold := (s.slot i).threshold,
        cls := (s.slot i).cls, frozenMark := false, change := .thaw, port := .service, tag := tag, handle := none,
        figures := .zeros } s t)
    ∧ (Handed (.thaw .service tag key) s → (s.slot i).state = .active →
      AnswersOnly (.thaw .service tag key) .service tag .thaw .ok .zeros s)

/-- SET_CLASS (R14): BAD_CLASS for a class above 15 or UNDEFINED, OK at once for the account's own class, and an image
with the new class for another. SET_LIMITS (R30): OVER_CEILING for a ceiling below the balance, OK at once where nothing
changes, and else an image with the new ceiling and threshold. -/
def Obligations.SetClassAndSetLimitsMoveTheFields : Prop :=
  (∀ (tag : Byte) (key : Word) (cls : Byte) (s : State) (i : SlotNo),
    Handed (.setClass .service tag key cls) s → s.supply = .good → findKey s key = some i → Unpended i s →
    ((16 ≤ cls.toNat ∨ ∃ c : ClassNo, cls.toNat = c.val ∧ (s.tariff c).state = .undefined) →
      AnswersOnly (.setClass .service tag key cls) .service tag .setClass .badClass .zeros s)
    ∧ ∀ c : ClassNo, cls.toNat = c.val → (s.tariff c).state = .defined →
      ((s.slot i).cls = c → AnswersOnly (.setClass .service tag key cls) .service tag .setClass .ok .zeros s)
      ∧ ((s.slot i).cls ≠ c →
        ∃ t, exec (.setClass .service tag key cls) s = .next t ∧ ImagePending i {
          balance := (s.slot i).balance, ceiling := (s.slot i).ceiling, threshold := (s.slot i).threshold,
          cls := c, frozenMark := (s.slot i).frozenMark, change := .setClass, port := .service, tag := tag,
          handle := none, figures := .zeros } s t))
  ∧ ∀ (tag : Byte) (key ceiling threshold : Word) (s : State) (i : SlotNo),
    Handed (.setLimits .service tag key ceiling threshold) s → s.supply = .good → findKey s key = some i →
    Unpended i s →
    (ceiling.toNat < (s.slot i).balance.toNat →
      AnswersOnly (.setLimits .service tag key ceiling threshold) .service tag .setLimits .overCeiling .zeros s)
    ∧ ((s.slot i).balance.toNat ≤ ceiling.toNat →
      (ceiling = (s.slot i).ceiling ∧ threshold = (s.slot i).threshold →
        AnswersOnly (.setLimits .service tag key ceiling threshold) .service tag .setLimits .ok .zeros s)
      ∧ (¬ (ceiling = (s.slot i).ceiling ∧ threshold = (s.slot i).threshold) →
        ∃ t, exec (.setLimits .service tag key ceiling threshold) s = .next t ∧ ImagePending i {
          balance := (s.slot i).balance, ceiling := ceiling, threshold := threshold, cls := (s.slot i).cls,
          frozenMark := (s.slot i).frozenMark, change := .setLimits, port := .service, tag := tag, handle := none,
          figures := .zeros } s t))

/-! ## Balances -/

/-- CREDIT (R26): BAD_VALUE for 0, OVER_CEILING where the sum formed in full exceeds the ceiling, and else an image
whose balance is the committed balance plus the amount. DEBIT_AMOUNT on an ACTIVE account with no pending image (R27):
BAD_VALUE for 0, INSUFFICIENT above the spendable amount, and else an image whose balance is the committed balance less
the amount. -/
def Obligations.CreditAndDebitAmountMoveTheBalance : Prop :=
  (∀ (tag : Byte) (key amount : Word) (s : State) (i : SlotNo),
    Handed (.credit .service tag key amount) s → s.supply = .good → findKey s key = some i → Unpended i s →
    (amount = 0 → AnswersOnly (.credit .service tag key amount) .service tag .credit .badValue .zeros s)
    ∧ (amount ≠ 0 → (s.slot i).ceiling.toNat < (s.slot i).balance.toNat + amount.toNat →
      AnswersOnly (.credit .service tag key amount) .service tag .credit .overCeiling .zeros s)
    ∧ ∀ b : Word, amount ≠ 0 → b.toNat = (s.slot i).balance.toNat + amount.toNat →
      b.toNat ≤ (s.slot i).ceiling.toNat →
      ∃ t, exec (.credit .service tag key amount) s = .next t ∧ ImagePending i {
        balance := b, ceiling := (s.slot i).ceiling, threshold := (s.slot i).threshold, cls := (s.slot i).cls,
        frozenMark := (s.slot i).frozenMark, change := .credit, port := .service, tag := tag, handle := none,
        figures := .word b } s t)
  ∧ ∀ (p : Port) (tag : Byte) (key amount : Word) (s : State) (i : SlotNo),
    Handed (.debitAmount p tag key amount) s → s.supply = .good → findKey s key = some i →
    (s.slot i).state = .active → (s.slot i).pending = none →
    (amount = 0 → AnswersOnly (.debitAmount p tag key amount) p tag .debitAmount .badValue .zeros s)
    ∧ (amount ≠ 0 → (s.slot i).balance.toNat - heldTotal s i < amount.toNat →
      AnswersOnly (.debitAmount p tag key amount) p tag .debitAmount .insufficient .zeros s)
    ∧ ∀ b : Word, amount ≠ 0 → amount.toNat + heldTotal s i ≤ (s.slot i).balance.toNat →
      b.toNat + amount.toNat = (s.slot i).balance.toNat →
      ∃ t, exec (.debitAmount p tag key amount) s = .next t ∧ ImagePending i {
        balance := b, ceiling := (s.slot i).ceiling, threshold := (s.slot i).threshold, cls := (s.slot i).cls,
        frozenMark := (s.slot i).frozenMark, change := .debitAmount, port := p, tag := tag, handle := none,
        figures := .word b } s t

/-- DEBIT_UNITS on an ACTIVE account with no pending image (R28): BAD_CLASS for an UNDEFINED class, INSUFFICIENT for a
charge above the spendable amount, OK at once for a charge of 0, and else an image with the charge taken off. -/
def Obligations.DebitUnitsTakesTheCharge : Prop :=
  ∀ (p : Port) (tag : Byte) (key : Word) (units : Half) (s : State) (i : SlotNo),
    Handed (.debitUnits p tag key units) s → s.supply = .good → findKey s key = some i →
    (s.slot i).state = .active → (s.slot i).pending = none →
    ((s.tariff (s.slot i).cls).state = .undefined →
      AnswersOnly (.debitUnits p tag key units) p tag .debitUnits .badClass .zeros s)
    ∧ ((s.tariff (s.slot i).cls).state = .defined →
      ((s.slot i).balance.toNat - heldTotal s i < charge (s.tariff (s.slot i).cls).rates units →
        AnswersOnly (.debitUnits p tag key units) p tag .debitUnits .insufficient .zeros s)
      ∧ (charge (s.tariff (s.slot i).cls).rates units = 0 →
        AnswersOnly (.debitUnits p tag key units) p tag .debitUnits .ok (.debit 0 (s.slot i).balance) s)
      ∧ ∀ c b : Word, c ≠ 0 → c.toNat = charge (s.tariff (s.slot i).cls).rates units →
        c.toNat + heldTotal s i ≤ (s.slot i).balance.toNat → b.toNat + c.toNat = (s.slot i).balance.toNat →
        ∃ t, exec (.debitUnits p tag key units) s = .next t ∧ ImagePending i {
          balance := b, ceiling := (s.slot i).ceiling, threshold := (s.slot i).threshold, cls := (s.slot i).cls,
          frozenMark := (s.slot i).frozenMark, change := .debitUnits, port := p, tag := tag, handle := none,
          figures := .debit c b } s t)

/-- The held total of a slot is 0 with every hold entry FREE, and it moves by what one hold entry adds to it: the amount
of an OPEN hold and the residual of a SETTLING one on that slot, nothing for a hold on another slot, and nothing for a
LAPSED or FREE entry (R22). -/
def Obligations.HeldTotalFollowsTheHolds : Prop :=
  (∀ (s : State) (i : SlotNo), (∀ n : HoldNo, (s.hold n).state = .free) → heldTotal s i = 0)
  ∧ (∀ (s : State) (n : HoldNo) (e : HoldEntry) (i : SlotNo),
    heldTotal (s.setHold n e) i + heldBy i (s.hold n) = heldTotal s i + heldBy i e)
  ∧ (∀ (g : Byte) (h : Hold) (i : SlotNo),
    heldBy i ⟨g, .open h⟩ = if h.slot = i then h.amount.toNat else 0)
  ∧ (∀ (g : Byte) (h : Hold) (c r : Word) (i : SlotNo),
    heldBy i ⟨g, .settling h c r⟩ = if h.slot = i then r.toNat else 0)
  ∧ (∀ (g : Byte) (h : Hold) (w : Word) (i : SlotNo), heldBy i ⟨g, .lapsed h w⟩ = 0)
  ∧ ∀ (g : Byte) (i : SlotNo), heldBy i ⟨g, .free⟩ = 0

/-- A re-evaluation sets both indicators to their conditions and raises an alert only on the crossing into a
condition: with no crossing the alerts stand, with one crossing its alert alone is raised, and with both
CREDIT_EXHAUSTED is raised before LOW_CREDIT; after a crossing the alert stands in the queue or is recorded lost (R32,
R33, R143). -/
def Obligations.ReevaluationRaisesOnCrossings : Prop :=
  ∀ (i : SlotNo) (s : State),
    SlotBecomes i (s.slot i) s (reevaluate i s)
    ∧ spendable (reevaluate i s) i = spendable s i
    ∧ (¬ (spendable s i = 0 ∧ (s.slot i).exhausted = false)
      ∧ ¬ (spendable s i < (s.slot i).threshold.toNat ∧ (s.slot i).low = false) →
        (reevaluate i s).alerts = s.alerts ∧ (reevaluate i s).lost = s.lost)
    ∧ (spendable s i = 0 ∧ (s.slot i).exhausted = false →
      (∃ e ∈ (reevaluate i s).alerts, e.condition = (.creditExhausted, .account i ((s.slot i).key.getD 0)))
        ∨ (reevaluate i s).lost = true)
    ∧ (spendable s i < (s.slot i).threshold.toNat ∧ (s.slot i).low = false →
      (∃ e ∈ (reevaluate i s).alerts, e.condition = (.lowCredit, .account i ((s.slot i).key.getD 0)))
        ∨ (reevaluate i s).lost = true)
    ∧ (spendable s i = 0 ∧ (s.slot i).exhausted = false →
      ¬ (spendable s i < (s.slot i).threshold.toNat ∧ (s.slot i).low = false) →
        AlertsLike (raiseAlert .creditExhausted (.account i ((s.slot i).key.getD 0)) s) (reevaluate i s))
    ∧ (¬ (spendable s i = 0 ∧ (s.slot i).exhausted = false) →
      spendable s i < (s.slot i).threshold.toNat ∧ (s.slot i).low = false →
        AlertsLike (raiseAlert .lowCredit (.account i ((s.slot i).key.getD 0)) s) (reevaluate i s))
    ∧ (spendable s i = 0 ∧ (s.slot i).exhausted = false →
      spendable s i < (s.slot i).threshold.toNat ∧ (s.slot i).low = false →
        AlertsLike (raiseAlert .lowCredit (.account i ((s.slot i).key.getD 0))
          (raiseAlert .creditExhausted (.account i ((s.slot i).key.getD 0)) s)) (reevaluate i s))

/-! ## Tariffs -/

/-- The charge is the fee, the units up to the boundary at rate 1 and the units beyond it at rate 2 (R42). No charge
exceeds 4,294,901,760 cu, every part and the sum are formed in full and fit their fields, and the bound is reached by
65,535 units at a fee and rates of 65,535, whatever the boundary (R43). -/
def Obligations.ChargeIsFeeAndTwoTiersWithinItsBound : Prop :=
  (∀ (r : Rates) (units : Half),
    (units.toNat ≤ r.boundary.toNat → charge r units = r.fee.toNat + units.toNat * r.rate1.toNat)
    ∧ (r.boundary.toNat ≤ units.toNat → charge r units = r.fee.toNat + r.boundary.toNat * r.rate1.toNat
        + (units.toNat - r.boundary.toNat) * r.rate2.toNat)
    ∧ charge r units ≤ 4294901760
    ∧ (asWord (charge r units)).toNat = charge r units
    ∧ (asWord (tier1Part r units)).toNat = tier1Part r units
    ∧ (asWord (tier2Part r units)).toNat = tier2Part r units
    ∧ charge r units = r.fee.toNat + tier1Part r units + tier2Part r units)
  ∧ ∀ b : Half, charge ⟨65535, b, 65535, 65535⟩ 65535 = 4294901760

/-- QUOTE answers the three parts and the charge at the committed values, and BAD_CLASS for a class above 15 or
UNDEFINED (R45, R46). READ_TARIFF answers the class as it stands, in every class state, and BAD_CLASS for a class
above 15 (R45, R47). -/
def Obligations.QuoteAndReadTariffAnswerTheClass : Prop :=
  (∀ (p : Port) (tag cls : Byte) (units : Half) (s : State), Handed (.quote p tag cls units) s →
    (∀ n : ClassNo, cls.toNat = n.val → (s.tariff n).state = .defined →
      AnswersOnly (.quote p tag cls units) p tag .quote .ok (.quote
        (asWord (s.tariff n).rates.fee.toNat) (asWord (tier1Part (s.tariff n).rates units))
        (asWord (tier2Part (s.tariff n).rates units)) (asWord (charge (s.tariff n).rates units))) s)
    ∧ ((16 ≤ cls.toNat ∨ ∃ n : ClassNo, cls.toNat = n.val ∧ (s.tariff n).state = .undefined) →
      AnswersOnly (.quote p tag cls units) p tag .quote .badClass .zeros s))
  ∧ ∀ (p : Port) (tag cls : Byte) (s : State), Handed (.readTariff p tag cls) s →
    (∀ n : ClassNo, cls.toNat = n.val →
      AnswersOnly (.readTariff p tag cls) p tag .readTariff .ok (.tariff (s.tariff n).state (s.tariff n).rates
        (s.tariff n).pending.isSome (s.tariff n).storeFault) s)
    ∧ (16 ≤ cls.toNat → AnswersOnly (.readTariff p tag cls) p tag .readTariff .badClass .zeros s)

/-- SET_TARIFF (R45, R48): BAD_CLASS above 15, STORE_FAULT with the indicator set, OK at once where a DEFINED class has
these values, and else the class's pending image, a TARIFF_IMAGE entry and a deferred response, with no indicator and
no alert touched. -/
def Obligations.SetTariffQueuesTheValues : Prop :=
  ∀ (tag cls : Byte) (rates : Rates) (s : State), Handed (.setTariff .service tag cls rates) s → s.supply = .good →
    (16 ≤ cls.toNat → AnswersOnly (.setTariff .service tag cls rates) .service tag .setTariff .badClass .zeros s)
    ∧ ∀ n : ClassNo, cls.toNat = n.val →
      ((s.tariff n).storeFault = true →
        AnswersOnly (.setTariff .service tag cls rates) .service tag .setTariff .storeFault .zeros s)
      ∧ ((s.tariff n).storeFault = false → (s.tariff n).state = .defined ∧ (s.tariff n).rates = rates →
        AnswersOnly (.setTariff .service tag cls rates) .service tag .setTariff .ok .zeros s)
      ∧ ((s.tariff n).storeFault = false → ¬ ((s.tariff n).state = .defined ∧ (s.tariff n).rates = rates) →
        ∃ t, exec (.setTariff .service tag cls rates) s = .next t
          ∧ t.tariff n = { s.tariff n with pending := some ⟨rates, .service, tag⟩ }
          ∧ (∀ m : ClassNo, m ≠ n → t.tariff m = s.tariff m)
          ∧ t.commitQueue = s.commitQueue ++ [⟨.tariffImage n, .tariff rates, some .service, some tag, .waiting⟩]
          ∧ Deferred .service tag s t
          ∧ t = { s with
              tariffs := t.tariffs, commitQueue := t.commitQueue, terminal := t.terminal, service := t.service,
              lastServed := .service })

/-! ## Holds -/

/-- READ_CLOCK answers the seconds counter at once, in either supply state, and changes no state (R61). -/
def Obligations.ReadClockAnswersTheCounter : Prop :=
  ∀ (p : Port) (tag : Byte) (s : State), Handed (.readClock p tag) s →
    AnswersOnly (.readClock p tag) p tag .readClock .ok (.word s.seconds) s

/-- OPEN_HOLD served, in either supply state (R34, R66 to R68): the entry's generation steps by one, the hold takes
the amount, the rate snapshot and the deadline, the indicators are re-evaluated with the alerts of their crossings,
and OK carries handle and deadline. -/
def Obligations.OpenHoldReservesCredit : Prop :=
  ∀ (p : Port) (tag : Byte) (key amount : Word) (duration : Half) (s : State) (i : SlotNo) (n : HoldNo)
    (deadline : Word),
    Handed (.openHold p tag key amount duration) s → findKey s key = some i → Reservable i s →
    amount ≠ 0 → duration ≠ 0 → duration.toNat ≤ 7200 → deadline.toNat = s.seconds.toNat + duration.toNat →
    (s.tariff (s.slot i).cls).state = .defined → amount.toNat ≤ spendable s i → entryForHold s = some n →
    ∃ t g, exec (.openHold p tag key amount duration) s = .next t
      ∧ g = (if (s.hold n).generation = 255 then 1 else (s.hold n).generation + 1)
      ∧ HoldBecomes n ⟨g, .open {
          slot := i, key := key, owner := p, amount := amount, rates := (s.tariff (s.slot i).cls).rates,
          opened := s.seconds, deadline := deadline }⟩ s t
      ∧ SlotBecomes i (s.slot i) s t ∧ Reevaluated i s t
      ∧ Answered p tag .openHold .ok (.handle n g deadline) s t
      ∧ t = { s with
          slots := t.slots, holds := t.holds, terminal := t.terminal, service := t.service, alerts := t.alerts,
          lost := t.lost, lastServed := p }

/-- The refusals of OPEN_HOLD at steps 5 and 6, in their order (R66); and the entry for a new hold: the lowest FREE one,
else the LAPSED one with the lowest lapsed second and the lowest number among those, else none (R67). -/
def Obligations.OpenHoldRefusesInOrderAndFindsItsEntry : Prop :=
  (∀ (p : Port) (tag : Byte) (key amount : Word) (duration : Half) (s : State) (i : SlotNo),
    Handed (.openHold p tag key amount duration) s → findKey s key = some i → Reservable i s →
    (amount = 0 ∨ duration = 0 ∨ 7200 < duration.toNat →
      AnswersOnly (.openHold p tag key amount duration) p tag .openHold .badValue .zeros s)
    ∧ (amount ≠ 0 → duration ≠ 0 → duration.toNat ≤ 7200 →
      (4294967295 < s.seconds.toNat + duration.toNat →
        AnswersOnly (.openHold p tag key amount duration) p tag .openHold .tooLong .zeros s)
      ∧ (s.seconds.toNat + duration.toNat ≤ 4294967295 →
        ((s.tariff (s.slot i).cls).state = .undefined →
          AnswersOnly (.openHold p tag key amount duration) p tag .openHold .badClass .zeros s)
        ∧ ((s.tariff (s.slot i).cls).state = .defined →
          (spendable s i < amount.toNat →
            AnswersOnly (.openHold p tag key amount duration) p tag .openHold .insufficient .zeros s)
          ∧ (amount.toNat ≤ spendable s i → entryForHold s = none →
            AnswersOnly (.openHold p tag key amount duration) p tag .openHold .holdsFull .zeros s)))))
  ∧ ∀ s : State,
    (∀ n : HoldNo, (s.hold n).state = .free → (∀ m : HoldNo, m < n → (s.hold m).state ≠ .free) →
      entryForHold s = some n)
    ∧ (∀ (n : HoldNo) (h : Hold) (w : Word), (∀ m : HoldNo, (s.hold m).state ≠ .free) →
        (s.hold n).state = .lapsed h w →
        (∀ (m : HoldNo) (h' : Hold) (w' : Word), (s.hold m).state = .lapsed h' w' →
          w.toNat < w'.toNat ∨ (w = w' ∧ n ≤ m)) →
        entryForHold s = some n)
    ∧ ((∀ m : HoldNo, (s.hold m).state ≠ .free) →
        (∀ (m : HoldNo) (h : Hold) (w : Word), (s.hold m).state ≠ .lapsed h w) → entryForHold s = none)

/-- EXTEND_HOLD by the owner of an OPEN hold (R69): BAD_VALUE for 0, TOO_LONG past 14,400 s after the opened second or
past the counter's range, and else the new deadline and nothing else of the hold. -/
def Obligations.ExtendHoldMovesTheDeadline : Prop :=
  ∀ (p : Port) (tag : Byte) (handle : Handle) (seconds : Half) (s : State) (n : HoldNo) (h : Hold),
    Handed (.extendHold p tag handle seconds) s → Names handle n s → (s.hold n).state = .open h → h.owner = p →
    Reservable h.slot s →
    (seconds = 0 → AnswersOnly (.extendHold p tag handle seconds) p tag .extendHold .badValue .zeros s)
    ∧ (seconds ≠ 0 →
      (h.opened.toNat + 14400 < h.deadline.toNat + seconds.toNat
        ∨ 4294967295 < h.deadline.toNat + seconds.toNat →
          AnswersOnly (.extendHold p tag handle seconds) p tag .extendHold .tooLong .zeros s)
      ∧ ∀ d : Word, d.toNat = h.deadline.toNat + seconds.toNat → d.toNat ≤ h.opened.toNat + 14400 →
        ∃ t, exec (.extendHold p tag handle seconds) s = .next t
          ∧ HoldBecomes n ⟨(s.hold n).generation, .open { h with deadline := d }⟩ s t
          ∧ Answered p tag .extendHold .ok (.extend d h.amount) s t
          ∧ t = { s with holds := t.holds, terminal := t.terminal, service := t.service, lastServed := p })

/-- SETTLE_HOLD by the owner of an OPEN hold on an account with no pending image, with the supply GOOD (R34, R70,
R71): a charge of 0 frees the hold at once; another charge, capped at the amount, makes the hold SETTLING with its
residual and the settle image pending. The slot is re-evaluated with the alerts of its crossings. -/
def Obligations.SettleHoldTakesAtMostTheAmount : Prop :=
  ∀ (p : Port) (tag : Byte) (handle : Handle) (units : Half) (s : State) (n : HoldNo) (h : Hold),
    Handed (.settleHold p tag handle units) s → s.supply = .good → Names handle n s →
    (s.hold n).state = .open h → h.owner = p → Unpended h.slot s → h.amount ≠ 0 →
    (charge h.rates units = 0 →
      ∃ t, exec (.settleHold p tag handle units) s = .next t
        ∧ HoldBecomes n ⟨(s.hold n).generation, .free⟩ s t
        ∧ SlotBecomes h.slot (s.slot h.slot) s t ∧ Reevaluated h.slot s t
        ∧ Answered p tag .settleHold .ok (.settle 0 false 0 (s.slot h.slot).balance h.amount h.deadline) s t
        ∧ t = { s with
            slots := t.slots, holds := t.holds, terminal := t.terminal, service := t.service, alerts := t.alerts,
            lost := t.lost, lastServed := p })
    ∧ ∀ c residual excess b : Word, charge h.rates units ≠ 0 →
      c.toNat = min (charge h.rates units) h.amount.toNat → residual.toNat = h.amount.toNat - c.toNat →
      excess.toNat = charge h.rates units - h.amount.toNat → b.toNat + c.toNat = (s.slot h.slot).balance.toNat →
      ∃ t, exec (.settleHold p tag handle units) s = .next t
        ∧ HoldBecomes n ⟨(s.hold n).generation, .settling h c residual⟩ s t
        ∧ SlotBecomes h.slot { s.slot h.slot with pending := some {
            balance := b, ceiling := (s.slot h.slot).ceiling, threshold := (s.slot h.slot).threshold,
            cls := (s.slot h.slot).cls, frozenMark := (s.slot h.slot).frozenMark, change := .settle, port := p,
            tag := tag, handle := some (n, (s.hold n).generation),
            figures := .settle c (decide (h.amount.toNat < charge h.rates units)) excess b h.amount h.deadline } } s t
        ∧ t.commitQueue = s.commitQueue ++ [⟨.accountImage h.slot,
            .account ((s.slot h.slot).key.getD 0) (s.slot h.slot).cls (s.slot h.slot).frozenMark b
              (s.slot h.slot).ceiling (s.slot h.slot).threshold, some p, some tag, .waiting⟩]
        ∧ Deferred p tag s t ∧ Reevaluated h.slot s t
        ∧ t = { s with
            slots := t.slots, holds := t.holds, commitQueue := t.commitQueue, terminal := t.terminal,
            service := t.service, alerts := t.alerts, lost := t.lost, lastServed := p }

/-- CANCEL_HOLD on an OPEN hold, by its owner or by the Service Port, in either supply state and on an ACTIVE, FROZEN
or FAULTED account (R34, R63, R74): the entry becomes FREE with its generation kept, and the slot is re-evaluated with
the alerts of its crossings. -/
def Obligations.CancelHoldReleasesTheAmount : Prop :=
  ∀ (p : Port) (tag : Byte) (handle : Handle) (s : State) (n : HoldNo) (h : Hold),
    Handed (.cancelHold p tag handle) s → Names handle n s → (s.hold n).state = .open h →
    h.owner = p ∨ p = .service →
    (s.slot h.slot).state = .active ∨ (s.slot h.slot).state = .frozen ∨ (s.slot h.slot).state = .faulted →
    ∃ t, exec (.cancelHold p tag handle) s = .next t
      ∧ HoldBecomes n ⟨(s.hold n).generation, .free⟩ s t
      ∧ SlotBecomes h.slot (s.slot h.slot) s t ∧ Reevaluated h.slot s t
      ∧ Answered p tag .cancelHold .ok (.release h.amount h.deadline) s t
      ∧ t = { s with
          slots := t.slots, holds := t.holds, terminal := t.terminal, service := t.service, alerts := t.alerts,
          lost := t.lost, lastServed := p }

/-- HOLD_STATUS reports a hold in any state but FREE and changes nothing, from either port; a handle that resolves to no
hold is answered NO_SUCH_HOLD (R56, R75). -/
def Obligations.HoldStatusReportsTheHold : Prop :=
  ∀ (p : Port) (tag : Byte) (handle : Handle) (s : State), Handed (.holdStatus p tag handle) s →
    (∀ (n : HoldNo) (h : Hold) (w : Word), Names handle n s → (s.hold n).state = .lapsed h w →
      AnswersOnly (.holdStatus p tag handle) p tag .holdStatus .ok (.hold (.lapsed h w)) s)
    ∧ (∀ (n : HoldNo) (h : Hold), Names handle n s →
      (s.hold n).state = .open h ∨ (∃ c r, (s.hold n).state = .settling h c r) →
      (s.slot h.slot).state = .active ∨ (s.slot h.slot).state = .frozen ∨ (s.slot h.slot).state = .faulted →
      AnswersOnly (.holdStatus p tag handle) p tag .holdStatus .ok (.hold (s.hold n).state) s)
    ∧ ((∀ n : HoldNo, ¬ Names handle n s) →
      AnswersOnly (.holdStatus p tag handle) p tag .holdStatus .noSuchHold .zeros s)

/-- The owner's EXTEND_HOLD, SETTLE_HOLD or CANCEL_HOLD on a LAPSED hold is answered HOLD_LAPSED with amount and
deadline and frees the entry; a request of another port is NOT_OWNER and changes nothing (R63, R65). -/
def Obligations.LapsedHoldIsAnsweredOnce : Prop :=
  ∀ (c : Instr) (k : Kind) (f : Figures) (p : Port) (tag : Byte) (handle : Handle) (u : Half) (s : State)
    (n : HoldNo) (h : Hold) (w : Word),
    Handed c s → Names handle n s → (s.hold n).state = .lapsed h w →
    (c = .extendHold p tag handle u ∧ k = .extendHold ∧ f = .extend h.deadline h.amount)
      ∨ (c = .settleHold p tag handle u ∧ k = .settleHold ∧ f = .settle 0 false 0 0 h.amount h.deadline
          ∧ s.supply = .good)
      ∨ (c = .cancelHold p tag handle ∧ k = .cancelHold ∧ f = .release h.amount h.deadline) →
    (h.owner = p → ∃ t, exec c s = .next t ∧ HoldBecomes n ⟨(s.hold n).generation, .free⟩ s t
      ∧ Answered p tag k .holdLapsed f s t
      ∧ t = { s with holds := t.holds, terminal := t.terminal, service := t.service, lastServed := p })
    ∧ (h.owner ≠ p → AnswersOnly c p tag k .notOwner .zeros s)

/-- The second tick (R34, R59, R60), in OPEN and RESTARTING below 4,294,967,295: the counter rises by one, every OPEN
hold whose deadline is reached becomes LAPSED with the new value and its HOLD_LAPSED stands in the alert queue or is
recorded lost, no other hold changes, and a slot changes in its indicators alone and only where it lost a hold: there
they are at their conditions, and a crossing into one has its alert in the queue or recorded lost. With no hold due,
no alert is raised; with no indicator set by the tick, the alerts are the HOLD_LAPSED ones alone, in ascending order
of entry (R143). In every other state nothing changes. -/
def Obligations.SecondTickLapsesDueHolds : Prop :=
  (∀ s : State, s.inReset = true ∨ (s.phase ≠ .open ∧ s.phase ≠ .restarting) ∨ s.seconds = 4294967295 →
    exec .secondTick s = .next s)
  ∧ ∀ s : State, s.inReset = false → s.phase = .open ∨ s.phase = .restarting → s.seconds.toNat < 4294967295 →
    ∃ t, exec .secondTick s = .next t ∧ t.seconds.toNat = s.seconds.toNat + 1
      ∧ (∀ (n : HoldNo) (h : Hold), (s.hold n).state = .open h → h.deadline.toNat ≤ s.seconds.toNat + 1 →
          t.hold n = ⟨(s.hold n).generation, .lapsed h t.seconds⟩
          ∧ ((∃ e ∈ t.alerts, e.condition = (.holdLapsed, .hold n (s.hold n).generation h.key)) ∨ t.lost = true))
      ∧ (∀ n : HoldNo, (∀ h : Hold, (s.hold n).state = .open h → s.seconds.toNat + 1 < h.deadline.toNat) →
          t.hold n = s.hold n)
      ∧ (∀ i : SlotNo, t.slot i = { s.slot i with low := (t.slot i).low, exhausted := (t.slot i).exhausted })
      ∧ (∀ (n : HoldNo) (h : Hold), (s.hold n).state = .open h → h.deadline.toNat ≤ s.seconds.toNat + 1 →
          (t.slot h.slot).low = lowCreditHolds (s.slot h.slot).threshold (spendable t h.slot)
          ∧ (t.slot h.slot).exhausted = exhaustedHolds (spendable t h.slot)
          ∧ ((t.slot h.slot).low = true → (s.slot h.slot).low = false →
              Recorded (.lowCredit, .account h.slot ((s.slot h.slot).key.getD 0)) t)
          ∧ ((t.slot h.slot).exhausted = true → (s.slot h.slot).exhausted = false →
              Recorded (.creditExhausted, .account h.slot ((s.slot h.slot).key.getD 0)) t))
      ∧ (∀ i : SlotNo, (∀ (n : HoldNo) (h : Hold), (s.hold n).state = .open h → h.slot = i →
          s.seconds.toNat + 1 < h.deadline.toNat) → t.slot i = s.slot i)
      ∧ ((∀ (n : HoldNo) (h : Hold), (s.hold n).state = .open h → s.seconds.toNat + 1 < h.deadline.toNat) →
          AlertsLike s t)
      ∧ ((∀ i : SlotNo, ((t.slot i).low = true → (s.slot i).low = true)
            ∧ ((t.slot i).exhausted = true → (s.slot i).exhausted = true)) →
          AlertsLike (lapseAlerts t.seconds s) t)
      ∧ t = { s with
          seconds := t.seconds, holds := t.holds, slots := t.slots, alerts := t.alerts, lost := t.lost }

/-! ## The Commit Engine and the Cell Store -/

/-- The head's first program, with the supply GOOD and no wear relocation (R81, R82, R84, R101, R102): the target is
the pair of the subject, its copy the inactive one, the sequence one more than the higher of the subject's and the
pair's, attempt 1 is under way and the wear has risen by one; no cell has changed yet. A wear past 4,294,967,295
stands free (log 9), and the counter of free values may move. -/
def Obligations.FirstProgramSettlesTheTarget : Prop :=
  ∀ (s : State) (e : CommitEntry) (rest : List CommitEntry) (p : PairId) (sequence : Word),
    s.inReset = false → s.supply = .good → s.commitQueue = e :: rest → e.stage = .waiting →
    (∀ i, e.subject = .accountImage i ∨ e.subject = .accountEmpty i → (s.slot i).currentPair.map .account = some p) →
    (∀ n, e.subject = .tariffImage n → p = .tariff n) → (∀ q, e.subject = .tidyEmpty q → p = .account q) →
    wearRelocates s e.subject p = false →
    sequence.toNat = max (durableSequence s e.subject) (s.track p).newestSequence.toNat + 1 →
    ∃ t w, exec .firstProgram s = .next t
      ∧ t.commitQueue = { e with stage := .programming ⟨p, inactiveCopy (s.track p), sequence, .first, true⟩ } :: rest
      ∧ t.track p = { s.track p with wear := w } ∧ ((s.track p).wear.toNat < 4294967295 → w = (s.track p).wear + 1)
      ∧ (∀ q, q ≠ p → t.track q = s.track q) ∧ (∀ q, (t.pair q).role = (s.pair q).role)
      ∧ t = { s with
          commitQueue := t.commitQueue, accountPairs := t.accountPairs, tariffPairs := t.tariffPairs,
          freeUses := t.freeUses }

/-- The class of a copy (R99); the newest valid copy of a pair, its valid copy with the higher sequence and copy A on
a tie, and the inactive copy, the other one and copy A where neither is valid (R100); the verify passes on exactly
what was programmed, and on no copy whose kind, sequence, wear, CRC-16 or image fields differ (R84). -/
def Obligations.CopiesAreClassedAndVerified : Prop :=
  (∀ c : Copy, (classify c = .blank ↔ c = blankCopy)
    ∧ (classify c = .valid ↔ c ≠ blankCopy ∧ crc16 (coveredBytes c) = c.check
        ∧ (c.kind = 1 ∨ c.kind = 2 ∨ c.kind = 3) ∧ c.sequence ≠ 0))
  ∧ (∀ c : CellPair,
    (newestValid c = none ↔ classify c.a ≠ .valid ∧ classify c.b ≠ .valid)
    ∧ (newestValid c = some .a ↔ classify c.a = .valid
        ∧ (classify c.b = .valid → c.b.sequence.toNat ≤ c.a.sequence.toNat))
    ∧ (newestValid c = some .b ↔ classify c.b = .valid
        ∧ (classify c.a = .valid → c.a.sequence.toNat < c.b.sequence.toNat)))
  ∧ (∀ r : PairTrack, (r.newest = none → inactiveCopy r = .a) ∧ (r.newest = some .a → inactiveCopy r = .b)
    ∧ (r.newest = some .b → inactiveCopy r = .a))
  ∧ (∀ (image : Image) (sequence wear : Word),
    verifyPasses image sequence wear (programmedCopy image sequence wear) = true)
  ∧ ∀ (image : Image) (sequence wear : Word) (c : Copy), verifyPasses image sequence wear c = true →
    c.kind = image.kindByte ∧ c.sequence = sequence ∧ c.wear = wear ∧ crc16 (coveredBytes c) = c.check
    ∧ match image with
      | .account key cls frozenMark balance ceiling threshold => bodyKey c.body = key
          ∧ (bodyClass c.body).toNat = cls.val ∧ bodyFrozen c.body = frozenMark ∧ bodyBalance c.body = balance
          ∧ bodyCeiling c.body = ceiling ∧ bodyThreshold c.body = threshold
      | .tariff rates => bodyRates c.body = rates
      | .empty key => bodyKey c.body = key.getD 0

/-- A done account image in its own pair (R15, R35, R72, R84, R89, R101, R126): the committed values take the image's,
the state follows the change kind, the cells hold the copy, the pair's newest copy moves, a settle's hold is freed,
the entry leaves and the deferred response is placed. The slot is re-evaluated with the alerts of its crossings, but
for an open, which sets the indicators without an alert. In RESTARTING an emptied queue begins the collection wait. -/
def Obligations.DoneImageIsCommitted : Prop :=
  ∀ (s : State) (e : CommitEntry) (rest : List CommitEntry) (i : SlotNo) (img : PendingImage) (a : Attempt)
    (p : PairNo) (readBack : Copy),
    s.inReset = false → s.commitQueue = e :: rest → e.subject = .accountImage i → e.stage = .programming a →
    a.underWay = true → a.target = .account p → (s.slot i).currentPair = some p → (s.slot i).pending = some img →
    verifyPasses e.image a.sequence (s.pair p).track.wear readBack = true →
    ∃ t, exec (.attemptComplete readBack) s = .next t
      ∧ SlotBecomes i { s.slot i with
          state := if img.change = .open ∨ img.change = .thaw then .active
            else if img.change = .freeze then .frozen else (s.slot i).state
          cls := img.cls, balance := img.balance, ceiling := img.ceiling, threshold := img.threshold,
          frozenMark := img.frozenMark, sequence := some a.sequence, pending := none } s t
      ∧ t.commitQueue = rest
      ∧ t.cells (.account p) = (s.cells (.account p)).setCopy a.copy readBack
      ∧ (∀ q, q ≠ .account p → t.cells q = s.cells q)
      ∧ t.pair p = { s.pair p with
          track := ⟨(s.pair p).track.wear, some a.copy, a.sequence⟩ }
      ∧ (∀ q, q ≠ p → t.pair q = s.pair q)
      ∧ (img.handle = none → t.holds = s.holds)
      ∧ (∀ n g, img.handle = some (n, g) → HoldBecomes n ⟨(s.hold n).generation, .free⟩ s t)
      ∧ DoneAnswered img s t ∧ WaitAfter rest s t
      ∧ (img.change ≠ .open → Reevaluated i s t) ∧ (img.change = .open → AlertsLike s t)
      ∧ t = { s with
          slots := t.slots, holds := t.holds, commitQueue := rest, accountCells := t.accountCells,
          accountPairs := t.accountPairs, alerts := t.alerts, lost := t.lost, terminal := t.terminal,
          service := t.service, collectionWait := t.collectionWait }

/-- A wear relocation (R83, R106): a program of a change other than OPEN on a pair at the wear limit claims the head
of the free list as INCOMING and starts attempt 1 on its inactive copy; the target pair is not programmed; a claim
that empties the list raises SPARES_EXHAUSTED, and no other alert is raised. A done relocation of an account image
(R15, R35, R88, R110, R126): the incoming pair becomes CURRENT for the slot and the target pair WORN, with
PAIR_RETIRED in the alert queue or recorded lost; the slot is re-evaluated after it with the alerts of its crossings,
but for an open, which sets the indicators without an alert. A wear past 4,294,967,295 stands free (log 9), and the
counter of free values may move. -/
def Obligations.RelocationMovesTheSlotToASpare : Prop :=
  (∀ (s : State) (e : CommitEntry) (rest : List CommitEntry) (i : SlotNo) (img : PendingImage) (p q : PairNo)
    (spare : List PairNo) (first sequence : Word),
    s.inReset = false → s.supply = .good → s.commitQueue = e :: rest → e.stage = .waiting →
    e.subject = .accountImage i → (s.slot i).pending = some img → img.change ≠ .open →
    (s.slot i).currentPair = some p → 400000 ≤ (s.pair p).track.wear.toNat → s.freeList = q :: spare →
    first.toNat = max (durableSequence s e.subject) (s.pair p).track.newestSequence.toNat + 1 →
    sequence.toNat = max (durableSequence s e.subject) (s.pair q).track.newestSequence.toNat + 1 →
    ∃ t w, exec .firstProgram s = .next t
      ∧ t.commitQueue = ⟨e.subject, e.image, e.port, e.tag, .relocating
          ⟨.account p, inactiveCopy (s.pair p).track, sequence, .first, true⟩ q (inactiveCopy (s.pair q).track)⟩ :: rest
      ∧ t.freeList = spare
      ∧ t.pair q = ⟨some (.incoming i), { (s.pair q).track with wear := w }⟩
      ∧ ((s.pair q).track.wear.toNat < 4294967295 → w = (s.pair q).track.wear + 1)
      ∧ (∀ r, r ≠ q → t.pair r = s.pair r)
      ∧ (spare ≠ [] → t.alerts = s.alerts ∧ t.lost = s.lost)
      ∧ (spare = [] → AlertsLike (raiseAlert .sparesExhausted .none s) t ∧ Recorded (.sparesExhausted, .none) t)
      ∧ t = { s with
          commitQueue := t.commitQueue, freeList := spare, accountPairs := t.accountPairs, alerts := t.alerts,
          lost := t.lost, freeUses := t.freeUses })
  ∧ ∀ (s : State) (e : CommitEntry) (rest : List CommitEntry) (i : SlotNo) (img : PendingImage) (a : Attempt)
    (p q : PairNo) (c : CopyName) (readBack : Copy),
    s.inReset = false → s.commitQueue = e :: rest → e.subject = .accountImage i → e.stage = .relocating a q c →
    a.underWay = true → p ≠ q → (s.slot i).currentPair = some p → (s.slot i).pending = some img →
    verifyPasses e.image a.sequence (s.pair q).track.wear readBack = true →
    ∃ t, exec (.attemptComplete readBack) s = .next t
      ∧ SlotBecomes i { s.slot i with
          state := if img.change = .open ∨ img.change = .thaw then .active
            else if img.change = .freeze then .frozen else (s.slot i).state
          cls := img.cls, balance := img.balance, ceiling := img.ceiling, threshold := img.threshold,
          frozenMark := img.frozenMark, sequence := some a.sequence, currentPair := some q, pending := none } s t
      ∧ t.pair q = ⟨some (.current i), ⟨(s.pair q).track.wear, some c, a.sequence⟩⟩
      ∧ t.pair p = { s.pair p with role := some .worn } ∧ (∀ x, x ∈ t.wornSet ↔ x = p ∨ x ∈ s.wornSet)
      ∧ (∀ r, r ≠ p → r ≠ q → t.pair r = s.pair r) ∧ t.commitQueue = rest
      ∧ t.cells (.account q) = (s.cells (.account q)).setCopy c readBack
      ∧ (∀ r, r ≠ .account q → t.cells r = s.cells r)
      ∧ ((∃ x ∈ t.alerts, x.condition = (.pairRetired, .pair p)) ∨ t.lost = true)
      ∧ (img.handle = none → t.holds = s.holds)
      ∧ (∀ n g, img.handle = some (n, g) → HoldBecomes n ⟨(s.hold n).generation, .free⟩ s t)
      ∧ DoneAnswered img s t ∧ WaitAfter rest s t
      ∧ (img.change ≠ .open → Reevaluated i (raiseAlert .pairRetired (.pair p) s) t)
      ∧ (img.change = .open → AlertsLike (raiseAlert .pairRetired (.pair p) s) t)
      ∧ t = { s with
          slots := t.slots, holds := t.holds, commitQueue := rest, accountCells := t.accountCells,
          accountPairs := t.accountPairs, wornSet := t.wornSet, alerts := t.alerts, lost := t.lost,
          terminal := t.terminal, service := t.service, collectionWait := t.collectionWait }

/-- A done close and a done tariff (R16, R50, R88, R106, R107, R110, R112, R126). The closed slot becomes VACANT and
its key leaves the index. Its pair, or the incoming pair of a relocation, is handed back: below the wear limit it is
FREE at its place in the free list, at the limit it is WORN. The target pair of a relocation becomes WORN. The pairs
that become WORN join the worn set with PAIR_RETIRED raised in ascending number, every other pair keeps its place. The
class takes the image's values and becomes DEFINED. The copy programmed holds what it reads back and becomes the
newest of its pair, and no other cell changes. In RESTARTING an emptied queue begins the collection wait. That the
worn set stands in ascending number is the model's (log 28). -/
def Obligations.DoneCloseAndDoneTariff : Prop :=
  ∀ (s : State) (e : CommitEntry) (rest : List CommitEntry) (a : Attempt) (readBack : Copy),
    s.inReset = false → s.commitQueue = e :: rest → a.underWay = true →
    (∀ (i : SlotNo) (img : PendingImage) (p : PairNo), e.stage = .programming a →
      verifyPasses e.image a.sequence (s.track a.target).wear readBack = true → e.subject = .accountEmpty i →
      a.target = .account p → (s.slot i).currentPair = some p → (s.slot i).pending = some img →
      ∃ t, exec (.attemptComplete readBack) s = .next t ∧ t.slot i = Slot.vacant ∧ OtherSlots i s t
        ∧ (∀ x, x ∈ t.keyIndex ↔ x ∈ s.keyIndex ∧ some x.1 ≠ (s.slot i).key)
        ∧ HandedBack p [] s t ∧ (∀ q, q ≠ p → t.pair q = s.pair q)
        ∧ (t.pair p).track = ⟨(s.pair p).track.wear, some a.copy, a.sequence⟩
        ∧ ((s.pair p).track.wear.toNat < 400000 → AlertsLike s t)
        ∧ (400000 ≤ (s.pair p).track.wear.toNat → AlertsLike (raiseAlert .pairRetired (.pair p) s) t
          ∧ Recorded (.pairRetired, .pair p) t)
        ∧ t.cells (.account p) = (s.cells (.account p)).setCopy a.copy readBack
        ∧ (∀ q, q ≠ .account p → t.cells q = s.cells q)
        ∧ Answered img.port img.tag img.change.kind .ok img.figures s t ∧ WaitAfter rest s t
        ∧ t = { s with
            slots := t.slots, keyIndex := t.keyIndex, commitQueue := rest, accountCells := t.accountCells,
            accountPairs := t.accountPairs, freeList := t.freeList, wornSet := t.wornSet, alerts := t.alerts,
            lost := t.lost, terminal := t.terminal, service := t.service, collectionWait := t.collectionWait })
    ∧ (∀ (i : SlotNo) (img : PendingImage) (p q : PairNo) (c : CopyName), e.stage = .relocating a q c →
      verifyPasses e.image a.sequence (s.pair q).track.wear readBack = true → e.subject = .accountEmpty i →
      p ≠ q → (s.slot i).currentPair = some p → (s.slot i).pending = some img →
      ∃ t, exec (.attemptComplete readBack) s = .next t ∧ t.slot i = Slot.vacant ∧ OtherSlots i s t
        ∧ (∀ x, x ∈ t.keyIndex ↔ x ∈ s.keyIndex ∧ some x.1 ≠ (s.slot i).key)
        ∧ t.pair p = { s.pair p with role := some .worn }
        ∧ HandedBack q [p] s t ∧ (∀ r, r ≠ p → r ≠ q → t.pair r = s.pair r)
        ∧ (t.pair q).track = ⟨(s.pair q).track.wear, some c, a.sequence⟩
        ∧ ((s.pair q).track.wear.toNat < 400000 → AlertsLike (raiseAlert .pairRetired (.pair p) s) t
          ∧ Recorded (.pairRetired, .pair p) t)
        ∧ (400000 ≤ (s.pair q).track.wear.toNat →
          (p < q → AlertsLike (raiseAlert .pairRetired (.pair q) (raiseAlert .pairRetired (.pair p) s)) t)
          ∧ (q < p → AlertsLike (raiseAlert .pairRetired (.pair p) (raiseAlert .pairRetired (.pair q) s)) t)
          ∧ Recorded (.pairRetired, .pair p) t ∧ Recorded (.pairRetired, .pair q) t)
        ∧ t.cells (.account q) = (s.cells (.account q)).setCopy c readBack
        ∧ (∀ r, r ≠ .account q → t.cells r = s.cells r)
        ∧ Answered img.port img.tag img.change.kind .ok img.figures s t ∧ WaitAfter rest s t
        ∧ t = { s with
            slots := t.slots, keyIndex := t.keyIndex, commitQueue := rest, accountCells := t.accountCells,
            accountPairs := t.accountPairs, freeList := t.freeList, wornSet := t.wornSet, alerts := t.alerts,
            lost := t.lost, terminal := t.terminal, service := t.service, collectionWait := t.collectionWait })
    ∧ ∀ (n : ClassNo) (img : PendingTariff), e.stage = .programming a →
      verifyPasses e.image a.sequence (s.track a.target).wear readBack = true → e.subject = .tariffImage n →
      a.target = .tariff n → (s.tariff n).pending = some img →
      ∃ t, exec (.attemptComplete readBack) s = .next t
        ∧ t.tariff n = { s.tariff n with
            state := .defined, rates := img.rates, sequence := some a.sequence, pending := none }
        ∧ (∀ m, m ≠ n → t.tariff m = s.tariff m) ∧ t.commitQueue = rest
        ∧ ReadBackIn (.tariff n) a.copy readBack s t
        ∧ t.tariffPairs.get n = ⟨(s.tariffPairs.get n).wear, some a.copy, a.sequence⟩
        ∧ (∀ q, q ≠ .tariff n → t.track q = s.track q)
        ∧ Answered img.port img.tag .setTariff .ok .zeros s t ∧ WaitAfter rest s t
        ∧ t = { s with
            tariffs := t.tariffs, commitQueue := rest, tariffCells := t.tariffCells, tariffPairs := t.tariffPairs,
            terminal := t.terminal, service := t.service, collectionWait := t.collectionWait }

/-- A tidy entry (R84, R106 to R108, R120 to R122). Done, its pair is handed back and counted: FREE at its place in
the free list below the wear limit, WORN with PAIR_RETIRED raised at it. A failed second attempt makes its pair WORN
with PAIR_RETIRED raised and counts a tidy failure. Then the STALE pairs are taken in ascending number: one at the
wear limit becomes WORN without a program and without an alert, and the first below it follows as the only entry of
the queue; with none left, the phase becomes OPEN and the report takes the WORN and FREE counts. The copy programmed
holds what it reads back, no other cell and no other pair changes. What attempt 1 that fails leaves else is stated
with the failed verifies. Not the manual's but the model's: that the worn set stands in ascending number (log 28), and
that the WORN and FREE counts of the report stay as they were while TIDYING goes on (log 33). -/
def Obligations.TidyEntriesFollowOneAnother : Prop :=
  ∀ (s : State) (e : CommitEntry) (p : PairNo) (a : Attempt) (readBack : Copy),
    s.inReset = false → s.phase = .tidying → s.commitQueue = [e] → e.subject = .tidyEmpty p →
    e.stage = .programming a → a.underWay = true → a.target = .account p → (s.pair p).role = some .stale →
    ∃ t, exec (.attemptComplete readBack) s = .next t
      ∧ ReadBackIn a.target a.copy readBack s t
      ∧ (verifyPasses e.image a.sequence (s.pair p).track.wear readBack = true →
        (t.pair p).track = ⟨(s.pair p).track.wear, some a.copy, a.sequence⟩
        ∧ ((s.pair p).track.wear.toNat < 400000 →
          (t.pair p).role = some .free ∧ Placed p s t ∧ AlertsLike s t)
        ∧ (400000 ≤ (s.pair p).track.wear.toNat →
          (t.pair p).role = some .worn ∧ p ∈ t.wornSet ∧ t.freeList = s.freeList
          ∧ AlertsLike (raiseAlert .pairRetired (.pair p) s) t ∧ Recorded (.pairRetired, .pair p) t)
        ∧ t.report = { s.report with
            pairsTidied := s.report.pairsTidied + 1, wornCount := t.report.wornCount,
            freeCount := t.report.freeCount })
      ∧ (verifyPasses e.image a.sequence (s.pair p).track.wear readBack = false → a.number = .second →
        t.pair p = { s.pair p with role := some .worn } ∧ p ∈ t.wornSet ∧ t.freeList = s.freeList
        ∧ AlertsLike (raiseAlert .pairRetired (.pair p) s) t ∧ Recorded (.pairRetired, .pair p) t
        ∧ t.report = { s.report with
            tidyFailures := s.report.tidyFailures + 1, wornCount := t.report.wornCount,
            freeCount := t.report.freeCount })
      ∧ (verifyPasses e.image a.sequence (s.pair p).track.wear readBack = true ∨ a.number = .second →
        TidyFollows p s t ∧ t.freeUses = s.freeUses)
      ∧ t = { s with
          commitQueue := t.commitQueue, accountCells := t.accountCells, accountPairs := t.accountPairs,
          freeList := t.freeList, wornSet := t.wornSet, alerts := t.alerts, lost := t.lost, phase := t.phase,
          report := t.report, freeUses := t.freeUses }

/-- A failed verify (R85 to R87, R92, R101, R106, R112): after attempt 1, on the target and on the incoming pair of a
relocation alike, attempt 2 follows on the same copy with the same image and sequence, at once while the supply is
GOOD and at the return to GOOD while it is LOW; after attempt 2 on its target an account entry claims the head of the
free list and goes on there in attempt 1, with SPARES_EXHAUSTED raised where the claim empties the list and no other
alert. The newest valid copy stays; the copy programmed holds what it reads back and no other cell changes; no other
role and no other wear changes. A wear past 4,294,967,295 stands free (log 9), and the counter of free values may
move. -/
def Obligations.FailedVerifyTriesAgain : Prop :=
  ∀ (s : State) (e : CommitEntry) (rest : List CommitEntry) (a : Attempt) (readBack : Copy),
    s.inReset = false → s.commitQueue = e :: rest → a.underWay = true →
    (a.number = .first → ∀ (p : PairId) (c : CopyName) (b : Attempt) (next : Stage),
      b = { a with number := .second, underWay := decide (s.supply = .good) } →
      (e.stage = .programming a ∧ p = a.target ∧ c = a.copy ∧ next = .programming b)
        ∨ (∃ q, e.stage = .relocating a q c ∧ p = .account q ∧ next = .relocating b q c) →
      verifyPasses e.image a.sequence (s.track p).wear readBack = false →
      ∃ t, exec (.attemptComplete readBack) s = .next t
        ∧ t.commitQueue = ⟨e.subject, e.image, e.port, e.tag, next⟩ :: rest
        ∧ ReadBackIn p c readBack s t
        ∧ (∀ q, (t.track q).newest = (s.track q).newest ∧ (t.track q).newestSequence = (s.track q).newestSequence)
        ∧ (∀ q, q ≠ p → t.track q = s.track q) ∧ (∀ q, (t.pair q).role = (s.pair q).role)
        ∧ (s.supply = .low → ∀ q, t.track q = s.track q)
        ∧ (s.supply = .good → (s.track p).wear.toNat < 4294967295 → (t.track p).wear = (s.track p).wear + 1)
        ∧ t = { s with
            commitQueue := t.commitQueue, accountCells := t.accountCells, tariffCells := t.tariffCells,
            accountPairs := t.accountPairs, tariffPairs := t.tariffPairs, freeUses := t.freeUses })
    ∧ (a.number = .second → ∀ (i : SlotNo) (q : PairNo) (spare : List PairNo) (sequence : Word),
      e.stage = .programming a → verifyPasses e.image a.sequence (s.track a.target).wear readBack = false →
      e.subject = .accountImage i ∨ e.subject = .accountEmpty i → s.freeList = q :: spare →
      sequence.toNat = max (durableSequence s e.subject) (s.pair q).track.newestSequence.toNat + 1 →
      ∃ t w, exec (.attemptComplete readBack) s = .next t
        ∧ t.commitQueue = ⟨e.subject, e.image, e.port, e.tag, .relocating
            { a with sequence := sequence, number := .first, underWay := decide (s.supply = .good) }
            q (inactiveCopy (s.pair q).track)⟩ :: rest
        ∧ t.freeList = spare ∧ t.pair q = ⟨some (.incoming i), { (s.pair q).track with wear := w }⟩
        ∧ (s.supply = .low → w = (s.pair q).track.wear)
        ∧ (s.supply = .good → (s.pair q).track.wear.toNat < 4294967295 → w = (s.pair q).track.wear + 1)
        ∧ (∀ r, r ≠ q → t.pair r = s.pair r)
        ∧ ReadBackIn a.target a.copy readBack s t
        ∧ (spare = [] → AlertsLike (raiseAlert .sparesExhausted .none s) t ∧ Recorded (.sparesExhausted, .none) t)
        ∧ (spare ≠ [] → t.alerts = s.alerts ∧ t.lost = s.lost)
        ∧ t = { s with
            commitQueue := t.commitQueue, freeList := spare, accountCells := t.accountCells,
            tariffCells := t.tariffCells, accountPairs := t.accountPairs, alerts := t.alerts, lost := t.lost,
            freeUses := t.freeUses })

/-- A fault of the head, in every way the head can end so: attempt 2 refused with no spare, a failed relocation, and
no sequence left for the target or for the incoming pair (R82, R83, R86, R87). A change to an open account leaves its
slot FAULTED with the committed values and its pair CURRENT, and a settle's hold back in OPEN (R19, R73); an open
leaves its slot VACANT, its key out of the index and its pair WORN (R18); a tariff leaves its class at the committed
values with the store-fault indicator set (R52); a tidy leaves its pair WORN and counts a tidy failure, and the next
STALE pair or OPEN follows (R120 to R122). An incoming pair becomes WORN (R88). STORE_FAULT is placed and, but for a
tidy, raised; the alerts of the event are exactly STORE_FAULT, PAIR_RETIRED in ascending number and those of the
re-evaluation, and SPARES_EXHAUSTED where a claim emptied the free list (R106, R110). The copy an attempt wrote holds
what it reads back, and no other cell changes. The model's own in this: that SPARES_EXHAUSTED comes last (log 35),
that the worn set stands in ascending number (log 28), and that the WORN and FREE counts of the report stay as they
were while TIDYING goes on (log 33). -/
def Obligations.FaultsAreAppliedToTheirSubjects : Prop :=
  ∀ (c : Instr) (s : State) (e : CommitEntry) (incoming : Option PairNo) (spare : List PairNo)
    (written : Option (PairId × CopyName × Copy)), EndsInFault c s e incoming spare written →
    (∀ (i : SlotNo) (img : PendingImage), e.subject = .accountImage i ∨ e.subject = .accountEmpty i →
      (s.slot i).pending = some img →
      (img.change ≠ .open →
        ∃ t, exec c s = .next t
          ∧ SlotBecomes i { s.slot i with state := .faulted, pending := none } s t
          ∧ (img.handle = none → t.holds = s.holds)
          ∧ (∀ n g h w r, img.handle = some (n, g) → (s.hold n).state = .settling h w r →
              HoldBecomes n ⟨(s.hold n).generation, .open h⟩ s t)
          ∧ Answered img.port img.tag img.change.kind .storeFault .zeros s t
          ∧ Recorded (.storeFault, .account i ((s.slot i).key.getD 0)) t
          ∧ WithSpares spare s (reevaluation i (retirementAlerts incoming.toList
              (raiseAlert .storeFault (.account i ((s.slot i).key.getD 0)) s)) t) t
          ∧ Retired incoming.toList s t ∧ CellsAfter written s t
          ∧ t.collectionWait = (s.collectionWait || decide (s.phase = .restarting ∧ s.commitQueue.tail = []))
          ∧ t = { s with
              slots := t.slots, holds := t.holds, commitQueue := s.commitQueue.tail, accountCells := t.accountCells,
              tariffCells := t.tariffCells, accountPairs := t.accountPairs, freeList := spare, wornSet := t.wornSet,
              alerts := t.alerts, lost := t.lost, terminal := t.terminal, service := t.service,
              collectionWait := t.collectionWait })
      ∧ (img.change = .open → ∀ p : PairNo, (s.slot i).currentPair = some p →
        ∃ t, exec c s = .next t
          ∧ t.slot i = Slot.vacant ∧ OtherSlots i s t
          ∧ (∀ x, x ∈ t.keyIndex ↔ x ∈ s.keyIndex ∧ some x.1 ≠ (s.slot i).key)
          ∧ Answered img.port img.tag .openAccount .storeFault .zeros s t
          ∧ Recorded (.storeFault, .account i ((s.slot i).key.getD 0)) t
          ∧ WithSpares spare s (retirementAlerts (p :: incoming.toList)
              (raiseAlert .storeFault (.account i ((s.slot i).key.getD 0)) s)) t
          ∧ Retired (p :: incoming.toList) s t ∧ CellsAfter written s t
          ∧ t.collectionWait = (s.collectionWait || decide (s.phase = .restarting ∧ s.commitQueue.tail = []))
          ∧ t = { s with
              slots := t.slots, keyIndex := t.keyIndex, commitQueue := s.commitQueue.tail,
              accountCells := t.accountCells, tariffCells := t.tariffCells, accountPairs := t.accountPairs,
              freeList := spare, wornSet := t.wornSet, alerts := t.alerts, lost := t.lost, terminal := t.terminal,
              service := t.service, collectionWait := t.collectionWait }))
    ∧ (∀ (n : ClassNo) (img : PendingTariff), incoming = none → e.subject = .tariffImage n →
      (s.tariff n).pending = some img →
      ∃ t, exec c s = .next t
        ∧ t.tariff n = { s.tariff n with pending := none, storeFault := true }
        ∧ (∀ m, m ≠ n → t.tariff m = s.tariff m)
        ∧ Answered img.port img.tag .setTariff .storeFault .zeros s t
        ∧ AlertsLike (raiseAlert .storeFault (.cls n) s) t ∧ Recorded (.storeFault, .cls n) t ∧ CellsAfter written s t
        ∧ t.collectionWait = (s.collectionWait || decide (s.phase = .restarting ∧ s.commitQueue.tail = []))
        ∧ t = { s with
            tariffs := t.tariffs, commitQueue := s.commitQueue.tail, accountCells := t.accountCells,
            tariffCells := t.tariffCells, alerts := t.alerts, lost := t.lost, terminal := t.terminal,
            service := t.service, collectionWait := t.collectionWait })
    ∧ ∀ p : PairNo, incoming = none → e.subject = .tidyEmpty p → s.phase = .tidying →
      ∃ t, exec c s = .next t
        ∧ (t.pair p).role = some .worn ∧ (t.pair p).track = (s.pair p).track ∧ p ∈ t.wornSet
        ∧ (∀ q, q ≠ p → (t.pair q).track = (s.pair q).track ∧ ((t.pair q).role = (s.pair q).role
          ∨ (s.pair q).role = some .stale ∧ (t.pair q).role = some .worn ∧ 400000 ≤ (s.pair q).track.wear.toNat))
        ∧ TidyFollows p s t
        ∧ AlertsLike (raiseAlert .pairRetired (.pair p) s) t ∧ Recorded (.pairRetired, .pair p) t
        ∧ CellsAfter written s t
        ∧ t.report = { s.report with
            tidyFailures := s.report.tidyFailures + 1, wornCount := t.report.wornCount,
            freeCount := t.report.freeCount }
        ∧ t = { s with
            commitQueue := t.commitQueue, accountCells := t.accountCells, tariffCells := t.tariffCells,
            accountPairs := t.accountPairs, wornSet := t.wornSet, alerts := t.alerts, lost := t.lost,
            phase := t.phase, report := t.report }

/-- A dropped account change (R17, R34, R73): the slot is rolled back and re-evaluated with the alerts of its
crossings, a settle's hold is back in OPEN, SUPPLY_LOW is placed. A dropped open (R17, R107) leaves the slot VACANT,
its key out of the index and its pair handed back: FREE at its place in the free list below the wear limit, WORN with
PAIR_RETIRED raised at it. A dropped tariff change (R51): the class keeps its committed values, its pending image is
gone, SUPPLY_LOW is placed, and no alert is raised. That the worn set stands in ascending number is the model's (log
28). -/
def Obligations.DroppedChangeRollsBack : Prop :=
  (∀ (s : State) (e : CommitEntry) (i : SlotNo) (img : PendingImage),
    e.subject = .accountImage i ∨ e.subject = .accountEmpty i → (s.slot i).pending = some img →
    (img.change ≠ .open →
      SlotBecomes i { s.slot i with
        state := if img.change = .close then (if (s.slot i).frozenMark then .frozen else .active) else (s.slot i).state
        pending := none } s (dropOutcome s e)
      ∧ (∀ n g h c r, img.handle = some (n, g) → (s.hold n).state = .settling h c r →
          HoldBecomes n ⟨(s.hold n).generation, .open h⟩ s (dropOutcome s e))
      ∧ (img.handle = none → (dropOutcome s e).holds = s.holds)
      ∧ Answered img.port img.tag img.change.kind .supplyLow .zeros s (dropOutcome s e)
      ∧ Reevaluated i s (dropOutcome s e)
      ∧ dropOutcome s e = { s with
          slots := (dropOutcome s e).slots, holds := (dropOutcome s e).holds, alerts := (dropOutcome s e).alerts,
          lost := (dropOutcome s e).lost, terminal := (dropOutcome s e).terminal,
          service := (dropOutcome s e).service })
    ∧ (img.change = .open → ∀ p : PairNo, (s.slot i).currentPair = some p →
      (dropOutcome s e).slot i = Slot.vacant ∧ OtherSlots i s (dropOutcome s e)
      ∧ HandedBack p [] s (dropOutcome s e)
      ∧ (s.pair p).track = ((dropOutcome s e).pair p).track ∧ (∀ q, q ≠ p → (dropOutcome s e).pair q = s.pair q)
      ∧ ((s.pair p).track.wear.toNat < 400000 → AlertsLike s (dropOutcome s e))
      ∧ (400000 ≤ (s.pair p).track.wear.toNat → AlertsLike (raiseAlert .pairRetired (.pair p) s) (dropOutcome s e)
        ∧ Recorded (.pairRetired, .pair p) (dropOutcome s e))
      ∧ (∀ x, x ∈ (dropOutcome s e).keyIndex ↔ x ∈ s.keyIndex ∧ some x.1 ≠ (s.slot i).key)
      ∧ Answered img.port img.tag .openAccount .supplyLow .zeros s (dropOutcome s e)
      ∧ dropOutcome s e = { s with
          slots := (dropOutcome s e).slots, keyIndex := (dropOutcome s e).keyIndex,
          accountPairs := (dropOutcome s e).accountPairs, freeList := (dropOutcome s e).freeList,
          wornSet := (dropOutcome s e).wornSet, alerts := (dropOutcome s e).alerts, lost := (dropOutcome s e).lost,
          terminal := (dropOutcome s e).terminal, service := (dropOutcome s e).service }))
  ∧ ∀ (s : State) (e : CommitEntry) (n : ClassNo) (img : PendingTariff), e.subject = .tariffImage n →
    (s.tariff n).pending = some img →
    (dropOutcome s e).tariff n = { s.tariff n with pending := none }
    ∧ (∀ m : ClassNo, m ≠ n → (dropOutcome s e).tariff m = s.tariff m)
    ∧ Answered img.port img.tag .setTariff .supplyLow .zeros s (dropOutcome s e)
    ∧ dropOutcome s e = { s with
        tariffs := (dropOutcome s e).tariffs, terminal := (dropOutcome s e).terminal,
        service := (dropOutcome s e).service }

/-! ## The Supply Monitor -/

/-- SUPPLY_RISE starts the steady timer in LOW outside a reset, SUPPLY_RIPPLE stops it, and neither touches anything
else but the pin (R129). The levels the pin is held against are the model's (log 13, log 23). -/
def Obligations.SteadyTimerFollowsTheSupply : Prop :=
  ∀ s : State,
    (s.inReset = false → s.supply = .low →
      exec .supplyRise s = .next { s with vdd := .safe, steadyTimer := .running })
    ∧ (s.inReset = true ∨ s.supply = .good → exec .supplyRise s = .next { s with vdd := .safe })
    ∧ ∃ v, exec .supplyRipple s = .next { s with vdd := v, steadyTimer := .stopped }
      ∧ (s.vdd = .safe → v = .belowSafe)

/-- The change to GOOD (R93, R115, R133, R134): the state is GOOD and the timer stopped, STARTING ends, and
SUPPLY_RESTORED is raised in OPEN and RESTARTING alone. Within the same event programming resumes with the head: a
WAITING head has its first program begun, as FIRST_PROGRAM begins one on the state so changed; a head stopped between
attempts has its next attempt under way on the copy already settled, and the wear of that copy's pair rises by one; with
an empty queue, and with an attempt under way, nothing starts. A wear past 4,294,967,295 stands free (log 9), and the
counter of free values may move. -/
def Obligations.ChangeToGoodResumes : Prop :=
  ∀ s : State, s.inReset = false → s.supply = .low → s.steadyTimer = .running →
    ∃ u : State,
      u = { s with
        supply := .good, steadyTimer := .stopped, phase := if s.phase = .starting then .scanning else s.phase,
        alerts := u.alerts, lost := u.lost }
      ∧ (servesPorts s → AlertsLike (raiseAlert .supplyRestored .none s) u ∧ Recorded (.supplyRestored, .none) u)
      ∧ (¬ servesPorts s → u.alerts = s.alerts ∧ u.lost = s.lost)
      ∧ (∀ e rest, s.commitQueue = e :: rest → e.stage = .waiting → exec .changeToGood s = exec .firstProgram u)
      ∧ (s.commitQueue = [] → exec .changeToGood s = .next u)
      ∧ (∀ e rest, s.commitQueue = e :: rest → e.stage.underWay = true → exec .changeToGood s = .next u)
      ∧ ∀ e rest a p, s.commitQueue = e :: rest → a.underWay = false →
        (e.stage = .programming a ∧ p = a.target ∨ ∃ q c, e.stage = .relocating a q c ∧ p = .account q) →
        ∃ t w, exec .changeToGood s = .next t
          ∧ t.commitQueue = { e with stage := e.stage.setAttempt { a with underWay := true } } :: rest
          ∧ t.track p = { s.track p with wear := w }
          ∧ ((s.track p).wear.toNat < 4294967295 → w = (s.track p).wear + 1)
          ∧ (∀ r, r ≠ p → t.track r = s.track r) ∧ (∀ r, (t.pair r).role = (s.pair r).role)
          ∧ t = { u with
              commitQueue := t.commitQueue, accountPairs := t.accountPairs, tariffPairs := t.tariffPairs,
              freeUses := t.freeUses }

/-- The change to LOW (R92, R130, R134). Outside RESTARTING: the state is LOW, exactly the WAITING entries that a
request made have left the queue, SUPPLY_LOW stands in the alert queue or is recorded lost in OPEN, and no cell
changes. In every phase: the change of state with SUPPLY_LOW raised in OPEN and RESTARTING alone, then the dropped
outcomes of those entries, in queue order and each as the outcome of its entry, and nothing else; in RESTARTING a
queue so emptied begins the collection wait, which with both response queues empty ends in the RESTART reset at once
(R126). What the pin shows is the model's (log 23), and so is that the end of that reset is a command of its own (log
15). -/
def Obligations.ChangeToLowDropsWaitingEntries : Prop :=
  (∀ s : State, s.inReset = false → s.supply = .good → s.phase ≠ .restarting →
    ∃ t, exec .changeToLow s = .next t ∧ t.supply = .low ∧ t.steadyTimer = .stopped ∧ t.phase = s.phase
      ∧ t.commitQueue = s.commitQueue.filter (fun e => !(decide (e.stage = .waiting) && !e.isTidy))
      ∧ (s.phase = .open → (∃ x ∈ t.alerts, x.condition = (.supplyLow, .none)) ∨ t.lost = true)
      ∧ (s.commitQueue = [] → s.phase ≠ .open → t = { s with supply := .low, steadyTimer := .stopped, vdd := t.vdd })
      ∧ sameCells s t ∧ t.seconds = s.seconds ∧ t.report = s.report)
  ∧ ∀ s : State, s.inReset = false → s.supply = .good →
    ∃ u v : State,
      u = { s with
        supply := .low, steadyTimer := .stopped, vdd := u.vdd,
        commitQueue := s.commitQueue.filter (fun e => !(decide (e.stage = .waiting) && !e.isTidy)),
        alerts := u.alerts, lost := u.lost }
      ∧ (servesPorts s → AlertsLike (raiseAlert .supplyLow .none s) u ∧ Recorded (.supplyLow, .none) u)
      ∧ (¬ servesPorts s → u.alerts = s.alerts ∧ u.lost = s.lost)
      ∧ v = (s.commitQueue.filter (fun e => decide (e.stage = .waiting) && !e.isTidy)).foldl dropOutcome u
      ∧ (s.phase ≠ .restarting ∨ u.commitQueue ≠ [] → exec .changeToLow s = .next v)
      ∧ (s.phase = .restarting → u.commitQueue = [] →
        (v.terminal.responses ≠ [] ∨ v.service.responses ≠ [] →
          exec .changeToLow s = .next { v with collectionWait := true })
        ∧ (v.terminal.responses = [] → v.service.responses = [] →
          ∃ t, exec .changeToLow s = .next t ∧ t = { resetFields t with inReset := true }
            ∧ t.report = Report.afterReset .restart ∧ sameCells s t))

/-! ## Resets, the scan and RESTART -/

/-- A collapse, the RESET line and the end of the collection wait begin a reset: every volatile field takes its reset
value, the kind is recorded by its rank, and of the cells only the copy being programmed may change (R95, R113, R126,
R135). In RESTARTING with an empty commit queue, collecting the last ready response of both queues makes the RESTART
reset too, after the port has sent the status, the whole frame and then 255 (R157, R159). The model's own conventions
in this: without a collection wait its expiry changes nothing (log 1); what a requester read stands in the record of
the wires, which no reset clears (log 6, log 10); what a cut program leaves and what the pin shows (log 8, log 23);
the RESTART reset, which the manual ends at once, lasts until a command ends it (log 15), and the phase stands at
STARTING while a reset lasts (log 16). -/
def Obligations.ResetsClearTheVolatileState : Prop :=
  ∀ (s : State) (cut : CutResult),
    (∃ t, exec (.supplyCollapse cut) s = .next t ∧ t = { resetFields t with inReset := true }
      ∧ t.report = Report.afterReset .powerOn ∧ t.vdd = .belowReset ∧ CutLeaves cut s t)
    ∧ (∃ t, exec (.resetLine cut) s = .next t ∧ t = { resetFields t with inReset := true }
      ∧ t.report = Report.afterReset
          (if s.inReset = true ∧ s.report.resetKind = .powerOn then .powerOn else .resetLine)
      ∧ t.vdd = s.vdd ∧ CutLeaves cut s t)
    ∧ (s.collectionWait = true → s.inReset = false →
      ∃ t, exec .collectionWaitExpiry s = .next t ∧ t = { resetFields t with inReset := true }
        ∧ t.report = Report.afterReset .restart ∧ sameCells s t)
    ∧ (s.collectionWait = false → exec .collectionWaitExpiry s = .next s)
    ∧ (s.inReset = false → s.phase = .restarting → s.commitQueue = [] →
      ∀ (r : Response) (n : Nat), (responseFrame r).length ≤ n →
      (s.terminal.responses = [r] → s.service.responses = [] →
        ∃ t, exec (.collect n) s = .next t ∧ t = { resetFields t with inReset := true }
          ∧ t.report = Report.afterReset .restart ∧ sameCells s t
          ∧ t.terminal.wire = ⟨portStatus s .terminal
              :: (responseFrame r ++ List.replicate (n - (responseFrame r).length) 255), 0⟩
          ∧ t.service.wire = s.service.wire)
      ∧ (s.terminal.responses = [] → s.service.responses = [r] →
        ∃ t, exec (.i2cRead s.serviceAddress (n + 1)) s = .next t ∧ t = { resetFields t with inReset := true }
          ∧ t.report = Report.afterReset .restart ∧ sameCells s t
          ∧ t.service.wire = ⟨portStatus s .service
              :: (responseFrame r ++ List.replicate (n - (responseFrame r).length) 255), 1⟩
          ∧ t.terminal.wire = s.terminal.wire))

/-- The end of a reset (R113, R114, R129, R158): phase STARTING, the target address 82 to 85 by ADR1 and ADR0, and the
steady timer running where the supply stands at 2.95 V or above. The model's own conventions in this: outside a reset
the command changes nothing (log 1); the end is its own command for every reset kind, and the phase stands at STARTING
already (log 15, log 16); and it brings the supply pin to 2.30 V or above (log 23). -/
def Obligations.ResetEndEntersStarting : Prop :=
  ∀ (s : State) (adr1 adr0 : Bool),
    (s.inReset = true → ∃ v, exec (.resetEnd adr1 adr0) s = .next { s with
        inReset := false, phase := .starting, vdd := v,
        steadyTimer := if s.vdd = .safe then .running else .stopped,
        serviceAddress := BitVec.ofNat 7 (82 + (if adr1 then 2 else 0) + (if adr0 then 1 else 0)) }
      ∧ v ≠ .belowReset)
    ∧ (s.inReset = false → exec (.resetEnd adr1 adr0) s = .next s)

/-- The scan (R40, R99, R100, R103, R104, R106, R116 to R123). The content of an account pair is the account image or
close record of its newest valid copy. The winners that are account images are loaded in ascending order of key, at
most 256, one to a slot with the values of the image; every other slot is VACANT, and the key index holds exactly the
loaded keys. A loaded pair is CURRENT for its slot; the pair of a winner beyond the 256 is WORN; the pair of an image
that is no winner is STALE, or WORN at the wear limit; every other pair is FREE below the wear limit and WORN at it.
The free list holds exactly the FREE pairs by wear and number, the worn set exactly the WORN ones. The classes are
loaded from their newest TARIFF copies, the pair table takes what the copies show, and the report counts what was
found. No cell changes and no alert is raised. With a STALE pair left the part is TIDYING with the tidy entry of the
lowest one below the wear limit; with none it is OPEN. The model's own in this: that the worn set stands in ascending
number (log 28), which of two TARIFF copies of one sequence is loaded (log 21, in loadedClass), that the WORN and FREE
counts of the report stay as they were before OPEN (log 33), and a wear past 4,294,967,295, which stands free (log 9).
-/
def Obligations.ScanBuildsTheTables : Prop :=
  (∀ (p : PairNo) (c : CellPair) (x : Claimant), contentOf p c = some x ↔
    ∃ n, newestValid c = some n ∧ x.pair = p ∧ x.key = bodyKey (c.copy n).body ∧ x.key ≠ 0
      ∧ x.sequence = (c.copy n).sequence ∧ x.body = (c.copy n).body
      ∧ ((c.copy n).kind = 1 ∧ x.isImage = true ∧ (bodyClass x.body).toNat < 16
          ∧ (bodyBalance x.body).toNat ≤ (bodyCeiling x.body).toNat
        ∨ (c.copy n).kind = 3 ∧ x.isImage = false))
  ∧ ∀ s : State, s.inReset = false → s.phase = .scanning →
    ∃ (t : State) (loaded excess : List Claimant), exec .scan s = .next t
      ∧ (loaded ++ excess).Pairwise (fun x y => x.key.toNat < y.key.toNat)
      ∧ (∀ x, x ∈ loaded ++ excess ↔ x.isImage = true ∧ Winner s x)
      ∧ loaded.length ≤ 256 ∧ (excess ≠ [] → loaded.length = 256)
      ∧ (∀ i : SlotNo, loaded.length ≤ i.val → t.slot i = Slot.vacant)
      ∧ (∀ (i : SlotNo) (x : Claimant), loaded[i.val]? = some x →
          (t.pair x.pair).role = some (.current i)
          ∧ ∃ c : ClassNo, c.val = (bodyClass x.body).toNat ∧ t.slot i = {
              state := if bodyFrozen x.body then .frozen else .active
              key := some x.key, cls := c, balance := bodyBalance x.body, ceiling := bodyCeiling x.body,
              threshold := bodyThreshold x.body, frozenMark := bodyFrozen x.body, sequence := some x.sequence,
              currentPair := some x.pair, pending := none,
              low := lowCreditHolds (bodyThreshold x.body) (bodyBalance x.body).toNat,
              exhausted := exhaustedHolds (bodyBalance x.body).toNat })
      ∧ KeyIndexLaw t
      ∧ (∀ e, e ∈ t.keyIndex ↔ ∃ (i : SlotNo) (x : Claimant), loaded[i.val]? = some x ∧ e = (x.key, i))
      ∧ (∀ x ∈ excess, (t.pair x.pair).role = some .worn)
      ∧ (∀ x, Content s x → x.isImage = true → ¬ Winner s x →
          (t.pair x.pair).role = some .stale
            ∨ ((t.pair x.pair).role = some .worn ∧ 400000 ≤ (t.pair x.pair).track.wear.toNat))
      ∧ (∀ p : PairNo, (∀ x, contentOf p (s.cells (.account p)) = some x → x.isImage = false) →
          (t.pair p).role = if (t.pair p).track.wear.toNat < 400000 then some .free else some .worn)
      ∧ (∀ p, p ∈ t.freeList ↔ (t.pair p).role = some .free)
      ∧ t.freeList.Pairwise (fun p q => (t.pair p).track.wear.toNat < (t.pair q).track.wear.toNat
          ∨ ((t.pair p).track.wear = (t.pair q).track.wear ∧ p < q))
      ∧ (∀ p, p ∈ t.wornSet ↔ (t.pair p).role = some .worn) ∧ t.wornSet.Pairwise (fun p q => p < q)
      ∧ (∀ n, t.tariff n = loadedClass (s.cells (.tariff n)))
      ∧ (∀ p, (t.track p).newest = newestValid (s.cells p) ∧ (t.track p).newestSequence = newestSequence (s.cells p)
          ∧ (scannedWear (s.cells p) ≤ 4294967295 → (t.track p).wear.toNat = scannedWear (s.cells p)))
      ∧ (((∀ p, (t.pair p).role ≠ some .stale) ∧ t.phase = .open ∧ t.commitQueue = s.commitQueue
          ∧ t.report.wornCount = t.wornSet.length ∧ t.report.freeCount = t.freeList.length)
        ∨ ∃ p, (t.pair p).role = some .stale ∧ (t.pair p).track.wear.toNat < 400000 ∧ t.phase = .tidying
          ∧ (∀ q, q < p → (t.pair q).role ≠ some .stale)
          ∧ t.commitQueue = s.commitQueue ++ [⟨.tidyEmpty p, .empty none, none, none, .waiting⟩]
          ∧ t.report.wornCount = s.report.wornCount ∧ t.report.freeCount = s.report.freeCount)
      ∧ t.report.accountsLoaded = loaded.length ∧ t.report.excessAccounts = excess.length
      ∧ t.report.tornCopies = tornCopies s
      ∧ t.report.classesDefined = t.tariffs.toList.countP (fun c => decide (c.state = .defined))
      ∧ (∃ keys : List Word, keys.Nodup ∧ t.report.duplicateKeys = keys.length
          ∧ ∀ k, k ∈ keys ↔ ∃ x, Content s x ∧ x.isImage = true ∧ ¬ Winner s x ∧ x.key = k)
      ∧ t.report.resetKind = s.report.resetKind ∧ t.report.pairsTidied = s.report.pairsTidied
      ∧ t.report.tidyFailures = s.report.tidyFailures
      ∧ t = { s with
          slots := t.slots, keyIndex := t.keyIndex, tariffs := t.tariffs, commitQueue := t.commitQueue,
          accountPairs := t.accountPairs, tariffPairs := t.tariffPairs, freeList := t.freeList, wornSet := t.wornSet,
          phase := t.phase, report := t.report, freeUses := t.freeUses }

/-- RESTART from the Service Port, in either supply state (R125, R126): OK is placed, the phase becomes RESTARTING,
every UNTAKEN Terminal request is answered RESTARTING in acceptance order, and with an empty commit queue the
collection wait begins. -/
def Obligations.RestartAnswersTheWaiting : Prop :=
  ∀ (tag : Byte) (s : State), WindowLaw s → Handed (.restart .service tag) s → s.collectionWait = false →
    ∃ t, exec (.restart .service tag) s = .next t ∧ t.phase = .restarting
      ∧ t.service = { s.service with
          responses := s.service.responses ++ [⟨tag, Kind.restart.code, .ok, .zeros⟩],
          window := windowWith tag .answered s.service.window }
      ∧ t.terminal = { s.terminal with
          responses := s.terminal.responses ++ (s.terminal.window.filter (fun q => decide (q.state = .untaken))).map
            (fun q => ⟨q.tag, q.kind, .restarting, .zeros⟩),
          window := s.terminal.window.map (fun q => if q.state = .untaken then { q with state := .answered } else q) }
      ∧ t.collectionWait = decide (s.commitQueue = [])
      ∧ t = { s with
          phase := .restarting, terminal := t.terminal, service := t.service, lastServed := .service,
          collectionWait := t.collectionWait }

/-! ## Alerts -/

/-- A raise that finds an entry of its kind and subject coalesces into it: the occurrences rise by one and stop at 255,
and nothing else changes (R140). -/
def Obligations.RaiseCoalesces : Prop :=
  ∀ (s : State) (before after : List AlertEntry) (e : AlertEntry), AlertLaw s → s.alerts = before ++ e :: after →
    raiseAlert e.kind e.subject s = { s with
      alerts := before ++ { e with
        occurrences := if e.occurrences = 255 then 255 else e.occurrences + 1 } :: after }

/-- A raise that finds no entry of its kind and subject (R141, R142): with room it joins, URGENT directly after the last
URGENT entry and ROUTINE at the tail; a full queue discards it or, for an URGENT raise, gives up its youngest ROUTINE
entry, and the lost indicator is set. -/
def Obligations.RaiseJoinsOrIsDiscarded : Prop :=
  ∀ (s : State) (k : AlertKind) (sub : AlertSubject) (urgent routine : List AlertEntry),
    AlertLaw s → s.alerts = urgent ++ routine → (∀ e ∈ urgent, e.urgent = true) → (∀ e ∈ routine, e.urgent = false) →
    (∀ e ∈ s.alerts, e.condition ≠ (k, sub)) →
    (s.alerts.length < 16 → k.urgent = true →
      raiseAlert k sub s = { s with alerts := urgent ++ ⟨k, sub, s.seconds, 1⟩ :: routine })
    ∧ (s.alerts.length < 16 → k.urgent = false →
      raiseAlert k sub s = { s with alerts := urgent ++ routine ++ [⟨k, sub, s.seconds, 1⟩] })
    ∧ (s.alerts.length = 16 → k.urgent = false → raiseAlert k sub s = { s with lost := true })
    ∧ (s.alerts.length = 16 → k.urgent = true → routine = [] → raiseAlert k sub s = { s with lost := true })
    ∧ (s.alerts.length = 16 → k.urgent = true → routine ≠ [] →
      raiseAlert k sub s = { s with alerts := urgent ++ ⟨k, sub, s.seconds, 1⟩ :: routine.dropLast, lost := true })

/-- FETCH_ALERT (R144), in either supply state: filter ANY takes the head, filter URGENT the head where it is URGENT,
with the lost indicator and the number left; with none found ALERT_EMPTY; both clear the lost indicator; another filter
is BAD_VALUE. SET_ALERT_MASK sets the mask of the port that asks and answers the one it had; another code is BAD_VALUE;
each ALERT line is asserted while the queue holds an entry its mask admits, and never in a reset (R146, R147). -/
def Obligations.AlertRequestsServeTheQueueAndTheMask : Prop :=
  (∀ (p : Port) (tag filter : Byte) (s : State), Handed (.fetchAlert p tag filter) s →
    (∀ e rest, s.alerts = e :: rest → filter = 0 ∨ (filter = 1 ∧ e.urgent = true) →
      exec (.fetchAlert p tag filter) s = .next (answer p tag .fetchAlert .ok (.alert e s.lost rest.length)
        { servedBy p s with alerts := rest, lost := false }))
    ∧ (s.alerts = [] ∧ (filter = 0 ∨ filter = 1) ∨ (∃ e rest, s.alerts = e :: rest ∧ filter = 1 ∧ e.urgent = false) →
      exec (.fetchAlert p tag filter) s = .next (answer p tag .fetchAlert .alertEmpty
        (.noAlert s.lost s.alerts.length) { servedBy p s with lost := false }))
    ∧ (filter ≠ 0 → filter ≠ 1 → AnswersOnly (.fetchAlert p tag filter) p tag .fetchAlert .badValue .zeros s))
  ∧ (∀ (p : Port) (tag code : Byte) (s : State), Handed (.setAlertMask p tag code) s →
    (∀ m, (code, m) ∈ [((0 : Byte), AlertMask.none), (1, .urgent), (2, .all)] →
      ∃ t, exec (.setAlertMask p tag code) s = .next t
        ∧ t.port p = { s.port p with
            mask := m, responses := (s.port p).responses ++ [⟨tag, Kind.setAlertMask.code, .ok, .mask (s.port p).mask⟩],
            window := windowWith tag .answered (s.port p).window }
        ∧ t.port (otherPort p) = s.port (otherPort p)
        ∧ t = { s with terminal := t.terminal, service := t.service, lastServed := p })
    ∧ (2 < code.toNat → AnswersOnly (.setAlertMask p tag code) p tag .setAlertMask .badValue .zeros s))
  ∧ ∀ (s : State) (p : Port),
    (s.inReset = true → alertLine s p = false)
    ∧ (s.inReset = false → ((s.port p).mask = .none → alertLine s p = false)
      ∧ ((s.port p).mask = .all → (alertLine s p = true ↔ s.alerts ≠ []))
      ∧ ((s.port p).mask = .urgent → (alertLine s p = true ↔ ∃ e ∈ s.alerts, e.urgent = true)))

/-! ## The ports -/

/-- The end of a submit, on both ports (R154 to R156, R158): NOT_READY outside OPEN, FRAME_ERROR, WINDOW_FULL and on
the Terminal Port DUPLICATE_TAG discard the frame, and else the request takes a place as UNTAKEN; only the Terminal
Port shifts out its status. A write to another I2C address changes nothing, and neither does a SUBMIT or a write
during a reset (R158, R161). A frame is refused where it is cut short, its length byte lies outside 4 to 32, its CRC-8
does not check, or its length is not the one of its known kind, and in no other case; else tag, kind and parameters
are its bytes 1, 2 and those from 3 to the one before the CRC-8 (R155, R162). The record of the bytes on the wires is
the model's (log 6). -/
def Obligations.SubmitChecksTheFrame : Prop :=
  (∀ (s : State) (bytes : List Byte), s.inReset = false →
    (∃ t o w, exec (.submit bytes) s = .next t
      ∧ t = { s with terminal := { s.terminal with
          outcome := o, window := w, wire := ⟨portStatus s .terminal :: List.replicate bytes.length 255, 0⟩ } }
      ∧ (s.phase ≠ .open → o = .notReady ∧ w = s.terminal.window)
      ∧ (s.phase = .open → checkFrame bytes = none → o = .frameError ∧ w = s.terminal.window)
      ∧ (s.phase = .open → ∀ q, checkFrame bytes = some q →
          (4 ≤ s.terminal.window.length → o = .windowFull ∧ w = s.terminal.window)
          ∧ (s.terminal.window.length < 4 → (∃ x ∈ s.terminal.window, x.tag = q.tag) →
              o = .duplicateTag ∧ w = s.terminal.window)
          ∧ (s.terminal.window.length < 4 → (∀ x ∈ s.terminal.window, x.tag ≠ q.tag) →
              o = .accepted ∧ w = s.terminal.window ++ [q])))
    ∧ (bytes ≠ [] → ∃ t o w, exec (.i2cWrite s.serviceAddress bytes) s = .next t
      ∧ t = { s with service := { s.service with outcome := o, window := w, wire := ⟨[], bytes.length + 1⟩ } }
      ∧ (s.phase ≠ .open → o = .notReady ∧ w = s.service.window)
      ∧ (s.phase = .open → checkFrame bytes = none → o = .frameError ∧ w = s.service.window)
      ∧ (s.phase = .open → ∀ q, checkFrame bytes = some q →
          (1 ≤ s.service.window.length → o = .windowFull ∧ w = s.service.window)
          ∧ (s.service.window = [] → o = .accepted ∧ w = [q])))
    ∧ exec (.i2cWrite s.serviceAddress []) s = .next { s with service := { s.service with wire := ⟨[], 1⟩ } }
    ∧ ∀ a, a ≠ s.serviceAddress → exec (.i2cWrite a bytes) s = .next s)
  ∧ (∀ (s : State) (bytes : List Byte), s.inReset = true →
    exec (.submit bytes) s = .next s ∧ ∀ a, exec (.i2cWrite a bytes) s = .next s)
  ∧ (∀ bytes : List Byte, checkFrame bytes = none ↔
    bytes = [] ∨ (byteAt bytes 0).toNat < 4 ∨ 32 < (byteAt bytes 0).toNat
      ∨ bytes.length < (byteAt bytes 0).toNat
      ∨ crc8 (bytes.take ((byteAt bytes 0).toNat - 1)) ≠ byteAt bytes ((byteAt bytes 0).toNat - 1)
      ∨ ∃ k, Kind.ofCode (byteAt bytes 2) = some k ∧ k.requestLength ≠ (byteAt bytes 0).toNat)
  ∧ ∀ (bytes : List Byte) (q : Request), checkFrame bytes = some q →
    q = ⟨byteAt bytes 1, byteAt bytes 2, (bytes.take ((byteAt bytes 0).toNat - 1)).drop 3, .untaken⟩

/-- Collecting on both ports, in every phase (R114, R126, R153, R154, R157, R159): the status, then the head's frame,
then 255; the response and its request leave when every byte of the frame has gone out, and stay when the collect is
cut short; with nothing ready the empty frame goes out. The outcome becomes NONE. In RESTARTING this holds while an
entry or a response is left afterwards, and with an empty commit queue the collection wait runs on; the collect that
leaves nothing makes the RESTART reset, which is stated with the resets. A read of another I2C address changes
nothing, and neither does a COLLECT or a read during a reset (R158, R161). The frame of a response is its length, tag,
kind and status code and the body of its kind, with the CRC-8 of them all at its end, by Tables 12-1 and 12-2; a
LAPSED hold is reported with slot 0 (R75, R162). The record of the bytes on the wires is the model's (log 6). -/
def Obligations.CollectTakesTheHead : Prop :=
  (∀ (s : State) (n : Nat), s.inReset = false →
    (∀ r rest, s.terminal.responses = r :: rest →
      ((responseFrame r).length ≤ n → SomethingLeft s rest s.service.responses →
        exec (.collect n) s = .next { s with
          collectionWait := waitsNow s
          terminal := { s.terminal with
            outcome := .none, responses := rest, window := s.terminal.window.eraseP (fun q => q.tag == r.tag),
            wire := ⟨portStatus s .terminal
              :: (responseFrame r ++ List.replicate (n - (responseFrame r).length) 255), 0⟩ } })
      ∧ (n < (responseFrame r).length → exec (.collect n) s = .next { s with
          collectionWait := waitsNow s
          terminal := { s.terminal with
            outcome := .none, wire := ⟨portStatus s .terminal :: (responseFrame r).take n, 0⟩ } }))
    ∧ (s.terminal.responses = [] → SomethingLeft s [] s.service.responses →
      exec (.collect n) s = .next { s with
        collectionWait := waitsNow s
        terminal := { s.terminal with
          outcome := .none,
          wire := ⟨portStatus s .terminal :: ([0x04, 0x00, 0x00, 0xAB].take n ++ List.replicate (n - 4) 255), 0⟩ } })
    ∧ (∀ r rest, s.service.responses = r :: rest →
      ((responseFrame r).length ≤ n → SomethingLeft s s.terminal.responses rest →
        exec (.i2cRead s.serviceAddress (n + 1)) s = .next { s with
          collectionWait := waitsNow s
          service := { s.service with
            outcome := .none, responses := rest, window := s.service.window.eraseP (fun q => q.tag == r.tag),
            wire := ⟨portStatus s .service
              :: (responseFrame r ++ List.replicate (n - (responseFrame r).length) 255), 1⟩ } })
      ∧ (n < (responseFrame r).length → exec (.i2cRead s.serviceAddress (n + 1)) s = .next { s with
          collectionWait := waitsNow s
          service := { s.service with
            outcome := .none, wire := ⟨portStatus s .service :: (responseFrame r).take n, 1⟩ } }))
    ∧ (s.service.responses = [] → SomethingLeft s s.terminal.responses [] →
      exec (.i2cRead s.serviceAddress (n + 1)) s = .next { s with
        collectionWait := waitsNow s
        service := { s.service with
          outcome := .none,
          wire := ⟨portStatus s .service :: ([0x04, 0x00, 0x00, 0xAB].take n ++ List.replicate (n - 4) 255), 1⟩ } })
    ∧ ∀ a, a ≠ s.serviceAddress → exec (.i2cRead a n) s = .next s)
  ∧ (∀ (s : State) (n : Nat), s.inReset = true →
    exec (.collect n) s = .next s ∧ ∀ a, exec (.i2cRead a n) s = .next s)
  ∧ (∀ (k : Kind) (code : Byte) (len : Nat) (f : Figures) (body : List Byte) (tag : Byte) (st : Status),
    (k, code, len) ∈ responseRows → ResponseBody k f body →
    ∃ covered, covered = BitVec.ofNat 8 len :: tag :: code :: st.code :: body
      ∧ responseFrame ⟨tag, k.code, st, f⟩ = covered ++ [crc8 covered] ∧ covered.length + 1 = len)
  ∧ CodesOfTable122

/-- An SPI transaction takes its course from its code byte (R156, R163): 0Ah makes it a SUBMIT of the bytes received
and 0Ch a COLLECT of as many; any other, 0Fh among them, makes it a STATUS, which shifts out the status and clears the
outcome (R154). During a reset a transaction changes nothing, whatever its code (R161). A void transaction changes
nothing: R156 says so of fewer than 8 clocks, and for 8 and more it is the model's (log 31). The port status byte has
the response ready flag in bit 7, the alert flag in bit 6 and the condition code 6 × P + O of Table 12-3 in bits 5 to
0 (R154, R163). The record of the bytes on the wires is the model's (log 6). -/
def Obligations.StatusTransactionsAndThePortStatusByte : Prop :=
  (∀ (s : State) (received : List Byte) (n : Nat),
    (∀ code : Byte, code ≠ 0x0A → code ≠ 0x0C → s.inReset = false →
      exec (.status code received) s = .next { s with terminal := { s.terminal with
        outcome := .none, wire := ⟨portStatus s .terminal :: List.replicate received.length 255, 0⟩ } })
    ∧ exec (.status 0x0A received) s = exec (.submit received) s
    ∧ exec (.status 0x0C received) s = exec (.collect received.length) s
    ∧ exec (.voidTransaction n) s = .next s
    ∧ (s.inReset = true → ∀ code : Byte, exec (.status code received) s = .next s))
  ∧ ∀ (s : State) (p : Port), s.inReset = false →
    ((portStatus s p).getLsbD 7 = decide ((s.port p).responses ≠ []))
    ∧ ((portStatus s p).getLsbD 6 = alertLine s p)
    ∧ (portStatus s p).toNat % 64 =
      6 * (match s.phase with
        | .starting => 0
        | .scanning => if s.supply = .good then 1 else 2
        | .tidying => if s.supply = .good then 3 else 4
        | .open => if s.supply = .good then 5 else 6
        | .restarting => if s.supply = .good then 7 else 8)
      + (match (s.port p).outcome with
        | .none => 0
        | .accepted => 1
        | .windowFull => 2
        | .duplicateTag => 3
        | .frameError => 4
        | .notReady => 5)

/-! ## Laws that every step keeps -/

/-- Every step keeps this: the alert queue holds at most 16 entries, no two of one kind and subject, URGENT before
ROUTINE (R137). -/
def Obligations.EveryStepKeepsTheAlertLaw : Prop := StepKeeps AlertLaw

/-- Every step keeps this: the windows stay within their sizes and no two Terminal requests share a tag (R148). -/
def Obligations.EveryStepKeepsTheWindowLaw : Prop := StepKeeps WindowLaw

/-- Every step keeps this: no balance exceeds its ceiling, committed or pending (R24). -/
def Obligations.EveryStepKeepsTheCeilingLaw : Prop := StepKeeps CeilingLaw

/-- Every step keeps this: the key index is strictly ascending and holds no key 0 (R7). -/
def Obligations.EveryStepKeepsTheKeyIndexLaw : Prop := StepKeeps KeyIndexLaw

/-- Every step keeps this: every hold entry stays within its ranges, and no deadline passes 14,400 s after the opened
second (R55, R60, R66, R69, R71). -/
def Obligations.EveryStepKeepsTheHoldLaw : Prop := StepKeeps HoldLaw

/-- Every step keeps this: only the head of the commit queue has begun, and it stands stopped only in LOW (R81, R92). -/
def Obligations.EveryStepKeepsTheCommitLaw : Prop := StepKeeps CommitLaw

/-- Every step keeps this: the steady timer runs only in LOW outside a reset, STARTING is LOW (R115, R128, R129), and
each phase before OPEN holds no request, no hold, no response and no seconds, with the collection wait in RESTARTING
alone (R57, R59, R78, R126, R137, R153). That a reset holds the part at STARTING while it lasts is the model's (log
16): R113 gives STARTING when the reset ends. -/
def Obligations.EveryStepKeepsTheSupplyAndPhaseLaws : Prop := StepKeeps (fun s => SupplyLaw s ∧ PhaseLaw s)

/-- Every law holds at State.reset. -/
def Obligations.EveryLawHoldsAtReset : Prop :=
  AlertLaw State.reset ∧ WindowLaw State.reset ∧ CeilingLaw State.reset ∧ KeyIndexLaw State.reset
  ∧ HoldLaw State.reset ∧ CommitLaw State.reset ∧ SupplyLaw State.reset ∧ PhaseLaw State.reset
end

