-- ==== Sys2Proof/Laws/State.lean ====
section
/-! SUPPORT. State laws: one lemma for each field of State under each update of Machine/Tables.lean, and what a table
reads after one of its records is replaced. -/

namespace Sys2Proof.Machine

/-! ## Fields an update leaves alone -/

@[simp] theorem setSlot_keyIndex (s : State) (i : SlotNo) (v : Slot) : (s.setSlot i v).keyIndex = s.keyIndex := rfl
@[simp] theorem setSlot_holds (s : State) (i : SlotNo) (v : Slot) : (s.setSlot i v).holds = s.holds := rfl
@[simp] theorem setSlot_seconds (s : State) (i : SlotNo) (v : Slot) : (s.setSlot i v).seconds = s.seconds := rfl
@[simp] theorem setSlot_tariffs (s : State) (i : SlotNo) (v : Slot) : (s.setSlot i v).tariffs = s.tariffs := rfl
@[simp] theorem setSlot_commitQueue (s : State) (i : SlotNo) (v : Slot) : (s.setSlot i v).commitQueue = s.commitQueue := rfl
@[simp] theorem setSlot_accountCells (s : State) (i : SlotNo) (v : Slot) : (s.setSlot i v).accountCells = s.accountCells := rfl
@[simp] theorem setSlot_tariffCells (s : State) (i : SlotNo) (v : Slot) : (s.setSlot i v).tariffCells = s.tariffCells := rfl
@[simp] theorem setSlot_accountPairs (s : State) (i : SlotNo) (v : Slot) : (s.setSlot i v).accountPairs = s.accountPairs := rfl
@[simp] theorem setSlot_tariffPairs (s : State) (i : SlotNo) (v : Slot) : (s.setSlot i v).tariffPairs = s.tariffPairs := rfl
@[simp] theorem setSlot_freeList (s : State) (i : SlotNo) (v : Slot) : (s.setSlot i v).freeList = s.freeList := rfl
@[simp] theorem setSlot_wornSet (s : State) (i : SlotNo) (v : Slot) : (s.setSlot i v).wornSet = s.wornSet := rfl
@[simp] theorem setSlot_phase (s : State) (i : SlotNo) (v : Slot) : (s.setSlot i v).phase = s.phase := rfl
@[simp] theorem setSlot_inReset (s : State) (i : SlotNo) (v : Slot) : (s.setSlot i v).inReset = s.inReset := rfl
@[simp] theorem setSlot_report (s : State) (i : SlotNo) (v : Slot) : (s.setSlot i v).report = s.report := rfl
@[simp] theorem setSlot_collectionWait (s : State) (i : SlotNo) (v : Slot) : (s.setSlot i v).collectionWait = s.collectionWait := rfl
@[simp] theorem setSlot_supply (s : State) (i : SlotNo) (v : Slot) : (s.setSlot i v).supply = s.supply := rfl
@[simp] theorem setSlot_steadyTimer (s : State) (i : SlotNo) (v : Slot) : (s.setSlot i v).steadyTimer = s.steadyTimer := rfl
@[simp] theorem setSlot_vdd (s : State) (i : SlotNo) (v : Slot) : (s.setSlot i v).vdd = s.vdd := rfl
@[simp] theorem setSlot_alerts (s : State) (i : SlotNo) (v : Slot) : (s.setSlot i v).alerts = s.alerts := rfl
@[simp] theorem setSlot_lost (s : State) (i : SlotNo) (v : Slot) : (s.setSlot i v).lost = s.lost := rfl
@[simp] theorem setSlot_terminal (s : State) (i : SlotNo) (v : Slot) : (s.setSlot i v).terminal = s.terminal := rfl
@[simp] theorem setSlot_service (s : State) (i : SlotNo) (v : Slot) : (s.setSlot i v).service = s.service := rfl
@[simp] theorem setSlot_lastServed (s : State) (i : SlotNo) (v : Slot) : (s.setSlot i v).lastServed = s.lastServed := rfl
@[simp] theorem setSlot_serviceAddress (s : State) (i : SlotNo) (v : Slot) : (s.setSlot i v).serviceAddress = s.serviceAddress := rfl
@[simp] theorem setSlot_freeUses (s : State) (i : SlotNo) (v : Slot) : (s.setSlot i v).freeUses = s.freeUses := rfl
@[simp] theorem setSlot_pending (s : State) (i : SlotNo) (v : Slot) : (s.setSlot i v).pending = s.pending := rfl

@[simp] theorem setHold_slots (s : State) (n : HoldNo) (v : HoldEntry) : (s.setHold n v).slots = s.slots := rfl
@[simp] theorem setHold_keyIndex (s : State) (n : HoldNo) (v : HoldEntry) : (s.setHold n v).keyIndex = s.keyIndex := rfl
@[simp] theorem setHold_seconds (s : State) (n : HoldNo) (v : HoldEntry) : (s.setHold n v).seconds = s.seconds := rfl
@[simp] theorem setHold_tariffs (s : State) (n : HoldNo) (v : HoldEntry) : (s.setHold n v).tariffs = s.tariffs := rfl
@[simp] theorem setHold_commitQueue (s : State) (n : HoldNo) (v : HoldEntry) : (s.setHold n v).commitQueue = s.commitQueue := rfl
@[simp] theorem setHold_accountCells (s : State) (n : HoldNo) (v : HoldEntry) : (s.setHold n v).accountCells = s.accountCells := rfl
@[simp] theorem setHold_tariffCells (s : State) (n : HoldNo) (v : HoldEntry) : (s.setHold n v).tariffCells = s.tariffCells := rfl
@[simp] theorem setHold_accountPairs (s : State) (n : HoldNo) (v : HoldEntry) : (s.setHold n v).accountPairs = s.accountPairs := rfl
@[simp] theorem setHold_tariffPairs (s : State) (n : HoldNo) (v : HoldEntry) : (s.setHold n v).tariffPairs = s.tariffPairs := rfl
@[simp] theorem setHold_freeList (s : State) (n : HoldNo) (v : HoldEntry) : (s.setHold n v).freeList = s.freeList := rfl
@[simp] theorem setHold_wornSet (s : State) (n : HoldNo) (v : HoldEntry) : (s.setHold n v).wornSet = s.wornSet := rfl
@[simp] theorem setHold_phase (s : State) (n : HoldNo) (v : HoldEntry) : (s.setHold n v).phase = s.phase := rfl
@[simp] theorem setHold_inReset (s : State) (n : HoldNo) (v : HoldEntry) : (s.setHold n v).inReset = s.inReset := rfl
@[simp] theorem setHold_report (s : State) (n : HoldNo) (v : HoldEntry) : (s.setHold n v).report = s.report := rfl
@[simp] theorem setHold_collectionWait (s : State) (n : HoldNo) (v : HoldEntry) : (s.setHold n v).collectionWait = s.collectionWait := rfl
@[simp] theorem setHold_supply (s : State) (n : HoldNo) (v : HoldEntry) : (s.setHold n v).supply = s.supply := rfl
@[simp] theorem setHold_steadyTimer (s : State) (n : HoldNo) (v : HoldEntry) : (s.setHold n v).steadyTimer = s.steadyTimer := rfl
@[simp] theorem setHold_vdd (s : State) (n : HoldNo) (v : HoldEntry) : (s.setHold n v).vdd = s.vdd := rfl
@[simp] theorem setHold_alerts (s : State) (n : HoldNo) (v : HoldEntry) : (s.setHold n v).alerts = s.alerts := rfl
@[simp] theorem setHold_lost (s : State) (n : HoldNo) (v : HoldEntry) : (s.setHold n v).lost = s.lost := rfl
@[simp] theorem setHold_terminal (s : State) (n : HoldNo) (v : HoldEntry) : (s.setHold n v).terminal = s.terminal := rfl
@[simp] theorem setHold_service (s : State) (n : HoldNo) (v : HoldEntry) : (s.setHold n v).service = s.service := rfl
@[simp] theorem setHold_lastServed (s : State) (n : HoldNo) (v : HoldEntry) : (s.setHold n v).lastServed = s.lastServed := rfl
@[simp] theorem setHold_serviceAddress (s : State) (n : HoldNo) (v : HoldEntry) : (s.setHold n v).serviceAddress = s.serviceAddress := rfl
@[simp] theorem setHold_freeUses (s : State) (n : HoldNo) (v : HoldEntry) : (s.setHold n v).freeUses = s.freeUses := rfl
@[simp] theorem setHold_pending (s : State) (n : HoldNo) (v : HoldEntry) : (s.setHold n v).pending = s.pending := rfl

@[simp] theorem setTariff_slots (s : State) (n : ClassNo) (v : TariffClass) : (s.setTariff n v).slots = s.slots := rfl
@[simp] theorem setTariff_keyIndex (s : State) (n : ClassNo) (v : TariffClass) : (s.setTariff n v).keyIndex = s.keyIndex := rfl
@[simp] theorem setTariff_holds (s : State) (n : ClassNo) (v : TariffClass) : (s.setTariff n v).holds = s.holds := rfl
@[simp] theorem setTariff_seconds (s : State) (n : ClassNo) (v : TariffClass) : (s.setTariff n v).seconds = s.seconds := rfl
@[simp] theorem setTariff_commitQueue (s : State) (n : ClassNo) (v : TariffClass) : (s.setTariff n v).commitQueue = s.commitQueue := rfl
@[simp] theorem setTariff_accountCells (s : State) (n : ClassNo) (v : TariffClass) : (s.setTariff n v).accountCells = s.accountCells := rfl
@[simp] theorem setTariff_tariffCells (s : State) (n : ClassNo) (v : TariffClass) : (s.setTariff n v).tariffCells = s.tariffCells := rfl
@[simp] theorem setTariff_accountPairs (s : State) (n : ClassNo) (v : TariffClass) : (s.setTariff n v).accountPairs = s.accountPairs := rfl
@[simp] theorem setTariff_tariffPairs (s : State) (n : ClassNo) (v : TariffClass) : (s.setTariff n v).tariffPairs = s.tariffPairs := rfl
@[simp] theorem setTariff_freeList (s : State) (n : ClassNo) (v : TariffClass) : (s.setTariff n v).freeList = s.freeList := rfl
@[simp] theorem setTariff_wornSet (s : State) (n : ClassNo) (v : TariffClass) : (s.setTariff n v).wornSet = s.wornSet := rfl
@[simp] theorem setTariff_phase (s : State) (n : ClassNo) (v : TariffClass) : (s.setTariff n v).phase = s.phase := rfl
@[simp] theorem setTariff_inReset (s : State) (n : ClassNo) (v : TariffClass) : (s.setTariff n v).inReset = s.inReset := rfl
@[simp] theorem setTariff_report (s : State) (n : ClassNo) (v : TariffClass) : (s.setTariff n v).report = s.report := rfl
@[simp] theorem setTariff_collectionWait (s : State) (n : ClassNo) (v : TariffClass) : (s.setTariff n v).collectionWait = s.collectionWait := rfl
@[simp] theorem setTariff_supply (s : State) (n : ClassNo) (v : TariffClass) : (s.setTariff n v).supply = s.supply := rfl
@[simp] theorem setTariff_steadyTimer (s : State) (n : ClassNo) (v : TariffClass) : (s.setTariff n v).steadyTimer = s.steadyTimer := rfl
@[simp] theorem setTariff_vdd (s : State) (n : ClassNo) (v : TariffClass) : (s.setTariff n v).vdd = s.vdd := rfl
@[simp] theorem setTariff_alerts (s : State) (n : ClassNo) (v : TariffClass) : (s.setTariff n v).alerts = s.alerts := rfl
@[simp] theorem setTariff_lost (s : State) (n : ClassNo) (v : TariffClass) : (s.setTariff n v).lost = s.lost := rfl
@[simp] theorem setTariff_terminal (s : State) (n : ClassNo) (v : TariffClass) : (s.setTariff n v).terminal = s.terminal := rfl
@[simp] theorem setTariff_service (s : State) (n : ClassNo) (v : TariffClass) : (s.setTariff n v).service = s.service := rfl
@[simp] theorem setTariff_lastServed (s : State) (n : ClassNo) (v : TariffClass) : (s.setTariff n v).lastServed = s.lastServed := rfl
@[simp] theorem setTariff_serviceAddress (s : State) (n : ClassNo) (v : TariffClass) : (s.setTariff n v).serviceAddress = s.serviceAddress := rfl
@[simp] theorem setTariff_freeUses (s : State) (n : ClassNo) (v : TariffClass) : (s.setTariff n v).freeUses = s.freeUses := rfl
@[simp] theorem setTariff_pending (s : State) (n : ClassNo) (v : TariffClass) : (s.setTariff n v).pending = s.pending := rfl

@[simp] theorem setPair_slots (s : State) (p : PairNo) (v : PairRecord) : (s.setPair p v).slots = s.slots := rfl
@[simp] theorem setPair_keyIndex (s : State) (p : PairNo) (v : PairRecord) : (s.setPair p v).keyIndex = s.keyIndex := rfl
@[simp] theorem setPair_holds (s : State) (p : PairNo) (v : PairRecord) : (s.setPair p v).holds = s.holds := rfl
@[simp] theorem setPair_seconds (s : State) (p : PairNo) (v : PairRecord) : (s.setPair p v).seconds = s.seconds := rfl
@[simp] theorem setPair_tariffs (s : State) (p : PairNo) (v : PairRecord) : (s.setPair p v).tariffs = s.tariffs := rfl
@[simp] theorem setPair_commitQueue (s : State) (p : PairNo) (v : PairRecord) : (s.setPair p v).commitQueue = s.commitQueue := rfl
@[simp] theorem setPair_accountCells (s : State) (p : PairNo) (v : PairRecord) : (s.setPair p v).accountCells = s.accountCells := rfl
@[simp] theorem setPair_tariffCells (s : State) (p : PairNo) (v : PairRecord) : (s.setPair p v).tariffCells = s.tariffCells := rfl
@[simp] theorem setPair_tariffPairs (s : State) (p : PairNo) (v : PairRecord) : (s.setPair p v).tariffPairs = s.tariffPairs := rfl
@[simp] theorem setPair_freeList (s : State) (p : PairNo) (v : PairRecord) : (s.setPair p v).freeList = s.freeList := rfl
@[simp] theorem setPair_wornSet (s : State) (p : PairNo) (v : PairRecord) : (s.setPair p v).wornSet = s.wornSet := rfl
@[simp] theorem setPair_phase (s : State) (p : PairNo) (v : PairRecord) : (s.setPair p v).phase = s.phase := rfl
@[simp] theorem setPair_inReset (s : State) (p : PairNo) (v : PairRecord) : (s.setPair p v).inReset = s.inReset := rfl
@[simp] theorem setPair_report (s : State) (p : PairNo) (v : PairRecord) : (s.setPair p v).report = s.report := rfl
@[simp] theorem setPair_collectionWait (s : State) (p : PairNo) (v : PairRecord) : (s.setPair p v).collectionWait = s.collectionWait := rfl
@[simp] theorem setPair_supply (s : State) (p : PairNo) (v : PairRecord) : (s.setPair p v).supply = s.supply := rfl
@[simp] theorem setPair_steadyTimer (s : State) (p : PairNo) (v : PairRecord) : (s.setPair p v).steadyTimer = s.steadyTimer := rfl
@[simp] theorem setPair_vdd (s : State) (p : PairNo) (v : PairRecord) : (s.setPair p v).vdd = s.vdd := rfl
@[simp] theorem setPair_alerts (s : State) (p : PairNo) (v : PairRecord) : (s.setPair p v).alerts = s.alerts := rfl
@[simp] theorem setPair_lost (s : State) (p : PairNo) (v : PairRecord) : (s.setPair p v).lost = s.lost := rfl
@[simp] theorem setPair_terminal (s : State) (p : PairNo) (v : PairRecord) : (s.setPair p v).terminal = s.terminal := rfl
@[simp] theorem setPair_service (s : State) (p : PairNo) (v : PairRecord) : (s.setPair p v).service = s.service := rfl
@[simp] theorem setPair_lastServed (s : State) (p : PairNo) (v : PairRecord) : (s.setPair p v).lastServed = s.lastServed := rfl
@[simp] theorem setPair_serviceAddress (s : State) (p : PairNo) (v : PairRecord) : (s.setPair p v).serviceAddress = s.serviceAddress := rfl
@[simp] theorem setPair_freeUses (s : State) (p : PairNo) (v : PairRecord) : (s.setPair p v).freeUses = s.freeUses := rfl
@[simp] theorem setPair_pending (s : State) (p : PairNo) (v : PairRecord) : (s.setPair p v).pending = s.pending := rfl

@[simp] theorem setRole_slots (s : State) (p : PairNo) (r : PairRole) : (s.setRole p r).slots = s.slots := rfl
@[simp] theorem setRole_keyIndex (s : State) (p : PairNo) (r : PairRole) : (s.setRole p r).keyIndex = s.keyIndex := rfl
@[simp] theorem setRole_holds (s : State) (p : PairNo) (r : PairRole) : (s.setRole p r).holds = s.holds := rfl
@[simp] theorem setRole_seconds (s : State) (p : PairNo) (r : PairRole) : (s.setRole p r).seconds = s.seconds := rfl
@[simp] theorem setRole_tariffs (s : State) (p : PairNo) (r : PairRole) : (s.setRole p r).tariffs = s.tariffs := rfl
@[simp] theorem setRole_commitQueue (s : State) (p : PairNo) (r : PairRole) : (s.setRole p r).commitQueue = s.commitQueue := rfl
@[simp] theorem setRole_accountCells (s : State) (p : PairNo) (r : PairRole) : (s.setRole p r).accountCells = s.accountCells := rfl
@[simp] theorem setRole_tariffCells (s : State) (p : PairNo) (r : PairRole) : (s.setRole p r).tariffCells = s.tariffCells := rfl
@[simp] theorem setRole_tariffPairs (s : State) (p : PairNo) (r : PairRole) : (s.setRole p r).tariffPairs = s.tariffPairs := rfl
@[simp] theorem setRole_freeList (s : State) (p : PairNo) (r : PairRole) : (s.setRole p r).freeList = s.freeList := rfl
@[simp] theorem setRole_wornSet (s : State) (p : PairNo) (r : PairRole) : (s.setRole p r).wornSet = s.wornSet := rfl
@[simp] theorem setRole_phase (s : State) (p : PairNo) (r : PairRole) : (s.setRole p r).phase = s.phase := rfl
@[simp] theorem setRole_inReset (s : State) (p : PairNo) (r : PairRole) : (s.setRole p r).inReset = s.inReset := rfl
@[simp] theorem setRole_report (s : State) (p : PairNo) (r : PairRole) : (s.setRole p r).report = s.report := rfl
@[simp] theorem setRole_collectionWait (s : State) (p : PairNo) (r : PairRole) : (s.setRole p r).collectionWait = s.collectionWait := rfl
@[simp] theorem setRole_supply (s : State) (p : PairNo) (r : PairRole) : (s.setRole p r).supply = s.supply := rfl
@[simp] theorem setRole_steadyTimer (s : State) (p : PairNo) (r : PairRole) : (s.setRole p r).steadyTimer = s.steadyTimer := rfl
@[simp] theorem setRole_vdd (s : State) (p : PairNo) (r : PairRole) : (s.setRole p r).vdd = s.vdd := rfl
@[simp] theorem setRole_alerts (s : State) (p : PairNo) (r : PairRole) : (s.setRole p r).alerts = s.alerts := rfl
@[simp] theorem setRole_lost (s : State) (p : PairNo) (r : PairRole) : (s.setRole p r).lost = s.lost := rfl
@[simp] theorem setRole_terminal (s : State) (p : PairNo) (r : PairRole) : (s.setRole p r).terminal = s.terminal := rfl
@[simp] theorem setRole_service (s : State) (p : PairNo) (r : PairRole) : (s.setRole p r).service = s.service := rfl
@[simp] theorem setRole_lastServed (s : State) (p : PairNo) (r : PairRole) : (s.setRole p r).lastServed = s.lastServed := rfl
@[simp] theorem setRole_serviceAddress (s : State) (p : PairNo) (r : PairRole) : (s.setRole p r).serviceAddress = s.serviceAddress := rfl
@[simp] theorem setRole_freeUses (s : State) (p : PairNo) (r : PairRole) : (s.setRole p r).freeUses = s.freeUses := rfl
@[simp] theorem setRole_pending (s : State) (p : PairNo) (r : PairRole) : (s.setRole p r).pending = s.pending := rfl

@[simp] theorem setTrack_slots (s : State) (p : PairId) (t : PairTrack) : (s.setTrack p t).slots = s.slots := by cases p <;> rfl
@[simp] theorem setTrack_keyIndex (s : State) (p : PairId) (t : PairTrack) : (s.setTrack p t).keyIndex = s.keyIndex := by cases p <;> rfl
@[simp] theorem setTrack_holds (s : State) (p : PairId) (t : PairTrack) : (s.setTrack p t).holds = s.holds := by cases p <;> rfl
@[simp] theorem setTrack_seconds (s : State) (p : PairId) (t : PairTrack) : (s.setTrack p t).seconds = s.seconds := by cases p <;> rfl
@[simp] theorem setTrack_tariffs (s : State) (p : PairId) (t : PairTrack) : (s.setTrack p t).tariffs = s.tariffs := by cases p <;> rfl
@[simp] theorem setTrack_commitQueue (s : State) (p : PairId) (t : PairTrack) : (s.setTrack p t).commitQueue = s.commitQueue := by cases p <;> rfl
@[simp] theorem setTrack_accountCells (s : State) (p : PairId) (t : PairTrack) : (s.setTrack p t).accountCells = s.accountCells := by cases p <;> rfl
@[simp] theorem setTrack_tariffCells (s : State) (p : PairId) (t : PairTrack) : (s.setTrack p t).tariffCells = s.tariffCells := by cases p <;> rfl
@[simp] theorem setTrack_freeList (s : State) (p : PairId) (t : PairTrack) : (s.setTrack p t).freeList = s.freeList := by cases p <;> rfl
@[simp] theorem setTrack_wornSet (s : State) (p : PairId) (t : PairTrack) : (s.setTrack p t).wornSet = s.wornSet := by cases p <;> rfl
@[simp] theorem setTrack_phase (s : State) (p : PairId) (t : PairTrack) : (s.setTrack p t).phase = s.phase := by cases p <;> rfl
@[simp] theorem setTrack_inReset (s : State) (p : PairId) (t : PairTrack) : (s.setTrack p t).inReset = s.inReset := by cases p <;> rfl
@[simp] theorem setTrack_report (s : State) (p : PairId) (t : PairTrack) : (s.setTrack p t).report = s.report := by cases p <;> rfl
@[simp] theorem setTrack_collectionWait (s : State) (p : PairId) (t : PairTrack) : (s.setTrack p t).collectionWait = s.collectionWait := by cases p <;> rfl
@[simp] theorem setTrack_supply (s : State) (p : PairId) (t : PairTrack) : (s.setTrack p t).supply = s.supply := by cases p <;> rfl
@[simp] theorem setTrack_steadyTimer (s : State) (p : PairId) (t : PairTrack) : (s.setTrack p t).steadyTimer = s.steadyTimer := by cases p <;> rfl
@[simp] theorem setTrack_vdd (s : State) (p : PairId) (t : PairTrack) : (s.setTrack p t).vdd = s.vdd := by cases p <;> rfl
@[simp] theorem setTrack_alerts (s : State) (p : PairId) (t : PairTrack) : (s.setTrack p t).alerts = s.alerts := by cases p <;> rfl
@[simp] theorem setTrack_lost (s : State) (p : PairId) (t : PairTrack) : (s.setTrack p t).lost = s.lost := by cases p <;> rfl
@[simp] theorem setTrack_terminal (s : State) (p : PairId) (t : PairTrack) : (s.setTrack p t).terminal = s.terminal := by cases p <;> rfl
@[simp] theorem setTrack_service (s : State) (p : PairId) (t : PairTrack) : (s.setTrack p t).service = s.service := by cases p <;> rfl
@[simp] theorem setTrack_lastServed (s : State) (p : PairId) (t : PairTrack) : (s.setTrack p t).lastServed = s.lastServed := by cases p <;> rfl
@[simp] theorem setTrack_serviceAddress (s : State) (p : PairId) (t : PairTrack) : (s.setTrack p t).serviceAddress = s.serviceAddress := by cases p <;> rfl
@[simp] theorem setTrack_freeUses (s : State) (p : PairId) (t : PairTrack) : (s.setTrack p t).freeUses = s.freeUses := by cases p <;> rfl
@[simp] theorem setTrack_pending (s : State) (p : PairId) (t : PairTrack) : (s.setTrack p t).pending = s.pending := by cases p <;> rfl

@[simp] theorem setCopy_slots (s : State) (p : PairId) (n : CopyName) (v : Copy) : (s.setCopy p n v).slots = s.slots := by cases p <;> rfl
@[simp] theorem setCopy_keyIndex (s : State) (p : PairId) (n : CopyName) (v : Copy) : (s.setCopy p n v).keyIndex = s.keyIndex := by cases p <;> rfl
@[simp] theorem setCopy_holds (s : State) (p : PairId) (n : CopyName) (v : Copy) : (s.setCopy p n v).holds = s.holds := by cases p <;> rfl
@[simp] theorem setCopy_seconds (s : State) (p : PairId) (n : CopyName) (v : Copy) : (s.setCopy p n v).seconds = s.seconds := by cases p <;> rfl
@[simp] theorem setCopy_tariffs (s : State) (p : PairId) (n : CopyName) (v : Copy) : (s.setCopy p n v).tariffs = s.tariffs := by cases p <;> rfl
@[simp] theorem setCopy_commitQueue (s : State) (p : PairId) (n : CopyName) (v : Copy) : (s.setCopy p n v).commitQueue = s.commitQueue := by cases p <;> rfl
@[simp] theorem setCopy_accountPairs (s : State) (p : PairId) (n : CopyName) (v : Copy) : (s.setCopy p n v).accountPairs = s.accountPairs := by cases p <;> rfl
@[simp] theorem setCopy_tariffPairs (s : State) (p : PairId) (n : CopyName) (v : Copy) : (s.setCopy p n v).tariffPairs = s.tariffPairs := by cases p <;> rfl
@[simp] theorem setCopy_freeList (s : State) (p : PairId) (n : CopyName) (v : Copy) : (s.setCopy p n v).freeList = s.freeList := by cases p <;> rfl
@[simp] theorem setCopy_wornSet (s : State) (p : PairId) (n : CopyName) (v : Copy) : (s.setCopy p n v).wornSet = s.wornSet := by cases p <;> rfl
@[simp] theorem setCopy_phase (s : State) (p : PairId) (n : CopyName) (v : Copy) : (s.setCopy p n v).phase = s.phase := by cases p <;> rfl
@[simp] theorem setCopy_inReset (s : State) (p : PairId) (n : CopyName) (v : Copy) : (s.setCopy p n v).inReset = s.inReset := by cases p <;> rfl
@[simp] theorem setCopy_report (s : State) (p : PairId) (n : CopyName) (v : Copy) : (s.setCopy p n v).report = s.report := by cases p <;> rfl
@[simp] theorem setCopy_collectionWait (s : State) (p : PairId) (n : CopyName) (v : Copy) : (s.setCopy p n v).collectionWait = s.collectionWait := by cases p <;> rfl
@[simp] theorem setCopy_supply (s : State) (p : PairId) (n : CopyName) (v : Copy) : (s.setCopy p n v).supply = s.supply := by cases p <;> rfl
@[simp] theorem setCopy_steadyTimer (s : State) (p : PairId) (n : CopyName) (v : Copy) : (s.setCopy p n v).steadyTimer = s.steadyTimer := by cases p <;> rfl
@[simp] theorem setCopy_vdd (s : State) (p : PairId) (n : CopyName) (v : Copy) : (s.setCopy p n v).vdd = s.vdd := by cases p <;> rfl
@[simp] theorem setCopy_alerts (s : State) (p : PairId) (n : CopyName) (v : Copy) : (s.setCopy p n v).alerts = s.alerts := by cases p <;> rfl
@[simp] theorem setCopy_lost (s : State) (p : PairId) (n : CopyName) (v : Copy) : (s.setCopy p n v).lost = s.lost := by cases p <;> rfl
@[simp] theorem setCopy_terminal (s : State) (p : PairId) (n : CopyName) (v : Copy) : (s.setCopy p n v).terminal = s.terminal := by cases p <;> rfl
@[simp] theorem setCopy_service (s : State) (p : PairId) (n : CopyName) (v : Copy) : (s.setCopy p n v).service = s.service := by cases p <;> rfl
@[simp] theorem setCopy_lastServed (s : State) (p : PairId) (n : CopyName) (v : Copy) : (s.setCopy p n v).lastServed = s.lastServed := by cases p <;> rfl
@[simp] theorem setCopy_serviceAddress (s : State) (p : PairId) (n : CopyName) (v : Copy) : (s.setCopy p n v).serviceAddress = s.serviceAddress := by cases p <;> rfl
@[simp] theorem setCopy_freeUses (s : State) (p : PairId) (n : CopyName) (v : Copy) : (s.setCopy p n v).freeUses = s.freeUses := by cases p <;> rfl
@[simp] theorem setCopy_pending (s : State) (p : PairId) (n : CopyName) (v : Copy) : (s.setCopy p n v).pending = s.pending := by cases p <;> rfl

@[simp] theorem setPort_slots (s : State) (p : Port) (v : PortState) : (s.setPort p v).slots = s.slots := by cases p <;> rfl
@[simp] theorem setPort_keyIndex (s : State) (p : Port) (v : PortState) : (s.setPort p v).keyIndex = s.keyIndex := by cases p <;> rfl
@[simp] theorem setPort_holds (s : State) (p : Port) (v : PortState) : (s.setPort p v).holds = s.holds := by cases p <;> rfl
@[simp] theorem setPort_seconds (s : State) (p : Port) (v : PortState) : (s.setPort p v).seconds = s.seconds := by cases p <;> rfl
@[simp] theorem setPort_tariffs (s : State) (p : Port) (v : PortState) : (s.setPort p v).tariffs = s.tariffs := by cases p <;> rfl
@[simp] theorem setPort_commitQueue (s : State) (p : Port) (v : PortState) : (s.setPort p v).commitQueue = s.commitQueue := by cases p <;> rfl
@[simp] theorem setPort_accountCells (s : State) (p : Port) (v : PortState) : (s.setPort p v).accountCells = s.accountCells := by cases p <;> rfl
@[simp] theorem setPort_tariffCells (s : State) (p : Port) (v : PortState) : (s.setPort p v).tariffCells = s.tariffCells := by cases p <;> rfl
@[simp] theorem setPort_accountPairs (s : State) (p : Port) (v : PortState) : (s.setPort p v).accountPairs = s.accountPairs := by cases p <;> rfl
@[simp] theorem setPort_tariffPairs (s : State) (p : Port) (v : PortState) : (s.setPort p v).tariffPairs = s.tariffPairs := by cases p <;> rfl
@[simp] theorem setPort_freeList (s : State) (p : Port) (v : PortState) : (s.setPort p v).freeList = s.freeList := by cases p <;> rfl
@[simp] theorem setPort_wornSet (s : State) (p : Port) (v : PortState) : (s.setPort p v).wornSet = s.wornSet := by cases p <;> rfl
@[simp] theorem setPort_phase (s : State) (p : Port) (v : PortState) : (s.setPort p v).phase = s.phase := by cases p <;> rfl
@[simp] theorem setPort_inReset (s : State) (p : Port) (v : PortState) : (s.setPort p v).inReset = s.inReset := by cases p <;> rfl
@[simp] theorem setPort_report (s : State) (p : Port) (v : PortState) : (s.setPort p v).report = s.report := by cases p <;> rfl
@[simp] theorem setPort_collectionWait (s : State) (p : Port) (v : PortState) : (s.setPort p v).collectionWait = s.collectionWait := by cases p <;> rfl
@[simp] theorem setPort_supply (s : State) (p : Port) (v : PortState) : (s.setPort p v).supply = s.supply := by cases p <;> rfl
@[simp] theorem setPort_steadyTimer (s : State) (p : Port) (v : PortState) : (s.setPort p v).steadyTimer = s.steadyTimer := by cases p <;> rfl
@[simp] theorem setPort_vdd (s : State) (p : Port) (v : PortState) : (s.setPort p v).vdd = s.vdd := by cases p <;> rfl
@[simp] theorem setPort_alerts (s : State) (p : Port) (v : PortState) : (s.setPort p v).alerts = s.alerts := by cases p <;> rfl
@[simp] theorem setPort_lost (s : State) (p : Port) (v : PortState) : (s.setPort p v).lost = s.lost := by cases p <;> rfl
@[simp] theorem setPort_lastServed (s : State) (p : Port) (v : PortState) : (s.setPort p v).lastServed = s.lastServed := by cases p <;> rfl
@[simp] theorem setPort_serviceAddress (s : State) (p : Port) (v : PortState) : (s.setPort p v).serviceAddress = s.serviceAddress := by cases p <;> rfl
@[simp] theorem setPort_freeUses (s : State) (p : Port) (v : PortState) : (s.setPort p v).freeUses = s.freeUses := by cases p <;> rfl
@[simp] theorem setPort_pending (s : State) (p : Port) (v : PortState) : (s.setPort p v).pending = s.pending := by cases p <;> rfl

@[simp] theorem setHead_slots (s : State) (e : CommitEntry) : (s.setHead e).slots = s.slots := rfl
@[simp] theorem setHead_keyIndex (s : State) (e : CommitEntry) : (s.setHead e).keyIndex = s.keyIndex := rfl
@[simp] theorem setHead_holds (s : State) (e : CommitEntry) : (s.setHead e).holds = s.holds := rfl
@[simp] theorem setHead_seconds (s : State) (e : CommitEntry) : (s.setHead e).seconds = s.seconds := rfl
@[simp] theorem setHead_tariffs (s : State) (e : CommitEntry) : (s.setHead e).tariffs = s.tariffs := rfl
@[simp] theorem setHead_accountCells (s : State) (e : CommitEntry) : (s.setHead e).accountCells = s.accountCells := rfl
@[simp] theorem setHead_tariffCells (s : State) (e : CommitEntry) : (s.setHead e).tariffCells = s.tariffCells := rfl
@[simp] theorem setHead_accountPairs (s : State) (e : CommitEntry) : (s.setHead e).accountPairs = s.accountPairs := rfl
@[simp] theorem setHead_tariffPairs (s : State) (e : CommitEntry) : (s.setHead e).tariffPairs = s.tariffPairs := rfl
@[simp] theorem setHead_freeList (s : State) (e : CommitEntry) : (s.setHead e).freeList = s.freeList := rfl
@[simp] theorem setHead_wornSet (s : State) (e : CommitEntry) : (s.setHead e).wornSet = s.wornSet := rfl
@[simp] theorem setHead_phase (s : State) (e : CommitEntry) : (s.setHead e).phase = s.phase := rfl
@[simp] theorem setHead_inReset (s : State) (e : CommitEntry) : (s.setHead e).inReset = s.inReset := rfl
@[simp] theorem setHead_report (s : State) (e : CommitEntry) : (s.setHead e).report = s.report := rfl
@[simp] theorem setHead_collectionWait (s : State) (e : CommitEntry) : (s.setHead e).collectionWait = s.collectionWait := rfl
@[simp] theorem setHead_supply (s : State) (e : CommitEntry) : (s.setHead e).supply = s.supply := rfl
@[simp] theorem setHead_steadyTimer (s : State) (e : CommitEntry) : (s.setHead e).steadyTimer = s.steadyTimer := rfl
@[simp] theorem setHead_vdd (s : State) (e : CommitEntry) : (s.setHead e).vdd = s.vdd := rfl
@[simp] theorem setHead_alerts (s : State) (e : CommitEntry) : (s.setHead e).alerts = s.alerts := rfl
@[simp] theorem setHead_lost (s : State) (e : CommitEntry) : (s.setHead e).lost = s.lost := rfl
@[simp] theorem setHead_terminal (s : State) (e : CommitEntry) : (s.setHead e).terminal = s.terminal := rfl
@[simp] theorem setHead_service (s : State) (e : CommitEntry) : (s.setHead e).service = s.service := rfl
@[simp] theorem setHead_lastServed (s : State) (e : CommitEntry) : (s.setHead e).lastServed = s.lastServed := rfl
@[simp] theorem setHead_serviceAddress (s : State) (e : CommitEntry) : (s.setHead e).serviceAddress = s.serviceAddress := rfl
@[simp] theorem setHead_freeUses (s : State) (e : CommitEntry) : (s.setHead e).freeUses = s.freeUses := rfl
@[simp] theorem setHead_pending (s : State) (e : CommitEntry) : (s.setHead e).pending = s.pending := rfl

@[simp] theorem leaveHead_slots (s : State) : (s.leaveHead).slots = s.slots := rfl
@[simp] theorem leaveHead_keyIndex (s : State) : (s.leaveHead).keyIndex = s.keyIndex := rfl
@[simp] theorem leaveHead_holds (s : State) : (s.leaveHead).holds = s.holds := rfl
@[simp] theorem leaveHead_seconds (s : State) : (s.leaveHead).seconds = s.seconds := rfl
@[simp] theorem leaveHead_tariffs (s : State) : (s.leaveHead).tariffs = s.tariffs := rfl
@[simp] theorem leaveHead_accountCells (s : State) : (s.leaveHead).accountCells = s.accountCells := rfl
@[simp] theorem leaveHead_tariffCells (s : State) : (s.leaveHead).tariffCells = s.tariffCells := rfl
@[simp] theorem leaveHead_accountPairs (s : State) : (s.leaveHead).accountPairs = s.accountPairs := rfl
@[simp] theorem leaveHead_tariffPairs (s : State) : (s.leaveHead).tariffPairs = s.tariffPairs := rfl
@[simp] theorem leaveHead_freeList (s : State) : (s.leaveHead).freeList = s.freeList := rfl
@[simp] theorem leaveHead_wornSet (s : State) : (s.leaveHead).wornSet = s.wornSet := rfl
@[simp] theorem leaveHead_phase (s : State) : (s.leaveHead).phase = s.phase := rfl
@[simp] theorem leaveHead_inReset (s : State) : (s.leaveHead).inReset = s.inReset := rfl
@[simp] theorem leaveHead_report (s : State) : (s.leaveHead).report = s.report := rfl
@[simp] theorem leaveHead_collectionWait (s : State) : (s.leaveHead).collectionWait = s.collectionWait := rfl
@[simp] theorem leaveHead_supply (s : State) : (s.leaveHead).supply = s.supply := rfl
@[simp] theorem leaveHead_steadyTimer (s : State) : (s.leaveHead).steadyTimer = s.steadyTimer := rfl
@[simp] theorem leaveHead_vdd (s : State) : (s.leaveHead).vdd = s.vdd := rfl
@[simp] theorem leaveHead_alerts (s : State) : (s.leaveHead).alerts = s.alerts := rfl
@[simp] theorem leaveHead_lost (s : State) : (s.leaveHead).lost = s.lost := rfl
@[simp] theorem leaveHead_terminal (s : State) : (s.leaveHead).terminal = s.terminal := rfl
@[simp] theorem leaveHead_service (s : State) : (s.leaveHead).service = s.service := rfl
@[simp] theorem leaveHead_lastServed (s : State) : (s.leaveHead).lastServed = s.lastServed := rfl
@[simp] theorem leaveHead_serviceAddress (s : State) : (s.leaveHead).serviceAddress = s.serviceAddress := rfl
@[simp] theorem leaveHead_freeUses (s : State) : (s.leaveHead).freeUses = s.freeUses := rfl
@[simp] theorem leaveHead_pending (s : State) : (s.leaveHead).pending = s.pending := rfl

/-! ## Tables read after an update -/

@[simp] theorem get_set_same {α : Type} {n : Nat} (v : Vector α n) (i : Fin n) (x : α) :
    (v.set i.val x i.isLt).get i = x := by
  show (v.set i.val x i.isLt)[i.val] = x
  simp

theorem get_set_other {α : Type} {n : Nat} (v : Vector α n) (i j : Fin n) (x : α) (h : i ≠ j) :
    (v.set i.val x i.isLt).get j = v.get j := by
  have ne : i.val ≠ j.val := fun e => h (Fin.ext e)
  show (v.set i.val x i.isLt)[j.val] = v[j.val]
  simp [ne]

@[simp] theorem slot_setSlot_same (s : State) (i : SlotNo) (v : Slot) : (s.setSlot i v).slot i = v := get_set_same _ _ _

theorem slot_setSlot_other (s : State) (i j : SlotNo) (v : Slot) (h : i ≠ j) :
    (s.setSlot i v).slot j = s.slot j :=
  get_set_other _ _ _ _ h

@[simp] theorem hold_setHold_same (s : State) (n : HoldNo) (v : HoldEntry) : (s.setHold n v).hold n = v := get_set_same _ _ _

theorem hold_setHold_other (s : State) (n m : HoldNo) (v : HoldEntry) (h : n ≠ m) :
    (s.setHold n v).hold m = s.hold m :=
  get_set_other _ _ _ _ h

@[simp] theorem tariff_setTariff_same (s : State) (n : ClassNo) (v : TariffClass) :
    (s.setTariff n v).tariff n = v := get_set_same _ _ _

theorem tariff_setTariff_other (s : State) (n m : ClassNo) (v : TariffClass) (h : n ≠ m) :
    (s.setTariff n v).tariff m = s.tariff m :=
  get_set_other _ _ _ _ h

@[simp] theorem pair_setPair_same (s : State) (p : PairNo) (v : PairRecord) : (s.setPair p v).pair p = v := get_set_same _ _ _

theorem pair_setPair_other (s : State) (p q : PairNo) (v : PairRecord) (h : p ≠ q) :
    (s.setPair p v).pair q = s.pair q :=
  get_set_other _ _ _ _ h

@[simp] theorem pair_setRole_same (s : State) (p : PairNo) (r : PairRole) :
    (s.setRole p r).pair p = { s.pair p with role := some r } := pair_setPair_same s p _

theorem pair_setRole_other (s : State) (p q : PairNo) (r : PairRole) (h : p ≠ q) :
    (s.setRole p r).pair q = s.pair q := pair_setPair_other s p q _ h

@[simp] theorem port_setPort_same (s : State) (p : Port) (v : PortState) : (s.setPort p v).port p = v := by
  cases p <;> rfl

theorem port_setPort_other (s : State) (p q : Port) (v : PortState) (h : p ≠ q) :
    (s.setPort p v).port q = s.port q := by
  cases p <;> cases q <;> first | rfl | exact absurd rfl h

@[simp] theorem track_setTrack_same (s : State) (p : PairId) (t : PairTrack) : (s.setTrack p t).track p = t := by
  cases p with
  | account p => exact congrArg PairRecord.track (pair_setPair_same s p _)
  | tariff n => exact get_set_same _ _ _

@[simp] theorem cells_setCopy_same (s : State) (p : PairId) (n : CopyName) (v : Copy) :
    (s.setCopy p n v).cells p = (s.cells p).setCopy n v := by
  cases p <;> exact get_set_same _ _ _

theorem cells_setCopy_other (s : State) (p q : PairId) (n : CopyName) (v : Copy) (h : p ≠ q) :
    (s.setCopy p n v).cells q = s.cells q := by
  cases p with
  | account p =>
    cases q with
    | account q =>
      exact get_set_other _ _ _ _ (fun e => h (congrArg PairId.account e))
    | tariff q => rfl
  | tariff p =>
    cases q with
    | account q => rfl
    | tariff q =>
      exact get_set_other _ _ _ _ (fun e => h (congrArg PairId.tariff e))

@[simp] theorem copy_setCopy_same (c : CellPair) (n : CopyName) (v : Copy) : (c.setCopy n v).copy n = v := by
  cases n <;> rfl

theorem copy_setCopy_other (c : CellPair) (n m : CopyName) (v : Copy) (h : n ≠ m) :
    (c.setCopy n v).copy m = c.copy m := by
  cases n <;> cases m <;> first | rfl | exact absurd rfl h

/-! ## Tables that are made record by record -/

@[simp] theorem get_tabulate {α : Type} {n : Nat} (f : Fin n → α) (i : Fin n) : (tabulate f).get i = f i := by
  show (tabulate f)[i.val] = f i
  simp [tabulate]

/-! ## Tables that read the same when their field is the same -/

theorem slot_congr {s t : State} (h : t.slots = s.slots) (i : SlotNo) : t.slot i = s.slot i := by
  simp [State.slot, h]

theorem hold_congr {s t : State} (h : t.holds = s.holds) (n : HoldNo) : t.hold n = s.hold n := by
  simp [State.hold, h]

theorem tariff_congr {s t : State} (h : t.tariffs = s.tariffs) (n : ClassNo) : t.tariff n = s.tariff n := by
  simp [State.tariff, h]

theorem pair_congr {s t : State} (h : t.accountPairs = s.accountPairs) (p : PairNo) : t.pair p = s.pair p := by
  simp [State.pair, h]

end Sys2Proof.Machine
end

