-- ==== Sys2Proof/Laws/Ops.lean ====
section
/-! SUPPORT. Operation laws: for each shared operation of Machine/Ops.lean one lemma `…_shape` that says once which
fields it can change: it answers the state it was given with values in those fields and no others. -/

namespace Sys2Proof.Machine

/-! ## Ports and responses -/

theorem setPort_shape (p : Port) (v : PortState) (s : State) :
    ∃ t r, s.setPort p v = { s with terminal := t, service := r } := by
  cases p
  · exact ⟨v, s.service, rfl⟩
  · exact ⟨s.terminal, v, rfl⟩

theorem answerCode_shape (p : Port) (tag kind : Byte) (st : Status) (f : Figures) (s : State) :
    ∃ t r, answerCode p tag kind st f s = { s with terminal := t, service := r } := setPort_shape _ _ _

theorem answer_shape (p : Port) (tag : Byte) (k : Kind) (st : Status) (f : Figures) (s : State) :
    ∃ t r, answer p tag k st f s = { s with terminal := t, service := r } := setPort_shape _ _ _

theorem defer_shape (p : Port) (tag : Byte) (s : State) :
    ∃ t r, defer p tag s = { s with terminal := t, service := r } := setPort_shape _ _ _

/-- The answered port of an `answerCode`: its response queue has one more response, and the request is ANSWERED. -/
theorem answerCode_port (p : Port) (tag kind : Byte) (st : Status) (f : Figures) (s : State) :
    (answerCode p tag kind st f s).port p = { s.port p with
      responses := (s.port p).responses ++ [⟨tag, kind, st, f⟩],
      window := markRequest tag .answered (s.port p).window } := port_setPort_same _ _ _

theorem answerCode_port_other (p q : Port) (tag kind : Byte) (st : Status) (f : Figures) (s : State) (h : p ≠ q) :
    (answerCode p tag kind st f s).port q = s.port q := port_setPort_other _ _ _ _ h

@[simp] theorem markRequest_tags (tag : Byte) (st : RequestState) (w : List Request) :
    (markRequest tag st w).map (·.tag) = w.map (·.tag) := by
  simp only [markRequest, List.map_map]
  apply List.map_congr_left
  intro q _
  simp only [Function.comp]
  split <;> rfl

@[simp] theorem markRequest_length (tag : Byte) (st : RequestState) (w : List Request) :
    (markRequest tag st w).length = w.length := by simp [markRequest]

/-- A taking evaluates on the state with last served moved, or changes nothing. -/
theorem taking_cases (p : Port) (q : Request) (s : State) (f : State → State) :
    (arbiterChoice s = some (p, q) ∧ taking p q s f = f { s with lastServed := p })
      ∨ (arbiterChoice s ≠ some (p, q) ∧ taking p q s f = s) := by
  unfold taking
  split
  · exact .inl ⟨by assumption, rfl⟩
  · exact .inr ⟨by assumption, rfl⟩

/-- What a verdict leads to: the refusal is answered, or the acceptance is made. -/
theorem serve_cases {α : Type} (p : Port) (tag : Byte) (k : Kind) (v : Except Status α) (f : α → State → State)
    (s : State) :
    (∃ st, v = .error st ∧ serve p tag k v f s = answer p tag k st .zeros s)
      ∨ (∃ a, v = .ok a ∧ serve p tag k v f s = f a s) := by
  cases v with
  | error st => exact .inl ⟨st, rfl, rfl⟩
  | ok a => exact .inr ⟨a, rfl, rfl⟩

/-! ## Alerts -/

theorem raiseAlert_shape (k : AlertKind) (sub : AlertSubject) (s : State) :
    ∃ a l, raiseAlert k sub s = { s with alerts := a, lost := l } := by
  simp only [raiseAlert]
  repeat' split
  all_goals exact ⟨_, _, rfl⟩

theorem raiseIf_shape (c : Bool) (k : AlertKind) (sub : AlertSubject) (s : State) :
    ∃ a l, raiseIf c k sub s = { s with alerts := a, lost := l } := by
  unfold raiseIf
  split
  · exact raiseAlert_shape k sub s
  · exact ⟨_, _, rfl⟩

theorem setIndicators_shape (i : SlotNo) (s : State) : ∃ t, setIndicators i s = { s with slots := t } := ⟨_, rfl⟩

theorem reevaluate_shape (i : SlotNo) (s : State) :
    ∃ t a l, reevaluate i s = { s with slots := t, alerts := a, lost := l } := by
  simp only [reevaluate]
  obtain ⟨t, h⟩ := setIndicators_shape i s
  rw [h]
  obtain ⟨a, l, h⟩ := raiseIf_shape (exhaustedHolds (spendable s i) && !(s.slot i).exhausted) .creditExhausted
    (accountSubject i (s.slot i)) { s with slots := t }
  rw [h]
  obtain ⟨a, l, h⟩ := raiseIf_shape (lowCreditHolds (s.slot i).threshold (spendable s i) && !(s.slot i).low)
    .lowCredit (accountSubject i (s.slot i)) { s with slots := t, alerts := a, lost := l }
  exact ⟨t, a, l, h⟩

/-- A re-evaluation leaves every slot as it was but for the two indicators of its own slot. -/
theorem reevaluate_slot (i j : SlotNo) (s : State) :
    (reevaluate i s).slot j = if i = j then { s.slot i with
      low := lowCreditHolds (s.slot i).threshold (spendable s i),
      exhausted := exhaustedHolds (spendable s i) } else s.slot j := by
  have e : (reevaluate i s).slots = (setIndicators i s).slots := by
    simp only [reevaluate]
    obtain ⟨a, l, h⟩ := raiseIf_shape (exhaustedHolds (spendable s i) && !(s.slot i).exhausted) .creditExhausted
      (accountSubject i (s.slot i)) (setIndicators i s)
    rw [h]
    obtain ⟨a', l', h'⟩ := raiseIf_shape (lowCreditHolds (s.slot i).threshold (spendable s i) && !(s.slot i).low)
      .lowCredit (accountSubject i (s.slot i)) { setIndicators i s with alerts := a, lost := l }
    rw [h']
  rw [slot_congr e]
  unfold setIndicators
  by_cases h : i = j
  · subst h; simp
  · rw [slot_setSlot_other _ _ _ _ h]; simp [h]

theorem raiseRetired_shape (ps : List PairNo) (s : State) :
    ∃ a l, raiseRetired ps s = { s with alerts := a, lost := l } := by
  unfold raiseRetired
  generalize ascending ps = qs
  induction qs generalizing s with
  | nil => exact ⟨_, _, rfl⟩
  | cons q rest ih =>
    obtain ⟨a, l, h⟩ := raiseAlert_shape .pairRetired (.pair q) s
    obtain ⟨a', l', h'⟩ := ih { s with alerts := a, lost := l }
    exact ⟨a', l', by rw [List.foldl_cons, h, h']⟩

theorem raiseSpares_shape (s : State) : ∃ a l, raiseSpares s = { s with alerts := a, lost := l } := by
  unfold raiseSpares
  split
  · exact raiseAlert_shape _ _ s
  · exact ⟨_, _, rfl⟩

/-! ## Slots and holds -/

theorem vacate_shape (i : SlotNo) (s : State) :
    ∃ t k, vacate i s = { s with slots := t, keyIndex := k } := ⟨_, _, rfl⟩

theorem freeHold_shape (n : HoldNo) (s : State) : ∃ t, freeHold n s = { s with holds := t } := ⟨_, rfl⟩

theorem reopenHold_shape (n : HoldNo) (s : State) : ∃ t, reopenHold n s = { s with holds := t } := by
  unfold reopenHold
  split <;> exact ⟨_, rfl⟩

/-! ## The pair table -/

theorem claim_shape (p : PairNo) (r : PairRole) (s : State) :
    ∃ t f, claim p r s = { s with accountPairs := t, freeList := f } := ⟨_, _, rfl⟩

theorem retire_shape (p : PairNo) (s : State) :
    ∃ t w, retire p s = { s with accountPairs := t, wornSet := w } := ⟨_, _, rfl⟩

theorem handBack_shape (p : PairNo) (s : State) :
    ∃ t f w, handBack p s = { s with accountPairs := t, freeList := f, wornSet := w } := by
  unfold handBack
  split
  · obtain ⟨t, w, h⟩ := retire_shape p s
    exact ⟨t, s.freeList, w, h⟩
  · exact ⟨_, _, s.wornSet, rfl⟩

/-! ## Tidying and resets -/

theorem tidyFrom_shape (ps : List PairNo) (s : State) :
    ∃ t w q r ph, tidyFrom ps s =
      { s with accountPairs := t, wornSet := w, commitQueue := q, report := r, phase := ph } := by
  induction ps generalizing s with
  | nil => exact ⟨_, _, _, _, _, rfl⟩
  | cons p rest ih =>
    unfold tidyFrom
    split
    · split
      · obtain ⟨t, w, h⟩ := retire_shape p s
        obtain ⟨t', w', q, r, ph, h'⟩ := ih { s with accountPairs := t, wornSet := w }
        exact ⟨t', w', q, r, ph, by rw [h, h']⟩
      · exact ⟨_, _, _, _, _, rfl⟩
    · exact ih s

theorem tidyNext_shape (s : State) :
    ∃ t w q r ph, tidyNext s =
      { s with accountPairs := t, wornSet := w, commitQueue := q, report := r, phase := ph } := by
  unfold tidyNext
  split
  · exact tidyFrom_shape _ s
  · exact ⟨_, _, _, _, _, rfl⟩

/-- Tidying leaves the part in TIDYING with one more entry, or opens it. -/
theorem tidyFrom_phase (ps : List PairNo) (s : State) :
    ((tidyFrom ps s).phase = .open ∧ (tidyFrom ps s).commitQueue = s.commitQueue)
      ∨ ((tidyFrom ps s).phase = s.phase
        ∧ ∃ p, (tidyFrom ps s).commitQueue = s.commitQueue ++ [⟨.tidyEmpty p, .empty none, none, none, .waiting⟩]) := by
  induction ps generalizing s with
  | nil => exact .inl ⟨rfl, rfl⟩
  | cons p rest ih =>
    unfold tidyFrom
    split
    · split
      · exact ih (retire p s)
      · exact .inr ⟨rfl, p, rfl⟩
    · exact ih s

theorem abandonAttempt_shape (cut : CutResult) (s : State) :
    ∃ a t, abandonAttempt cut s = { s with accountCells := a, tariffCells := t } := by
  unfold abandonAttempt
  split
  · exact ⟨_, _, rfl⟩
  · split
    · split
      · rename_i p _ _ _ _
        cases p
        · exact ⟨_, s.tariffCells, rfl⟩
        · exact ⟨s.accountCells, _, rfl⟩
      · exact ⟨_, _, rfl⟩
    · exact ⟨_, _, rfl⟩

/-- The drain of RESTARTING leaves the state alone, begins the collection wait, or makes the RESTART reset. -/
theorem checkDrain_cases (s : State) :
    checkDrain s = s
      ∨ (s.phase = .restarting ∧ s.commitQueue = []
        ∧ (checkDrain s = { s with collectionWait := true } ∨ checkDrain s = beginReset .restart s)) := by
  unfold checkDrain
  split
  · rename_i h
    split
    · exact .inr ⟨h.1, h.2, .inr rfl⟩
    · exact .inr ⟨h.1, h.2, .inl rfl⟩
  · exact .inl rfl

end Sys2Proof.Machine
end

