-- ==== Sys2Proof/Laws/Alerts.lean ====
section
/-! SUPPORT. Alert laws: what one raise leaves in the alert queue, and that a raise keeps the alert law. -/

namespace Sys2Proof.Machine

/-! ## A condition that stands in the queue, or is recorded lost -/

theorem again_condition (e : AlertEntry) : e.again.condition = e.condition := by
  unfold AlertEntry.again
  split <;> rfl

theorem concerns_iff (k : AlertKind) (sub : AlertSubject) (e : AlertEntry) :
    e.concerns k sub = true ↔ e.condition = (k, sub) := by
  simp [AlertEntry.concerns, AlertEntry.condition]

theorem mem_joinAlert (e x : AlertEntry) (q : List AlertEntry) : x ∈ joinAlert e q ↔ x = e ∨ x ∈ q := by
  unfold joinAlert
  split
  · have h : x ∈ q ↔ x ∈ q.takeWhile AlertEntry.urgent ∨ x ∈ q.dropWhile AlertEntry.urgent := by
      rw [← List.mem_append, List.takeWhile_append_dropWhile]
    simp only [List.mem_append, List.mem_cons, h]
    tauto
  · simp only [List.mem_append, List.mem_cons, List.not_mem_nil, or_false]
    tauto

/-- A raise is recorded. -/
theorem raiseAlert_recorded (k : AlertKind) (sub : AlertSubject) (s : State) :
    Recorded (k, sub) (raiseAlert k sub s) := by
  simp only [raiseAlert]
  split
  · rename_i h
    obtain ⟨x, hx, hc⟩ := List.any_eq_true.mp h
    refine .inl ⟨x.again, List.mem_map.mpr ⟨x, hx, by rw [if_pos hc]⟩, ?_⟩
    rw [again_condition, (concerns_iff k sub x).mp hc]
  · split
    · exact .inl ⟨_, (mem_joinAlert _ _ _).mpr (.inl rfl), rfl⟩
    · split <;> exact .inr rfl

/-- What is recorded stays recorded under a further raise. -/
theorem raiseAlert_keeps_recorded (k : AlertKind) (sub : AlertSubject) (c : AlertKind × AlertSubject) (s : State)
    (h : Recorded c s) : Recorded c (raiseAlert k sub s) := by
  simp only [raiseAlert]
  split
  · rcases h with ⟨e, he, hc⟩ | h
    · refine .inl ⟨_, List.mem_map.mpr ⟨e, he, rfl⟩, ?_⟩
      split
      · rw [again_condition, hc]
      · exact hc
    · exact .inr h
  · split
    · rcases h with ⟨e, he, hc⟩ | h
      · exact .inl ⟨e, (mem_joinAlert _ _ _).mpr (.inr he), hc⟩
      · exact .inr h
    · split <;> exact .inr rfl

theorem raiseIf_keeps_recorded (b : Bool) (k : AlertKind) (sub : AlertSubject) (c : AlertKind × AlertSubject)
    (s : State) (h : Recorded c s) : Recorded c (raiseIf b k sub s) := by
  unfold raiseIf
  split
  · exact raiseAlert_keeps_recorded k sub c s h
  · exact h

theorem reevaluate_keeps_recorded (i : SlotNo) (c : AlertKind × AlertSubject) (s : State) (h : Recorded c s) :
    Recorded c (reevaluate i s) :=
  raiseIf_keeps_recorded _ _ _ _ _ (raiseIf_keeps_recorded _ _ _ _ _ h)

theorem raiseSpares_keeps_recorded (c : AlertKind × AlertSubject) (s : State) (h : Recorded c s) :
    Recorded c (raiseSpares s) := by
  unfold raiseSpares
  split
  · exact raiseAlert_keeps_recorded _ _ c s h
  · exact h

/-- Raises one after another keep what is recorded, and record every one of them. -/
theorem foldl_raise_recorded (l : List PairNo) (s : State) :
    (∀ c, Recorded c s → Recorded c (l.foldl (fun s p => raiseAlert .pairRetired (.pair p) s) s))
      ∧ ∀ p ∈ l, Recorded (.pairRetired, .pair p) (l.foldl (fun s p => raiseAlert .pairRetired (.pair p) s) s) := by
  induction l generalizing s with
  | nil => exact ⟨fun _ h => h, fun _ h => absurd h (by simp)⟩
  | cons x xs ih =>
    refine ⟨fun c h => (ih _).1 c (raiseAlert_keeps_recorded _ _ c s h), fun p hp => ?_⟩
    rcases List.mem_cons.mp hp with rfl | hp
    · exact (ih _).1 _ (raiseAlert_recorded _ _ s)
    · exact (ih _).2 p hp

theorem mem_ascending (p : PairNo) (l : List PairNo) : p ∈ ascending l ↔ p ∈ l := by
  unfold ascending
  split
  · split <;> simp [or_comm]
  · rfl

theorem raiseRetired_keeps_recorded (l : List PairNo) (c : AlertKind × AlertSubject) (s : State) (h : Recorded c s) :
    Recorded c (raiseRetired l s) := (foldl_raise_recorded _ s).1 c h

theorem raiseRetired_recorded (l : List PairNo) (p : PairNo) (s : State) (h : p ∈ l) :
    Recorded (.pairRetired, .pair p) (raiseRetired l s) :=
  (foldl_raise_recorded _ s).2 p ((mem_ascending p l).mpr h)

/-! ## The alert law (R137) -/

/-- URGENT before ROUTINE: the queue is its URGENT entries followed by its ROUTINE entries. -/
theorem urgentFirst_split (q : List AlertEntry) (h : q.Pairwise (fun x y => y.urgent = true → x.urgent = true)) :
    ∀ e ∈ q.dropWhile AlertEntry.urgent, e.urgent = false := by
  induction q with
  | nil => simp
  | cons x xs ih =>
    intro e he
    by_cases hx : x.urgent = true
    · rw [List.dropWhile_cons_of_pos hx] at he
      exact ih h.of_cons e he
    · rw [List.dropWhile_cons_of_neg hx] at he
      rcases List.mem_cons.mp he with rfl | he
      · simpa using hx
      · by_contra hc
        exact hx (List.rel_of_pairwise_cons h he (by simpa using hc))

/-- A new entry joins at its place and the queue stays URGENT before ROUTINE. -/
theorem joinAlert_urgentFirst (e : AlertEntry) (q : List AlertEntry)
    (h : q.Pairwise (fun x y => y.urgent = true → x.urgent = true)) :
    (joinAlert e q).Pairwise (fun x y => y.urgent = true → x.urgent = true) := by
  have up : ∀ x ∈ q.takeWhile AlertEntry.urgent, x.urgent = true := fun x hx => List.mem_takeWhile_imp hx
  have low := urgentFirst_split q h
  unfold joinAlert
  split
  · rename_i he
    have hs : (q.takeWhile AlertEntry.urgent ++ q.dropWhile AlertEntry.urgent).Pairwise
        (fun x y => y.urgent = true → x.urgent = true) := by rw [List.takeWhile_append_dropWhile]; exact h
    obtain ⟨h1, h2, h3⟩ := List.pairwise_append.mp hs
    refine List.pairwise_append.mpr ⟨h1, List.pairwise_cons.mpr ⟨fun _ _ _ => he, h2⟩, fun x hx y hy _ => up x hx⟩
  · rename_i he
    refine List.pairwise_append.mpr ⟨h, List.pairwise_singleton _ _, fun x _ y hy hu => ?_⟩
    rw [List.mem_singleton.mp hy] at hu
    exact absurd hu he

theorem joinAlert_perm (e : AlertEntry) (q : List AlertEntry) : (joinAlert e q).Perm (e :: q) := by
  unfold joinAlert
  split
  · have h : (q.takeWhile AlertEntry.urgent ++ q.dropWhile AlertEntry.urgent) = q := List.takeWhile_append_dropWhile
    calc (q.takeWhile AlertEntry.urgent ++ e :: q.dropWhile AlertEntry.urgent)
        |>.Perm (e :: (q.takeWhile AlertEntry.urgent ++ q.dropWhile AlertEntry.urgent)) := List.perm_middle
      _ = e :: q := by rw [h]
  · exact List.perm_append_comm.trans (List.Perm.refl _)

/-- A raise keeps the alert law (R137, R140 to R142). -/
theorem raiseAlert_alertLaw (k : AlertKind) (sub : AlertSubject) (s : State) (h : AlertLaw s) :
    AlertLaw (raiseAlert k sub s) := by
  obtain ⟨h1, h2, h3⟩ := h
  simp only [raiseAlert]
  split
  · have hc : ∀ x : AlertEntry, (if x.concerns k sub then x.again else x).condition = x.condition := by
      intro x
      split
      · exact again_condition x
      · rfl
    have hu : ∀ x : AlertEntry, (if x.concerns k sub then x.again else x).urgent = x.urgent := by
      intro x
      exact congrArg AlertKind.urgent (congrArg Prod.fst (hc x))
    refine ⟨by simpa using h1, ?_, ?_⟩
    · have : (s.alerts.map (fun x => if x.concerns k sub then x.again else x)).map AlertEntry.condition
          = s.alerts.map AlertEntry.condition := by
        rw [List.map_map]
        exact List.map_congr_left (fun x _ => hc x)
      show ((s.alerts.map _).map AlertEntry.condition).Nodup
      rw [this]
      exact h2
    · refine List.pairwise_map.mpr (h3.imp ?_)
      intro x y hxy
      rw [hu, hu]
      exact hxy
  · rename_i hn
    have fresh : ∀ q : List AlertEntry, (∀ x ∈ q, x ∈ s.alerts) → (k, sub) ∉ q.map AlertEntry.condition := by
      intro q hq hm
      obtain ⟨x, hx, hc⟩ := List.mem_map.mp hm
      exact hn (List.any_eq_true.mpr ⟨x, hq x hx, (concerns_iff k sub x).mpr hc⟩)
    have join : ∀ q : List AlertEntry, (∀ x ∈ q, x ∈ s.alerts) → (q.map AlertEntry.condition).Nodup →
        ((joinAlert ⟨k, sub, s.seconds, 1⟩ q).map AlertEntry.condition).Nodup := by
      intro q hq hd
      rw [((joinAlert_perm _ q).map AlertEntry.condition).nodup_iff]
      exact List.nodup_cons.mpr ⟨fresh q hq, hd⟩
    split
    · rename_i hl
      exact ⟨by
        show (joinAlert _ s.alerts).length ≤ _
        rw [(joinAlert_perm _ _).length_eq]
        exact hl, join _ (fun _ hx => hx) h2, joinAlert_urgentFirst _ _ h3⟩
    · split
      · rename_i hl _
        have hd : ∀ x ∈ s.alerts.dropLast, x ∈ s.alerts := fun x hx => List.mem_of_mem_dropLast hx
        refine ⟨?_, join _ hd (List.Nodup.sublist ((List.dropLast_sublist _).map _) h2),
          joinAlert_urgentFirst _ _ (h3.sublist (List.dropLast_sublist _))⟩
        show (joinAlert _ s.alerts.dropLast).length ≤ _
        rw [(joinAlert_perm _ _).length_eq, List.length_cons, List.length_dropLast]
        simp only [Config.alertPlaces] at *
        omega
      · exact ⟨h1, h2, h3⟩

end Sys2Proof.Machine
end

