-- ==== Sys2Proof/Laws/Commit.lean ====
section
/-! SUPPORT. Commit laws: for each operation of Machine/Commit.lean one lemma `…_shape` that says which fields it can
change, and what a track, a role and the cells read after an attempt begins. -/

namespace Sys2Proof.Machine

/-! ## Tracks and roles -/

theorem track_setTrack_other (s : State) (p q : PairId) (t : PairTrack) (h : p ≠ q) :
    (s.setTrack p t).track q = s.track q := by
  cases p with
  | account p =>
    cases q with
    | account q => exact congrArg PairRecord.track (pair_setPair_other s p q _ (fun e => h (congrArg PairId.account e)))
    | tariff q => rfl
  | tariff p =>
    cases q with
    | account q => rfl
    | tariff q => exact get_set_other _ _ _ _ (fun e => h (congrArg PairId.tariff e))

theorem role_setTrack (s : State) (p : PairId) (q : PairNo) (t : PairTrack) :
    ((s.setTrack p t).pair q).role = (s.pair q).role := by
  cases p with
  | account p =>
    by_cases e : p = q
    · subst e
      show ((s.setPair p _).pair p).role = _
      rw [pair_setPair_same]
    · show ((s.setPair p _).pair q).role = _
      rw [pair_setPair_other _ _ _ _ e]
  | tariff p => rfl

theorem setTrack_shape (s : State) (p : PairId) (t : PairTrack) :
    ∃ a b, s.setTrack p t = { s with accountPairs := a, tariffPairs := b } := by
  cases p
  · exact ⟨_, s.tariffPairs, rfl⟩
  · exact ⟨s.accountPairs, _, rfl⟩

theorem setCopy_shape (s : State) (p : PairId) (n : CopyName) (v : Copy) :
    ∃ a b, s.setCopy p n v = { s with accountCells := a, tariffCells := b } := by
  cases p
  · exact ⟨_, s.tariffCells, rfl⟩
  · exact ⟨s.accountCells, _, rfl⟩

theorem setRole_shape (s : State) (p : PairNo) (r : PairRole) : ∃ a, s.setRole p r = { s with accountPairs := a } :=
  ⟨_, rfl⟩

/-! ## Attempts -/

/-- An attempt's wear: the pair's wear alone changes, and by one while it is below 4,294,967,295. -/
theorem addWear_eq (p : PairId) (s : State) : ∃ w n, addWear p s
      = { s.setTrack p { s.track p with wear := w } with freeUses := n }
    ∧ ((s.track p).wear.toNat < maxWord → w = (s.track p).wear + 1) := by
  by_cases h : (s.track p).wear.toNat < maxWord
  · refine ⟨(s.track p).wear + 1, s.freeUses, ?_, fun _ => rfl⟩
    simp only [addWear, if_pos h]
    cases p <;> rfl
  · refine ⟨Config.wearPastRange s.freeUses (pairIndex p), s.freeUses + 1, ?_, fun h' => absurd h' h⟩
    simp only [addWear, if_neg h]

theorem addWear_shape (p : PairId) (s : State) :
    ∃ a b n, addWear p s = { s with accountPairs := a, tariffPairs := b, freeUses := n } := by
  obtain ⟨w, n, h, _⟩ := addWear_eq p s
  obtain ⟨a, b, h'⟩ := setTrack_shape s p { s.track p with wear := w }
  exact ⟨a, b, n, by rw [h, h']⟩

theorem beginAttempt_shape (e : CommitEntry) (s : State) : ∃ a b n st, beginAttempt e s =
    { s with
      accountPairs := a, tariffPairs := b, freeUses := n, commitQueue := { e with stage := st } :: s.commitQueue.tail } := by
  unfold beginAttempt
  split
  · rename_i t p c _ _
    obtain ⟨a, b, n, h⟩ := addWear_shape p s
    rw [h]
    exact ⟨a, b, n, _, rfl⟩
  · exact ⟨_, _, _, e.stage, rfl⟩

theorem enterStage_shape (e : CommitEntry) (st : Stage) (s : State) : ∃ a b n st', enterStage e st s =
    { s with
      accountPairs := a, tariffPairs := b, freeUses := n, commitQueue := { e with stage := st' } :: s.commitQueue.tail } := by
  unfold enterStage
  split
  · obtain ⟨a, b, n, st', h⟩ := beginAttempt_shape { e with stage := st } s
    exact ⟨a, b, n, st', h⟩
  · exact ⟨_, _, _, st, rfl⟩

/-! ## Outcomes -/

theorem retireAll_shape (ps : List PairNo) (s : State) :
    ∃ t w, retireAll ps s = { s with accountPairs := t, wornSet := w } := by
  induction ps generalizing s with
  | nil => exact ⟨_, _, rfl⟩
  | cons p rest ih =>
    obtain ⟨t, w, h⟩ := retire_shape p s
    obtain ⟨t', w', h'⟩ := ih (retire p s)
    refine ⟨t', w', ?_⟩
    show retireAll rest (retire p s) = _
    rw [h', h]

theorem handBackAll_shape (ps : List PairNo) (s : State) :
    ∃ t f w, handBackAll ps s = { s with accountPairs := t, freeList := f, wornSet := w } := by
  induction ps generalizing s with
  | nil => exact ⟨_, _, _, rfl⟩
  | cons p rest ih =>
    obtain ⟨t, f, w, h⟩ := handBack_shape p s
    obtain ⟨t', f', w', h'⟩ := ih (handBack p s)
    refine ⟨t', f', w', ?_⟩
    show handBackAll rest (handBack p s) = _
    rw [h', h]

theorem freeSettled_shape (img : PendingImage) (s : State) : ∃ t, freeSettled img s = { s with holds := t } := by
  unfold freeSettled
  split
  · exact ⟨_, rfl⟩
  · exact freeHold_shape _ s

theorem reopenSettled_shape (img : PendingImage) (s : State) : ∃ t, reopenSettled img s = { s with holds := t } := by
  unfold reopenSettled
  split
  · exact ⟨_, rfl⟩
  · exact reopenHold_shape _ s

theorem bindIncoming_shape (i : SlotNo) (e : CommitEntry) (s : State) :
    ∃ a, bindIncoming i e s = { s with accountPairs := a } := by
  unfold bindIncoming
  split
  · exact ⟨_, rfl⟩
  · exact setRole_shape s _ _

theorem settleIndicators_shape (c : ChangeKind) (i : SlotNo) (s : State) :
    ∃ t a l, settleIndicators c i s = { s with slots := t, alerts := a, lost := l } := by
  unfold settleIndicators
  split
  · obtain ⟨t, h⟩ := setIndicators_shape i s
    exact ⟨t, _, _, h⟩
  · exact reevaluate_shape i s

theorem answerImage_shape (img : PendingImage) (st : Status) (f : Figures) (s : State) :
    ∃ t r, answerImage img st f s = { s with terminal := t, service := r } := answer_shape _ _ _ _ _ s

/-- The fields an outcome of an account or tariff entry can change, with the head gone from the commit queue. -/
theorem doneImage_shape (i : SlotNo) (img : PendingImage) (e : CommitEntry) (n : Word) (s : State) :
    ∃ sl ho pa wo al lo te se, doneImage i img e n s =
      { s with
        slots := sl, holds := ho, commitQueue := s.commitQueue.tail, accountPairs := pa, wornSet := wo, alerts := al,
        lost := lo, terminal := te, service := se } := by
  simp only [doneImage]
  obtain ⟨p1, h1⟩ := bindIncoming_shape i e s
  rw [h1]
  obtain ⟨p2, w2, h2⟩ := retireAll_shape (wornByDone (s.slot i) e) { s with accountPairs := p1 }
  rw [h2]
  obtain ⟨h3, e3⟩ := freeSettled_shape img
    (State.setSlot (State.leaveHead { s with accountPairs := p2, wornSet := w2 }) i
      (doneSlot (s.slot i) img n (holderOf (s.slot i) e)))
  rw [e3]
  obtain ⟨t4, r4, h4⟩ := answerImage_shape img (doneStatus img.figures) img.figures
    { State.setSlot (State.leaveHead { s with accountPairs := p2, wornSet := w2 }) i
      (doneSlot (s.slot i) img n (holderOf (s.slot i) e)) with holds := h3 }
  rw [h4]
  obtain ⟨a5, l5, h5⟩ := raiseRetired_shape (wornByDone (s.slot i) e)
    { State.setSlot (State.leaveHead { s with accountPairs := p2, wornSet := w2 }) i
      (doneSlot (s.slot i) img n (holderOf (s.slot i) e)) with holds := h3, terminal := t4, service := r4 }
  rw [h5]
  obtain ⟨t6, a6, l6, h6⟩ := settleIndicators_shape img.change i
    { State.setSlot (State.leaveHead { s with accountPairs := p2, wornSet := w2 }) i
      (doneSlot (s.slot i) img n (holderOf (s.slot i) e)) with
        holds := h3, terminal := t4, service := r4, alerts := a5, lost := l5 }
  rw [h6]
  exact ⟨t6, h3, p2, w2, a6, l6, t4, r4, rfl⟩

theorem doneEmpty_shape (i : SlotNo) (img : PendingImage) (e : CommitEntry) (s : State) :
    ∃ sl ki pa fr wo al lo te se, doneEmpty i img e s =
      { s with
        slots := sl, keyIndex := ki, commitQueue := s.commitQueue.tail, accountPairs := pa, freeList := fr,
        wornSet := wo, alerts := al, lost := lo, terminal := te, service := se } := by
  simp only [doneEmpty]
  obtain ⟨p1, w1, h1⟩ := retireAll_shape (wornByDone (s.slot i) e) s
  rw [h1]
  obtain ⟨p2, f2, w2, h2⟩ := handBackAll_shape (holderOf (s.slot i) e).toList { s with accountPairs := p1, wornSet := w1 }
  rw [h2]
  obtain ⟨t3, k3, h3⟩ := vacate_shape i (State.leaveHead { s with accountPairs := p2, freeList := f2, wornSet := w2 })
  rw [h3]
  obtain ⟨t4, r4, h4⟩ := answerImage_shape img .ok img.figures
    { State.leaveHead { s with accountPairs := p2, freeList := f2, wornSet := w2 } with slots := t3, keyIndex := k3 }
  rw [h4]
  obtain ⟨a5, l5, h5⟩ := raiseRetired_shape
    (wornByDone (s.slot i) e ++ retiredBack (holderOf (s.slot i) e).toList s)
    { State.leaveHead { s with accountPairs := p2, freeList := f2, wornSet := w2 } with
      slots := t3, keyIndex := k3, terminal := t4, service := r4 }
  rw [h5]
  exact ⟨t3, k3, p2, f2, w2, a5, l5, t4, r4, rfl⟩

theorem doneTariff_shape (n : ClassNo) (img : PendingTariff) (q : Word) (s : State) :
    ∃ ta te se, doneTariff n img q s =
      { s with tariffs := ta, commitQueue := s.commitQueue.tail, terminal := te, service := se } := by
  simp only [doneTariff]
  obtain ⟨t, r, h⟩ := answer_shape img.port img.tag .setTariff .ok .zeros
    (s.leaveHead.setTariff n
      { s.tariff n with state := .defined, rates := img.rates, sequence := some q, pending := none })
  rw [h]
  exact ⟨_, t, r, rfl⟩

theorem doneTidy_shape (p : PairNo) (s : State) :
    ∃ pa fr wo q r ph al lo, doneTidy p s =
      { s with
        accountPairs := pa, freeList := fr, wornSet := wo, commitQueue := q, report := r, phase := ph, alerts := al,
        lost := lo } := by
  obtain ⟨p1, f1, w1, h1⟩ := handBack_shape p s
  obtain ⟨a2, l2, h2⟩ := raiseRetired_shape (retiredByHandBack p s)
    { (handBack p s).leaveHead with
      report := { (handBack p s).leaveHead.report with
        pairsTidied := (handBack p s).leaveHead.report.pairsTidied + 1 } }
  obtain ⟨p3, w3, q3, r3, ph3, h3⟩ := tidyNext_shape (raiseRetired (retiredByHandBack p s)
    { (handBack p s).leaveHead with
      report := { (handBack p s).leaveHead.report with
        pairsTidied := (handBack p s).leaveHead.report.pairsTidied + 1 } })
  refine ⟨p3, f1, w3, q3, r3, ph3, a2, l2, h3.trans ?_⟩
  rw [h2, h1]
  rfl

theorem faultTidy_shape (p : PairNo) (s : State) :
    ∃ pa wo q r ph al lo, faultTidy p s =
      { s with accountPairs := pa, wornSet := wo, commitQueue := q, report := r, phase := ph, alerts := al, lost := lo } := by
  obtain ⟨p1, w1, h1⟩ := retire_shape p s
  obtain ⟨a2, l2, h2⟩ := raiseRetired_shape [p]
    { (retire p s).leaveHead with
      report := { (retire p s).leaveHead.report with
        tidyFailures := (retire p s).leaveHead.report.tidyFailures + 1 } }
  obtain ⟨p3, w3, q3, r3, ph3, h3⟩ := tidyNext_shape (raiseRetired [p]
    { (retire p s).leaveHead with
      report := { (retire p s).leaveHead.report with
        tidyFailures := (retire p s).leaveHead.report.tidyFailures + 1 } })
  refine ⟨p3, w3, q3, r3, ph3, a2, l2, h3.trans ?_⟩
  rw [h2, h1]
  rfl

theorem faultOpen_shape (i : SlotNo) (img : PendingImage) (e : CommitEntry) (s : State) :
    ∃ sl ki pa wo al lo te se, faultOpen i img e s =
      { s with
        slots := sl, keyIndex := ki, commitQueue := s.commitQueue.tail, accountPairs := pa, wornSet := wo,
        alerts := al, lost := lo, terminal := te, service := se } := by
  simp only [faultOpen]
  obtain ⟨p1, w1, h1⟩ := retireAll_shape ((s.slot i).currentPair.toList ++ e.stage.incoming.toList) s
  rw [h1]
  obtain ⟨t2, k2, h2⟩ := vacate_shape i (State.leaveHead { s with accountPairs := p1, wornSet := w1 })
  rw [h2]
  obtain ⟨t3, r3, h3⟩ := answerImage_shape img .storeFault .zeros
    { State.leaveHead { s with accountPairs := p1, wornSet := w1 } with slots := t2, keyIndex := k2 }
  rw [h3]
  obtain ⟨a4, l4, h4⟩ := raiseAlert_shape .storeFault (accountSubject i (s.slot i))
    { State.leaveHead { s with accountPairs := p1, wornSet := w1 } with
      slots := t2, keyIndex := k2, terminal := t3, service := r3 }
  rw [h4]
  obtain ⟨a5, l5, h5⟩ := raiseRetired_shape ((s.slot i).currentPair.toList ++ e.stage.incoming.toList)
    { State.leaveHead { s with accountPairs := p1, wornSet := w1 } with
      slots := t2, keyIndex := k2, terminal := t3, service := r3, alerts := a4, lost := l4 }
  rw [h5]
  exact ⟨t2, k2, p1, w1, a5, l5, t3, r3, rfl⟩

theorem faultChange_shape (i : SlotNo) (img : PendingImage) (e : CommitEntry) (s : State) :
    ∃ sl ho pa wo al lo te se, faultChange i img e s =
      { s with
        slots := sl, holds := ho, commitQueue := s.commitQueue.tail, accountPairs := pa, wornSet := wo, alerts := al,
        lost := lo, terminal := te, service := se } := by
  simp only [faultChange]
  obtain ⟨p1, w1, h1⟩ := retireAll_shape e.stage.incoming.toList s
  rw [h1]
  obtain ⟨h2, e2⟩ := reopenSettled_shape img
    (State.setSlot (State.leaveHead { s with accountPairs := p1, wornSet := w1 }) i
      { s.slot i with state := .faulted, pending := none })
  rw [e2]
  obtain ⟨t3, r3, h3⟩ := answerImage_shape img .storeFault .zeros
    { State.setSlot (State.leaveHead { s with accountPairs := p1, wornSet := w1 }) i
      { s.slot i with state := .faulted, pending := none } with holds := h2 }
  rw [h3]
  obtain ⟨a4, l4, h4⟩ := raiseAlert_shape .storeFault (accountSubject i (s.slot i))
    { State.setSlot (State.leaveHead { s with accountPairs := p1, wornSet := w1 }) i
      { s.slot i with state := .faulted, pending := none } with holds := h2, terminal := t3, service := r3 }
  rw [h4]
  obtain ⟨a5, l5, h5⟩ := raiseRetired_shape e.stage.incoming.toList
    { State.setSlot (State.leaveHead { s with accountPairs := p1, wornSet := w1 }) i
      { s.slot i with state := .faulted, pending := none } with
        holds := h2, terminal := t3, service := r3, alerts := a4, lost := l4 }
  rw [h5]
  obtain ⟨t6, a6, l6, h6⟩ := reevaluate_shape i
    { State.setSlot (State.leaveHead { s with accountPairs := p1, wornSet := w1 }) i
      { s.slot i with state := .faulted, pending := none } with
        holds := h2, terminal := t3, service := r3, alerts := a5, lost := l5 }
  rw [h6]
  exact ⟨t6, h2, p1, w1, a6, l6, t3, r3, rfl⟩

theorem faultTariff_shape (n : ClassNo) (s : State) :
    ∃ ta al lo te se, faultTariff n s =
      { s with
        tariffs := ta, commitQueue := s.commitQueue.tail, alerts := al, lost := lo, terminal := te, service := se } := by
  unfold faultTariff
  split
  · exact ⟨_, _, _, _, _, rfl⟩
  · rename_i img _
    obtain ⟨t, r, h⟩ := answer_shape img.port img.tag .setTariff .storeFault .zeros
      (s.leaveHead.setTariff n { s.tariff n with pending := none, storeFault := true })
    rw [h]
    obtain ⟨a, l, h'⟩ := raiseAlert_shape .storeFault (.cls n)
      { s.leaveHead.setTariff n { s.tariff n with pending := none, storeFault := true } with
        terminal := t, service := r }
    rw [h']
    exact ⟨_, a, l, t, r, rfl⟩

theorem dropOpen_shape (i : SlotNo) (img : PendingImage) (s : State) :
    ∃ sl ki pa fr wo al lo te se, dropOpen i img s =
      { s with
        slots := sl, keyIndex := ki, accountPairs := pa, freeList := fr, wornSet := wo, alerts := al, lost := lo,
        terminal := te, service := se } := by
  simp only [dropOpen]
  obtain ⟨p1, f1, w1, h1⟩ := handBackAll_shape (s.slot i).currentPair.toList s
  rw [h1]
  obtain ⟨t2, k2, h2⟩ := vacate_shape i { s with accountPairs := p1, freeList := f1, wornSet := w1 }
  rw [h2]
  obtain ⟨t3, r3, h3⟩ := answerImage_shape img .supplyLow .zeros
    { s with accountPairs := p1, freeList := f1, wornSet := w1, slots := t2, keyIndex := k2 }
  rw [h3]
  obtain ⟨a4, l4, h4⟩ := raiseRetired_shape (retiredBack (s.slot i).currentPair.toList s)
    { s with
      accountPairs := p1, freeList := f1, wornSet := w1, slots := t2, keyIndex := k2, terminal := t3, service := r3 }
  rw [h4]
  exact ⟨t2, k2, p1, f1, w1, a4, l4, t3, r3, rfl⟩

theorem dropChange_shape (i : SlotNo) (img : PendingImage) (s : State) :
    ∃ sl ho al lo te se, dropChange i img s =
      { s with slots := sl, holds := ho, alerts := al, lost := lo, terminal := te, service := se } := by
  simp only [dropChange]
  obtain ⟨h1, e1⟩ := reopenSettled_shape img (s.setSlot i (droppedSlot (s.slot i) img.change))
  rw [e1]
  obtain ⟨t2, r2, h2⟩ := answerImage_shape img .supplyLow .zeros
    { s.setSlot i (droppedSlot (s.slot i) img.change) with holds := h1 }
  rw [h2]
  obtain ⟨t3, a3, l3, h3⟩ := reevaluate_shape i
    { s.setSlot i (droppedSlot (s.slot i) img.change) with holds := h1, terminal := t2, service := r2 }
  rw [h3]
  exact ⟨t3, h1, a3, l3, t2, r2, rfl⟩

/-- The fields a dropped outcome can change. -/
theorem dropOutcome_shape (s : State) (e : CommitEntry) :
    ∃ sl ki ho ta pa fr wo al lo te se, dropOutcome s e =
      { s with
        slots := sl, keyIndex := ki, holds := ho, tariffs := ta, accountPairs := pa, freeList := fr, wornSet := wo,
        alerts := al, lost := lo, terminal := te, service := se } := by
  have account : ∀ i, ∃ sl ki ho ta pa fr wo al lo te se, dropAccount i s =
      { s with
        slots := sl, keyIndex := ki, holds := ho, tariffs := ta, accountPairs := pa, freeList := fr, wornSet := wo,
        alerts := al, lost := lo, terminal := te, service := se } := by
    intro i
    unfold dropAccount
    split
    · exact ⟨_, _, _, _, _, _, _, _, _, _, _, rfl⟩
    · rename_i img _
      split
      · obtain ⟨sl, ki, pa, fr, wo, al, lo, te, se, h⟩ := dropOpen_shape i img s
        exact ⟨sl, ki, _, _, pa, fr, wo, al, lo, te, se, h⟩
      · obtain ⟨sl, ho, al, lo, te, se, h⟩ := dropChange_shape i img s
        exact ⟨sl, _, ho, _, _, _, _, al, lo, te, se, h⟩
  unfold dropOutcome
  split
  · exact account _
  · exact account _
  · unfold dropTariff
    split
    · exact ⟨_, _, _, _, _, _, _, _, _, _, _, rfl⟩
    · rename_i _ n _ _ img _
      obtain ⟨t, r, h⟩ := answer_shape img.port img.tag .setTariff .supplyLow .zeros
        (s.setTariff n { s.tariff n with pending := none })
      rw [h]
      exact ⟨_, _, _, _, _, _, _, _, _, t, r, rfl⟩
  · exact ⟨_, _, _, _, _, _, _, _, _, _, _, rfl⟩

/-- The fields a done outcome can change. -/
theorem doneOutcome_shape (e : CommitEntry) (n : Word) (s : State) :
    ∃ sl ki ho ta q pa fr wo r ph al lo te se, doneOutcome e n s =
      { s with
        slots := sl, keyIndex := ki, holds := ho, tariffs := ta, commitQueue := q, accountPairs := pa, freeList := fr,
        wornSet := wo, report := r, phase := ph, alerts := al, lost := lo, terminal := te, service := se } := by
  unfold doneOutcome
  split
  · split
    · exact ⟨_, _, _, _, _, _, _, _, _, _, _, _, _, _, rfl⟩
    · rename_i _ i _ _ img _
      obtain ⟨sl, ho, pa, wo, al, lo, te, se, h⟩ := doneImage_shape i img e n s
      exact ⟨sl, _, ho, _, _, pa, _, wo, _, _, al, lo, te, se, h⟩
  · split
    · exact ⟨_, _, _, _, _, _, _, _, _, _, _, _, _, _, rfl⟩
    · rename_i _ i _ _ img _
      obtain ⟨sl, ki, pa, fr, wo, al, lo, te, se, h⟩ := doneEmpty_shape i img e s
      exact ⟨sl, ki, _, _, _, pa, fr, wo, _, _, al, lo, te, se, h⟩
  · split
    · exact ⟨_, _, _, _, _, _, _, _, _, _, _, _, _, _, rfl⟩
    · rename_i _ c _ _ img _
      obtain ⟨ta, te, se, h⟩ := doneTariff_shape c img n s
      exact ⟨_, _, _, ta, _, _, _, _, _, _, _, _, te, se, h⟩
  · rename_i p _
    obtain ⟨pa, fr, wo, q, r, ph, al, lo, h⟩ := doneTidy_shape p s
    exact ⟨_, _, _, _, q, pa, fr, wo, r, ph, al, lo, _, _, h⟩

/-- The fields a fault outcome can change. -/
theorem faultOutcome_shape (e : CommitEntry) (s : State) :
    ∃ sl ki ho ta q pa wo r ph al lo te se, faultOutcome e s =
      { s with
        slots := sl, keyIndex := ki, holds := ho, tariffs := ta, commitQueue := q, accountPairs := pa,
        wornSet := wo, report := r, phase := ph, alerts := al, lost := lo, terminal := te, service := se } := by
  have account : ∀ i, ∃ sl ki ho ta q pa wo r ph al lo te se, faultAccount i e s =
      { s with
        slots := sl, keyIndex := ki, holds := ho, tariffs := ta, commitQueue := q, accountPairs := pa,
        wornSet := wo, report := r, phase := ph, alerts := al, lost := lo, terminal := te, service := se } := by
    intro i
    unfold faultAccount
    split
    · exact ⟨_, _, _, _, _, _, _, _, _, _, _, _, _, rfl⟩
    · rename_i img _
      split
      · obtain ⟨sl, ki, pa, wo, al, lo, te, se, h⟩ := faultOpen_shape i img e s
        exact ⟨sl, ki, _, _, _, pa, wo, _, _, al, lo, te, se, h⟩
      · obtain ⟨sl, ho, pa, wo, al, lo, te, se, h⟩ := faultChange_shape i img e s
        exact ⟨sl, _, ho, _, _, pa, wo, _, _, al, lo, te, se, h⟩
  unfold faultOutcome
  split
  · exact account _
  · exact account _
  · rename_i n _
    obtain ⟨ta, al, lo, te, se, h⟩ := faultTariff_shape n s
    exact ⟨_, _, _, ta, _, _, _, _, _, al, lo, te, se, h⟩
  · rename_i p _
    obtain ⟨pa, wo, q, r, ph, al, lo, h⟩ := faultTidy_shape p s
    exact ⟨_, _, _, _, q, pa, wo, r, ph, al, lo, _, _, h⟩

/-- A commit queue that is not empty holds the drain of RESTARTING. -/
theorem checkDrain_of_ne (s : State) (h : s.commitQueue ≠ []) : checkDrain s = s :=
  if_neg (fun x => h x.2)

end Sys2Proof.Machine
end

