-- ==== Sys2Proof/Laws/Scan.lean ====
section
/-! SUPPORT. Scan laws: the content of a pair, the winner of a key, the order of what is loaded and of the free list,
what tidying does to the roles of the pairs, and what an attempt programs. -/

namespace Sys2Proof.Machine

/-! ## Contents and winners (R116, R117) -/

theorem contentOf_pair {p : PairNo} {c : CellPair} {x : Claimant} (h : contentOf p c = some x) : x.pair = p := by
  unfold contentOf at h
  split at h
  · exact absurd h (by simp)
  · dsimp only at h
    split at h
    · exact (congrArg Claimant.pair (Option.some.inj h)).symm
    · split at h
      · exact (congrArg Claimant.pair (Option.some.inj h)).symm
      · exact absurd h (by simp)

/-- What a pair holds, in the terms of Table 7-3. -/
theorem contentOf_iff (p : PairNo) (c : CellPair) (x : Claimant) : contentOf p c = some x ↔
    ∃ n, newestValid c = some n ∧ x.pair = p ∧ x.key = bodyKey (c.copy n).body ∧ x.key ≠ 0
      ∧ x.sequence = (c.copy n).sequence ∧ x.body = (c.copy n).body
      ∧ ((c.copy n).kind = 1 ∧ x.isImage = true ∧ (bodyClass x.body).toNat < 16
          ∧ (bodyBalance x.body).toNat ≤ (bodyCeiling x.body).toNat
        ∨ (c.copy n).kind = 3 ∧ x.isImage = false) := by
  unfold contentOf
  obtain ⟨xp, xk, xs, xi, xb⟩ := x
  cases hn : newestValid c with
  | none => simp
  | some n =>
    dsimp only
    by_cases ha : holdsAccount (c.copy n) = true
    · rw [if_pos ha]
      simp only [holdsAccount, Bool.and_eq_true, beq_iff_eq, bne_iff_ne, ne_eq, decide_eq_true_eq] at ha
      obtain ⟨⟨⟨k1, k0⟩, kc⟩, kb⟩ := ha
      constructor
      · intro h
        injection h with h
        injection h with h1 h2 h3 h4 h5
        subst h1 h2 h3 h4 h5
        exact ⟨n, rfl, rfl, rfl, k0, rfl, rfl, .inl ⟨k1, rfl, kc, kb⟩⟩
      · rintro ⟨m, hm, h1, h2, _, h4, h5, h6⟩
        injection hm with hm
        subst hm
        rcases h6 with h6 | h6
        · subst h1 h2 h4 h5
          rw [h6.2.1]
        · rw [k1] at h6
          exact absurd h6.1 (by decide)
    · rw [if_neg ha]
      by_cases hc : holdsClose (c.copy n) = true
      · rw [if_pos hc]
        simp only [holdsClose, Bool.and_eq_true, beq_iff_eq, bne_iff_ne, ne_eq] at hc
        constructor
        · intro h
          injection h with h
          injection h with h1 h2 h3 h4 h5
          subst h1 h2 h3 h4 h5
          exact ⟨n, rfl, rfl, rfl, hc.2, rfl, rfl, .inr ⟨hc.1, rfl⟩⟩
        · rintro ⟨m, hm, h1, h2, _, h4, h5, h6⟩
          injection hm with hm
          subst hm
          rcases h6 with h6 | h6
          · rw [hc.1] at h6
            exact absurd h6.1 (by decide)
          · subst h1 h2 h4 h5
            rw [h6.2]
      · rw [if_neg hc]
        constructor
        · intro h; exact absurd h (by simp)
        · rintro ⟨m, hm, h1, h2, h3, h4, h5, h6⟩
          injection hm with hm
          subst hm
          rcases h6 with h6 | h6
          · refine absurd ?_ ha
            simp only [holdsAccount, Bool.and_eq_true, beq_iff_eq, bne_iff_ne, ne_eq, decide_eq_true_eq]
            exact ⟨⟨⟨h6.1, h2 ▸ h3⟩, h5 ▸ h6.2.2.1⟩, h5 ▸ h6.2.2.2⟩
          · refine absurd ?_ hc
            simp only [holdsClose, Bool.and_eq_true, beq_iff_eq, bne_iff_ne, ne_eq]
            exact ⟨h6.1, h2 ▸ h3⟩

theorem mem_claimants (s : State) (x : Claimant) : x ∈ claimants s ↔ Content s x := by
  simp only [claimants, List.mem_filterMap, List.mem_finRange, true_and, Content]
  constructor
  · rintro ⟨p, h⟩
    rw [contentOf_pair h]
    exact h
  · exact fun h => ⟨_, h⟩

/-- Two contents of one pair are the same. -/
theorem Content.eq {s : State} {x y : Claimant} (hx : Content s x) (hy : Content s y) (h : x.pair = y.pair) : x = y := by
  have hx' : contentOf x.pair (s.cells (.account x.pair)) = some x := hx
  have hy' : contentOf y.pair (s.cells (.account y.pair)) = some y := hy
  rw [h] at hx'
  exact Option.some.inj (hx'.symm.trans hy')

theorem claimants_nodup (s : State) : (claimants s).Nodup := by
  unfold claimants
  refine List.Pairwise.filterMap _ (R := fun p q : PairNo => p ≠ q) ?_ (List.nodup_finRange 288)
  intro p q hpq x hx y hy e
  exact hpq (by rw [← contentOf_pair hx, ← contentOf_pair hy, e])

/-- A winner among the claimants, in the terms of R117. -/
theorem winsKey_iff (s : State) (x : Claimant) (hx : Content s x) : winsKey (claimants s) x = true ↔ Winner s x := by
  simp only [winsKey, Bool.not_eq_true', List.any_eq_false, mem_claimants, Claimant.beats, Bool.and_eq_true,
    beq_iff_eq, decide_eq_true_eq, not_and, not_or]
  constructor
  · refine fun h => ⟨hx, fun y hy e => ?_⟩
    obtain ⟨h1, h2⟩ := h y hy e
    by_cases hs : y.sequence = x.sequence
    · exact .inr ⟨hs, by have := h2 hs; exact Fin.le_def.mpr (by omega)⟩
    · exact .inl (by have : y.sequence.toNat ≠ x.sequence.toNat := fun e => hs (BitVec.eq_of_toNat_eq e); omega)
  · intro h y hy e
    rcases h.2 y hy e with h' | ⟨h1, h2⟩
    · exact ⟨by omega, fun e' => by rw [e'] at h'; omega⟩
    · exact ⟨by rw [h1]; omega, fun _ => by have := Fin.le_def.mp h2; omega⟩

/-- A key has one winner at most. -/
theorem Winner.eq {s : State} {x y : Claimant} (hx : Winner s x) (hy : Winner s y) (h : x.key = y.key) : x = y := by
  have h1 := hx.2 y hy.1 h.symm
  have h2 := hy.2 x hx.1 h
  refine hx.1.eq hy.1 ?_
  rcases h1 with h1 | ⟨_, h1⟩ <;> rcases h2 with h2 | ⟨e2, h2⟩
  · omega
  · rw [e2] at h1; omega
  · rename_i e1; rw [e1] at h2; omega
  · exact le_antisymm h1 h2

/-- Among claimants of one key in a list that is not empty, one is beaten by no other. -/
theorem exists_unbeaten (l : List Claimant) (x : Claimant) (hx : x ∈ l) :
    ∃ w ∈ l, w.key = x.key ∧ ∀ y ∈ l, y.key = x.key →
      y.sequence.toNat < w.sequence.toNat ∨ (y.sequence = w.sequence ∧ w.pair ≤ y.pair) := by
  induction l generalizing x with
  | nil => exact absurd hx (by simp)
  | cons a rest ih =>
    by_cases hr : ∃ z ∈ rest, z.key = x.key
    · obtain ⟨z, hz, ez⟩ := hr
      obtain ⟨w, hw, ew, h⟩ := ih z hz
      rw [ez] at ew h
      by_cases ha : a.key = x.key
      · by_cases hb : a.sequence.toNat < w.sequence.toNat ∨ (a.sequence = w.sequence ∧ w.pair ≤ a.pair)
        · refine ⟨w, List.mem_cons_of_mem _ hw, ew, fun y hy ey => ?_⟩
          rcases List.mem_cons.mp hy with e | hy
          · rw [e]; exact hb
          · exact h y hy ey
        · refine ⟨a, List.mem_cons_self, ha, fun y hy ey => ?_⟩
          rcases List.mem_cons.mp hy with e | hy
          · rw [e]; exact .inr ⟨rfl, le_refl _⟩
          · have hw' : w.sequence.toNat < a.sequence.toNat ∨ (w.sequence = a.sequence ∧ a.pair ≤ w.pair) := by
              by_cases es : a.sequence = w.sequence
              · exact .inr ⟨es.symm, le_of_lt (not_le.mp (fun h' => hb (.inr ⟨es, h'⟩)))⟩
              · refine .inl ?_
                have : a.sequence.toNat ≠ w.sequence.toNat := fun e => es (BitVec.eq_of_toNat_eq e)
                have : ¬ a.sequence.toNat < w.sequence.toNat := fun h' => hb (.inl h')
                omega
            rcases h y hy ey with h1 | ⟨e1, h1⟩ <;> rcases hw' with h2 | ⟨e2, h2⟩
            · exact .inl (by omega)
            · exact .inl (by rw [← e2]; exact h1)
            · exact .inl (by rw [e1]; exact h2)
            · exact .inr ⟨e1.trans e2, le_trans h2 h1⟩
      · refine ⟨w, List.mem_cons_of_mem _ hw, ew, fun y hy ey => ?_⟩
        rcases List.mem_cons.mp hy with e | hy
        · exact absurd (e ▸ ey) ha
        · exact h y hy ey
    · rcases List.mem_cons.mp hx with e | hx
      · subst e
        refine ⟨x, List.mem_cons_self, rfl, fun y hy ey => ?_⟩
        rcases List.mem_cons.mp hy with e | hy
        · rw [e]; exact .inr ⟨rfl, le_refl _⟩
        · exact absurd ⟨y, hy, ey⟩ hr
      · exact absurd ⟨x, hx, rfl⟩ hr

/-- Every key that has a content has a winner. -/
theorem exists_winner (s : State) (x : Claimant) (hx : Content s x) : ∃ w, Winner s w ∧ w.key = x.key := by
  obtain ⟨w, hw, ew, h⟩ := exists_unbeaten (claimants s) x ((mem_claimants s x).mpr hx)
  exact ⟨w, ⟨(mem_claimants s w).mp hw, fun y hy ey => h y ((mem_claimants s y).mpr hy) (ey.trans ew)⟩, ew⟩

/-! ## The order of what is loaded (R118) -/

theorem mem_insertByKey (x y : Claimant) (l : List Claimant) : y ∈ insertByKey x l ↔ y = x ∨ y ∈ l := by
  induction l with
  | nil => simp [insertByKey]
  | cons a rest ih =>
    unfold insertByKey
    split
    · simp
    · simp only [List.mem_cons, ih]
      tauto

theorem insertByKey_sorted (x : Claimant) (l : List Claimant) (h : l.Pairwise (fun x y => x.key.toNat < y.key.toNat))
    (hx : ∀ y ∈ l, y.key ≠ x.key) : (insertByKey x l).Pairwise (fun x y => x.key.toNat < y.key.toNat) := by
  induction l with
  | nil => simp [insertByKey]
  | cons a rest ih =>
    have hr := List.pairwise_cons.mp h
    unfold insertByKey
    split
    · rename_i hlt
      refine List.pairwise_cons.mpr ⟨fun y hy => ?_, h⟩
      rcases List.mem_cons.mp hy with e | hy
      · rw [e]; exact hlt
      · have := hr.1 y hy; omega
    · rename_i hge
      refine List.pairwise_cons.mpr ⟨fun y hy => ?_, ih hr.2 (fun y hy => hx y (List.mem_cons_of_mem _ hy))⟩
      rcases (mem_insertByKey x y rest).mp hy with e | hy
      · rw [e]
        have : a.key.toNat ≠ x.key.toNat := fun e => hx a List.mem_cons_self (BitVec.eq_of_toNat_eq e)
        omega
      · exact hr.1 y hy

theorem mem_winners (s : State) (x : Claimant) : x ∈ winners (claimants s) ↔ x.isImage = true ∧ Winner s x := by
  have key : ∀ l : List Claimant, x ∈ l.foldr insertByKey [] ↔ x ∈ l := by
    intro l
    induction l with
    | nil => simp
    | cons a rest ih => simp only [List.foldr_cons, mem_insertByKey, ih, List.mem_cons]
  unfold winners
  rw [key, List.mem_filter, mem_claimants, Bool.and_eq_true]
  constructor
  · exact fun h => ⟨h.2.1, (winsKey_iff s x h.1).mp h.2.2⟩
  · exact fun h => ⟨h.2.1, h.1, (winsKey_iff s x h.2.1).mpr h.2⟩

theorem winners_sorted (s : State) : (winners (claimants s)).Pairwise (fun x y => x.key.toNat < y.key.toNat) := by
  have key : ∀ l : List Claimant, l.Pairwise (fun x y => x.key ≠ y.key) →
      (l.foldr insertByKey []).Pairwise (fun x y => x.key.toNat < y.key.toNat)
        ∧ ∀ y, y ∈ l.foldr insertByKey [] → y ∈ l := by
    intro l h
    induction l with
    | nil => exact ⟨List.Pairwise.nil, fun y hy => hy⟩
    | cons a rest ih =>
      obtain ⟨h1, h2⟩ := List.pairwise_cons.mp h
      obtain ⟨i1, i2⟩ := ih h2
      refine ⟨insertByKey_sorted a _ i1 (fun y hy e => h1 y (i2 y hy) e.symm), fun y hy => ?_⟩
      rcases (mem_insertByKey a y _).mp hy with e | hy
      · rw [e]; exact List.mem_cons_self
      · exact List.mem_cons_of_mem _ (i2 y hy)
  refine (key _ ?_).1
  refine ((claimants_nodup s).filter _).imp_of_mem ?_
  intro x y hx hy hne e
  rw [List.mem_filter, Bool.and_eq_true, mem_claimants] at hx hy
  exact hne (((winsKey_iff s x hx.1).mp hx.2.2).eq ((winsKey_iff s y hy.1).mp hy.2.2) e)

theorem mem_losers (s : State) (x : Claimant) :
    x ∈ losers (claimants s) ↔ Content s x ∧ x.isImage = true ∧ ¬ Winner s x := by
  simp only [losers, List.mem_filter, mem_claimants, Bool.and_eq_true, Bool.not_eq_true']
  constructor
  · exact fun h => ⟨h.1, h.2.1, fun w => by rw [(winsKey_iff s x h.1).mpr w] at h; exact absurd h.2.2 (by simp)⟩
  · refine fun h => ⟨h.1, h.2.1, ?_⟩
    rw [← Bool.not_eq_true]
    exact fun w => h.2.2 ((winsKey_iff s x h.1).mp w)

/-- The count of duplicate keys is the number of keys with a losing image (R117, R123). -/
theorem duplicateKeys_eq (s : State) : ∃ keys : List Word, keys.Nodup
    ∧ duplicateKeys (claimants s) = keys.length
    ∧ ∀ k, k ∈ keys ↔ ∃ x, Content s x ∧ x.isImage = true ∧ ¬ Winner s x ∧ x.key = k := by
  let f : Claimant → Bool := fun x => winsKey (claimants s) x && (losers (claimants s)).any (fun y => y.key == x.key)
  refine ⟨((claimants s).filter f).map (·.key), ?_, ?_, fun k => ?_⟩
  · refine List.pairwise_map.mpr (((claimants_nodup s).filter f).imp_of_mem ?_)
    intro x y hx hy hne e
    simp only [f, List.mem_filter, mem_claimants, Bool.and_eq_true] at hx hy
    exact hne (((winsKey_iff s x hx.1).mp hx.2.1).eq ((winsKey_iff s y hy.1).mp hy.2.1) e)
  · rw [List.length_map, ← List.countP_eq_length_filter]
    rfl
  · simp only [f, List.mem_map, List.mem_filter, mem_claimants, Bool.and_eq_true, List.any_eq_true, mem_losers, beq_iff_eq]
    constructor
    · rintro ⟨x, ⟨_, _, y, hy, e⟩, ek⟩
      exact ⟨y, hy.1, hy.2.1, hy.2.2, e.trans ek⟩
    · rintro ⟨y, h1, h2, h3, e⟩
      obtain ⟨w, hw, ew⟩ := exists_winner s y h1
      exact ⟨w, ⟨hw.1, (winsKey_iff s w hw.1).mpr hw, y, ⟨h1, h2, h3⟩, ew.symm⟩, ew.trans e⟩

/-! ## The numbering of the loaded accounts (R118) -/

theorem mem_numbered (l : List Claimant) (x : Claimant) (i : SlotNo) :
    (x, i) ∈ numbered l ↔ l[i.val]? = some x := by
  unfold numbered
  rw [List.mem_iff_getElem?]
  constructor
  · rintro ⟨k, hk⟩
    rw [List.getElem?_zip_eq_some] at hk
    obtain ⟨h1, h2⟩ := hk
    rw [List.getElem?_eq_some_iff] at h2
    obtain ⟨hk, e⟩ := h2
    have e' : k = i.val := by
      rw [List.getElem_finRange] at e
      exact congrArg Fin.val e
    rw [← e']
    exact h1
  · intro hx
    refine ⟨i.val, List.getElem?_zip_eq_some.mpr ⟨hx, ?_⟩⟩
    rw [List.getElem?_eq_some_iff]
    exact ⟨by simp, by simp⟩

/-- The index of ascending keys is ascending. -/
theorem numbered_sorted (l : List Claimant) (h : l.Pairwise (fun x y => x.key.toNat < y.key.toNat)) :
    ((numbered l).map (fun x => (x.1.key, x.2))).Pairwise (fun x y : Word × SlotNo => x.1.toNat < y.1.toNat) := by
  have key : ∀ (l : List Claimant) (m : List SlotNo), l.Pairwise (fun x y => x.key.toNat < y.key.toNat) →
      (l.zip m).Pairwise (fun x y => x.1.key.toNat < y.1.key.toNat) := by
    intro l
    induction l with
    | nil => intro m _; exact List.Pairwise.nil
    | cons a rest ih =>
      intro m h
      cases m with
      | nil => exact List.Pairwise.nil
      | cons b m =>
        obtain ⟨h1, h2⟩ := List.pairwise_cons.mp h
        exact List.pairwise_cons.mpr ⟨fun y hy => h1 y.1 (List.of_mem_zip hy).1, ih m h2⟩
  exact List.pairwise_map.mpr (key l _ h)

/-! ## The free list and the worn set (R106, R108, R119) -/

theorem mem_insertFree (s : State) (p q : PairNo) (l : List PairNo) : q ∈ insertFree s p l ↔ q = p ∨ q ∈ l := by
  induction l with
  | nil => simp [insertFree]
  | cons a rest ih =>
    unfold insertFree
    split
    · simp
    · simp only [List.mem_cons, ih]
      tauto

theorem freeBefore_iff (s : State) (p q : PairNo) : freeBefore s p q = true ↔ standsBefore s p q := by
  have e : (s.pair p).track.wear.toNat = (s.pair q).track.wear.toNat ↔ (s.pair p).track.wear = (s.pair q).track.wear :=
    ⟨BitVec.eq_of_toNat_eq, congrArg _⟩
  exact (decide_eq_true_iff).trans (or_congr Iff.rfl (and_congr e Iff.rfl))

theorem standsBefore_trans (s : State) {p q r : PairNo} (h : standsBefore s p q) (h' : standsBefore s q r) : standsBefore s p r := by
  rcases h with h | ⟨e, h⟩ <;> rcases h' with h' | ⟨e', h'⟩
  · exact .inl (by omega)
  · exact .inl (by rw [← e']; exact h)
  · exact .inl (by rw [e]; exact h')
  · exact .inr ⟨e.trans e', h.trans h'⟩

theorem standsBefore_of_not (s : State) {p q : PairNo} (hne : p ≠ q) (h : ¬ standsBefore s p q) : standsBefore s q p := by
  by_cases e : (s.pair p).track.wear = (s.pair q).track.wear
  · refine .inr ⟨e.symm, ?_⟩
    by_contra h'
    exact h (.inr ⟨e, lt_of_le_of_ne (not_lt.mp h') hne⟩)
  · refine .inl ?_
    have : (s.pair p).track.wear.toNat ≠ (s.pair q).track.wear.toNat := fun h => e (BitVec.eq_of_toNat_eq h)
    have : ¬ (s.pair p).track.wear.toNat < (s.pair q).track.wear.toNat := fun h' => h (.inl h')
    omega

theorem insertFree_sorted (s : State) (p : PairNo) (l : List PairNo) (h : l.Pairwise (standsBefore s)) (hp : p ∉ l) :
    (insertFree s p l).Pairwise (standsBefore s) := by
  induction l with
  | nil => simp [insertFree]
  | cons a rest ih =>
    have hr := List.pairwise_cons.mp h
    have hne : p ≠ a := fun e => hp (e ▸ List.mem_cons_self)
    unfold insertFree
    split
    · rename_i hlt
      have hlt := (freeBefore_iff s p a).mp hlt
      refine List.pairwise_cons.mpr ⟨fun y hy => ?_, h⟩
      rcases List.mem_cons.mp hy with e | hy
      · rw [e]; exact hlt
      · exact standsBefore_trans s hlt (hr.1 y hy)
    · rename_i hge
      refine List.pairwise_cons.mpr ⟨fun y hy => ?_, ih hr.2 (fun hy => hp (List.mem_cons_of_mem _ hy))⟩
      rcases (mem_insertFree s p y rest).mp hy with e | hy
      · rw [e]
        exact standsBefore_of_not s hne (fun h' => hge ((freeBefore_iff s p a).mpr h'))
      · exact hr.1 y hy

/-- Pairs put in the free list one by one: it holds exactly them, in its order. -/
theorem foldr_insertFree (s : State) (l : List PairNo) (h : l.Nodup) :
    (∀ q, q ∈ l.foldr (insertFree s) [] ↔ q ∈ l) ∧ (l.foldr (insertFree s) []).Pairwise (standsBefore s) := by
  induction l with
  | nil => exact ⟨fun q => Iff.rfl, List.Pairwise.nil⟩
  | cons a rest ih =>
    obtain ⟨h1, h2⟩ := List.nodup_cons.mp h
    obtain ⟨i1, i2⟩ := ih h2
    refine ⟨fun q => ?_, insertFree_sorted s a _ i2 (fun h' => h1 ((i1 a).mp h'))⟩
    rw [List.foldr_cons, mem_insertFree, i1, List.mem_cons]

theorem mem_insertWorn (p q : PairNo) (l : List PairNo) : q ∈ insertWorn p l ↔ q = p ∨ q ∈ l := by
  induction l with
  | nil => simp [insertWorn]
  | cons a rest ih =>
    unfold insertWorn
    split
    · simp
    · split
      · rename_i e
        subst e
        simp
      · simp only [List.mem_cons, ih]
        tauto

theorem insertWorn_sorted (p : PairNo) (l : List PairNo) (h : l.Pairwise (fun x y => x < y)) :
    (insertWorn p l).Pairwise (fun x y => x < y) := by
  induction l with
  | nil => simp [insertWorn]
  | cons a rest ih =>
    have hr := List.pairwise_cons.mp h
    unfold insertWorn
    split
    · rename_i hlt
      refine List.pairwise_cons.mpr ⟨fun y hy => ?_, h⟩
      rcases List.mem_cons.mp hy with e | hy
      · rw [e]; exact hlt
      · exact lt_trans (show p < a from hlt) (hr.1 y hy)
    · rename_i hge
      split
      · exact h
      · rename_i hne
        refine List.pairwise_cons.mpr ⟨fun y hy => ?_, ih hr.2⟩
        rcases (mem_insertWorn p y rest).mp hy with e | hy
        · rw [e]
          exact lt_of_le_of_ne (not_lt.mp hge) (fun e => hne e.symm)
        · exact hr.1 y hy

theorem mem_pairsWith (s : State) (r : PairRole) (p : PairNo) : p ∈ pairsWith s r ↔ (s.pair p).role = some r := by
  simp [pairsWith]

theorem pairsWith_sorted (s : State) (r : PairRole) : (pairsWith s r).Pairwise (fun x y => x < y) :=
  (List.pairwise_lt_finRange 288).filter _

/-! ## Tidying (R120) -/

/-- What the Start-up Controller makes of the STALE pairs among the given ones, which ascend: no track changes; a role
changes from STALE to WORN at the wear limit alone; the worn set takes the pairs that become WORN; and either a tidy entry
joins for a STALE pair below the limit with no STALE pair of the list before it, or no pair of the list is STALE and the
phase becomes OPEN. -/
theorem tidyFrom_spec (ps : List PairNo) (s : State) (hp : ps.Pairwise (fun x y => x < y)) :
    (∀ q, ((tidyFrom ps s).pair q).track = (s.pair q).track)
    ∧ (∀ q, ((tidyFrom ps s).pair q).role = (s.pair q).role
        ∨ (q ∈ ps ∧ (s.pair q).role = some .stale ∧ ((tidyFrom ps s).pair q).role = some .worn
            ∧ Config.wearLimit ≤ (s.pair q).track.wear.toNat))
    ∧ ((∀ q, q ∈ s.wornSet ↔ (s.pair q).role = some .worn) →
        ∀ q, q ∈ (tidyFrom ps s).wornSet ↔ ((tidyFrom ps s).pair q).role = some .worn)
    ∧ (s.wornSet.Pairwise (fun x y => x < y) → (tidyFrom ps s).wornSet.Pairwise (fun x y => x < y))
    ∧ (((∀ q ∈ ps, ((tidyFrom ps s).pair q).role ≠ some .stale)
          ∧ ∃ a w, tidyFrom ps s = openPhase { s with accountPairs := a, wornSet := w })
        ∨ ∃ p ∈ ps, ((tidyFrom ps s).pair p).role = some .stale ∧ (s.pair p).track.wear.toNat < Config.wearLimit
          ∧ (∀ q ∈ ps, q < p → ((tidyFrom ps s).pair q).role ≠ some .stale)
          ∧ ∃ a w, tidyFrom ps s
              = joinQueue (.tidyEmpty p) (.empty none) none none { s with accountPairs := a, wornSet := w }) := by
  induction ps generalizing s with
  | nil => exact ⟨fun _ => rfl, fun _ => .inl rfl, fun h => h, fun h => h, .inl ⟨fun _ h => absurd h (by simp), _, _, rfl⟩⟩
  | cons p rest ih =>
    obtain ⟨hlt, hp'⟩ := List.pairwise_cons.mp hp
    have hnot : p ∉ rest := fun h => absurd (hlt p h) (lt_irrefl p)
    by_cases hs : (s.pair p).role = some .stale
    · by_cases hl : atLimit s p = true
      · have e : tidyFrom (p :: rest) s = tidyFrom rest (retire p s) := by rw [tidyFrom, if_pos hs, if_pos hl]
        rw [e]
        have hpp : ∀ q, (retire p s).pair q = if q = p then { s.pair p with role := some .worn } else s.pair q := by
          intro q
          by_cases hq : q = p
          · subst hq
            rw [if_pos rfl]
            exact pair_setRole_same s q .worn
          · rw [if_neg hq]
            exact pair_setRole_other s p q .worn (Ne.symm hq)
        obtain ⟨i1, i2, i3, i4, i5⟩ := ih (retire p s) hp'
        have hw : Config.wearLimit ≤ (s.pair p).track.wear.toNat := of_decide_eq_true hl
        have hpw : ((tidyFrom rest (retire p s)).pair p).role = some .worn := by
          rcases i2 p with h | ⟨h, _⟩
          · rw [h, hpp, if_pos rfl]
          · exact absurd h hnot
        refine ⟨fun q => ?_, fun q => ?_, fun h => i3 ?_, fun h => i4 (insertWorn_sorted p _ h), ?_⟩
        · rw [i1, hpp]
          split
          · rename_i e; rw [e]
          · rfl
        · by_cases hq : q = p
          · subst hq
            exact .inr ⟨List.mem_cons_self, hs, hpw, hw⟩
          · have := i2 q
            rw [hpp, if_neg hq] at this
            exact this.imp id (fun h => ⟨List.mem_cons_of_mem _ h.1, h.2⟩)
        · intro q
          show q ∈ insertWorn p s.wornSet ↔ _
          rw [mem_insertWorn, hpp, h]
          by_cases hq : q = p
          · simp [hq]
          · simp [hq]
        · rcases i5 with ⟨h1, a, w, h2⟩ | ⟨r, hr, h1, h2, h3, a, w, h4⟩
          · refine .inl ⟨fun q hq => ?_, a, w, h2⟩
            rcases List.mem_cons.mp hq with e | hq
            · rw [e, hpw]; simp
            · exact h1 q hq
          · refine .inr ⟨r, List.mem_cons_of_mem _ hr, h1, ?_, fun q hq hqr => ?_, a, w, h4⟩
            · rw [hpp, if_neg (show r ≠ p from fun e => hnot (e ▸ hr))] at h2
              exact h2
            · rcases List.mem_cons.mp hq with e | hq
              · rw [e, hpw]; simp
              · exact h3 q hq hqr
      · have e : tidyFrom (p :: rest) s = joinQueue (.tidyEmpty p) (.empty none) none none s := by
          rw [tidyFrom, if_pos hs, if_neg hl]
        rw [e]
        refine ⟨fun _ => rfl, fun _ => .inl rfl, fun h => h, fun h => h, .inr ⟨p, List.mem_cons_self, hs, ?_, ?_, _, _, rfl⟩⟩
        · exact not_le.mp (fun h => hl (decide_eq_true h))
        · intro q hq hqp
          rcases List.mem_cons.mp hq with e | hq
          · rw [e] at hqp
            exact absurd hqp (lt_irrefl _)
          · exact absurd (lt_trans hqp (hlt q hq)) (lt_irrefl _)
    · have e : tidyFrom (p :: rest) s = tidyFrom rest s := by rw [tidyFrom, if_neg hs]
      rw [e]
      obtain ⟨i1, i2, i3, i4, i5⟩ := ih s hp'
      have hps : ((tidyFrom rest s).pair p).role ≠ some .stale := by
        rcases i2 p with h | ⟨h, _⟩
        · rw [h]; exact hs
        · exact absurd h hnot
      refine ⟨i1, fun q => (i2 q).imp id (fun h => ⟨List.mem_cons_of_mem _ h.1, h.2⟩), i3, i4, ?_⟩
      rcases i5 with ⟨h1, a, w, h2⟩ | ⟨r, hr, h1, h2, h3, a, w, h4⟩
      · refine .inl ⟨fun q hq => ?_, a, w, h2⟩
        rcases List.mem_cons.mp hq with e | hq
        · rw [e]; exact hps
        · exact h1 q hq
      · refine .inr ⟨r, List.mem_cons_of_mem _ hr, h1, h2, fun q hq hqr => ?_, a, w, h4⟩
        rcases List.mem_cons.mp hq with e | hq
        · rw [e]; exact hps
        · exact h3 q hq hqr

/-! ## What an attempt programs (R84, R99, R164) -/

/-- The fields of an ACCOUNT body read back. -/
theorem account_body (key : Word) (cls : ClassNo) (frozenMark : Bool) (balance ceiling threshold : Word) :
    bodyKey (Image.account key cls frozenMark balance ceiling threshold).body = key
    ∧ bodyClass (Image.account key cls frozenMark balance ceiling threshold).body = BitVec.ofNat 8 cls.val
    ∧ bodyFrozen (Image.account key cls frozenMark balance ceiling threshold).body = frozenMark
    ∧ bodyBalance (Image.account key cls frozenMark balance ceiling threshold).body = balance
    ∧ bodyCeiling (Image.account key cls frozenMark balance ceiling threshold).body = ceiling
    ∧ bodyThreshold (Image.account key cls frozenMark balance ceiling threshold).body = threshold := by
  have high : ∀ {a b : Nat} (k n : Nat) (x : BitVec a) (y : BitVec b), b ≤ k →
      (x ++ y).extractLsb' k n = x.extractLsb' (k - b) n := fun _ _ _ _ h => BitVec.extractLsb'_append_eq_of_le h
  have low : ∀ {a b : Nat} (x : BitVec a) (y : BitVec b), (x ++ y).extractLsb' 0 b = y :=
    fun _ _ => BitVec.extractLsb'_append_eq_right
  simp only [bodyKey, bodyClass, bodyFrozen, bodyBalance, bodyCeiling, bodyThreshold, Image.body]
  refine ⟨?_, ?_, ?_, ?_, ?_, low _ _⟩
  · rw [high 112 32 _ _ (by decide), high _ 32 _ _ (by decide), high _ 32 _ _ (by decide), high _ 32 _ _ (by decide),
      high _ 32 _ _ (by decide)]
    simp
  · rw [high 104 8 _ _ (by decide), high _ 8 _ _ (by decide), high _ 8 _ _ (by decide), high _ 8 _ _ (by decide)]
    exact low _ _
  · rw [high 96 8 _ _ (by decide), high _ 8 _ _ (by decide), high _ 8 _ _ (by decide)]
    refine (congrArg (· != 0) (low _ (frozenByte frozenMark))).trans ?_
    cases frozenMark <;> rfl
  · rw [high 64 32 _ _ (by decide), high _ 32 _ _ (by decide)]
    exact low _ _
  · rw [high 32 32 _ _ (by decide)]
    exact low _ _

/-- What an attempt programs is a valid copy. -/
theorem programmedCopy_valid (image : Image) (sequence wear : Word) (h : sequence ≠ 0) :
    classify (programmedCopy image sequence wear) = .valid := by
  have e1 : programmedCopy image sequence wear ≠ blankCopy := fun e => by
    have k := congrArg Copy.kind e
    cases image <;> exact absurd k (by simp [programmedCopy, Image.kindByte, blankCopy])
  have e2 : checkPasses (programmedCopy image sequence wear) = true := beq_self_eq_true _
  have e3 : knownCopyKind (programmedCopy image sequence wear).kind = true := by cases image <;> rfl
  have e4 : (programmedCopy image sequence wear).sequence ≠ 0 := h
  unfold classify
  rw [if_neg e1, e2, e3, decide_eq_true e4]
  rfl

/-- The content of a pair whose copy A holds an account image and whose copy B is blank. -/
theorem contentOf_programmed (p : PairNo) (key : Word) (cls : ClassNo) (frozenMark : Bool)
    (balance ceiling threshold sequence wear : Word) (hk : key ≠ 0) (hs : sequence ≠ 0)
    (hb : balance.toNat ≤ ceiling.toNat) :
    contentOf p ⟨programmedCopy (.account key cls frozenMark balance ceiling threshold) sequence wear, blankCopy⟩
      = some ⟨p, key, sequence, true, (Image.account key cls frozenMark balance ceiling threshold).body⟩ := by
  obtain ⟨b1, b2, _, b4, b5, _⟩ := account_body key cls frozenMark balance ceiling threshold
  have v := programmedCopy_valid (.account key cls frozenMark balance ceiling threshold) sequence wear hs
  refine (contentOf_iff p _ _).mpr ⟨.a, ?_, rfl, b1.symm, hk, rfl, rfl, .inl ⟨rfl, rfl, ?_, ?_⟩⟩
  · simp [newestValid, newestOf, isValid, v, show classify blankCopy = .blank from if_pos rfl]
  · dsimp only
    rw [b2]
    have := cls.isLt
    simp
    omega
  · dsimp only
    rw [b4, b5]
    exact hb

end Sys2Proof.Machine
end

