-- ==== Sys2Proof/Laws/Slots.lean ====
section
/-! SUPPORT. Slot laws: what held total and spendable amount read, and what a re-evaluation and an acceptance make of a
slot. -/

namespace Sys2Proof.Machine

/-! ## Held total and spendable amount -/

theorem heldTotal_congr {s t : State} (h : t.holds = s.holds) (i : SlotNo) : heldTotal t i = heldTotal s i := by
  simp [heldTotal, h]

/-- The spendable amount reads the slot's lower balance and the hold table. -/
theorem spendable_congr {s t : State} (i : SlotNo) (h : t.holds = s.holds)
    (l : lowerBalance (t.slot i) = lowerBalance (s.slot i)) : spendable t i = spendable s i := by
  simp [spendable, heldTotal_congr h, l]

/-- A re-evaluation leaves the hold table as it was. -/
theorem reevaluate_holds (i : SlotNo) (s : State) : (reevaluate i s).holds = s.holds := by
  obtain ⟨t, a, l, h⟩ := reevaluate_shape i s
  rw [h]

/-- A re-evaluation leaves every spendable amount as it was. -/
theorem reevaluate_spendable (i j : SlotNo) (s : State) : spendable (reevaluate i s) j = spendable s j := by
  apply spendable_congr j (reevaluate_holds i s)
  rw [reevaluate_slot]
  split
  · subst_vars; rfl
  · rfl

/-- After a re-evaluation the slot is as it was, with its indicators at the conditions that hold. -/
theorem reevaluate_becomes (i : SlotNo) (v : Slot) (s u : State) (hv : u.slot i = v)
    (others : ∀ j : SlotNo, j ≠ i → u.slot j = s.slot j) : SlotBecomes i v s (reevaluate i u) := by
  refine ⟨?_, fun j hj => ?_⟩
  · rw [reevaluate_slot, if_pos rfl, hv, reevaluate_spendable]
  · rw [reevaluate_slot, if_neg (Ne.symm hj), others j hj]

/-- A record of a port is deferred or answered through one port alone. -/
theorem defer_deferred (p : Port) (tag : Byte) (s : State) : Deferred p tag s (defer p tag s) := by
  cases p <;> exact ⟨rfl, rfl⟩

theorem answer_answered (p : Port) (tag : Byte) (k : Kind) (st : Status) (f : Figures) (s : State) :
    Answered p tag k st f s (answer p tag k st f s) := by
  cases p <;> exact ⟨rfl, rfl⟩

/-- Deferred and Answered read the ports alone. -/
theorem Deferred.congr {p : Port} {tag : Byte} {s s' t t' : State} (h : Deferred p tag s t)
    (hs : ∀ q, s'.port q = s.port q) (ht : ∀ q, t'.port q = t.port q) : Deferred p tag s' t' := by
  obtain ⟨a, b⟩ := h
  exact ⟨by rw [ht, hs, a], by rw [ht, hs, b]⟩

theorem Answered.congr {p : Port} {tag : Byte} {k : Kind} {st : Status} {f : Figures} {s s' t t' : State}
    (h : Answered p tag k st f s t) (hs : ∀ q, s'.port q = s.port q) (ht : ∀ q, t'.port q = t.port q) :
    Answered p tag k st f s' t' := by
  obtain ⟨a, b⟩ := h
  exact ⟨by rw [ht, hs, a], by rw [ht, hs, b]⟩

/-- A re-evaluation leaves the ports as they were. -/
theorem reevaluate_port (i : SlotNo) (q : Port) (s : State) : (reevaluate i s).port q = s.port q := by
  obtain ⟨t, a, l, h⟩ := reevaluate_shape i s
  rw [h]
  cases q <;> rfl

/-! ## The alerts of a re-evaluation (R33, R34) -/

/-- The alerts a raise leaves depend on the alerts it finds and on the counter alone. -/
theorem raiseAlert_like (k : AlertKind) (sub : AlertSubject) {u v : State} (ht : v.seconds = u.seconds)
    (h : AlertsLike u v) : AlertsLike (raiseAlert k sub u) (raiseAlert k sub v) := by
  obtain ⟨ha, hl⟩ := h
  unfold AlertsLike raiseAlert
  simp only [ha, ht]
  repeat' split
  all_goals exact ⟨rfl, by first | rfl | exact hl⟩

theorem raiseAlert_seconds (k : AlertKind) (sub : AlertSubject) (s : State) :
    (raiseAlert k sub s).seconds = s.seconds := by
  obtain ⟨a, l, h⟩ := raiseAlert_shape k sub s
  rw [h]

theorem raiseIf_seconds (b : Bool) (k : AlertKind) (sub : AlertSubject) (s : State) :
    (raiseIf b k sub s).seconds = s.seconds := by
  obtain ⟨a, l, h⟩ := raiseIf_shape b k sub s
  rw [h]

theorem raiseIf_like (b : Bool) (k : AlertKind) (sub : AlertSubject) {u v : State} (ht : v.seconds = u.seconds)
    (h : AlertsLike u v) : AlertsLike (raiseIf b k sub u) (raiseIf b k sub v) := by
  unfold raiseIf
  split
  · exact raiseAlert_like k sub ht h
  · exact h

/-- The alerts a re-evaluation leaves depend on slots, holds, counter and alerts alone. -/
theorem reevaluate_like (i : SlotNo) {u v : State} (hs : v.slots = u.slots) (hh : v.holds = u.holds)
    (ht : v.seconds = u.seconds) (h : AlertsLike u v) : AlertsLike (reevaluate i u) (reevaluate i v) := by
  have e1 : v.slot i = u.slot i := slot_congr hs i
  have e2 : spendable v i = spendable u i := by
    rw [spendable, spendable, heldTotal_congr hh, e1]
  simp only [reevaluate, e1, e2]
  refine raiseIf_like _ _ _ ?_ (raiseIf_like _ _ _ ?_ h)
  · rw [raiseIf_seconds, raiseIf_seconds]
    exact ht
  · exact ht

/-- What a re-evaluation makes of earlier alerts, read through a later state with the same slots, holds and counter. -/
theorem reevaluation_like (i : SlotNo) (s : State) {t t' : State} (hs : t'.slots = t.slots) (hh : t'.holds = t.holds)
    (ht : t'.seconds = t.seconds) : AlertsLike (reevaluation i s t) (reevaluation i s t') := by
  refine reevaluate_like i ?_ hh ht ⟨rfl, rfl⟩
  show (t'.setSlot i _).slots = (t.setSlot i _).slots
  simp only [State.setSlot, slot_congr hs, hs]

/-- What a re-evaluation makes of the alerts of two states that agree on them and on the slot's indicators. -/
theorem reevaluation_base (i : SlotNo) {x x' : State} (t : State) (h : AlertsLike x x') (hl : x'.slot i = x.slot i) :
    AlertsLike (reevaluation i x t) (reevaluation i x' t) := by
  unfold reevaluation
  rw [hl]
  exact reevaluate_like i rfl rfl rfl h

theorem reevaluation_seconds (i : SlotNo) (s t : State) : (reevaluation i s t).seconds = t.seconds := by
  unfold reevaluation
  obtain ⟨x, a, l, h⟩ := reevaluate_shape i
    { t.setSlot i { t.slot i with low := (s.slot i).low, exhausted := (s.slot i).exhausted } with
      alerts := s.alerts, lost := s.lost }
  rw [h]
  rfl

/-- A state that ends in the re-evaluation of a slot whose indicators and alerts stood as in `s`. -/
theorem Reevaluated.of {i : SlotNo} {s u t : State} (h1 : (u.slot i).low = (s.slot i).low)
    (h2 : (u.slot i).exhausted = (s.slot i).exhausted) (h : AlertsLike s u)
    (hs : t.slots = (reevaluate i u).slots) (hh : t.holds = u.holds) (ht : t.seconds = u.seconds)
    (ha : AlertsLike (reevaluate i u) t) : Reevaluated i s t := by
  have e : t.slot i = { u.slot i with
      low := lowCreditHolds (u.slot i).threshold (spendable u i), exhausted := exhaustedHolds (spendable u i) } := by
    rw [slot_congr hs, reevaluate_slot, if_pos rfl]
  have es : (t.setSlot i { t.slot i with low := (s.slot i).low, exhausted := (s.slot i).exhausted }).slots
      = u.slots := by
    refine Vector.ext fun j hj => ?_
    show (t.setSlot i _).slot ⟨j, hj⟩ = u.slot ⟨j, hj⟩
    by_cases hi : i = ⟨j, hj⟩
    · subst hi
      rw [slot_setSlot_same, e, ← h1, ← h2]
    · rw [slot_setSlot_other _ _ _ _ hi, slot_congr hs, reevaluate_slot, if_neg hi]
  obtain ⟨a1, a2⟩ := reevaluate_like i (u := u)
    (v := { t.setSlot i { t.slot i with low := (s.slot i).low, exhausted := (s.slot i).exhausted } with
      alerts := s.alerts, lost := s.lost }) es hh ht ⟨h.1.symm, h.2.symm⟩
  exact ⟨ha.1.trans a1.symm, ha.2.trans a2.symm⟩

/-! ## Alerts of pairs that become WORN (R110) -/

theorem raiseRetired_nil (s : State) : raiseRetired [] s = s := rfl

theorem raiseRetired_one (p : PairNo) (s : State) : raiseRetired [p] s = raiseAlert .pairRetired (.pair p) s := rfl

theorem raiseRetired_two (p q : PairNo) (s : State) (h : p < q) :
    raiseRetired [p, q] s = raiseAlert .pairRetired (.pair q) (raiseAlert .pairRetired (.pair p) s) := by
  have h' : ¬ q.val < p.val := Nat.not_lt.mpr (Nat.le_of_lt h)
  simp only [raiseRetired, ascending, if_neg h', List.foldl_cons, List.foldl_nil]

theorem raiseRetired_two_swapped (p q : PairNo) (s : State) (h : q < p) :
    raiseRetired [p, q] s = raiseAlert .pairRetired (.pair p) (raiseAlert .pairRetired (.pair q) s) := by
  have h' : q.val < p.val := h
  simp only [raiseRetired, ascending, if_pos h', List.foldl_cons, List.foldl_nil]

/-- The alerts the retirements of an event leave depend on the alerts they find and on the counter alone. -/
theorem raiseRetired_like (ps : List PairNo) {u v : State} (ht : v.seconds = u.seconds) (h : AlertsLike u v) :
    AlertsLike (raiseRetired ps u) (raiseRetired ps v) := by
  unfold raiseRetired
  generalize ascending ps = l
  induction l generalizing u v with
  | nil => exact h
  | cons p rest ih =>
    exact ih (by rw [raiseAlert_seconds, raiseAlert_seconds]; exact ht) (raiseAlert_like _ _ ht h)

/-- The alerts of at most two pairs that become WORN. -/
theorem raiseRetired_eq (l : List PairNo) (s : State) (h : l.length ≤ 2) : raiseRetired l s = retirementAlerts l s := by
  match l, h with
  | [], _ => rfl
  | [p], _ => rfl
  | [p, q], _ =>
    by_cases x : q < p
    · simp [raiseRetired, ascending, retirementAlerts, x]
    · simp [raiseRetired, ascending, retirementAlerts, x]
  | _ :: _ :: _ :: _, h => simp at h

/-- The retirements of an event change alerts and lost indicator alone. -/
theorem retirementAlerts_shape (l : List PairNo) (s : State) :
    ∃ a o, retirementAlerts l s = { s with alerts := a, lost := o } := by
  match l with
  | [] => exact ⟨_, _, rfl⟩
  | [p] => exact raiseRetired_shape [p] s
  | [p, q] =>
    rw [← raiseRetired_eq [p, q] s (by simp)]
    exact raiseRetired_shape [p, q] s
  | _ :: _ :: _ :: _ => exact ⟨_, _, rfl⟩

theorem retirementAlerts_like (l : List PairNo) {u v : State} (ht : v.seconds = u.seconds) (h : AlertsLike u v) :
    AlertsLike (retirementAlerts l u) (retirementAlerts l v) := by
  match l with
  | [] => exact h
  | [p] => exact raiseAlert_like _ _ ht h
  | [p, q] =>
    rw [← raiseRetired_eq [p, q] u (by simp), ← raiseRetired_eq [p, q] v (by simp)]
    exact raiseRetired_like [p, q] ht h
  | _ :: _ :: _ :: _ => exact h

/-! ## Which alerts a re-evaluation raises (R33, R143) -/

theorem lowCreditHolds_iff (t : Word) (n : Nat) : lowCreditHolds t n = true ↔ n < t.toNat := by
  unfold lowCreditHolds
  rw [decide_eq_true_iff]
  omega

theorem exhaustedHolds_iff (n : Nat) : exhaustedHolds n = true ↔ n = 0 := decide_eq_true_iff

/-- A re-evaluation raises the alerts of its crossings and no other, CREDIT_EXHAUSTED first (R33, R143). -/
theorem reevaluate_alerts (i : SlotNo) (s : State) :
    AlertsLike
      (raiseIf (decide (spendable s i < (s.slot i).threshold.toNat ∧ (s.slot i).low = false)) .lowCredit
        (.account i ((s.slot i).key.getD 0))
        (raiseIf (decide (spendable s i = 0 ∧ (s.slot i).exhausted = false)) .creditExhausted
          (.account i ((s.slot i).key.getD 0)) s)) (reevaluate i s) := by
  have e1 : decide (spendable s i < (s.slot i).threshold.toNat ∧ (s.slot i).low = false)
      = (lowCreditHolds (s.slot i).threshold (spendable s i) && !(s.slot i).low) := by
    rw [Bool.eq_iff_iff]
    simp [lowCreditHolds_iff]
  have e2 : decide (spendable s i = 0 ∧ (s.slot i).exhausted = false)
      = (exhaustedHolds (spendable s i) && !(s.slot i).exhausted) := by
    rw [Bool.eq_iff_iff]
    simp [exhaustedHolds_iff]
  rw [e1, e2]
  refine raiseIf_like _ _ _ ?_ (raiseIf_like _ _ _ rfl ⟨rfl, rfl⟩)
  rw [raiseIf_seconds, raiseIf_seconds]
  rfl

/-! ## What a request names -/

theorem classOf_eq_some (cls : Byte) (c : ClassNo) (h : cls.toNat = c.val) : classOf cls = some c := by
  have b : cls.toNat < 16 := h ▸ c.isLt
  simp only [classOf, dif_pos b]
  exact congrArg some (Fin.ext h)

theorem classOf_eq_none (cls : Byte) (h : 16 ≤ cls.toNat) : classOf cls = none := by
  simp only [classOf, dif_neg (Nat.not_lt.mpr h)]

/-- A figure that fits its field is the field's value. -/
theorem asWord_eq (b : Word) (n : Nat) (h : b.toNat = n) : asWord n = b := by subst h; simp [asWord]

/-- With no image pending the spendable amount is the committed balance less the held total. -/
theorem spendable_unpended (s : State) (i : SlotNo) (h : (s.slot i).pending = none) :
    spendable s i = (s.slot i).balance.toNat - heldTotal s i := by
  simp [spendable, lowerBalance, h]

/-- A request that would produce an image passes steps 1 to 4 on an account that is open with no image pending. -/
theorem judgeAccount_unpended (k : Kind) (key : Word) (i : SlotNo) (s : State) (hs : s.supply = .good)
    (hf : findKey s key = some i) (h : Unpended i s)
    (hk : k ∈ [Kind.credit, .setLimits, .setClass, .freeze, .thaw, .closeAccount]) :
    judgeAccount k .service key s = .ok i := by
  have a : admission k .service s = none := by simp [admission, hs]
  have u : stateCheck k (s.slot i) = none := by
    obtain ⟨h1, h2⟩ := h
    simp only [List.mem_cons, List.not_mem_nil, or_false] at hk
    rcases hk with rfl | rfl | rfl | rfl | rfl | rfl <;> rcases h1 with h1 | h1 <;>
      simp [stateCheck, pendingCheck, h1, h2]
  simp [judgeAccount, a, hf, u]

/-- A debit passes steps 1 to 4 on an ACTIVE account with no image pending. -/
theorem judgeAccount_debit (k : Kind) (p : Port) (key : Word) (i : SlotNo) (s : State) (hs : s.supply = .good)
    (hf : findKey s key = some i) (h : (s.slot i).state = .active) (hp : (s.slot i).pending = none)
    (hk : k ∈ [Kind.debitAmount, .debitUnits]) : judgeAccount k p key s = .ok i := by
  simp only [List.mem_cons, List.not_mem_nil, or_false] at hk
  rcases hk with rfl | rfl <;>
    simp [judgeAccount, admission, Kind.serviceOnly, hs, hf, stateCheck, pendingCheck, h, hp]

/-- OPEN_HOLD passes steps 1 to 4 on an ACTIVE account whose pending image, if any, carries no frozen mark. -/
theorem judgeAccount_reservable (p : Port) (key : Word) (i : SlotNo) (s : State) (hf : findKey s key = some i)
    (h : Reservable i s) : judgeAccount .openHold p key s = .ok i := by
  obtain ⟨h1, h2⟩ := h
  have u : stateCheck .openHold (s.slot i) = none := by
    simp only [stateCheck, h1, frozenPending]
    cases hp : (s.slot i).pending with
    | none => rfl
    | some img => simp [h2 img hp]
  simp [judgeAccount, admission, Kind.serviceOnly, Kind.mayCommit, hf, u]

/-- A handle that names an entry resolves to it. -/
theorem resolve_eq_some (handle : Handle) (n : HoldNo) (s : State) (h : Names handle n s) :
    resolve s handle = some n := by
  obtain ⟨h1, h2, h3⟩ := h
  have b : handle.entry.toNat < 32 := h1 ▸ n.isLt
  have e : (⟨handle.entry.toNat, b⟩ : HoldNo) = n := Fin.ext h1
  simp [resolve, b, e, h2, h3]

/-- A handle that names no entry resolves to none. -/
theorem resolve_eq_none (handle : Handle) (s : State) (h : ∀ n : HoldNo, ¬ Names handle n s) :
    resolve s handle = none := by
  unfold resolve
  split
  · rename_i b
    have := h ⟨handle.entry.toNat, b⟩
    simp only [Names, true_and] at this
    rw [if_neg]
    exact fun x => this ⟨x.1.symm, x.2⟩
  · rfl

/-! ## An image made pending -/

/-- An accepted change of an account that is open already: the image is pending and nothing else changes. -/
theorem acceptImage_pending (i : SlotNo) (img : PendingImage) (s : State) :
    ImagePending i img s (acceptImage i img (servedBy img.port s)) := by
  obtain ⟨t, a, l, h⟩ := reevaluate_shape i (makePending i img (servedBy img.port s))
  obtain ⟨x, y, hd⟩ := defer_shape img.port img.tag
    (joinQueue (.accountImage i) (imageOf ((s.slot i).key.getD 0) img) (some img.port) (some img.tag)
      ((servedBy img.port s).setSlot i { s.slot i with pending := some img }))
  have hm : makePending i img (servedBy img.port s) = defer img.port img.tag
    (joinQueue (.accountImage i) (imageOf ((s.slot i).key.getD 0) img) (some img.port) (some img.tag)
      ((servedBy img.port s).setSlot i { s.slot i with pending := some img })) := rfl
  refine ⟨?_, ?_, ?_, ?_, ?_⟩
  · apply reevaluate_becomes
    · rw [hm, hd]
      exact slot_setSlot_same (servedBy img.port s) i _
    · intro j hj
      rw [hm, hd]
      exact slot_setSlot_other (servedBy img.port s) i j _ (Ne.symm hj)
  · rw [acceptImage, h, hm, hd]
    rfl
  · refine Deferred.congr (defer_deferred img.port img.tag _) ?_ (fun q => reevaluate_port i q _)
    intro q
    cases q <;> rfl
  · have hsl : (makePending i img (servedBy img.port s)).slot i = { s.slot i with pending := some img } := by
      rw [hm, hd]
      exact slot_setSlot_same (servedBy img.port s) i _
    refine Reevaluated.of (u := makePending i img (servedBy img.port s)) ?_ ?_ ?_ rfl ?_ ?_ ⟨rfl, rfl⟩
    · rw [hsl]
    · rw [hsl]
    · rw [hm, hd]
      exact ⟨rfl, rfl⟩
    · rw [acceptImage, h]
    · rw [acceptImage, h]
  · rw [acceptImage, h, hm, hd]
    rfl

end Sys2Proof.Machine
end

