-- ==== Sys2Proof/Laws/Faults.lean ====
section
/-! SUPPORT. Fault laws: what a fault outcome of each kind leaves in slot, holds, ports, alerts and pair table, and which
events lead to one. -/

namespace Sys2Proof.Machine

/-! ## Pairs that become WORN (R88, R108) -/

theorem retireAll_pair (ps : List PairNo) (s : State) (q : PairNo) :
    (retireAll ps s).pair q = if q ∈ ps then { s.pair q with role := some .worn } else s.pair q := by
  induction ps generalizing s with
  | nil => simp [retireAll]
  | cons p rest ih =>
    show (retireAll rest (retire p s)).pair q = _
    rw [ih]
    have e : (retire p s).pair q = if q = p then { s.pair q with role := some .worn } else s.pair q := by
      by_cases h : q = p
      · subst h
        rw [if_pos rfl]
        exact pair_setRole_same s q .worn
      · rw [if_neg h]
        exact pair_setRole_other s p q .worn (Ne.symm h)
    rw [e]
    by_cases h1 : q = p <;> by_cases h2 : q ∈ rest <;> simp [h1, h2]

theorem mem_retireAll_wornSet (ps : List PairNo) (s : State) (q : PairNo) :
    q ∈ (retireAll ps s).wornSet ↔ q ∈ ps ∨ q ∈ s.wornSet := by
  induction ps generalizing s with
  | nil => simp [retireAll]
  | cons p rest ih =>
    show q ∈ (retireAll rest (retire p s)).wornSet ↔ _
    rw [ih]
    show _ ∨ q ∈ insertWorn p s.wornSet ↔ _
    rw [mem_insertWorn, List.mem_cons]
    tauto

/-- Pairs retired with their alerts raised. -/
theorem retired_of (ps : List PairNo) (s t : State) (hp : t.accountPairs = (retireAll ps s).accountPairs)
    (hw : t.wornSet = (retireAll ps s).wornSet) (ha : ∀ p ∈ ps, Recorded (.pairRetired, .pair p) t) : Retired ps s t := by
  have e : ∀ p, t.pair p = (retireAll ps s).pair p := pair_congr hp
  refine ⟨fun p h => ⟨?_, ha p h⟩, fun p h => ?_, fun p => ?_⟩
  · rw [e, retireAll_pair, if_pos h]
  · rw [e, retireAll_pair, if_neg h]
  · rw [hw]
    exact mem_retireAll_wornSet ps s p

/-! ## A settle's hold put back (R73) -/

theorem reopenSettled_none (img : PendingImage) (s : State) (h : img.handle = none) : reopenSettled img s = s := by
  unfold reopenSettled
  rw [h]

theorem reopenSettled_some (img : PendingImage) (s : State) (n : HoldNo) (g : Byte) (h : Hold) (c r : Word)
    (hh : img.handle = some (n, g)) (hs : (s.hold n).state = .settling h c r) :
    reopenSettled img s = s.setHold n { s.hold n with state := .open h } := by
  unfold reopenSettled
  rw [hh]
  simp only [reopenHold, hs]

/-! ## The three fault outcomes -/

/-- A fault of a change to an account that is open (R19, R73, R88). -/
theorem faultChange_spec (i : SlotNo) (img : PendingImage) (e : CommitEntry) (s : State) :
    SlotBecomes i { s.slot i with state := .faulted, pending := none } s (faultChange i img e s)
    ∧ (img.handle = none → (faultChange i img e s).holds = s.holds)
    ∧ (∀ n g h c r, img.handle = some (n, g) → (s.hold n).state = .settling h c r →
        HoldBecomes n ⟨(s.hold n).generation, .open h⟩ s (faultChange i img e s))
    ∧ Answered img.port img.tag img.change.kind .storeFault .zeros s (faultChange i img e s)
    ∧ Recorded (.storeFault, .account i ((s.slot i).key.getD 0)) (faultChange i img e s)
    ∧ Retired e.stage.incoming.toList s (faultChange i img e s)
    ∧ Reevaluated i (retirementAlerts e.stage.incoming.toList
        (raiseAlert .storeFault (.account i ((s.slot i).key.getD 0)) s)) (faultChange i img e s) := by
  simp only [faultChange]
  obtain ⟨p1, w1, h1⟩ := retireAll_shape e.stage.incoming.toList s
  generalize hA : (retireAll e.stage.incoming.toList s).leaveHead.setSlot i
    { s.slot i with state := .faulted, pending := none } = A
  have hA' : A = { s.setSlot i { s.slot i with state := .faulted, pending := none } with
      accountPairs := p1, wornSet := w1, commitQueue := s.commitQueue.tail } := by
    rw [← hA, h1]; rfl
  obtain ⟨h2, e2⟩ := reopenSettled_shape img A
  generalize hB : reopenSettled img A = B at *
  obtain ⟨t3, r3, h3⟩ := answerImage_shape img .storeFault .zeros B
  have hC' : Answered img.port img.tag img.change.kind .storeFault .zeros B (answerImage img .storeFault .zeros B) :=
    answer_answered _ _ _ _ _ _
  generalize hC : answerImage img .storeFault .zeros B = C at *
  obtain ⟨a4, l4, h4⟩ := raiseAlert_shape .storeFault (accountSubject i (s.slot i)) C
  have hD' := raiseAlert_recorded .storeFault (accountSubject i (s.slot i)) C
  generalize hD : raiseAlert .storeFault (accountSubject i (s.slot i)) C = D at *
  obtain ⟨a5, l5, h5⟩ := raiseRetired_shape e.stage.incoming.toList D
  have hE' := raiseRetired_keeps_recorded e.stage.incoming.toList _ D hD'
  have hE'' := fun p h => raiseRetired_recorded e.stage.incoming.toList p D h
  generalize hE : raiseRetired e.stage.incoming.toList D = E at *
  have eE : E = { s.setSlot i { s.slot i with state := .faulted, pending := none } with
      accountPairs := p1, wornSet := w1, commitQueue := s.commitQueue.tail, holds := h2, terminal := t3, service := r3,
      alerts := a5, lost := l5 } := by rw [h5, h4, h3, e2, hA']
  obtain ⟨t6, a6, l6, h6⟩ := reevaluate_shape i E
  have eh : (reevaluate i E).holds = B.holds := by rw [h6, h5, h4, h3]
  have ep : ∀ q, (reevaluate i E).port q = C.port q := by
    intro q
    rw [h6, h5, h4]
    cases q <;> rfl
  have ebs : ∀ q, B.port q = s.port q := by
    intro q
    rw [e2, hA']
    cases q <;> rfl
  refine ⟨reevaluate_becomes i _ s E ?_ ?_, ?_, ?_, ?_, reevaluate_keeps_recorded _ _ _ hE',
    retired_of _ _ _ ?_ ?_ (fun p h => reevaluate_keeps_recorded _ _ _ (hE'' p h)), ?_⟩
  · rw [eE]
    exact slot_setSlot_same s i _
  · intro j hj
    rw [eE]
    exact slot_setSlot_other s i j _ (Ne.symm hj)
  · intro hn
    rw [eh, ← hB, reopenSettled_none img A hn, hA']
    rfl
  · intro n g h c r hn hs
    have hs' : (A.hold n).state = .settling h c r := by rw [hA']; exact hs
    have eB : B = A.setHold n { A.hold n with state := .open h } := by
      rw [← hB]; exact reopenSettled_some img A n g h c r hn hs'
    have eAh : ∀ m, A.hold m = s.hold m := fun m => by rw [hA']; rfl
    refine ⟨?_, fun m hm => ?_⟩
    · rw [hold_congr eh, eB, hold_setHold_same, eAh]
    · rw [hold_congr eh, eB, hold_setHold_other _ _ _ _ (Ne.symm hm), eAh]
  · exact hC'.congr (fun q => (ebs q).symm) ep
  · rw [h6, eE, h1]
  · rw [h6, eE, h1]
  · have el : e.stage.incoming.toList.length ≤ 2 := by cases e.stage.incoming <;> simp
    have ec : AlertsLike s C := by rw [h3, e2, hA']; exact ⟨rfl, rfl⟩
    have es : C.seconds = s.seconds := by rw [h3, e2, hA']; rfl
    have ha : AlertsLike (retirementAlerts e.stage.incoming.toList
        (raiseAlert .storeFault (.account i ((s.slot i).key.getD 0)) s)) E := by
      rw [← raiseRetired_eq _ _ el, ← hE, ← hD]
      refine raiseRetired_like _ ?_ (raiseAlert_like _ _ es ec)
      rw [raiseAlert_seconds, raiseAlert_seconds]
      exact es
    have ei : E.slot i = { s.slot i with state := .faulted, pending := none } := by
      rw [eE]
      exact slot_setSlot_same s i _
    have ex : ∀ l (x : State), (retirementAlerts l x).slots = x.slots := fun l x => by
      obtain ⟨_, _, hx⟩ := retirementAlerts_shape l x
      rw [hx]
    have ey : ∀ (k : AlertKind) (sub : AlertSubject) (x : State), (raiseAlert k sub x).slots = x.slots :=
      fun k sub x => by
        obtain ⟨_, _, hx⟩ := raiseAlert_shape k sub x
        rw [hx]
    have ez : (retirementAlerts e.stage.incoming.toList
        (raiseAlert .storeFault (.account i ((s.slot i).key.getD 0)) s)).slot i = s.slot i :=
      slot_congr ((ex _ _).trans (ey _ _ _)) i
    refine Reevaluated.of (u := E) ?_ ?_ ha rfl (reevaluate_holds i E) ?_ ⟨rfl, rfl⟩
    · rw [ez, ei]
    · rw [ez, ei]
    · rw [h6]

/-- A fault of an open whose slot has its pair (R18, R88). -/
theorem faultOpen_spec (i : SlotNo) (img : PendingImage) (e : CommitEntry) (p : PairNo) (s : State)
    (hp : (s.slot i).currentPair = some p) :
    (faultOpen i img e s).slot i = Slot.vacant ∧ OtherSlots i s (faultOpen i img e s)
    ∧ (∀ x, x ∈ (faultOpen i img e s).keyIndex ↔ x ∈ s.keyIndex ∧ some x.1 ≠ (s.slot i).key)
    ∧ Answered img.port img.tag img.change.kind .storeFault .zeros s (faultOpen i img e s)
    ∧ Recorded (.storeFault, .account i ((s.slot i).key.getD 0)) (faultOpen i img e s)
    ∧ Retired (p :: e.stage.incoming.toList) s (faultOpen i img e s)
    ∧ AlertsLike (retirementAlerts (p :: e.stage.incoming.toList)
        (raiseAlert .storeFault (.account i ((s.slot i).key.getD 0)) s)) (faultOpen i img e s) := by
  simp only [faultOpen]
  have el : (s.slot i).currentPair.toList ++ e.stage.incoming.toList = p :: e.stage.incoming.toList := by rw [hp]; rfl
  rw [el]
  have ell : (p :: e.stage.incoming.toList).length ≤ 2 := by cases e.stage.incoming <;> simp
  generalize hl : p :: e.stage.incoming.toList = l at *
  obtain ⟨p1, w1, h1⟩ := retireAll_shape l s
  generalize hA : vacate i (retireAll l s).leaveHead = A
  have hA' : A = { s.setSlot i Slot.vacant with
      accountPairs := p1, wornSet := w1, commitQueue := s.commitQueue.tail,
      keyIndex := removeKey (s.slot i).key s.keyIndex } := by
    rw [← hA, h1]; rfl
  obtain ⟨t3, r3, h3⟩ := answerImage_shape img .storeFault .zeros A
  have hC' : Answered img.port img.tag img.change.kind .storeFault .zeros A (answerImage img .storeFault .zeros A) :=
    answer_answered _ _ _ _ _ _
  generalize hC : answerImage img .storeFault .zeros A = C at *
  obtain ⟨a4, l4, h4⟩ := raiseAlert_shape .storeFault (accountSubject i (s.slot i)) C
  have hD' := raiseAlert_recorded .storeFault (accountSubject i (s.slot i)) C
  generalize hD : raiseAlert .storeFault (accountSubject i (s.slot i)) C = D at *
  obtain ⟨a5, l5, h5⟩ := raiseRetired_shape l D
  have hE' := raiseRetired_keeps_recorded l _ D hD'
  have hE'' := fun p h => raiseRetired_recorded l p D h
  generalize hE : raiseRetired l D = E at *
  have eE : E = { s.setSlot i Slot.vacant with
      accountPairs := p1, wornSet := w1, commitQueue := s.commitQueue.tail,
      keyIndex := removeKey (s.slot i).key s.keyIndex, terminal := t3, service := r3, alerts := a5, lost := l5 } := by
    rw [h5, h4, h3, hA']
  have ep : ∀ q, E.port q = C.port q := by
    intro q
    rw [h5, h4]
    cases q <;> rfl
  have eas : ∀ q, A.port q = s.port q := by
    intro q
    rw [hA']
    cases q <;> rfl
  refine ⟨?_, fun j hj => ?_, fun x => ?_, hC'.congr (fun q => (eas q).symm) ep, hE', retired_of _ _ _ ?_ ?_ hE'', ?_⟩
  · rw [eE]
    exact slot_setSlot_same s i _
  · rw [eE]
    exact slot_setSlot_other s i j _ (Ne.symm hj)
  · rw [eE]
    simp [removeKey]
  · rw [eE, h1]
  · rw [eE, h1]
  · have ec : AlertsLike s C := by rw [h3, hA']; exact ⟨rfl, rfl⟩
    have es : C.seconds = s.seconds := by rw [h3, hA']; rfl
    rw [← raiseRetired_eq _ _ ell, ← hE, ← hD]
    refine raiseRetired_like _ ?_ (raiseAlert_like _ _ es ec)
    rw [raiseAlert_seconds, raiseAlert_seconds]
    exact es

/-- A fault of a tariff change (R52). -/
theorem faultTariff_spec (n : ClassNo) (img : PendingTariff) (s : State) (h : (s.tariff n).pending = some img) :
    (faultTariff n s).tariff n = { s.tariff n with pending := none, storeFault := true }
    ∧ (∀ m, m ≠ n → (faultTariff n s).tariff m = s.tariff m)
    ∧ Answered img.port img.tag .setTariff .storeFault .zeros s (faultTariff n s)
    ∧ Recorded (.storeFault, .cls n) (faultTariff n s)
    ∧ AlertsLike (raiseAlert .storeFault (.cls n) s) (faultTariff n s) := by
  unfold faultTariff
  rw [h]
  dsimp only
  generalize hA : s.leaveHead.setTariff n { s.tariff n with pending := none, storeFault := true } = A
  obtain ⟨t, r, h2⟩ := answer_shape img.port img.tag .setTariff .storeFault .zeros A
  have hB' := answer_answered img.port img.tag .setTariff .storeFault .zeros A
  generalize hB : answer img.port img.tag .setTariff .storeFault .zeros A = B at *
  obtain ⟨a, l, h3⟩ := raiseAlert_shape .storeFault (.cls n) B
  have et : (raiseAlert .storeFault (.cls n) B).tariffs = A.tariffs := by rw [h3, h2]
  refine ⟨?_, fun m hm => ?_, ?_, raiseAlert_recorded _ _ _, ?_⟩
  · rw [tariff_congr et, ← hA]
    exact tariff_setTariff_same _ _ _
  · rw [tariff_congr et, ← hA]
    exact tariff_setTariff_other _ _ _ _ (Ne.symm hm)
  · refine hB'.congr (fun q => ?_) (fun q => ?_)
    · rw [← hA]; cases q <;> rfl
    · rw [h3]; cases q <;> rfl
  · refine raiseAlert_like _ _ ?_ ⟨?_, ?_⟩ <;> rw [h2, ← hA] <;> rfl

/-! ## Events that lead to a fault (R82, R83, R86, R87) -/

/-- The state on which the fault outcome of an event is applied: the copy an attempt has written holds what it reads
back, and the incoming pair, where the event claims one, is claimed. -/
structure FaultGround (s u : State) (incoming : Option PairNo) (spare : List PairNo)
    (written : Option (PairId × CopyName × Copy)) : Prop where
  /-- No other field differs. -/
  frame : u = { s with
    accountCells := u.accountCells, tariffCells := u.tariffCells, accountPairs := u.accountPairs, freeList := spare }
  /-- The cells are as the attempt left them. -/
  cells : CellsAfter written s u
  /-- The incoming pair alone may have another role. -/
  pairs : ∀ q, q ∉ incoming.toList → u.pair q = s.pair q
  /-- The incoming pair has its track. -/
  tracks : ∀ q, (u.pair q).track = (s.pair q).track

theorem cellsAfter_setCopy (s : State) (p : PairId) (c : CopyName) (v : Copy) :
    CellsAfter (some (p, c, v)) s (s.setCopy p c v) :=
  ⟨cells_setCopy_same s p c v, fun q h => cells_setCopy_other s p q c v (Ne.symm h)⟩

/-- A copy that an attempt has written, with no pair claimed. -/
theorem FaultGround.ofCopy (s : State) (p : PairId) (c : CopyName) (v : Copy) (incoming : Option PairNo) :
    FaultGround s (s.setCopy p c v) incoming s.freeList (some (p, c, v)) := by
  refine ⟨?_, cellsAfter_setCopy s p c v, fun q _ => ?_, fun q => ?_⟩
  · cases p <;> rfl
  · cases p <;> rfl
  · cases p <;> rfl

/-- A claim after what a ground allows. -/
theorem FaultGround.claim {s u : State} {written : Option (PairId × CopyName × Copy)} {i : SlotNo} {q : PairNo}
    {spare : List PairNo} (h : FaultGround s u none s.freeList written) (hf : s.freeList = q :: spare) :
    FaultGround s (Machine.claim q (.incoming i) u) (some q) spare written := by
  have hu : u.freeList = q :: spare := by rw [h.frame]; exact hf
  refine ⟨?_, ?_, fun r hr => ?_, fun r => ?_⟩
  · show ({ u.setRole q (.incoming i) with freeList := u.freeList.tail } : State) = _
    rw [hu]
    conv_lhs => rw [h.frame]
    rfl
  · have := h.cells
    unfold CellsAfter at *
    split at this <;> exact this
  · have hne : q ≠ r := fun e => hr (by simp [e])
    exact (pair_setRole_other u q r _ hne).trans (h.pairs r (by simp))
  · by_cases e : q = r
    · subst e
      show ((u.setRole q (.incoming i)).pair q).track = (s.pair q).track
      rw [pair_setRole_same]
      exact h.tracks q
    · refine Eq.trans ?_ (h.tracks r)
      exact congrArg PairRecord.track (pair_setRole_other u q r _ e)

/-- An event that ends the head in a fault applies the fault outcome of the entry to the state its attempt or claim left,
then raises SPARES_EXHAUSTED where its claim emptied the free list, then checks the drain. -/
theorem endsInFault_exec {c : Instr} {s : State} {e : CommitEntry} {incoming : Option PairNo} {spare : List PairNo}
    {written : Option (PairId × CopyName × Copy)} (h : EndsInFault c s e incoming spare written) :
    ∃ (u : State) (f : CommitEntry), FaultGround s u incoming spare written ∧ f.subject = e.subject
      ∧ f.stage.incoming = incoming
      ∧ (exec c s = .next (checkDrain (faultOutcome f u)) ∧ (spare = [] → s.freeList = [])
        ∨ exec c s = .next (checkDrain (raiseSpares (faultOutcome f u))) ∧ s.freeList ≠ []) := by
  cases h with
  | refused _ _ rest a readBack hr hq hst hu hn hv hf =>
    refine ⟨s.setCopy a.target a.copy readBack, e, .ofCopy _ _ _ _ _, rfl, by rw [hst]; rfl, .inl ⟨?_, id⟩⟩
    show Host.Outcome.next (checkDrain (attemptComplete readBack s)) = _
    congr 2
    unfold attemptComplete
    rw [hq]
    simp only [hst, Stage.attempt, Stage.site]
    rw [if_pos ⟨hr, hu⟩]
    unfold completeAttempt
    simp only
    rw [if_neg (by rw [hv]; simp)]
    unfold attemptFailed
    rw [hn, hst]
    simp only
    unfold targetRefused
    have efl : (s.setCopy a.target a.copy readBack).freeList = s.freeList := setCopy_freeList _ _ _ _
    cases hsl : e.subject.slot? with
    | none => rfl
    | some i =>
      simp only
      rw [efl]
      rcases hf with hf | hf
      · rw [if_pos hf]
      · rw [hsl] at hf
        exact absurd hf (by simp)
  | relocationFailed _ _ rest a q k readBack hr hq hst hu hn hv =>
    refine ⟨s.setCopy (.account q) k readBack, e, .ofCopy _ _ _ _ _, rfl, by rw [hst]; rfl, .inl ⟨?_, id⟩⟩
    show Host.Outcome.next (checkDrain (attemptComplete readBack s)) = _
    congr 2
    unfold attemptComplete
    rw [hq]
    simp only [hst, Stage.attempt, Stage.site]
    rw [if_pos ⟨hr, hu⟩]
    unfold completeAttempt
    simp only
    have hv' : verifyPasses e.image a.sequence (s.track (.account q)).wear readBack = false := hv
    rw [if_neg (by rw [hv']; simp)]
    unfold attemptFailed
    rw [hn, hst]
  | noSequence _ _ rest p hr hg hq hst ht hn =>
    refine ⟨s, e, ⟨rfl, ⟨rfl, rfl⟩, fun _ _ => rfl, fun _ => rfl⟩, rfl, by rw [hst]; rfl, .inl ⟨?_, id⟩⟩
    show Host.Outcome.next (checkDrain (firstProgram s)) = _
    congr 2
    unfold firstProgram
    rw [hq]
    simp only
    rw [if_pos ⟨hr, hg, hst⟩, ht]
    simp only
    unfold programHead
    simp only
    rw [if_pos]
    show 4294967295 < max _ _ + 1
    exact Nat.lt_succ_of_le hn
  | noSequenceOnWear _ _ rest p q _ hr hg hq hst ht hn hw hf hm =>
    cases hsl : e.subject.slot? with
    | none =>
      exfalso
      cases hs : e.subject <;> rw [hs] at hw hsl <;> simp [wearRelocates, EntrySubject.slot?] at hw hsl
    | some i =>
      refine ⟨claim q (.incoming i) s, { e with stage := .relocating ⟨p, inactiveCopy (s.track p),
        asWord (settledSequence s e.subject (.account q)), .first, false⟩ q (inactiveCopy (s.pair q).track) },
        (FaultGround.claim ⟨rfl, ⟨rfl, rfl⟩, fun _ _ => rfl, fun _ => rfl⟩ hf), rfl, rfl, .inr ⟨?_, by simp [hf]⟩⟩
      show Host.Outcome.next (checkDrain (firstProgram s)) = _
      congr 2
      unfold firstProgram
      rw [hq]
      simp only
      rw [if_pos ⟨hr, hg, hst⟩, ht]
      simp only
      unfold programHead
      simp only
      rw [if_neg, hw, hsl]
      · simp only
        unfold relocate
        rw [hf]
        simp only
        rw [if_pos]
        show 4294967295 < max _ _ + 1
        exact Nat.lt_succ_of_le hm
      · show ¬ 4294967295 < max _ _ + 1
        exact fun h => hn (Nat.le_of_lt_succ h)
  | noSequenceOnSpare _ _ rest a readBack q _ hr hq hst hu hn hv hs hf hm =>
    obtain ⟨i, hsl⟩ := Option.isSome_iff_exists.mp hs
    generalize hA : s.setCopy a.target a.copy readBack = A
    refine ⟨claim q (.incoming i) A, { e with stage := .relocating ⟨a.target, a.copy,
      asWord (settledSequence A e.subject (.account q)), .first, false⟩ q (inactiveCopy (A.pair q).track) },
      FaultGround.claim (hA ▸ FaultGround.ofCopy s a.target a.copy readBack none) hf, rfl, rfl, .inr ⟨?_, by simp [hf]⟩⟩
    show Host.Outcome.next (checkDrain (attemptComplete readBack s)) = _
    congr 2
    unfold attemptComplete
    rw [hq]
    simp only [hst, Stage.attempt, Stage.site]
    rw [if_pos ⟨hr, hu⟩]
    unfold completeAttempt
    simp only
    rw [if_neg (by rw [hv]; simp), hA]
    have efl : A.freeList = q :: spare := by rw [← hA, setCopy_freeList]; exact hf
    unfold attemptFailed
    rw [hn, hst]
    simp only
    unfold targetRefused
    rw [hsl]
    simp only
    rw [if_neg (by rw [efl]; simp)]
    unfold relocate
    rw [efl]
    simp only
    rw [if_pos]
    have ht : A.track (.account q) = s.track (.account q) := by
      rw [← hA]
      cases a.target <;> rfl
    have hd : durableSequence A e.subject = durableSequence s e.subject := by
      rw [← hA]
      cases a.target <;> cases e.subject <;> rfl
    show 4294967295 < settledSequence A e.subject (.account q)
    unfold settledSequence
    rw [ht, hd]
    exact Nat.lt_succ_of_le hm

/-- An event that claims no pair leaves the free list as it was. -/
theorem EndsInFault.spare {c : Instr} {s : State} {e : CommitEntry} {incoming : Option PairNo} {spare : List PairNo}
    {written : Option (PairId × CopyName × Copy)} (h : EndsInFault c s e incoming spare written)
    (hi : incoming = none) : spare = s.freeList := by
  cases h <;> simp_all

/-- A claim that empties the free list leaves SPARES_EXHAUSTED recorded (R106). -/
theorem raiseSpares_recorded (s : State) (h : s.freeList = []) : Recorded (.sparesExhausted, .none) (raiseSpares s) := by
  unfold raiseSpares
  rw [if_pos h]
  exact raiseAlert_recorded _ _ _

/-- While a response stands in a response queue the drain of RESTARTING begins its collection wait and no more (R126). -/
theorem checkDrain_of_responses (s : State) (h : ¬ (s.terminal.responses = [] ∧ s.service.responses = [])) :
    checkDrain s = { s with
      collectionWait := s.collectionWait || decide (s.phase = .restarting ∧ s.commitQueue = []) } := by
  unfold checkDrain
  by_cases h1 : s.phase = .restarting ∧ s.commitQueue = []
  · rw [if_pos h1, if_neg h]
    simp [h1]
  · rw [if_neg h1]
    simp [h1]

/-- After a response is placed a response stands. -/
theorem Answered.responses {p : Port} {tag : Byte} {k : Kind} {st : Status} {f : Figures} {s t : State}
    (h : Answered p tag k st f s t) : ¬ (t.terminal.responses = [] ∧ t.service.responses = []) := by
  intro ⟨a, b⟩
  have e := congrArg PortState.responses h.1
  cases p
  · change t.terminal.responses = _ at e
    rw [a] at e
    simp at e
  · change t.service.responses = _ at e
    rw [b] at e
    simp at e

/-- What an event that ends the head in a fault answers: the fault outcome `w` of the entry on its ground, with the
alerts raised after it, then the drain. -/
theorem endsInFault_next {c : Instr} {s : State} {e : CommitEntry} {incoming : Option PairNo} {spare : List PairNo}
    {written : Option (PairId × CopyName × Copy)} (h : EndsInFault c s e incoming spare written) :
    ∃ (u : State) (f : CommitEntry) (v : State), FaultGround s u incoming spare written ∧ f.subject = e.subject
      ∧ f.stage.incoming = incoming ∧ exec c s = .next (checkDrain v)
      ∧ (∃ a l, v = { faultOutcome f u with alerts := a, lost := l })
      ∧ (∀ x, Recorded x (faultOutcome f u) → Recorded x v)
      ∧ (spare = [] → s.freeList ≠ [] → (faultOutcome f u).freeList = spare → Recorded (.sparesExhausted, .none) v)
      ∧ ∀ b : State, b.seconds = (faultOutcome f u).seconds → AlertsLike b (faultOutcome f u) →
        (faultOutcome f u).freeList = spare → WithSpares spare s b v := by
  obtain ⟨u, f, g, hs, hi, h1 | h1⟩ := endsInFault_exec h
  · exact ⟨u, f, _, g, hs, hi, h1.1, ⟨_, _, rfl⟩, fun _ h => h, fun a b => absurd (h1.2 a) b,
      fun b _ hb _ => ⟨fun _ => hb, fun a b => absurd (h1.2 a) b⟩⟩
  · refine ⟨u, f, _, g, hs, hi, h1.1, raiseSpares_shape _, fun x h => raiseSpares_keeps_recorded x _ h,
      fun a _ d => raiseSpares_recorded _ (d.trans a), fun b hc hb hf => ⟨fun x => ?_, fun x _ => ⟨?_, ?_⟩⟩⟩
    · have hne : spare ≠ [] := x.resolve_right h1.2
      unfold raiseSpares
      rw [if_neg (by rw [hf]; exact hne)]
      exact hb
    · unfold raiseSpares
      rw [if_pos (hf.trans x)]
      exact raiseAlert_like _ _ hc.symm hb
    · exact raiseSpares_recorded _ (hf.trans x)

/-- WithSpares reads of its middle state the alerts and the counter alone. -/
theorem WithSpares.base {spare : List PairNo} {s b b' v : State} (w : WithSpares spare s b v)
    (hs : b'.seconds = b.seconds) (h : AlertsLike b b') : WithSpares spare s b' v := by
  refine ⟨fun x => ⟨(w.1 x).1.trans h.1.symm, (w.1 x).2.trans h.2.symm⟩, fun x y => ?_⟩
  obtain ⟨c, r⟩ := w.2 x y
  have e := raiseAlert_like .sparesExhausted .none hs h
  exact ⟨⟨c.1.trans e.1.symm, c.2.trans e.2.symm⟩, r⟩

/-- The cells after an event, read through a later state with the same cells. -/
theorem CellsAfter.congr {s t u : State} {w : Option (PairId × CopyName × Copy)} (h : CellsAfter w s u)
    (ha : t.accountCells = u.accountCells) (ht : t.tariffCells = u.tariffCells) : CellsAfter w s t := by
  have hc : ∀ p, t.cells p = u.cells p := by
    intro p
    cases p
    · show t.accountCells.get _ = _
      rw [ha]
      rfl
    · show t.tariffCells.get _ = _
      rw [ht]
      rfl
  unfold CellsAfter at *
  split
  · have hs : sameCells s u := h
    unfold sameCells at *
    rw [ha, ht]
    exact hs
  · obtain ⟨a, b⟩ := h
    exact ⟨(hc _).trans a, fun q hq => (hc _).trans (b q hq)⟩

/-- Pairs retired after a ground that has changed no other pair and no track. -/
theorem Retired.ground {ps : List PairNo} {s u t : State} (h : Retired ps u t)
    (hp : ∀ q, q ∉ ps → u.pair q = s.pair q) (ht : ∀ q, (u.pair q).track = (s.pair q).track)
    (hw : u.wornSet = s.wornSet) : Retired ps s t := by
  obtain ⟨a, b, c⟩ := h
  refine ⟨fun p hm => ⟨?_, (a p hm).2⟩, fun p hm => (b p hm).trans (hp p hm), fun p => by rw [c, hw]⟩
  rw [(a p hm).1]
  show ({ role := _, track := _ } : PairRecord) = { role := _, track := _ }
  rw [ht]

end Sys2Proof.Machine
end

