-- ==== Sys2Proof/Laws/Frames.lean ====
section
/-! SUPPORT. Frame laws: bytes put together again, what the frame check makes of a well-made frame, and the bytes of a
response. -/

namespace Sys2Proof.Machine

/-- The four bytes of a 32-bit figure put together again. -/
theorem wordBytes_joined (w : Word) :
    (w.extractLsb' 24 8 ++ w.extractLsb' 16 8 ++ w.extractLsb' 8 8 ++ w.extractLsb' 0 8 : BitVec 32) = w := by
  apply BitVec.eq_of_getLsbD_eq
  intro i hi
  simp only [BitVec.getLsbD_append, BitVec.getLsbD_extractLsb']
  split
  · simp_all
  · split
    · simp; grind
    · split <;> simp <;> grind

/-- The two bytes of a 16-bit figure put together again. -/
theorem halfBytes_joined (h : Half) : (h.extractLsb' 8 8 ++ h.extractLsb' 0 8 : BitVec 16) = h := by
  apply BitVec.eq_of_getLsbD_eq
  intro i hi
  simp only [BitVec.getLsbD_append, BitVec.getLsbD_extractLsb']
  split
  · simp_all
  · simp; grind

/-- A frame of a body of at most 28 bytes whose length fits its kind passes the frame check whatever follows it. -/
theorem checkFrame_requestFrame (tag kind : Byte) (body extra : List Byte) (h : body.length ≤ 28)
    (fits : lengthFitsKind kind (body.length + 4) = true) :
    checkFrame (requestFrame tag kind body ++ extra) = some ⟨tag, kind, body, .untaken⟩ := by
  have e : requestFrame tag kind body ++ extra = natByte (body.length + 4) :: tag :: kind
      :: (body ++ [crc8 (natByte (body.length + 4) :: tag :: kind :: body)] ++ extra) := by
    simp [requestFrame, frameOf]
  have hn : (natByte (body.length + 4)).toNat = body.length + 4 := by simp [natByte]; omega
  have three : body.length + 4 - 1 = body.length + 1 + 1 + 1 := by omega
  rw [e]
  generalize hc : crc8 (natByte (body.length + 4) :: tag :: kind :: body) = c
  simp only [checkFrame, hn]
  have ht : List.take (body.length + 4 - 1) (natByte (body.length + 4) :: tag :: kind :: (body ++ [c] ++ extra))
      = natByte (body.length + 4) :: tag :: kind :: body := by simp [three]
  have hb : byteAt (natByte (body.length + 4) :: tag :: kind :: (body ++ [c] ++ extra)) (body.length + 4 - 1) = c := by
    simp [three, byteAt]
  have hk : byteAt (natByte (body.length + 4) :: tag :: kind :: (body ++ [c] ++ extra)) 2 = kind := rfl
  rw [if_pos]
  · simp only [requestIn, ht]
    simp [byteAt]
  · rw [ht, hb, hk, hc, fits]
    simp [lengthInRange]
    omega

/-! ## Response frames (R162, Table 12-1) -/

theorem wordBytes_eq (w : Word) : wordBytes w = bigEndian 4 w.toNat := by
  have byte : ∀ k : Nat, w.extractLsb' (8 * k) 8 = BitVec.ofNat 8 (w.toNat / 256 ^ k) := by
    intro k
    apply BitVec.eq_of_toNat_eq
    simp [Nat.shiftRight_eq_div_pow, Nat.pow_mul]
  exact congr (congrArg _ (byte 3)) (congr (congrArg _ (byte 2)) (congr (congrArg _ (byte 1))
    (congr (congrArg _ (byte 0)) rfl)))

theorem natHalf_eq (n : Nat) : natHalf n = bigEndian 2 n := by
  have byte : ∀ k : Nat, k < 2 → (BitVec.ofNat 16 n).extractLsb' (8 * k) 8 = BitVec.ofNat 8 (n / 256 ^ k) := by
    intro k hk
    apply BitVec.eq_of_toNat_eq
    simp only [BitVec.extractLsb'_toNat, BitVec.toNat_ofNat, Nat.shiftRight_eq_div_pow, Nat.pow_mul]
    rcases k with _ | _ | k <;> omega
  have h1 := byte 1 (by omega)
  have h0 := byte 0 (by omega)
  show [_, _] = [_, _]
  exact congrArg₂ (fun a b => [a, b]) h1 h0

theorem halfBytes_eq (h : Half) : halfBytes h = bigEndian 2 h.toNat := by
  rw [← natHalf_eq, natHalf, BitVec.ofNat_toNat, BitVec.setWidth_eq]

theorem natByte_eq (n : Nat) : bigEndian 1 n = [natByte n] := by simp [bigEndian, natByte]

theorem bigEndian_length (n v : Nat) : (bigEndian n v).length = n := by simp [bigEndian]

theorem flagByte_eq (b : Bool) : flagByte b = flagOf b := rfl

theorem ratesBytes_eq (r : Rates) : ratesBytes r = ratesFields r := by simp [ratesBytes, ratesFields, halfBytes_eq]

theorem subjectBytes_eq (x : AlertSubject) : x.bytes = subjectFields x := by
  cases x <;> simp [AlertSubject.bytes, subjectFields, natHalf_eq, wordBytes_eq]
  rename_i e g k
  simp only [bigEndian, List.range, List.range.loop, List.map, natByte]
  simp
  have hg := g.isLt
  have he := e.isLt
  constructor <;> apply BitVec.eq_of_toNat_eq <;> simp <;> omega

theorem holdBytes_eq (code : Byte) (h : Hold) (slot : Nat) (charge residual lapsed : Word) :
    holdBody code h (natByte slot) charge residual lapsed = holdFields code h slot charge residual lapsed := by
  have e : portCode h.owner = if h.owner = .terminal then 0x00 else 0x01 := by cases h.owner <;> rfl
  simp [holdBody, holdFields, natByte_eq, wordBytes_eq, ratesBytes_eq, e]

theorem holdFields_length (code : Byte) (h : Hold) (slot : Nat) (charge residual lapsed : Word) :
    (holdFields code h slot charge residual lapsed).length = bodyLength Kind.holdStatus.code := by
  simp [holdFields, bigEndian_length, ratesFields]
  decide

theorem responseRows_spec : ∀ x ∈ responseRows, x.1.code = x.2.1 ∧ bodyLength x.1.code + 5 = x.2.2 := by decide

/-- The bytes of a body and their number. -/
theorem ResponseBody.bytes {k : Kind} {f : Figures} {body : List Byte} (h : ResponseBody k f body) :
    f.bytes (bodyLength k.code) = body ∧ body.length = bodyLength k.code := by
  cases h with
  | refusal k code len hr =>
    have hl := responseRows_spec _ hr
    simp only at hl
    simp only [Figures.bytes, List.length_replicate]
    constructor
    · congr 1
      omega
    · omega
  | word k w hk =>
    simp only [Figures.bytes, wordBytes_eq, bigEndian_length, true_and]
    revert k
    decide
  | openHold h => exact ⟨holdBytes_eq 1 h h.slot.val 0 0 0, holdFields_length _ _ _ _ _ _⟩
  | settlingHold h c r => exact ⟨holdBytes_eq 2 h h.slot.val c r 0, holdFields_length _ _ _ _ _ _⟩
  | lapsedHold h second => exact ⟨holdBytes_eq 3 h 0 0 0 second, holdFields_length _ _ _ _ _ _⟩
  | alert e lost left =>
    have n : (subjectFields e.subject).length = 7 := by cases e.subject <;> simp [subjectFields, bigEndian_length]
    constructor
    · simp [Figures.bytes, natByte_eq, wordBytes_eq, subjectBytes_eq, flagByte_eq]
    · simp [bigEndian_length, n]
      decide
  | _ =>
    constructor
    · simp [Figures.bytes, natByte_eq, wordBytes_eq, ratesBytes_eq, reportBody, natHalf_eq, flagByte_eq]
    · simp [bigEndian_length, ratesFields]
      decide

end Sys2Proof.Machine
end

