-- ==== Sys2Proof/Laws/HandBack.lean ====
section
/-! SUPPORT. Hand-back laws: where a pair that is handed back goes, and what a done close and a dropped open leave in the
pair table, the free list, the worn set and the alerts, and in which order the STALE pairs are taken. -/

namespace Sys2Proof.Machine

/-! ## Free list and worn set (R106 to R108) -/

/-- A pair inserted into the free list stands directly before the first pair it stands before. -/
theorem insertFree_split (s : State) (p : PairNo) (l : List PairNo) :
    ∃ x y, l = x ++ y ∧ insertFree s p l = x ++ p :: y ∧ (∀ q ∈ x, ¬ standsBefore s p q)
      ∧ ∀ q ∈ y.head?, standsBefore s p q := by
  induction l with
  | nil => exact ⟨[], [], rfl, rfl, by simp, by simp⟩
  | cons a rest ih =>
    by_cases h : freeBefore s p a = true
    · exact ⟨[], a :: rest, rfl, by simp [insertFree, h], by simp, by simpa using (freeBefore_iff s p a).mp h⟩
    · obtain ⟨x, y, e1, e2, hx, hy⟩ := ih
      refine ⟨a :: x, y, by rw [e1]; rfl, by simp [insertFree, h, e2], ?_, hy⟩
      intro q hq
      rcases List.mem_cons.mp hq with rfl | hq
      · exact fun x => h ((freeBefore_iff s p _).mpr x)
      · exact hx q hq

/-- Placed reads the tracks and the free lists alone. -/
theorem Placed.congr {p : PairNo} {s s' t t' : State} (h : Placed p s t)
    (hk : ∀ q, (s'.pair q).track.wear = (s.pair q).track.wear) (hf : s'.freeList = s.freeList)
    (ht : t'.freeList = t.freeList) : Placed p s' t' := by
  obtain ⟨x, y, e1, e2, hx, hy⟩ := h
  have e : ∀ q, standsBefore s' p q ↔ standsBefore s p q := fun q => by unfold standsBefore; rw [hk, hk]
  exact ⟨x, y, hf.trans e1, ht.trans e2, fun q hq => (e q).not.mpr (hx q hq), fun q hq => (e q).mpr (hy q hq)⟩

/-- WornWith reads the worn sets alone. -/
theorem WornWith.congr {ps : List PairNo} {s s' t t' : State} (h : WornWith ps s t) (hs : s'.wornSet = s.wornSet)
    (ht : t'.wornSet = t.wornSet) : WornWith ps s' t' := by
  unfold WornWith at *
  rw [hs, ht]
  exact h

/-- HandedBack reads the pair tables, the free lists and the worn sets alone. -/
theorem HandedBack.congr {p : PairNo} {ps : List PairNo} {s s' t t' : State} (h : HandedBack p ps s t)
    (hk : ∀ q, (s'.pair q).track.wear = (s.pair q).track.wear) (hf : s'.freeList = s.freeList)
    (hw : s'.wornSet = s.wornSet) (hp : (t'.pair p).role = (t.pair p).role) (htf : t'.freeList = t.freeList)
    (htw : t'.wornSet = t.wornSet) : HandedBack p ps s' t' := by
  unfold HandedBack at *
  rw [hk, hp]
  exact ⟨fun x => ⟨(h.1 x).1, (h.1 x).2.1.congr hk hf htf, (h.1 x).2.2.congr hw htw⟩,
    fun x => ⟨(h.2 x).1, htf.trans ((h.2 x).2.1.trans hf.symm), (h.2 x).2.2.congr hw htw⟩⟩

theorem WornWith.trans {ps qs : List PairNo} {s t u : State} (h : WornWith ps s t) (h' : WornWith qs t u) :
    WornWith (ps ++ qs) s u := by
  obtain ⟨a, b, c⟩ := h
  obtain ⟨a', b', c'⟩ := h'
  refine ⟨fun q => ?_, fun x => b' (b x), fun e => ?_⟩
  · rw [a', a, List.mem_append]
    tauto
  · obtain ⟨e1, e2⟩ := List.append_eq_nil_iff.mp e
    rw [c' e2, c e1]

theorem retire_wornWith (p : PairNo) (s : State) : WornWith [p] s (retire p s) :=
  ⟨fun q => by
      show q ∈ insertWorn p s.wornSet ↔ _
      rw [mem_insertWorn, List.mem_singleton],
    fun h => insertWorn_sorted p _ h, fun h => absurd h (by simp)⟩

theorem retireAll_wornWith (ps : List PairNo) (s : State) : WornWith ps s (retireAll ps s) := by
  induction ps generalizing s with
  | nil => exact ⟨fun q => by simp [retireAll], fun h => h, fun _ => rfl⟩
  | cons p rest ih => exact (retire_wornWith p s).trans (ih (retire p s))

/-! ## One pair handed back (R107) -/

theorem atLimit_iff (s : State) (p : PairNo) : atLimit s p = true ↔ 400000 ≤ (s.pair p).track.wear.toNat := by
  exact decide_eq_true_iff

/-- What a hand-back leaves: the pair FREE at its place or WORN, its track and every other pair as they were. -/
theorem handBack_spec (p : PairNo) (s : State) :
    HandedBack p [] s (handBack p s) ∧ ((handBack p s).pair p).track = (s.pair p).track
      ∧ ∀ q, q ≠ p → (handBack p s).pair q = s.pair q := by
  by_cases h : atLimit s p = true
  · have e : handBack p s = retire p s := by unfold handBack; rw [if_pos h]
    have hl := (atLimit_iff s p).mp h
    rw [e]
    refine ⟨⟨fun x => absurd x (by omega), fun _ => ⟨?_, rfl, retire_wornWith p s⟩⟩, ?_, fun q hq => ?_⟩
    · exact congrArg PairRecord.role (pair_setRole_same s p .worn)
    · show ((s.setRole p .worn).pair p).track = _
      rw [pair_setRole_same]
    · exact pair_setRole_other s p q .worn (Ne.symm hq)
  · have e : handBack p s = { s.setRole p .free with freeList := insertFree s p s.freeList } := by
      unfold handBack; rw [if_neg h]
    have hl : ¬ 400000 ≤ (s.pair p).track.wear.toNat := fun x => h ((atLimit_iff s p).mpr x)
    rw [e]
    refine ⟨⟨fun _ => ⟨?_, insertFree_split s p s.freeList, fun q => by simp [State.setRole, State.setPair],
      fun x => x, fun _ => rfl⟩,
      fun x => absurd x hl⟩, ?_, fun q hq => ?_⟩
    · exact congrArg PairRecord.role (pair_setRole_same s p .free)
    · show ((s.setRole p .free).pair p).track = _
      rw [pair_setRole_same]
    · exact pair_setRole_other s p q .free (Ne.symm hq)

/-- A hand-back after other pairs have become WORN. -/
theorem handBack_after_retire (p : PairNo) (ps : List PairNo) (s : State) :
    HandedBack p ps s (handBack p (retireAll ps s))
      ∧ ((handBack p (retireAll ps s)).pair p).track = (s.pair p).track
      ∧ ∀ q, q ≠ p → (handBack p (retireAll ps s)).pair q = (retireAll ps s).pair q := by
  obtain ⟨⟨h1, h2⟩, h3, h4⟩ := handBack_spec p (retireAll ps s)
  obtain ⟨pa, wo, hs⟩ := retireAll_shape ps s
  have hk : ∀ q, ((retireAll ps s).pair q).track = (s.pair q).track := fun q => by
    rw [retireAll_pair]
    split <;> rfl
  have hw := retireAll_wornWith ps s
  have hf : (retireAll ps s).freeList = s.freeList := by rw [hs]
  rw [hk] at h1 h2 h3
  refine ⟨⟨fun x => ?_, fun x => ?_⟩, h3, h4⟩
  · obtain ⟨a, b, c⟩ := h1 x
    have := hw.trans c
    rw [List.append_nil] at this
    exact ⟨a, b.congr (fun q => by rw [hk]) hf.symm rfl, this⟩
  · obtain ⟨a, b, c⟩ := h2 x
    exact ⟨a, b.trans hf, hw.trans c⟩

/-! ## A done close (R16, R88) and a dropped open (R17) -/

/-- What vacates a slot and hands back its pair `p` after the pairs `worn` have become WORN, with a response placed and the
retirements raised, leaves. -/
structure ClosedAs (i : SlotNo) (img : PendingImage) (st : Status) (f : Figures) (p : PairNo) (worn retired : List PairNo)
    (s t : State) : Prop where
  slot : t.slot i = Slot.vacant
  others : OtherSlots i s t
  keys : ∀ x, x ∈ t.keyIndex ↔ x ∈ s.keyIndex ∧ some x.1 ≠ (s.slot i).key
  back : HandedBack p worn s t
  track : (t.pair p).track = (s.pair p).track
  pairs : ∀ q, q ≠ p → t.pair q = (retireAll worn s).pair q
  alerts : AlertsLike (raiseRetired retired s) t
  answered : Answered img.port img.tag img.change.kind st f s t

/-- The operations of a done close and of a dropped open, in this order, leave the slot closed. -/
theorem closedAs_of (i : SlotNo) (img : PendingImage) (st : Status) (f : Figures) (p : PairNo)
    (worn retired : List PairNo) (s u : State)
    (hu : ∃ c, u = { handBack p (retireAll worn s) with commitQueue := c }) :
    ClosedAs i img st f p worn retired s (raiseRetired retired (answerImage img st f (vacate i u))) := by
  obtain ⟨c, hu⟩ := hu
  obtain ⟨b1, b2, b3⟩ := handBack_after_retire p worn s
  obtain ⟨p1, w1, h1⟩ := retireAll_shape worn s
  obtain ⟨p2, f2, w2, h2⟩ := handBack_shape p (retireAll worn s)
  have eu : u = { s with accountPairs := p2, freeList := f2, wornSet := w2, commitQueue := c } := by
    rw [hu, h2, h1]
  obtain ⟨te, se, h3⟩ := answerImage_shape img st f (vacate i u)
  have ha : Answered img.port img.tag img.change.kind st f (vacate i u) (answerImage img st f (vacate i u)) :=
    answer_answered _ _ _ _ _ _
  obtain ⟨al, lo, h4⟩ := raiseRetired_shape retired (answerImage img st f (vacate i u))
  have hl : AlertsLike (raiseRetired retired s) (raiseRetired retired (answerImage img st f (vacate i u))) := by
    refine raiseRetired_like retired ?_ ⟨?_, ?_⟩ <;> rw [h3, eu] <;> rfl
  generalize hT : raiseRetired retired (answerImage img st f (vacate i u)) = T at *
  have eT : T = { s.setSlot i Slot.vacant with
      keyIndex := removeKey (s.slot i).key s.keyIndex, accountPairs := p2, freeList := f2, wornSet := w2,
      commitQueue := c, terminal := te, service := se, alerts := al, lost := lo } := by
    rw [h4, h3, eu]
    rfl
  have hpair : ∀ q, T.pair q = (handBack p (retireAll worn s)).pair q :=
    pair_congr (by rw [eT, h2])
  refine ⟨?_, fun j hj => ?_, fun x => ?_, ?_, ?_, fun q hq => ?_, hl, ?_⟩
  · rw [eT]
    exact slot_setSlot_same s i _
  · rw [eT]
    exact slot_setSlot_other s i j _ (Ne.symm hj)
  · rw [eT]
    simp [removeKey]
  · exact b1.congr (fun _ => rfl) rfl rfl (by rw [hpair]) (by rw [eT, h2]) (by rw [eT, h2])
  · rw [hpair, b2]
  · rw [hpair, b3 q hq]
  · refine ha.congr (fun q => ?_) (fun q => ?_)
    · rw [eu]
      cases q <;> rfl
    · rw [h4]
      cases q <;> rfl

/-- A done close in its own pair. -/
theorem doneEmpty_own (i : SlotNo) (img : PendingImage) (e : CommitEntry) (p : PairNo) (s : State)
    (hin : e.stage.incoming = none) (hp : (s.slot i).currentPair = some p) :
    ClosedAs i img .ok img.figures p [] (retiredBack [p] s) s (doneEmpty i img e s) := by
  have e1 : wornByDone (s.slot i) e = [] := by simp [wornByDone, hin]
  have e2 : holderOf (s.slot i) e = some p := by simp [holderOf, hin, hp]
  simp only [doneEmpty, e1, e2, Option.toList_some, List.nil_append]
  exact closedAs_of i img .ok img.figures p [] (retiredBack [p] s) s _ ⟨_, rfl⟩

/-- A done close in the incoming pair of a relocation. -/
theorem doneEmpty_relocated (i : SlotNo) (img : PendingImage) (e : CommitEntry) (p q : PairNo) (s : State)
    (hin : e.stage.incoming = some q) (hp : (s.slot i).currentPair = some p) :
    ClosedAs i img .ok img.figures q [p] (p :: retiredBack [q] s) s (doneEmpty i img e s) := by
  have e1 : wornByDone (s.slot i) e = [p] := by simp [wornByDone, hin, hp]
  have e2 : holderOf (s.slot i) e = some q := by simp [holderOf, hin]
  simp only [doneEmpty, e1, e2, Option.toList_some, List.cons_append, List.nil_append]
  exact closedAs_of i img .ok img.figures q [p] (p :: retiredBack [q] s) s _ ⟨_, rfl⟩

/-- A dropped open. -/
theorem dropOpen_closed (i : SlotNo) (img : PendingImage) (p : PairNo) (s : State)
    (hp : (s.slot i).currentPair = some p) :
    ClosedAs i img .supplyLow .zeros p [] (retiredBack [p] s) s (dropOpen i img s) := by
  simp only [dropOpen, hp, Option.toList_some]
  exact closedAs_of i img .supplyLow .zeros p [] (retiredBack [p] s) s _
    ⟨(handBack p s).commitQueue, rfl⟩

/-! ## The STALE pairs taken in order (R120) -/

/-- The STALE pairs among the given ones. -/
def stalePairs (s : State) (ps : List PairNo) : List PairNo := ps.filter (fun p => decide ((s.pair p).role = some .stale))

theorem mem_stalePairs (s : State) (ps : List PairNo) (p : PairNo) :
    p ∈ stalePairs s ps ↔ p ∈ ps ∧ (s.pair p).role = some .stale := by
  simp [stalePairs]

/-- A pair that becomes WORN leaves what is to be taken of the pairs without it as it was. -/
theorem stalePairs_retire (p : PairNo) (ps : List PairNo) (s : State) (h : p ∉ ps) :
    stalePairs (retire p s) ps = stalePairs s ps := by
  refine List.filter_congr fun q hq => ?_
  have e : (retire p s).pair q = s.pair q := pair_setRole_other s p q .worn (fun e => h (e ▸ hq))
  rw [e]

theorem retire_pair_other (p q : PairNo) (s : State) (h : p ≠ q) : (retire p s).pair q = s.pair q :=
  pair_setRole_other s p q .worn h

/-- The STALE pairs at the wear limit become WORN in passing; the rest of the given pairs is taken after them. -/
theorem tidyFrom_append (xs ys : List PairNo) (s : State) (hn : (xs ++ ys).Nodup)
    (h : ∀ p ∈ xs, (s.pair p).role = some .stale → 400000 ≤ (s.pair p).track.wear.toNat) :
    tidyFrom (xs ++ ys) s = tidyFrom ys (retireAll (stalePairs s xs) s) := by
  induction xs generalizing s with
  | nil => rfl
  | cons p rest ih =>
    obtain ⟨hp, hn'⟩ := List.nodup_cons.mp hn
    have hp' : p ∉ rest := fun x => hp (List.mem_append_left _ x)
    by_cases hs : (s.pair p).role = some .stale
    · have hl : atLimit s p = true := (atLimit_iff s p).mpr (h p (by simp) hs)
      have e1 : tidyFrom (p :: rest ++ ys) s = tidyFrom (rest ++ ys) (retire p s) := by
        rw [List.cons_append, tidyFrom, if_pos hs, if_pos hl]
      have e2 : stalePairs s (p :: rest) = p :: stalePairs (retire p s) rest := by
        rw [stalePairs_retire p rest s hp']
        exact List.filter_cons_of_pos (by simpa using hs)
      rw [e1, e2, ih (retire p s) hn' fun q hq => ?_]
      · rfl
      · rw [retire_pair_other p q s (fun e => hp' (e ▸ hq))]
        exact h q (List.mem_cons_of_mem _ hq)
    · have e1 : tidyFrom (p :: rest ++ ys) s = tidyFrom (rest ++ ys) s := by
        rw [List.cons_append, tidyFrom, if_neg hs]
      have e2 : stalePairs s (p :: rest) = stalePairs s rest := List.filter_cons_of_neg (by simpa using hs)
      rw [e1, e2]
      exact ih s hn' fun q hq => h q (List.mem_cons_of_mem _ hq)

/-- With every STALE pair at the wear limit, TIDYING ends (R122). -/
theorem tidyFrom_ends (ps : List PairNo) (s : State) (hn : ps.Nodup)
    (h : ∀ p ∈ ps, (s.pair p).role = some .stale → 400000 ≤ (s.pair p).track.wear.toNat) :
    tidyFrom ps s = openPhase (retireAll (stalePairs s ps) s) := by
  have e := tidyFrom_append ps [] s (by simpa using hn) h
  rw [List.append_nil] at e
  rw [e]
  rfl

/-- The first STALE pair below the wear limit follows, those before it having become WORN (R120). -/
theorem tidyFrom_follows (xs ys : List PairNo) (q : PairNo) (s : State) (hn : (xs ++ q :: ys).Nodup)
    (h : ∀ p ∈ xs, (s.pair p).role = some .stale → 400000 ≤ (s.pair p).track.wear.toNat)
    (hq : (s.pair q).role = some .stale) (hl : (s.pair q).track.wear.toNat < 400000) :
    tidyFrom (xs ++ q :: ys) s
      = joinQueue (.tidyEmpty q) (.empty none) none none (retireAll (stalePairs s xs) s) := by
  have hx : q ∉ xs := fun x => (List.nodup_append.mp hn).2.2 q x q (by simp) rfl
  have e : (retireAll (stalePairs s xs) s).pair q = s.pair q := by
    rw [retireAll_pair, if_neg (fun x => hx ((mem_stalePairs s xs q).mp x).1)]
  rw [tidyFrom_append xs (q :: ys) s hn h, tidyFrom, e, if_pos hq, if_neg]
  rw [atLimit_iff, e]
  omega

/-- The next STALE pair, in TIDYING: none below the wear limit is left and TIDYING ends, or the first below it follows. -/
theorem tidyNext_cases (v : State) (h : v.phase = .tidying) :
    ((∀ q, (v.pair q).role = some .stale → 400000 ≤ (v.pair q).track.wear.toNat)
      ∧ tidyNext v = openPhase (retireAll (stalePairs v (List.finRange 288)) v))
    ∨ ∃ (q : PairNo) (xs : List PairNo), (v.pair q).role = some .stale ∧ (v.pair q).track.wear.toNat < 400000
      ∧ (∀ r, r ∈ xs ↔ r < q) ∧ (∀ r, r < q → (v.pair r).role = some .stale → 400000 ≤ (v.pair r).track.wear.toNat)
      ∧ tidyNext v = joinQueue (.tidyEmpty q) (.empty none) none none (retireAll (stalePairs v xs) v) := by
  have e : tidyNext v = tidyFrom (List.finRange 288) v := by unfold tidyNext; rw [if_pos h]
  by_cases hx : ∃ q, (v.pair q).role = some .stale ∧ (v.pair q).track.wear.toNat < 400000
  · obtain ⟨q, hq, least⟩ := WellFounded.has_min (wellFounded_lt (α := PairNo))
      {q | (v.pair q).role = some .stale ∧ (v.pair q).track.wear.toNat < 400000} hx
    obtain ⟨xs, ys, hs⟩ := List.append_of_mem (List.mem_finRange q)
    have hp := List.pairwise_append.mp (hs ▸ List.pairwise_lt_finRange 288)
    have hr : ∀ r, r ∈ xs ↔ r < q := fun r => by
      refine ⟨fun a => hp.2.2 r a q (by simp), fun a => ?_⟩
      have m : r ∈ xs ++ q :: ys := hs ▸ List.mem_finRange r
      rcases List.mem_append.mp m with m | m
      · exact m
      · rcases List.mem_cons.mp m with m | m
        · exact absurd (m ▸ a) (lt_irrefl _)
        · exact absurd (lt_trans a (List.rel_of_pairwise_cons hp.2.1 m)) (lt_irrefl _)
    have hb : ∀ r, r < q → (v.pair r).role = some .stale → 400000 ≤ (v.pair r).track.wear.toNat := fun r a b => by
      by_contra c
      exact least r ⟨b, by omega⟩ a
    refine .inr ⟨q, xs, hq.1, hq.2, hr, hb, ?_⟩
    rw [e, hs]
    exact tidyFrom_follows xs ys q v (hs ▸ List.nodup_finRange 288) (fun r a => hb r ((hr r).mp a)) hq.1 hq.2
  · have hb : ∀ q, (v.pair q).role = some .stale → 400000 ≤ (v.pair q).track.wear.toNat := fun q a => by
      by_contra c
      exact hx ⟨q, a, by omega⟩
    exact .inl ⟨hb, e.trans (tidyFrom_ends _ v (List.nodup_finRange 288) fun q _ => hb q)⟩

/-- What follows a tidy of pair `p` (R120 to R122), from the state `v` in which the outcome has left the pair. -/
theorem tidyNext_follows (p : PairNo) (s v : State) (hv : v.phase = .tidying) (hp : (v.pair p).role ≠ some .stale)
    (pairs : ∀ q, q ≠ p → v.pair q = s.pair q) (queue : v.commitQueue = s.commitQueue.tail)
    (worn : ∀ q, q ∈ v.wornSet ↔ q ∈ s.wornSet ∨ (q = p ∧ (v.pair p).role = some .worn))
    (sorted : s.wornSet.Pairwise (fun x y => x < y) → v.wornSet.Pairwise (fun x y => x < y))
    (hw : v.report.wornCount = s.report.wornCount) (hf : v.report.freeCount = s.report.freeCount) :
    TidyFollows p s (tidyNext v) ∧ (tidyNext v).pair p = v.pair p := by
  have ne : ∀ q, (v.pair q).role = some .stale → q ≠ p := fun q a e => hp (e ▸ a)
  have common : ∀ (ps : List PairNo) (t : State), t.accountPairs = (retireAll ps v).accountPairs →
      t.wornSet = (retireAll ps v).wornSet → (∀ q ∈ ps, (v.pair q).role = some .stale) →
      (∀ q, t.pair q = if q ∈ ps then { v.pair q with role := some .worn } else v.pair q)
      ∧ (∀ q, q ≠ p → (s.pair q).role ≠ some .stale → t.pair q = s.pair q)
      ∧ (∀ q, q ∈ t.wornSet ↔ q ∈ s.wornSet
        ∨ ((t.pair q).role = some .worn ∧ (q = p ∨ (s.pair q).role = some .stale)))
      ∧ (s.wornSet.Pairwise (fun x y => x < y) → t.wornSet.Pairwise (fun x y => x < y))
      ∧ t.pair p = v.pair p := by
    intro ps t h1 h2 h3
    have a : ∀ q, t.pair q = if q ∈ ps then { v.pair q with role := some .worn } else v.pair q := fun q => by
      rw [pair_congr h1 q, retireAll_pair]
    have np : p ∉ ps := fun m => hp (h3 p m)
    refine ⟨a, fun q hq hs => ?_, fun q => ?_, fun x => ?_, ?_⟩
    · rw [a, if_neg fun m => hs (by rw [← pairs q hq]; exact h3 q m), pairs q hq]
    · rw [h2, mem_retireAll_wornSet, worn, a]
      by_cases e : q = p
      · subst e
        simp [np]
      · by_cases m : q ∈ ps
        · have := h3 q m
          rw [pairs q e] at this
          simp [m, e, this]
        · rw [if_neg m, pairs q e]
          simp only [m, e, false_and, or_false, false_or]
          refine ⟨.inl, fun x => x.elim id fun x => absurd (x.1.symm.trans x.2) (by simp)⟩
    · rw [h2]
      exact (retireAll_wornWith ps v).2.1 (sorted x)
    · rw [a, if_neg np]
  rcases tidyNext_cases v hv with ⟨ha, e⟩ | ⟨q, xs, hq, hl, hx, hb, e⟩
  · obtain ⟨pa, wo, hs⟩ := retireAll_shape (stalePairs v (List.finRange 288)) v
    obtain ⟨c0, c1, c2, c3, c4⟩ := common _ (tidyNext v) (by rw [e]; rfl) (by rw [e]; rfl)
      fun q m => ((mem_stalePairs v _ q).mp m).2
    refine ⟨⟨c1, fun _ => ⟨fun q hq hs' => ?_, ?_, ?_, ?_, ?_⟩, fun q hq hs' hl => ?_, c2, c3⟩, c4⟩
    · rw [c0, if_pos ((mem_stalePairs v _ q).mpr ⟨List.mem_finRange q, by rw [pairs q hq]; exact hs'⟩), pairs q hq]
    · rw [e]; rfl
    · rw [e, hs]; exact queue
    · rw [e]; rfl
    · rw [e]; rfl
    · have := ha q (by rw [pairs q hq]; exact hs')
      rw [pairs q hq] at this
      omega
  · obtain ⟨pa, wo, hs⟩ := retireAll_shape (stalePairs v xs) v
    have hqp := ne q hq
    have hq' := hq
    rw [pairs q hqp] at hq' hl
    obtain ⟨c0, c1, c2, c3, c4⟩ := common _ (tidyNext v) (by rw [e]; rfl) (by rw [e]; rfl)
      fun q m => ((mem_stalePairs v _ q).mp m).2
    refine ⟨⟨c1, fun all => ?_, fun q2 hq2 hs2 hl2 first => ?_, c2, c3⟩, c4⟩
    · have := all q hqp hq'
      omega
    · have eq : q2 = q := by
        rcases lt_trichotomy q2 q with x | x | x
        · have := hb q2 x (by rw [pairs q2 hq2]; exact hs2)
          rw [pairs q2 hq2] at this
          omega
        · exact x
        · have := first q hqp x hq'
          omega
      subst eq
      refine ⟨fun r hr hlt hst => ?_, fun r hr hle => ?_, ?_, ?_, ?_, ?_⟩
      · rw [c0, if_pos ((mem_stalePairs v _ r).mpr ⟨(hx r).mpr hlt, by rw [pairs r hr]; exact hst⟩), pairs r hr]
      · rw [c0, if_neg fun m => absurd ((hx r).mp ((mem_stalePairs v _ r).mp m).1) (not_lt_of_ge hle), pairs r hr]
      · rw [e, joinQueue, hs]; exact hv
      · rw [e, joinQueue, hs]; simp [queue]
      · rw [e, joinQueue, hs]; exact hw
      · rw [e, joinQueue, hs]; exact hf

/-- No drain follows a tidy (R126). -/
theorem checkDrain_tidyNext (v : State) (h : v.phase = .tidying) : checkDrain (tidyNext v) = tidyNext v := by
  have e : (tidyNext v).phase ≠ .restarting := by
    rcases tidyNext_cases v h with ⟨_, e⟩ | ⟨q, xs, _, _, _, _, e⟩
    · rw [e]
      simp [openPhase]
    · obtain ⟨pa, wo, hs⟩ := retireAll_shape (stalePairs v xs) v
      rw [e, joinQueue, hs]
      show v.phase ≠ _
      simp [h]
  exact if_neg fun x => e x.1

end Sys2Proof.Machine
end

