-- ==== Sys2Proof/Laws/Lapses.lean ====
section
/-! SUPPORT. Lapse laws: which holds are due at a tick, and the alerts that the lapses and the re-evaluations of a tick
raise. -/

namespace Sys2Proof.Machine

theorem dueHold_eq_some (s : State) (n : HoldNo) (h : Hold) :
    dueHold s n = some h ↔ (s.hold n).state = .open h ∧ h.deadline.toNat ≤ s.seconds.toNat := by
  unfold dueHold
  split
  · simp_all
    grind
  all_goals simp_all

theorem dueHold_eq_none (s : State) (n : HoldNo) :
    dueHold s n = none ↔ ∀ h : Hold, (s.hold n).state = .open h → s.seconds.toNat < h.deadline.toNat := by
  unfold dueHold
  split <;> simp_all

/-- The lapse of an entry leaves the counter, the slots and every other entry as they were. -/
theorem lapseEntry_keeps (s : State) (n : HoldNo) :
    (lapseEntry s n).seconds = s.seconds ∧ (lapseEntry s n).slots = s.slots
      ∧ ∀ m, m ≠ n → (lapseEntry s n).hold m = s.hold m := by
  unfold lapseEntry
  split
  · exact ⟨rfl, rfl, fun _ _ => rfl⟩
  · rename_i h _
    obtain ⟨a, l, hr⟩ := raiseAlert_shape .holdLapsed (.hold n (s.hold n).generation h.key)
      (s.setHold n { s.hold n with state := .lapsed h s.seconds })
    rw [hr]
    exact ⟨rfl, rfl, fun m hm => hold_setHold_other s n m _ (Ne.symm hm)⟩

/-- What one entry raises at a tick that brings the counter to `x.seconds`, by the holds of `x` (R60). -/
def lapseAlert (x u : State) (n : HoldNo) : State :=
  match (x.hold n).state with
  | .open h =>
    if h.deadline.toNat ≤ x.seconds.toNat then raiseAlert .holdLapsed (.hold n (x.hold n).generation h.key) u else u
  | _ => u

/-- The lapse of an entry raises what that entry raises. -/
theorem lapseEntry_alert (x s u : State) (n : HoldNo) (hs : s.seconds = x.seconds) (hu : u.seconds = x.seconds)
    (hh : s.hold n = x.hold n) (ha : AlertsLike u s) :
    AlertsLike (lapseAlert x u n) (lapseEntry s n) ∧ (lapseAlert x u n).seconds = x.seconds := by
  unfold lapseAlert lapseEntry dueHold
  rw [hh, hs]
  rcases (x.hold n).state with _ | h | _ | _
  · exact ⟨ha, hu⟩
  · dsimp only
    by_cases hd : h.deadline.toNat ≤ x.seconds.toNat
    · simp only [hd, if_true]
      exact ⟨raiseAlert_like _ _ (hs.trans hu.symm) ha, (raiseAlert_seconds _ _ _).trans hu⟩
    · simp only [hd, if_false]
      exact ⟨ha, hu⟩
  · exact ⟨ha, hu⟩
  · exact ⟨ha, hu⟩

theorem foldl_lapseEntry_alerts (l : List HoldNo) (hn : l.Nodup) (x s u : State) (hs : s.seconds = x.seconds)
    (hu : u.seconds = x.seconds) (hh : ∀ n ∈ l, s.hold n = x.hold n) (ha : AlertsLike u s) :
    AlertsLike (l.foldl (lapseAlert x) u) (l.foldl lapseEntry s) := by
  induction l generalizing s u with
  | nil => exact ha
  | cons n rest ih =>
    obtain ⟨hn1, hn2⟩ := List.nodup_cons.mp hn
    obtain ⟨k1, _, k3⟩ := lapseEntry_keeps s n
    obtain ⟨a1, a2⟩ := lapseEntry_alert x s u n hs hu (hh n (by simp)) ha
    exact ih hn2 (lapseEntry s n) _ (k1.trans hs) a2
      (fun m hm => (k3 m fun e => hn1 (e ▸ hm)).trans (hh m (by simp [hm]))) a1

/-- The lapses of a tick raise the alerts of the due holds in ascending order of entry (R60, R143). -/
theorem lapses_alerts (now : Word) (s : State) :
    AlertsLike (lapseAlerts now s) ((List.finRange 32).foldl lapseEntry { s with seconds := now }) :=
  foldl_lapseEntry_alerts _ (List.nodup_finRange 32) { s with seconds := now } { s with seconds := now }
    { s with seconds := now } rfl rfl (fun _ _ => rfl) ⟨rfl, rfl⟩

/-- Re-evaluations of slots with no crossing before them raise nothing. -/
theorem foldl_reevaluate_silent (l : List SlotNo) (u : State)
    (h : ∀ i ∈ l, (spendable u i < (u.slot i).threshold.toNat → (u.slot i).low = true)
      ∧ (spendable u i = 0 → (u.slot i).exhausted = true)) :
    AlertsLike u (l.foldl (fun s i => reevaluate i s) u) := by
  induction l generalizing u with
  | nil => exact ⟨rfl, rfl⟩
  | cons i rest ih =>
    have hi := h i (by simp)
    have e := reevaluate_alerts i u
    rw [decide_eq_false fun x => absurd (hi.1 x.1) (by simp [x.2]),
      decide_eq_false fun x => absurd (hi.2 x.1) (by simp [x.2])] at e
    have r := ih (reevaluate i u) fun j hj => by
      rw [reevaluate_spendable, reevaluate_slot]
      split
      · subst_vars
        exact ⟨(lowCreditHolds_iff _ _).mpr, (exhaustedHolds_iff _).mpr⟩
      · exact h j (by simp [hj])
    exact ⟨r.1.trans e.1, r.2.trans e.2⟩

end Sys2Proof.Machine
end

