-- ==== Sys2Proof/Laws/PerInstr.lean ====
section
/-! SUPPORT. Per-command laws: the family Requests. -/

namespace Sys2Proof.Laws.Requests

open Sys2Proof.Machine

/-- The request a command stands for, where it stands for one, waits UNTAKEN, and a well-formed command's request has the
body of its kind's frame (Table 12-1). -/
def Statement (i : Instr) : Prop :=
  ∀ p q, requestOf i = some (p, q) →
    q.state = .untaken ∧ (i.wellFormed = true → lengthFitsKind q.kind (q.parameters.length + 4) = true)

/-- A command that is a request: its request is UNTAKEN and its body has the length of a known kind. -/
theorem ofRequest {i : Instr} {p : Port} {q : Request} (h : requestOf i = some (p, q)) (u : q.state = .untaken)
    (l : lengthFitsKind q.kind (q.parameters.length + 4) = true) : Statement i := by
  intro p' q' h'
  obtain rfl : q = q' := congrArg Prod.snd (Option.some.inj (h.symm.trans h'))
  exact ⟨u, fun _ => l⟩

/-- A command that is no request. -/
theorem ofNone {i : Instr} (h : requestOf i = none) : Statement i := by
  intro p q h'
  rw [h] at h'
  exact absurd h' (by simp)

theorem lookup (port : Port) (tag : Byte) (key : Word) :
    Statement (.lookup port tag key) := ofRequest rfl rfl rfl

theorem listNext (port : Port) (tag : Byte) (key : Word) :
    Statement (.listNext port tag key) := ofRequest rfl rfl rfl

theorem openAccount (port : Port) (tag : Byte) (key : Word) (cls : Byte) (initial ceiling threshold : Word) :
    Statement (.openAccount port tag key cls initial ceiling threshold) := ofRequest rfl rfl rfl

theorem closeAccount (port : Port) (tag : Byte) (key : Word) :
    Statement (.closeAccount port tag key) := ofRequest rfl rfl rfl

theorem freeze (port : Port) (tag : Byte) (key : Word) :
    Statement (.freeze port tag key) := ofRequest rfl rfl rfl

theorem thaw (port : Port) (tag : Byte) (key : Word) :
    Statement (.thaw port tag key) := ofRequest rfl rfl rfl

theorem setClass (port : Port) (tag : Byte) (key : Word) (cls : Byte) :
    Statement (.setClass port tag key cls) := ofRequest rfl rfl rfl

theorem credit (port : Port) (tag : Byte) (key : Word) (amount : Word) :
    Statement (.credit port tag key amount) := ofRequest rfl rfl rfl

theorem debitAmount (port : Port) (tag : Byte) (key : Word) (amount : Word) :
    Statement (.debitAmount port tag key amount) := ofRequest rfl rfl rfl

theorem debitUnits (port : Port) (tag : Byte) (key : Word) (units : Half) :
    Statement (.debitUnits port tag key units) := ofRequest rfl rfl rfl

theorem setLimits (port : Port) (tag : Byte) (key : Word) (ceiling threshold : Word) :
    Statement (.setLimits port tag key ceiling threshold) := ofRequest rfl rfl rfl

theorem quote (port : Port) (tag : Byte) (cls : Byte) (units : Half) :
    Statement (.quote port tag cls units) := ofRequest rfl rfl rfl

theorem readTariff (port : Port) (tag : Byte) (cls : Byte) :
    Statement (.readTariff port tag cls) := ofRequest rfl rfl rfl

theorem setTariff (port : Port) (tag : Byte) (cls : Byte) (rates : Rates) :
    Statement (.setTariff port tag cls rates) := ofRequest rfl rfl rfl

theorem openHold (port : Port) (tag : Byte) (key : Word) (amount : Word) (duration : Half) :
    Statement (.openHold port tag key amount duration) := ofRequest rfl rfl rfl

theorem extendHold (port : Port) (tag : Byte) (handle : Handle) (seconds : Half) :
    Statement (.extendHold port tag handle seconds) := ofRequest rfl rfl rfl

theorem settleHold (port : Port) (tag : Byte) (handle : Handle) (units : Half) :
    Statement (.settleHold port tag handle units) := ofRequest rfl rfl rfl

theorem cancelHold (port : Port) (tag : Byte) (handle : Handle) :
    Statement (.cancelHold port tag handle) := ofRequest rfl rfl rfl

theorem holdStatus (port : Port) (tag : Byte) (handle : Handle) :
    Statement (.holdStatus port tag handle) := ofRequest rfl rfl rfl

theorem readClock (port : Port) (tag : Byte) :
    Statement (.readClock port tag) := ofRequest rfl rfl rfl

theorem fetchAlert (port : Port) (tag : Byte) (filter : Byte) :
    Statement (.fetchAlert port tag filter) := ofRequest rfl rfl rfl

theorem setAlertMask (port : Port) (tag : Byte) (mask : Byte) :
    Statement (.setAlertMask port tag mask) := ofRequest rfl rfl rfl

theorem readReport (port : Port) (tag : Byte) :
    Statement (.readReport port tag) := ofRequest rfl rfl rfl

theorem restart (port : Port) (tag : Byte) :
    Statement (.restart port tag) := ofRequest rfl rfl rfl

theorem badRequest (port : Port) (tag : Byte) (kind : Byte) (body : List Byte) : Statement (.badRequest port tag kind body) := by
  intro p q h
  obtain ⟨rfl, rfl⟩ := Prod.mk.inj (Option.some.inj h)
  refine ⟨rfl, fun wf => ?_⟩
  have k : Kind.ofCode kind = none := by simpa [Instr.wellFormed] using wf
  simp [lengthFitsKind, k]

theorem submit (bytes : List Byte) : Statement (.submit bytes) := ofNone rfl

theorem collect (clocked : Nat) : Statement (.collect clocked) := ofNone rfl

theorem status (code : Byte) (received : List Byte) : Statement (.status code received) := ofNone rfl

theorem voidTransaction (clocks : Nat) : Statement (.voidTransaction clocks) := ofNone rfl

theorem i2cWrite (address : BitVec 7) (bytes : List Byte) : Statement (.i2cWrite address bytes) := ofNone rfl

theorem i2cRead (address : BitVec 7) (count : Nat) : Statement (.i2cRead address count) := ofNone rfl

theorem secondTick : Statement (.secondTick) := ofNone rfl

theorem firstProgram : Statement (.firstProgram) := ofNone rfl

theorem attemptComplete (readBack : Copy) : Statement (.attemptComplete readBack) := ofNone rfl

theorem supplyRise : Statement (.supplyRise) := ofNone rfl

theorem supplyRipple : Statement (.supplyRipple) := ofNone rfl

theorem changeToLow : Statement (.changeToLow) := ofNone rfl

theorem changeToGood : Statement (.changeToGood) := ofNone rfl

theorem supplyCollapse (cut : CutResult) : Statement (.supplyCollapse cut) := ofNone rfl

theorem resetLine (cut : CutResult) : Statement (.resetLine cut) := ofNone rfl

theorem resetEnd (adr1 adr0 : Bool) : Statement (.resetEnd adr1 adr0) := ofNone rfl

theorem scan : Statement (.scan) := ofNone rfl

theorem collectionWaitExpiry : Statement (.collectionWaitExpiry) := ofNone rfl

end Sys2Proof.Laws.Requests
end

