-- ==== Sys2Proof/Laws/Ports.lean ====
section
/-! SUPPORT. Port laws: the course an SPI transaction takes from its code byte, and what a collect leaves in every
phase. -/

namespace Sys2Proof.Machine

/-! ## The course of an SPI transaction (R156, R163) -/

theorem spiCourse_submit : spiCourse 0x0A = .submit := rfl

theorem spiCourse_collect : spiCourse 0x0C = .collect := rfl

theorem spiCourse_other (code : Byte) (h1 : code ≠ 0x0A) (h2 : code ≠ 0x0C) : spiCourse code = .status := by
  unfold spiCourse
  rw [if_neg (show ¬ code = submitCode from h1), if_neg (show ¬ code = collectCode from h2)]

/-- What comes in on SDI during a COLLECT has no effect. -/
theorem exec_collect (n : Nat) (s : State) (h : s.inReset = false) : exec (.collect n) s = .next (spiCollect n s) := by
  show Host.Outcome.next (spiTransaction 0x0C (List.replicate n 0) s) = _
  unfold spiTransaction
  rw [h, spiCourse_collect]
  simp

theorem exec_submit (bytes : List Byte) (s : State) (h : s.inReset = false) :
    exec (.submit bytes) s = .next (spiSubmit bytes s) := by
  show Host.Outcome.next (spiTransaction 0x0A bytes s) = _
  unfold spiTransaction
  rw [h, spiCourse_submit]
  simp

theorem exec_status (code : Byte) (received : List Byte) (s : State) (h : s.inReset = false) (h1 : code ≠ 0x0A)
    (h2 : code ≠ 0x0C) : exec (.status code received) s = .next (spiStatus received.length s) := by
  show Host.Outcome.next (spiTransaction code received s) = _
  unfold spiTransaction
  rw [h, spiCourse_other code h1 h2]
  simp

/-- The code byte of a COLLECT makes a COLLECT of as many bytes as were received. -/
theorem exec_status_collect (received : List Byte) (s : State) :
    exec (.status 0x0C received) s = exec (.collect received.length) s := by
  show Host.Outcome.next (spiTransaction 0x0C received s)
    = .next (spiTransaction 0x0C (List.replicate received.length 0) s)
  unfold spiTransaction
  rw [spiCourse_collect]
  simp

/-- During a reset no SPI transaction takes place (R161). -/
theorem spiTransaction_reset (code : Byte) (bytes : List Byte) (s : State) (h : s.inReset = true) :
    spiTransaction code bytes s = s := by
  unfold spiTransaction
  rw [if_pos h]

/-- During a reset the Service Port is at no address (R161). -/
theorem addressed_reset (a : BitVec 7) (s : State) (h : s.inReset = true) : addressed a s = false := by
  simp [addressed, h]

/-! ## Collecting (R126, R157, R159) -/

/-- The drain of RESTARTING after an event that leaves something to collect or to program. -/
theorem checkDrain_left (s : State) (h : SomethingLeft s s.terminal.responses s.service.responses) :
    checkDrain s = { s with collectionWait := waitsNow s } := by
  by_cases hq : s.phase = .restarting ∧ s.commitQueue = []
  · refine (checkDrain_of_responses s fun e => ?_).trans rfl
    rcases h with h | h | h | h
    · exact h hq.1
    · exact h hq.2
    · exact h e.1
    · exact h e.2
  · unfold checkDrain waitsNow
    rw [if_neg hq]
    simp [hq]

/-- The frame bytes of a collect that clocks every byte of its frame. -/
theorem clockedOut_whole (frame : List Byte) (n : Nat) (h : frame.length ≤ n) :
    clockedOut frame n = frame ++ List.replicate (n - frame.length) 255 := by
  unfold clockedOut
  rw [List.take_of_length_le h]

/-- The frame bytes of a collect that is cut short. -/
theorem clockedOut_short (frame : List Byte) (n : Nat) (h : n < frame.length) :
    clockedOut frame n = frame.take n := by
  unfold clockedOut
  rw [Nat.sub_eq_zero_of_le (Nat.le_of_lt h)]
  simp

end Sys2Proof.Machine
end

