-- ==== Sys2Proof/Laws/Requests.lean ====
section
/-! SUPPORT. Request laws: what a request command does once the Arbiter hands its request over, and what steps 1 and 2
of the order of refusals answer. -/

namespace Sys2Proof.Machine

/-! ## A request handed over is evaluated with last served moved -/

theorem exec_lookup_handed (p : Port) (tag : Byte) (key : Word) (s : State)
    (h : Handed (.lookup p tag key) s) :
    exec (.lookup p tag key) s = .next (evalLookup p tag key (servedBy p s)) := congrArg _ (if_pos h.2)

theorem exec_listNext_handed (p : Port) (tag : Byte) (key : Word) (s : State)
    (h : Handed (.listNext p tag key) s) :
    exec (.listNext p tag key) s = .next (evalListNext p tag key (servedBy p s)) := congrArg _ (if_pos h.2)

theorem exec_openAccount_handed (p : Port) (tag : Byte) (key : Word) (cls : Byte) (initial ceiling threshold : Word) (s : State)
    (h : Handed (.openAccount p tag key cls initial ceiling threshold) s) :
    exec (.openAccount p tag key cls initial ceiling threshold) s = .next (evalOpenAccount p tag key cls initial ceiling threshold (servedBy p s)) := congrArg _ (if_pos h.2)

theorem exec_closeAccount_handed (p : Port) (tag : Byte) (key : Word) (s : State)
    (h : Handed (.closeAccount p tag key) s) :
    exec (.closeAccount p tag key) s = .next (evalCloseAccount p tag key (servedBy p s)) := congrArg _ (if_pos h.2)

theorem exec_freeze_handed (p : Port) (tag : Byte) (key : Word) (s : State)
    (h : Handed (.freeze p tag key) s) :
    exec (.freeze p tag key) s = .next (evalFreeze p tag key (servedBy p s)) := congrArg _ (if_pos h.2)

theorem exec_thaw_handed (p : Port) (tag : Byte) (key : Word) (s : State)
    (h : Handed (.thaw p tag key) s) :
    exec (.thaw p tag key) s = .next (evalThaw p tag key (servedBy p s)) := congrArg _ (if_pos h.2)

theorem exec_setClass_handed (p : Port) (tag : Byte) (key : Word) (cls : Byte) (s : State)
    (h : Handed (.setClass p tag key cls) s) :
    exec (.setClass p tag key cls) s = .next (evalSetClass p tag key cls (servedBy p s)) := congrArg _ (if_pos h.2)

theorem exec_credit_handed (p : Port) (tag : Byte) (key amount : Word) (s : State)
    (h : Handed (.credit p tag key amount) s) :
    exec (.credit p tag key amount) s = .next (evalCredit p tag key amount (servedBy p s)) := congrArg _ (if_pos h.2)

theorem exec_debitAmount_handed (p : Port) (tag : Byte) (key amount : Word) (s : State)
    (h : Handed (.debitAmount p tag key amount) s) :
    exec (.debitAmount p tag key amount) s = .next (evalDebitAmount p tag key amount (servedBy p s)) := congrArg _ (if_pos h.2)

theorem exec_debitUnits_handed (p : Port) (tag : Byte) (key : Word) (units : Half) (s : State)
    (h : Handed (.debitUnits p tag key units) s) :
    exec (.debitUnits p tag key units) s = .next (evalDebitUnits p tag key units (servedBy p s)) := congrArg _ (if_pos h.2)

theorem exec_setLimits_handed (p : Port) (tag : Byte) (key ceiling threshold : Word) (s : State)
    (h : Handed (.setLimits p tag key ceiling threshold) s) :
    exec (.setLimits p tag key ceiling threshold) s = .next (evalSetLimits p tag key ceiling threshold (servedBy p s)) := congrArg _ (if_pos h.2)

theorem exec_quote_handed (p : Port) (tag : Byte) (cls : Byte) (units : Half) (s : State)
    (h : Handed (.quote p tag cls units) s) :
    exec (.quote p tag cls units) s = .next (evalQuote p tag cls units (servedBy p s)) := congrArg _ (if_pos h.2)

theorem exec_readTariff_handed (p : Port) (tag : Byte) (cls : Byte) (s : State)
    (h : Handed (.readTariff p tag cls) s) :
    exec (.readTariff p tag cls) s = .next (evalReadTariff p tag cls (servedBy p s)) := congrArg _ (if_pos h.2)

theorem exec_setTariff_handed (p : Port) (tag : Byte) (cls : Byte) (rates : Rates) (s : State)
    (h : Handed (.setTariff p tag cls rates) s) :
    exec (.setTariff p tag cls rates) s = .next (evalSetTariff p tag cls rates (servedBy p s)) := congrArg _ (if_pos h.2)

theorem exec_openHold_handed (p : Port) (tag : Byte) (key amount : Word) (duration : Half) (s : State)
    (h : Handed (.openHold p tag key amount duration) s) :
    exec (.openHold p tag key amount duration) s = .next (evalOpenHold p tag key amount duration (servedBy p s)) := congrArg _ (if_pos h.2)

theorem exec_extendHold_handed (p : Port) (tag : Byte) (handle : Handle) (seconds : Half) (s : State)
    (h : Handed (.extendHold p tag handle seconds) s) :
    exec (.extendHold p tag handle seconds) s = .next (evalExtendHold p tag handle seconds (servedBy p s)) := congrArg _ (if_pos h.2)

theorem exec_settleHold_handed (p : Port) (tag : Byte) (handle : Handle) (units : Half) (s : State)
    (h : Handed (.settleHold p tag handle units) s) :
    exec (.settleHold p tag handle units) s = .next (evalSettleHold p tag handle units (servedBy p s)) := congrArg _ (if_pos h.2)

theorem exec_cancelHold_handed (p : Port) (tag : Byte) (handle : Handle) (s : State)
    (h : Handed (.cancelHold p tag handle) s) :
    exec (.cancelHold p tag handle) s = .next (evalCancelHold p tag handle (servedBy p s)) := congrArg _ (if_pos h.2)

theorem exec_holdStatus_handed (p : Port) (tag : Byte) (handle : Handle) (s : State)
    (h : Handed (.holdStatus p tag handle) s) :
    exec (.holdStatus p tag handle) s = .next (evalHoldStatus p tag handle (servedBy p s)) := congrArg _ (if_pos h.2)

theorem exec_readClock_handed (p : Port) (tag : Byte) (s : State)
    (h : Handed (.readClock p tag) s) :
    exec (.readClock p tag) s = .next (evalReadClock p tag (servedBy p s)) := congrArg _ (if_pos h.2)

theorem exec_fetchAlert_handed (p : Port) (tag : Byte) (filter : Byte) (s : State)
    (h : Handed (.fetchAlert p tag filter) s) :
    exec (.fetchAlert p tag filter) s = .next (evalFetchAlert p tag filter (servedBy p s)) := congrArg _ (if_pos h.2)

theorem exec_setAlertMask_handed (p : Port) (tag : Byte) (mask : Byte) (s : State)
    (h : Handed (.setAlertMask p tag mask) s) :
    exec (.setAlertMask p tag mask) s = .next (evalSetAlertMask p tag mask (servedBy p s)) := congrArg _ (if_pos h.2)

theorem exec_readReport_handed (p : Port) (tag : Byte) (s : State)
    (h : Handed (.readReport p tag) s) :
    exec (.readReport p tag) s = .next (evalReadReport p tag (servedBy p s)) := congrArg _ (if_pos h.2)

theorem exec_restart_handed (p : Port) (tag : Byte) (s : State)
    (h : Handed (.restart p tag) s) :
    exec (.restart p tag) s = .next (evalRestart p tag (servedBy p s)) := congrArg _ (if_pos h.2)

theorem exec_badRequest_handed (p : Port) (tag kind : Byte) (body : List Byte) (s : State) (k : Kind.ofCode kind = none)
    (h : Handed (.badRequest p tag kind body) s) :
    exec (.badRequest p tag kind body) s = .next (evalBadRequest p tag kind (servedBy p s)) :=
  congrArg _ ((if_pos k).trans (if_pos h.2))

/-! ## Steps 1 and 2 -/

/-- A kind passes steps 1 and 2 on the Service Port while the supply is GOOD. -/
theorem admission_service_good (k : Kind) (s : State) (h : s.supply = .good) : admission k .service s = none := by
  simp [admission, h]

/-- A kind that is not marked Service passes steps 1 and 2 while the supply is GOOD. -/
theorem admission_good (k : Kind) (p : Port) (s : State) (h : s.supply = .good) (hk : k.serviceOnly = false) :
    admission k p s = none := by
  simp [admission, h, hk]

/-- A kind that is not marked Service and needs no commit passes steps 1 and 2 in either supply state. -/
theorem admission_open (k : Kind) (p : Port) (s : State) (hk : k.serviceOnly = false) (hc : k.mayCommit = false) :
    admission k p s = none := by
  simp [admission, hk, hc]

/-- A kind marked Service is NOT_PERMITTED from the Terminal Port. -/
theorem admission_notPermitted (k : Kind) (s : State) (hk : k.serviceOnly = true) :
    admission k .terminal s = some .notPermitted := by
  simp [admission, hk]

/-- A kind that may need a commit is SUPPLY_LOW in a LOW period, unless step 1 refuses it. -/
theorem admission_supplyLow (k : Kind) (p : Port) (s : State) (h : s.supply = .low) (hc : k.mayCommit = true)
    (hk : k.serviceOnly = false ∨ p = .service) : admission k p s = some .supplyLow := by
  rcases hk with hk | hk <;> simp [admission, h, hc, hk]

end Sys2Proof.Machine
end

