-- ==== Sys2Proof/Laws/Supply.lean ====
section
/-! SUPPORT. Supply laws: what the two changes of the supply state set, what the return to GOOD resumes with, and which
fields the drops of a change to LOW can change. -/

namespace Sys2Proof.Machine

/-! ## The change to GOOD (R133) -/

theorem phaseAtGood_eq (ph : Phase) : phaseAtGood ph = if ph = .starting then .scanning else ph := by
  cases ph <;> rfl

/-- Supply alerts are raised in OPEN and RESTARTING alone (R134). -/
theorem supplyAlertsOn_iff (s : State) : supplyAlertsOn s = true ↔ servesPorts s := by
  simp [supplyAlertsOn, servesPorts]

/-- The change of state alone: state, timer, phase, and alerts. -/
theorem supplyGood_shape (s : State) : ∃ a l, supplyGood s =
    { s with
      supply := .good, steadyTimer := .stopped, phase := phaseAtGood s.phase, alerts := a, lost := l } :=
  raiseIf_shape _ _ _ _

theorem supplyGood_recorded (s : State) (h : servesPorts s) : Recorded (.supplyRestored, .none) (supplyGood s) := by
  unfold supplyGood
  rw [(supplyAlertsOn_iff s).mpr h]
  exact raiseAlert_recorded _ _ _

theorem supplyGood_alerts (s : State) (h : servesPorts s) :
    AlertsLike (raiseAlert .supplyRestored .none s) (supplyGood s) := by
  unfold supplyGood
  rw [(supplyAlertsOn_iff s).mpr h]
  exact raiseAlert_like _ _ rfl ⟨rfl, rfl⟩

theorem supplyGood_silent (s : State) (h : ¬ servesPorts s) :
    (supplyGood s).alerts = s.alerts ∧ (supplyGood s).lost = s.lost := by
  have e : supplyAlertsOn s = false := by
    rw [← Bool.not_eq_true, supplyAlertsOn_iff]
    exact h
  unfold supplyGood
  rw [e]
  exact ⟨rfl, rfl⟩

/-- A WAITING head has its first program begun, as FIRST_PROGRAM begins one (R93). -/
theorem resumeHead_waiting (s : State) (e : CommitEntry) (rest : List CommitEntry) (h : s.commitQueue = e :: rest)
    (w : e.stage = .waiting) : resumeHead s = beginFirst s := by
  unfold resumeHead
  rw [h]
  simp only [w, Stage.attempt]

/-- A stopped head has its next attempt begun (R93). -/
theorem resumeHead_stopped (s : State) (e : CommitEntry) (rest : List CommitEntry) (a : Attempt)
    (h : s.commitQueue = e :: rest) (ha : e.stage.attempt = some a) (u : a.underWay = false) :
    resumeHead s = beginAttempt e s := by
  unfold resumeHead
  rw [h]
  simp only [ha]
  exact if_neg (by rw [u]; simp)

/-- An attempt of the head begins on copy `c` of pair `p`: it is under way, and the wear of that pair alone rises
(R84, R101). -/
theorem beginAttempt_eq (e : CommitEntry) (s : State) (a : Attempt) (p : PairId) (c : CopyName)
    (ha : e.stage.attempt = some a) (hp : e.stage.site = some (p, c)) : ∃ w n, beginAttempt e s =
      ({ s.setTrack p { s.track p with wear := w } with freeUses := n } : State).setHead
        { e with stage := e.stage.setAttempt { a with underWay := true } }
      ∧ ((s.track p).wear.toNat < maxWord → w = (s.track p).wear + 1) := by
  obtain ⟨w, n, h, hw⟩ := addWear_eq p s
  refine ⟨w, n, ?_, hw⟩
  unfold beginAttempt
  rw [ha, hp]
  simp only [h]

/-! ## The change to LOW (R130) -/

theorem droppable_eq (e : CommitEntry) : e.droppable = (decide (e.stage = .waiting) && !e.isTidy) := by
  obtain ⟨sub, _, _, _, st⟩ := e
  cases st <;> cases sub <;> simp [CommitEntry.droppable, CommitEntry.isTidy]

/-- The fields the drops can change. -/
theorem foldl_dropOutcome_shape (l : List CommitEntry) (s : State) :
    ∃ sl ki ho ta pa fr wo al lo te se, l.foldl dropOutcome s =
      { s with
        slots := sl, keyIndex := ki, holds := ho, tariffs := ta, accountPairs := pa, freeList := fr, wornSet := wo,
        alerts := al, lost := lo, terminal := te, service := se } := by
  induction l generalizing s with
  | nil => exact ⟨_, _, _, _, _, _, _, _, _, _, _, rfl⟩
  | cons e rest ih =>
    obtain ⟨sl, ki, ho, ta, pa, fr, wo, al, lo, te, se, h⟩ := dropOutcome_shape s e
    obtain ⟨sl', ki', ho', ta', pa', fr', wo', al', lo', te', se', h'⟩ := ih (dropOutcome s e)
    refine ⟨sl', ki', ho', ta', pa', fr', wo', al', lo', te', se', ?_⟩
    rw [List.foldl_cons, h', h]

end Sys2Proof.Machine
end

