-- ==== Sys2Proof/Tests/Slice0.lean ====
section
/-! SUPPORT. Tests: ill-formed commands the check refuses, values written out from the manual, and for every statement
with hypotheses a concrete state and operands that meet them, clause by clause at the ends of their ranges. The tests are
elaborated one after another: side by side, each would hold a thread while it waits for the kernel. -/

namespace Sys2Proof.Tests

open Sys2Proof.Machine

set_option Elab.async false

/-! ## Ill-formed commands -/

theorem test_illFormed_badRequest_of_a_known_kind :
    (Instr.badRequest .terminal 1 0x01 []).wellFormed = false ∧ (Instr.badRequest .terminal 1 0x18 []).wellFormed = false
      ∧ (Instr.badRequest .terminal 1 0x19 []).wellFormed = true ∧ (Instr.badRequest .terminal 1 0x00 []).wellFormed = true := by
  decide

theorem test_illFormed_status_codes :
    (Instr.status 0x0A []).wellFormed = false ∧ (Instr.status 0x0C []).wellFormed = false
      ∧ (Instr.status 0x0B []).wellFormed = true := by decide

theorem test_illFormed_void_of_eight_clocks :
    (Instr.voidTransaction 8).wellFormed = false ∧ (Instr.voidTransaction 7).wellFormed = true := by decide

theorem test_illFormed_torn_that_is_blank :
    (Instr.supplyCollapse (.torn blankCopy)).wellFormed = false ∧ (Instr.resetLine (.torn blankCopy)).wellFormed = false
      ∧ (Instr.resetLine (.torn { blankCopy with kind := 0 })).wellFormed = true := by decide +kernel

/-! ## Values written out from the manual -/

/-- The ASCII digits 1 to 9. -/
def digits : List Byte := [0x31, 0x32, 0x33, 0x34, 0x35, 0x36, 0x37, 0x38, 0x39]

/-- The check values of R164: F4h for the CRC-8 and 29B1h for the CRC-16. -/
theorem test_check_codes : crc8 digits = 0xF4 ∧ crc16 digits = 0x29B1 := by decide +kernel

/-- The empty frame is the frame of tag 0 and kind 0 (R162). -/
theorem test_empty_frame : emptyFrame = frameOf [0, 0] := by decide +kernel

/-- No word of the opcode table spells a command. -/
theorem test_decodeTableWord (nbits w : Nat) : decodeTableWord nbits w = none := rfl

theorem test_withFetchWord (s : State) (nbits w : Nat) : s.withFetchWord nbits w = s := rfl

/-! ## States the witnesses stand on -/

/-- A part in OPEN with the supply GOOD and nothing in its tables. -/
def live : State := { State.reset with phase := .open, supply := .good, vdd := .safe }

/-- An ACTIVE account with key 7 and class 2 in account pair 4. -/
def account : Slot where
  state := .active
  key := some 7
  cls := 2
  balance := 1000
  ceiling := 5000
  threshold := 100
  frozenMark := false
  sequence := some 3
  currentPair := some 4
  pending := none
  low := false
  exhausted := false

/-- A part with that account in slot 1, class 2 DEFINED, and two FREE pairs. -/
def served : State :=
  { (((live.setSlot 1 account).setTariff 2 ⟨.defined, ⟨60, 10, 50, 20⟩, some 1, none, false⟩).setPair 4
      ⟨some (.current 1), ⟨3, some .a, 3⟩⟩) with keyIndex := [(7, 1)], freeList := [9, 5] }

/-- The state with the request of command `c` waiting alone in its port's window. -/
def offer (c : Instr) (s : State) : State :=
  match requestOf c with
  | none => s
  | some (p, q) => s.setPort p { s.port p with window := [q] }

/-- A hold of the Terminal Port on slot 1. -/
def aHold : Hold := ⟨1, 7, .terminal, 300, ⟨60, 10, 50, 20⟩, 100, 500⟩

/-- The account with a pending image of the given kind. -/
def imageOn (v : Slot) (c : ChangeKind) (handle : Option (HoldNo × Byte)) (f : Figures) : PendingImage where
  balance := v.balance
  ceiling := v.ceiling
  threshold := v.threshold
  cls := v.cls
  frozenMark := v.frozenMark
  change := c
  port := .terminal
  tag := 9
  handle := handle
  figures := f

/-- The latest response of a port after a command. -/
def latest (p : Port) : Host.Outcome State Fault Refusal → Option Response
  | .next s => (s.port p).responses.getLast?
  | .fault _ => none
  | .refused _ => none

/-- The state after a command. -/
def after : Host.Outcome State Fault Refusal → Option State
  | .next s => some s
  | .fault _ => none
  | .refused _ => none

/-! ## The machine -/

theorem test_hyp_StepRunsFrontCommand : State.reset.pending = [] := rfl

theorem test_hyp_EveryCommandAnswersNext :
    (requestOf (.readClock .terminal 0)).isSome = true
      ∧ arbiterChoice State.reset ≠ requestOf (.readClock .terminal 0) := by decide +kernel

theorem test_hyp_RequestFrameCarriesItsCommand :
    (Instr.badRequest .terminal 1 0 (List.replicate 28 0)).wellFormed = true
      ∧ requestOf (.badRequest .terminal 1 0 (List.replicate 28 0))
          = some (.terminal, ⟨1, 0, List.replicate 28 0, .untaken⟩)
      ∧ (List.replicate 28 (0 : Byte)).length ≤ 28 := by decide +kernel

theorem test_hyp_ArbiterTakesTurns :
    (State.reset.phase ≠ .open)
      ∧ live.inReset = false ∧ live.phase = .open
      ∧ (candidate (offer (.readClock .terminal 1) live) (otherPort live.lastServed)).isSome = true
      ∧ candidate (offer (.readClock .service 1) live) (otherPort live.lastServed) = none
      ∧ (candidate (offer (.readClock .service 1) live) live.lastServed).isSome = true
      ∧ candidate live .terminal = none ∧ candidate live .service = none := by decide +kernel

theorem test_hyp_PrivilegeAndSupplyRefuse :
    arbiterChoice (offer (.restart .terminal 1) live) = requestOf (.restart .terminal 1)
      ∧ Kind.ofCode Kind.restart.code = some .restart
      ∧ arbiterChoice (offer (.credit .service 1 7 1) { live with supply := .low })
          = requestOf (.credit .service 1 7 1)
      ∧ arbiterChoice (offer (.settleHold .terminal 1 ⟨0, 1⟩ 1) { live with supply := .low })
          = requestOf (.settleHold .terminal 1 ⟨0, 1⟩ 1) := by decide +kernel

theorem test_hyp_UnknownKindIsBadRequest :
    Kind.ofCode 0x00 = none ∧ Kind.ofCode 0x19 = none ∧ Kind.ofCode 0xFF = none
      ∧ Handed (.badRequest .terminal 1 0x19 [5]) (offer (.badRequest .terminal 1 0x19 [5]) live) := by decide +kernel

/-! ## Accounts -/

theorem test_hyp_LookupAndReadReport :
    Handed (.lookup .terminal 1 7) (offer (.lookup .terminal 1 7) served)
      ∧ findKey (offer (.lookup .terminal 1 7) served) 7 = some 1
      ∧ Handed (.lookup .terminal 1 8) (offer (.lookup .terminal 1 8) served)
      ∧ findKey (offer (.lookup .terminal 1 8) served) 8 = none
      ∧ Handed (.readReport .service 1) (offer (.readReport .service 1) served) := by decide +kernel

/-- The part with keys 7 and 9 in the index. -/
def twoKeys : State := { served with keyIndex := [(7, 1), (9, 2)] }

/-- Key 9 follows 8, and nothing follows 9. -/
theorem test_hyp_ListNext :
    (twoKeys.keyIndex.Pairwise (fun x y => x.1.toNat < y.1.toNat) ∧ ∀ e ∈ twoKeys.keyIndex, e.1 ≠ 0)
      ∧ Handed (.listNext .terminal 1 8) (offer (.listNext .terminal 1 8) twoKeys)
      ∧ ((9, 2) : Word × SlotNo) ∈ twoKeys.keyIndex ∧ (8 : Word).toNat < (9 : Word).toNat
      ∧ (∀ x ∈ twoKeys.keyIndex, (8 : Word).toNat < x.1.toNat → (9 : Word).toNat ≤ x.1.toNat)
      ∧ Handed (.listNext .terminal 1 9) (offer (.listNext .terminal 1 9) twoKeys)
      ∧ (∀ x ∈ twoKeys.keyIndex, x.1.toNat ≤ (9 : Word).toNat) := by
  refine ⟨⟨?_, ?_⟩, by decide +kernel, ?_, by decide, ?_, by decide +kernel, ?_⟩
  all_goals simp [twoKeys]

theorem test_hyp_AccountStateCheck :
    account.state = .active ∧ { account with state := .frozen }.state = .frozen
      ∧ { account with state := .opening }.state = .opening ∧ { account with state := .closing }.state = .closing
      ∧ { account with state := .faulted }.state = .faulted := by decide

/-- Requests by key: on an absent key, on a pending image, FROZEN, FAULTED and OPENING; a Terminal and a Service request;
OPEN_HOLD in LOW. -/
theorem test_hyp_KeyRefusals :
    let frozen := served.setSlot 1 { account with state := .frozen, frozenMark := true }
    let faulted := served.setSlot 1 { account with state := .faulted }
    let busy := served.setSlot 1 { account with pending := some (imageOn account .credit none (.word 1)) }
    (∀ c ∈ [Instr.lookup .terminal 1 8, .credit .service 1 8 5, .openHold .terminal 1 8 5 5],
        Handed c (offer c served) ∧ (namesKey c).isSome = true ∧ findKey served 8 = none)
      ∧ Handed (.openHold .terminal 1 8 5 5) (offer (.openHold .terminal 1 8 5 5) { served with supply := .low })
      ∧ findKey served 7 = some 1 ∧ stateCheck .credit (busy.slot 1) = some .accountBusy
      ∧ stateCheck .debitUnits (frozen.slot 1) = some .frozen ∧ stateCheck .openHold (faulted.slot 1) = some .faulted
      ∧ Handed (.credit .service 1 7 5) (offer (.credit .service 1 7 5) busy)
      ∧ Handed (.debitUnits .terminal 1 7 5) (offer (.debitUnits .terminal 1 7 5) frozen)
      ∧ Handed (.openHold .terminal 1 7 5 5) (offer (.openHold .terminal 1 7 5 5) faulted) := by decide +kernel

/-- An open at the limits: initial balance equal to the ceiling, and once the last pair of the free list. -/
theorem test_hyp_OpenAccount :
    let c : Instr := .openAccount .service 1 8 2 500 500 0
    ∀ rest ∈ [[], [(5 : PairNo)]],
      let s := offer c { served with freeList := 9 :: rest }
      Handed c s ∧ s.supply = .good ∧ findKey s 8 = none ∧ (8 : Word) ≠ 0 ∧ (2 : Byte).toNat = (2 : ClassNo).val
        ∧ (s.tariff 2).state = .defined ∧ (500 : Word).toNat ≤ (500 : Word).toNat ∧ (s.slot 0).state = .vacant
        ∧ (∀ j : SlotNo, j < 0 → (s.slot j).state ≠ .vacant) ∧ s.freeList = 9 :: rest := by decide +kernel

/-- Each refusal of OPEN_ACCOUNT: a key in the index, key 0, class 16, an UNDEFINED class, 501 above a ceiling of 500, every
slot taken, and the free list empty. -/
theorem test_hyp_OpenAccountRefuses :
    let full := { served with slots := Vector.replicate 256 account }
    let c (key : Word) (cls : Byte) (initial : Word) : Instr := .openAccount .service 1 key cls initial 500 0
    (∀ d ∈ [c 7 2 500, c 0 2 500, c 8 16 500, c 8 15 500, c 8 2 501, c 8 2 500], Handed d (offer d served))
      ∧ (findKey served 7).isSome = true ∧ findKey served 0 = none ∧ findKey served 8 = none ∧ 16 ≤ (16 : Byte).toNat
      ∧ (served.tariff 15).state = .undefined ∧ (500 : Word).toNat < (501 : Word).toNat
      ∧ Handed (c 8 2 500) (offer (c 8 2 500) full) ∧ findKey full 8 = none
      ∧ (full.tariff 2).state = .defined ∧ (∀ i : SlotNo, (full.slot i).state ≠ .vacant)
      ∧ (served.slot 0).state = .vacant ∧ ({ served with freeList := [] } : State).freeList = [] := by decide +kernel

theorem test_hyp_CloseAccount :
    let s := offer (.closeAccount .service 1 7) served
    let h := offer (.closeAccount .service 1 7) (served.setHold 3 ⟨1, .open aHold⟩)
    (Handed (.closeAccount .service 1 7) s ∧ s.supply = .good ∧ findKey s 7 = some 1 ∧ Unpended 1 s ∧ holdCount s 1 = 0)
      ∧ Handed (.closeAccount .service 1 7) h ∧ h.supply = .good ∧ findKey h 7 = some 1 ∧ Unpended 1 h
        ∧ holdCount h 1 ≠ 0 := by decide +kernel

theorem test_hyp_FreezeAndThaw :
    let f := served.setSlot 1 { account with state := .frozen, frozenMark := true }
    (findKey served 7 = some 1 ∧ (served.slot 1).pending = none ∧ (served.slot 1).state = .active
        ∧ Handed (.freeze .service 1 7) (offer (.freeze .service 1 7) served)
        ∧ Handed (.thaw .service 1 7) (offer (.thaw .service 1 7) served))
      ∧ findKey f 7 = some 1 ∧ (f.slot 1).pending = none ∧ (f.slot 1).state = .frozen
        ∧ Handed (.freeze .service 1 7) (offer (.freeze .service 1 7) f)
        ∧ Handed (.thaw .service 1 7) (offer (.thaw .service 1 7) f) := by decide +kernel

/-- SET_CLASS with class 16, with an UNDEFINED class, with the account's own and with another; SET_LIMITS with a ceiling
below the balance, with the committed values and with the balance itself. -/
theorem test_hyp_SetClassAndSetLimits :
    let s := served.setTariff 3 ⟨.defined, ⟨1, 1, 1, 1⟩, some 1, none, false⟩
    Unpended 1 s ∧ findKey s 7 = some 1 ∧ s.supply = .good
      ∧ Handed (.setClass .service 1 7 16) (offer (.setClass .service 1 7 16) s) ∧ 16 ≤ (16 : Byte).toNat
      ∧ Handed (.setClass .service 1 7 15) (offer (.setClass .service 1 7 15) s) ∧ (s.tariff 15).state = .undefined
      ∧ Handed (.setClass .service 1 7 2) (offer (.setClass .service 1 7 2) s) ∧ (s.tariff 2).state = .defined
      ∧ (s.slot 1).cls = 2
      ∧ Handed (.setClass .service 1 7 3) (offer (.setClass .service 1 7 3) s) ∧ (s.tariff 3).state = .defined
      ∧ (s.slot 1).cls ≠ 3
      ∧ Handed (.setLimits .service 1 7 999 100) (offer (.setLimits .service 1 7 999 100) s)
      ∧ (999 : Word).toNat < (s.slot 1).balance.toNat
      ∧ Handed (.setLimits .service 1 7 5000 100) (offer (.setLimits .service 1 7 5000 100) s)
      ∧ ((5000 : Word) = (s.slot 1).ceiling ∧ (100 : Word) = (s.slot 1).threshold)
      ∧ Handed (.setLimits .service 1 7 1000 100) (offer (.setLimits .service 1 7 1000 100) s)
      ∧ (s.slot 1).balance.toNat ≤ (1000 : Word).toNat ∧ ¬ ((1000 : Word) = (s.slot 1).ceiling) := by decide +kernel

/-! ## Balances -/

/-- CREDIT of 0, to one above the ceiling and to the ceiling; DEBIT_AMOUNT of 0, of one above the spendable amount of 700
and of all of it. -/
theorem test_hyp_CreditAndDebitAmount :
    let s := served.setHold 3 ⟨1, .open aHold⟩
    Unpended 1 s ∧ findKey s 7 = some 1 ∧ s.supply = .good ∧ (s.slot 1).state = .active ∧ heldTotal s 1 = 300
      ∧ Handed (.credit .service 1 7 0) (offer (.credit .service 1 7 0) s)
      ∧ Handed (.credit .service 1 7 4001) (offer (.credit .service 1 7 4001) s)
      ∧ (s.slot 1).ceiling.toNat < (s.slot 1).balance.toNat + (4001 : Word).toNat
      ∧ Handed (.credit .service 1 7 4000) (offer (.credit .service 1 7 4000) s)
      ∧ (5000 : Word).toNat = (s.slot 1).balance.toNat + (4000 : Word).toNat
      ∧ (5000 : Word).toNat ≤ (s.slot 1).ceiling.toNat
      ∧ Handed (.debitAmount .terminal 1 7 0) (offer (.debitAmount .terminal 1 7 0) s)
      ∧ Handed (.debitAmount .terminal 1 7 701) (offer (.debitAmount .terminal 1 7 701) s)
      ∧ (s.slot 1).balance.toNat - heldTotal s 1 < (701 : Word).toNat
      ∧ Handed (.debitAmount .service 1 7 700) (offer (.debitAmount .service 1 7 700) s)
      ∧ (700 : Word).toNat + heldTotal s 1 ≤ (s.slot 1).balance.toNat
      ∧ (300 : Word).toNat + (700 : Word).toNat = (s.slot 1).balance.toNat := by decide +kernel

/-- DEBIT_UNITS at an UNDEFINED class, at 32 units (1000 cu of 1000, all of it), 33 units (1020 cu), and at a charge
of 0. -/
theorem test_hyp_DebitUnits :
    let free := served.setTariff 2 ⟨.defined, ⟨0, 0, 0, 0⟩, some 1, none, false⟩
    findKey served 7 = some 1 ∧ (served.slot 1).state = .active ∧ (served.slot 1).pending = none
      ∧ (served.tariff 2).state = .defined
      ∧ ((served.setTariff 2 TariffClass.undefined).tariff 2).state = .undefined
      ∧ Handed (.debitUnits .terminal 1 7 33) (offer (.debitUnits .terminal 1 7 33) served)
      ∧ (served.slot 1).balance.toNat - heldTotal served 1 < charge (served.tariff 2).rates 33
      ∧ Handed (.debitUnits .terminal 1 7 32) (offer (.debitUnits .terminal 1 7 32) served)
      ∧ (1000 : Word).toNat = charge (served.tariff 2).rates 32
      ∧ (1000 : Word).toNat + heldTotal served 1 ≤ (served.slot 1).balance.toNat
      ∧ Handed (.debitUnits .service 1 7 65535) (offer (.debitUnits .service 1 7 65535) free)
      ∧ charge (free.tariff 2).rates 65535 = 0 := by decide +kernel

/-- No crossing; a crossing into both conditions at a spendable amount of 0, into the exhausted one alone with the
threshold at 0, and into low credit alone at 99. -/
theorem test_hyp_Reevaluation :
    let empty := served.setSlot 1 { account with balance := 0 }
    let bare := served.setSlot 1 { account with balance := 0, threshold := 0 }
    let low := served.setSlot 1 { account with balance := 99 }
    (¬ (spendable served 1 = 0) ∧ ¬ (spendable served 1 < (served.slot 1).threshold.toNat))
      ∧ spendable empty 1 = 0 ∧ (empty.slot 1).exhausted = false
      ∧ spendable empty 1 < (empty.slot 1).threshold.toNat ∧ (empty.slot 1).low = false
      ∧ spendable bare 1 = 0 ∧ ¬ spendable bare 1 < (bare.slot 1).threshold.toNat ∧ ¬ spendable low 1 = 0
      ∧ spendable low 1 < (low.slot 1).threshold.toNat ∧ (low.slot 1).low = false := by decide +kernel

/-! ## Tariffs -/

/-- The tiers meet at the boundary, and the worked charge of 20 units. -/
theorem test_charge_at_the_boundary :
    (10 : Half).toNat ≤ (10 : Half).toNat ∧ charge ⟨60, 10, 50, 20⟩ 10 = 560 ∧ charge ⟨60, 10, 50, 20⟩ 20 = 760 := by
  decide

theorem test_hyp_QuoteAndReadTariff :
    Handed (.quote .terminal 1 2 5) (offer (.quote .terminal 1 2 5) served) ∧ (served.tariff 2).state = .defined
      ∧ Handed (.quote .terminal 1 15 5) (offer (.quote .terminal 1 15 5) served) ∧ (served.tariff 15).state = .undefined
      ∧ Handed (.quote .terminal 1 16 5) (offer (.quote .terminal 1 16 5) served) ∧ 16 ≤ (16 : Byte).toNat
      ∧ Handed (.readTariff .service 1 15) (offer (.readTariff .service 1 15) served)
      ∧ (15 : Byte).toNat = (15 : ClassNo).val
      ∧ Handed (.readTariff .service 1 16) (offer (.readTariff .service 1 16) served) := by decide +kernel

theorem test_hyp_SetTariff :
    let fault := served.setTariff 2 ⟨.defined, ⟨60, 10, 50, 20⟩, some 1, none, true⟩
    Handed (.setTariff .service 1 16 ⟨1, 1, 1, 1⟩) (offer (.setTariff .service 1 16 ⟨1, 1, 1, 1⟩) served)
      ∧ Handed (.setTariff .service 1 2 ⟨1, 1, 1, 1⟩) (offer (.setTariff .service 1 2 ⟨1, 1, 1, 1⟩) fault)
      ∧ (fault.tariff 2).storeFault = true
      ∧ Handed (.setTariff .service 1 2 ⟨60, 10, 50, 20⟩) (offer (.setTariff .service 1 2 ⟨60, 10, 50, 20⟩) served)
      ∧ (served.tariff 2).state = .defined ∧ (served.tariff 2).rates = ⟨60, 10, 50, 20⟩
      ∧ Handed (.setTariff .service 1 15 ⟨0, 0, 0, 0⟩) (offer (.setTariff .service 1 15 ⟨0, 0, 0, 0⟩) served)
      ∧ (served.tariff 15).storeFault = false ∧ (served.tariff 15).state ≠ .defined := by decide +kernel

/-! ## Holds -/

theorem test_hyp_ReadClock : Handed (.readClock .service 1) (offer (.readClock .service 1) live) := by decide +kernel

/-- The longest duration, 7,200 s, for the whole spendable amount. -/
theorem test_hyp_OpenHold :
    let c : Instr := .openHold .terminal 1 7 1000 7200
    let s := offer c served
    Handed c s ∧ findKey s 7 = some 1 ∧ Reservable 1 s ∧ (1000 : Word) ≠ 0 ∧ (7200 : Half) ≠ 0
      ∧ (7200 : Half).toNat ≤ 7200 ∧ (7200 : Word).toNat = s.seconds.toNat + (7200 : Half).toNat
      ∧ (s.tariff (s.slot 1).cls).state = .defined ∧ (1000 : Word).toNat ≤ spendable s 1
      ∧ entryForHold s = some 0 := by decide +kernel

/-- The hold table full of OPEN holds. -/
def fullOfHolds : State := { served with holds := Vector.replicate 32 ⟨1, .open { aHold with slot := 2 }⟩ }

/-- Each refusal of OPEN_HOLD: 7,201 s; a deadline of 4,294,967,296; an UNDEFINED class; one above the spendable amount; no
entry left. -/
theorem test_hyp_OpenHoldRefuses :
    let late : State := { served with seconds := 4294967295 }
    let none : State := served.setTariff 2 TariffClass.undefined
    Reservable 1 served ∧ findKey served 7 = some 1
      ∧ Handed (.openHold .terminal 1 7 1 7201) (offer (.openHold .terminal 1 7 1 7201) served)
      ∧ 7200 < (7201 : Half).toNat
      ∧ Handed (.openHold .terminal 1 7 1 1) (offer (.openHold .terminal 1 7 1 1) late)
      ∧ 4294967295 < late.seconds.toNat + (1 : Half).toNat
      ∧ Handed (.openHold .terminal 1 7 1 7200) (offer (.openHold .terminal 1 7 1 7200) none)
      ∧ (none.tariff (none.slot 1).cls).state = .undefined
      ∧ none.seconds.toNat + (7200 : Half).toNat ≤ 4294967295
      ∧ Handed (.openHold .service 1 7 1001 1) (offer (.openHold .service 1 7 1001 1) served)
      ∧ spendable served 1 < (1001 : Word).toNat
      ∧ Handed (.openHold .terminal 1 7 1000 1) (offer (.openHold .terminal 1 7 1000 1) fullOfHolds)
      ∧ (1000 : Word).toNat ≤ spendable fullOfHolds 1 ∧ entryForHold fullOfHolds = Option.none := by decide +kernel

/-- A FREE entry 0; then, with none FREE, entry 3 of the two LAPSED in the same second; then neither. -/
theorem test_hyp_EntryForHold :
    let lapsed := (fullOfHolds.setHold 3 ⟨1, .lapsed aHold 600⟩).setHold 5 ⟨1, .lapsed aHold 600⟩
    (served.hold 0).state = .free
      ∧ (∀ m : HoldNo, (lapsed.hold m).state ≠ .free) ∧ (lapsed.hold 3).state = .lapsed aHold 600
      ∧ entryForHold lapsed = some 3
      ∧ (∀ m : HoldNo, (fullOfHolds.hold m).state ≠ .free) ∧ entryForHold fullOfHolds = none := by decide +kernel

/-- The part with the hold OPEN in entry 3. -/
def held : State := served.setHold 3 ⟨1, .open aHold⟩

/-- EXTEND_HOLD by 0, to one second past the limit of 14,500 and to the limit. -/
theorem test_hyp_ExtendHold :
    Names ⟨3, 1⟩ 3 held ∧ (held.hold 3).state = .open aHold ∧ aHold.owner = .terminal ∧ Reservable aHold.slot held
      ∧ Handed (.extendHold .terminal 1 ⟨3, 1⟩ 0) (offer (.extendHold .terminal 1 ⟨3, 1⟩ 0) held)
      ∧ Handed (.extendHold .terminal 1 ⟨3, 1⟩ 14001) (offer (.extendHold .terminal 1 ⟨3, 1⟩ 14001) held)
      ∧ aHold.opened.toNat + 14400 < aHold.deadline.toNat + (14001 : Half).toNat
      ∧ Handed (.extendHold .terminal 1 ⟨3, 1⟩ 14000) (offer (.extendHold .terminal 1 ⟨3, 1⟩ 14000) held)
      ∧ (14500 : Word).toNat = aHold.deadline.toNat + (14000 : Half).toNat
      ∧ (14500 : Word).toNat ≤ aHold.opened.toNat + 14400 := by decide +kernel

/-- SETTLE_HOLD at a charge of 0, and capped: 4 units at 260 cu against the amount, 5 units at 310 cu above it. -/
theorem test_hyp_SettleHold :
    let free := served.setHold 3 ⟨1, .open { aHold with rates := ⟨0, 0, 0, 0⟩ }⟩
    held.supply = .good ∧ Names ⟨3, 1⟩ 3 held ∧ Unpended aHold.slot held ∧ aHold.amount ≠ 0
      ∧ Names ⟨3, 1⟩ 3 free ∧ Handed (.settleHold .terminal 1 ⟨3, 1⟩ 9) (offer (.settleHold .terminal 1 ⟨3, 1⟩ 9) free)
      ∧ charge ⟨0, 0, 0, 0⟩ 9 = 0
      ∧ Handed (.settleHold .terminal 1 ⟨3, 1⟩ 5) (offer (.settleHold .terminal 1 ⟨3, 1⟩ 5) held)
      ∧ charge aHold.rates 5 = 310
      ∧ (300 : Word).toNat = min (charge aHold.rates 5) aHold.amount.toNat
      ∧ (0 : Word).toNat = aHold.amount.toNat - (300 : Word).toNat
      ∧ (10 : Word).toNat = charge aHold.rates 5 - aHold.amount.toNat
      ∧ (700 : Word).toNat + (300 : Word).toNat = (held.slot aHold.slot).balance.toNat := by decide +kernel

/-- CANCEL_HOLD by the owner and by the Service Port. -/
theorem test_hyp_CancelHold :
    Names ⟨3, 1⟩ 3 held ∧ (held.hold 3).state = .open aHold ∧ (held.slot aHold.slot).state = .active
      ∧ Handed (.cancelHold .terminal 1 ⟨3, 1⟩) (offer (.cancelHold .terminal 1 ⟨3, 1⟩) held)
      ∧ Handed (.cancelHold .service 1 ⟨3, 1⟩) (offer (.cancelHold .service 1 ⟨3, 1⟩) held) := by decide +kernel

/-- The part with the hold LAPSED in entry 3. -/
def lapsed : State := served.setHold 3 ⟨1, .lapsed aHold 500⟩

/-- A LAPSED, an OPEN and a SETTLING hold, and handles that name none: entry 32, a stale generation, a FREE entry. -/
theorem test_hyp_HoldStatus :
    let c : Instr := .holdStatus .service 1 ⟨3, 1⟩
    let settling := served.setHold 3 ⟨1, .settling aHold 100 200⟩
    (Handed c (offer c lapsed) ∧ Names ⟨3, 1⟩ 3 lapsed ∧ (lapsed.hold 3).state = .lapsed aHold 500)
      ∧ (Handed c (offer c held) ∧ Names ⟨3, 1⟩ 3 held ∧ (held.slot aHold.slot).state = .active)
      ∧ (Names ⟨3, 1⟩ 3 settling ∧ (settling.hold 3).state = .settling aHold 100 200)
      ∧ (∀ n : HoldNo, ¬ Names ⟨32, 1⟩ n held) ∧ (∀ n : HoldNo, ¬ Names ⟨3, 2⟩ n held)
      ∧ ∀ n : HoldNo, ¬ Names ⟨4, 255⟩ n held := by decide +kernel

/-- Requests by handle: on no hold, from the port that is not the owner, on a SETTLING hold from either port, and on an
account that step 4 refuses. -/
theorem test_hyp_HandleRefusals :
    let settling := served.setHold 3 ⟨1, .settling aHold 100 200⟩
    let frozen := held.setSlot 1 { account with state := .frozen, frozenMark := true }
    (∀ c ∈ [Instr.extendHold .terminal 1 ⟨32, 1⟩ 5, .settleHold .terminal 1 ⟨32, 1⟩ 5, .cancelHold .service 1 ⟨32, 1⟩],
        Handed c (offer c held) ∧ (namesHold c).isSome = true)
      ∧ (∀ n : HoldNo, ¬ Names ⟨32, 1⟩ n held)
      ∧ (∀ c ∈ [Instr.extendHold .service 1 ⟨3, 1⟩ 5, .settleHold .service 1 ⟨3, 1⟩ 5],
        Handed c (offer c held) ∧ Names ⟨3, 1⟩ 3 held ∧ (held.hold 3).state = .open aHold ∧ aHold.owner ≠ .service)
      ∧ (∀ p ∈ [Port.terminal, .service], Handed (.cancelHold p 1 ⟨3, 1⟩) (offer (.cancelHold p 1 ⟨3, 1⟩) settling)
        ∧ Names ⟨3, 1⟩ 3 settling)
      ∧ Handed (.extendHold .terminal 1 ⟨3, 1⟩ 5) (offer (.extendHold .terminal 1 ⟨3, 1⟩ 5) frozen)
      ∧ stateCheck .extendHold (frozen.slot aHold.slot) = some .frozen := by decide +kernel

/-- Each of the three requests on the LAPSED hold, from its owner and from the other port. -/
theorem test_hyp_LapsedHold :
    ∀ p ∈ [Port.terminal, .service], ∀ c ∈ [Instr.extendHold p 1 ⟨3, 1⟩ 5, .settleHold p 1 ⟨3, 1⟩ 5, .cancelHold p 1 ⟨3, 1⟩],
      Handed c (offer c lapsed) ∧ Names ⟨3, 1⟩ 3 (offer c lapsed) ∧ (offer c lapsed).supply = .good
        ∧ ((offer c lapsed).hold 3).state = .lapsed aHold 500 := by decide +kernel

/-- No tick in STARTING or at the end of the counter; a tick from 499 makes the hold of deadline 500 due, and not one of
deadline 501. -/
theorem test_hyp_SecondTick :
    State.reset.phase ≠ .open ∧ ({ live with seconds := 4294967295 } : State).seconds = 4294967295
      ∧ held.inReset = false ∧ held.phase = .open
      ∧ ({ held with seconds := 499 } : State).seconds.toNat < 4294967295
      ∧ aHold.deadline.toNat ≤ ({ held with seconds := 499 } : State).seconds.toNat + 1
      ∧ ({ held with seconds := 499 } : State).seconds.toNat + 1 < (501 : Word).toNat := by decide +kernel

/-- A tick to 499 with no hold due, and one to 500 that lapses a hold and sets no indicator. -/
theorem test_hyp_SecondTickAlerts :
    (∀ n : HoldNo, dueHold { held with seconds := 499 } n = none)
      ∧ (after (exec .secondTick { held with seconds := 499 })).map
          (fun t => (decide (∀ i : SlotNo, (t.slot i).low = false ∧ (t.slot i).exhausted = false),
            t.alerts.map (·.condition))) = some (true, [(.holdLapsed, .hold 3 1 7)]) := by decide +kernel

/-- A tick that finds a slot below its threshold with the indicators clear: the crossing raises LOW_CREDIT (R60, R34). -/
theorem test_secondTick_crossing :
    let s := { held.setSlot 1 { account with balance := 350, threshold := 500 } with seconds := 499 }
    (after (exec .secondTick s)).map (fun t => ((t.slot 1).low, (t.slot 1).exhausted, t.alerts.map (·.condition)))
      = some (true, false, [(.holdLapsed, .hold 3 1 7), (.lowCredit, .account 1 7)]) := by decide +kernel

/-! ## The Commit Engine and the Cell Store -/

/-- An ACCOUNT_IMAGE entry of slot 1 in a stage. -/
def entryAt (st : Stage) : CommitEntry :=
  ⟨.accountImage 1, .account 7 2 false 900 5000 100, some .terminal, some 9, st⟩

/-- Attempt `n` on copy B of account pair 4 under way, with sequence 4. -/
def attemptOn (n : AttemptNo) : Attempt := ⟨.account 4, .b, 4, n, true⟩

/-- The part with a DEBIT_AMOUNT image pending on slot 1 and its entry in a stage. -/
def committing (st : Stage) : State :=
  { served.setSlot 1 { account with pending := some { imageOn account .debitAmount none (.word 900) with balance := 900 } }
    with commitQueue := [entryAt st] }

/-- A first program on a pair below the wear limit, with sequence 4 after 3. -/
theorem test_hyp_FirstProgram :
    let s := committing .waiting
    s.inReset = false ∧ s.supply = .good ∧ s.commitQueue = [entryAt .waiting]
      ∧ (s.slot 1).currentPair.map PairId.account = some (.account 4)
      ∧ wearRelocates s (entryAt .waiting).subject (.account 4) = false
      ∧ (4 : Word).toNat = max (durableSequence s (entryAt .waiting).subject) (s.track (.account 4)).newestSequence.toNat + 1
      ∧ (s.track (.account 4)).wear.toNat < 4294967295 := by decide +kernel

/-- A first program on a pair at the wear limit, with two FREE pairs and with one; and a relocation under way. -/
theorem test_hyp_Relocation :
    let worn := (committing .waiting).setPair 4 ⟨some (.current 1), ⟨400000, some .a, 3⟩⟩
    (worn.supply = .good ∧ (worn.slot 1).pending.isSome = true ∧ ChangeKind.debitAmount ≠ .open
        ∧ (worn.slot 1).currentPair = some 4 ∧ 400000 ≤ (worn.pair 4).track.wear.toNat ∧ worn.freeList = [9, 5]
        ∧ (4 : Word).toNat = max (durableSequence worn (.accountImage 1)) (worn.pair 4).track.newestSequence.toNat + 1
        ∧ (4 : Word).toNat = max (durableSequence worn (.accountImage 1)) (worn.pair 9).track.newestSequence.toNat + 1)
      ∧ ({ worn with freeList := [9] } : State).freeList = [9]
      ∧ (entryAt (.relocating (attemptOn .first) 9 .a)).stage = .relocating (attemptOn .first) 9 .a
      ∧ (attemptOn .first).underWay = true ∧ ((committing .waiting).slot 1).currentPair = some 4 ∧ (4 : PairNo) ≠ 9
      ∧ verifyPasses (entryAt .waiting).image 4 ((committing .waiting).pair 9).track.wear
          (programmedCopy (entryAt .waiting).image 4 ((committing .waiting).pair 9).track.wear) = true := by
  decide +kernel

/-- An attempt that completes with what was programmed, on an image of a request and on one of a settle. -/
theorem test_hyp_DoneImage :
    let s := committing (.programming (attemptOn .first))
    s.inReset = false ∧ s.commitQueue = [entryAt (.programming (attemptOn .first))]
      ∧ (attemptOn .first).underWay = true ∧ (attemptOn .first).target = .account 4
      ∧ (s.slot 1).currentPair = some 4 ∧ (s.slot 1).pending.map (·.handle) = some none
      ∧ (imageOn account .settle (some (3, 1)) (.settle 100 true 0 900 100 500)).handle = some (3, 1)
      ∧ verifyPasses (entryAt .waiting).image 4 (s.pair 4).track.wear
          (programmedCopy (entryAt .waiting).image 4 (s.pair 4).track.wear) = true := by decide +kernel

/-- A close and a tariff change that complete, the close on a pair below the wear limit and on one at it. -/
theorem test_hyp_DoneCloseAndDoneTariff :
    let closing := { committing .waiting with
      commitQueue := [⟨.accountEmpty 1, .empty (some 7), some .service, some 9, .programming (attemptOn .first)⟩] }
    let tariff := { served.setTariff 2 { served.tariff 2 with pending := some ⟨⟨1, 2, 3, 4⟩, .service, 9⟩ } with
      commitQueue := [⟨.tariffImage 2, .tariff ⟨1, 2, 3, 4⟩, some .service, some 9,
        .programming ⟨.tariff 2, .b, 2, .first, true⟩⟩] }
    (closing.slot 1).pending.isSome = true ∧ (closing.pair 4).track.wear.toNat < 400000
      ∧ 400000 ≤ ((closing.setPair 4 ⟨some (.current 1), ⟨400000, some .a, 3⟩⟩).pair 4).track.wear.toNat
      ∧ verifyPasses (.empty (some 7)) 4 (closing.track (.account 4)).wear
          (programmedCopy (.empty (some 7)) 4 (closing.track (.account 4)).wear) = true
      ∧ (tariff.tariff 2).pending = some ⟨⟨1, 2, 3, 4⟩, .service, 9⟩
      ∧ verifyPasses (.tariff ⟨1, 2, 3, 4⟩) 2 (tariff.track (.tariff 2)).wear
          (programmedCopy (.tariff ⟨1, 2, 3, 4⟩) 2 (tariff.track (.tariff 2)).wear) = true := by decide +kernel

/-- A close done in the incoming pair of a relocation, with the pairs in either order, below the wear limit and at it. -/
theorem test_hyp_DoneCloseRelocated :
    let closing (p q : PairNo) (wear : Word) : State :=
      { ((committing .waiting).setSlot 1 { account with
          state := .closing, currentPair := some p, pending := some (imageOn account .close none (.word 1000)) }).setPair q
            ⟨some (.incoming 1), ⟨wear, none, 0⟩⟩ with
        commitQueue := [⟨.accountEmpty 1, .empty (some 7), some .service, some 9, .relocating (attemptOn .second) q .a⟩] }
    (attemptOn .second).underWay = true ∧ (4 : PairNo) < 9 ∧ ((closing 4 9 0).slot 1).currentPair = some 4
      ∧ ((closing 4 9 0).slot 1).pending.isSome = true ∧ ((closing 4 9 0).pair 9).track.wear.toNat < 400000
      ∧ ((closing 9 4 0).slot 1).currentPair = some 9
      ∧ 400000 ≤ ((closing 9 4 400000).pair 4).track.wear.toNat
      ∧ verifyPasses (.empty (some 7)) 4 400000 (programmedCopy (.empty (some 7)) 4 400000) = true
      ∧ verifyPasses (.empty (some 7)) 4 0 (programmedCopy (.empty (some 7)) 4 0) = true := by decide +kernel

/-- A part in TIDYING with pairs 6 and 8 STALE and an attempt on pair 6 under way. -/
def tidying : State :=
  { (live.setPair 6 ⟨some .stale, ⟨1, some .a, 1⟩⟩).setPair 8 ⟨some .stale, ⟨399999, some .a, 1⟩⟩ with
    phase := .tidying
    commitQueue := [⟨.tidyEmpty 6, .empty none, none, none, .programming ⟨.account 6, .b, 2, .second, true⟩⟩] }

/-- Pair 7 is STALE at the wear limit besides. -/
def passing : State := tidying.setPair 7 ⟨some .stale, ⟨400000, some .a, 1⟩⟩

/-- A tidy that is done, below the wear limit and at it, and one that fails, with pair 8 following, with pair 7 at the
limit before it, and with none following. -/
theorem test_hyp_Tidy :
    let last := tidying.setPair 8 ⟨some .free, PairTrack.cleared⟩
    tidying.inReset = false ∧ tidying.phase = .tidying ∧ (tidying.pair 6).role = some .stale
      ∧ verifyPasses (.empty none) 2 (tidying.pair 6).track.wear
          (programmedCopy (.empty none) 2 (tidying.pair 6).track.wear) = true
      ∧ verifyPasses (.empty none) 2 (tidying.pair 6).track.wear blankCopy = false
      ∧ (∀ q : PairNo, q ≠ 6 → (last.pair q).role ≠ some .stale)
      ∧ (tidying.pair 8).role = some .stale ∧ (tidying.pair 8).track.wear.toNat < 400000
      ∧ (∀ r : PairNo, r ≠ 6 → r < 8 → (tidying.pair r).role ≠ some .stale)
      ∧ (tidying.pair 6).track.wear.toNat < 400000
      ∧ 400000 ≤ ((tidying.setPair 6 ⟨some .stale, ⟨400000, some .a, 1⟩⟩).pair 6).track.wear.toNat
      ∧ (∀ r : PairNo, r ≠ 6 → r < 8 → (passing.pair r).role = some .stale → 400000 ≤ (passing.pair r).track.wear.toNat)
      ∧ (passing.pair 7).role = some .stale := by decide +kernel

/-- Pair 7 becomes WORN in passing and pair 8 follows (R120). -/
theorem test_tidy_passes_a_pair_at_the_limit :
    (after (exec (.attemptComplete blankCopy) passing)).map (fun s => (s.wornSet, s.commitQueue))
        = some ([6, 7], [⟨.tidyEmpty 8, .empty none, none, none, .waiting⟩])
      ∧ (after (exec (.attemptComplete blankCopy) passing)).map (fun s => (s.pair 7, s.alerts.map (·.condition)))
        = some (⟨some .worn, ⟨400000, some .a, 1⟩⟩, [(.pairRetired, .pair 6)]) := by decide +kernel

/-- A failed verify after attempt 1 on the target and on an incoming pair, in GOOD and in LOW, and after attempt 2 with FREE
pairs left. -/
theorem test_hyp_FailedVerify :
    let first := committing (.programming (attemptOn .first))
    let second := committing (.programming (attemptOn .second))
    first.supply = .good ∧ ({ first with supply := .low } : State).supply = .low
      ∧ verifyPasses (entryAt .waiting).image 4 (first.track (.account 4)).wear blankCopy = false
      ∧ (first.track (.account 4)).wear.toNat < 4294967295
      ∧ (committing (.relocating (attemptOn .first) 9 .a)).commitQueue = [entryAt (.relocating (attemptOn .first) 9 .a)]
      ∧ verifyPasses (entryAt .waiting).image 4 (first.track (.account 9)).wear blankCopy = false
      ∧ (first.track (.account 9)).wear.toNat < 4294967295
      ∧ (attemptOn .second).number = .second ∧ second.freeList = [9, 5]
      ∧ (4 : Word).toNat = max (durableSequence second (.accountImage 1)) (second.pair 9).track.newestSequence.toNat + 1 := by
  decide +kernel

/-- A failed attempt 2 with no FREE pair left, on a change other than an open; and a settle's hold to put back. -/
theorem test_hyp_Fault :
    let s := { committing (.programming (attemptOn .second)) with freeList := [] }
    s.inReset = false ∧ s.commitQueue = [entryAt (.programming (attemptOn .second))] ∧ s.freeList = []
      ∧ (s.slot 1).pending.map (·.change) = some .debitAmount
      ∧ verifyPasses (entryAt .waiting).image 4 (s.track (.account 4)).wear blankCopy = false
      ∧ ((s.setHold 3 ⟨1, .settling aHold 100 200⟩).hold 3).state = .settling aHold 100 200 := by decide +kernel

/-- The head ends in a fault in each of its ways, on a change, an open, a tariff and a tidy. -/
theorem test_hyp_EndsInFault :
    let refused := { committing (.programming (attemptOn .second)) with freeList := [] }
    let moved := committing (.relocating (attemptOn .second) 9 .a)
    let last (s : State) : State := s.setPair 4 ⟨some (.current 1), ⟨3, some .a, 4294967295⟩⟩
    let spent (s : State) : State := s.setPair 9 ⟨some .free, ⟨3, some .a, 4294967295⟩⟩
    let worn := spent ((committing .waiting).setPair 4 ⟨some (.current 1), ⟨400000, some .a, 3⟩⟩)
    let tariff := { served.setTariff 2 { served.tariff 2 with pending := some ⟨⟨1, 2, 3, 4⟩, .service, 9⟩ } with
      commitQueue := [⟨.tariffImage 2, .tariff ⟨1, 2, 3, 4⟩, some .service, some 9,
        .programming ⟨.tariff 2, .b, 2, .second, true⟩⟩] }
    EndsInFault (.attemptComplete blankCopy) refused (entryAt (.programming (attemptOn .second))) none []
        (some (.account 4, .b, blankCopy))
      ∧ EndsInFault (.attemptComplete blankCopy) moved (entryAt (.relocating (attemptOn .second) 9 .a)) (some 9) [9, 5]
        (some (.account 9, .a, blankCopy))
      ∧ EndsInFault .firstProgram (last (committing .waiting)) (entryAt .waiting) none [9, 5] none
      ∧ EndsInFault .firstProgram worn (entryAt .waiting) (some 9) [5] none
      ∧ EndsInFault (.attemptComplete blankCopy) (spent (committing (.programming (attemptOn .second))))
        (entryAt (.programming (attemptOn .second))) (some 9) [5] (some (.account 4, .b, blankCopy))
      ∧ EndsInFault (.attemptComplete blankCopy) tariff ⟨.tariffImage 2, .tariff ⟨1, 2, 3, 4⟩, some .service, some 9,
        .programming ⟨.tariff 2, .b, 2, .second, true⟩⟩ none [9, 5] (some (.tariff 2, .b, blankCopy))
      ∧ EndsInFault (.attemptComplete blankCopy) tidying ⟨.tidyEmpty 6, .empty none, none, none,
        .programming ⟨.account 6, .b, 2, .second, true⟩⟩ none [] (some (.account 6, .b, blankCopy)) :=
  ⟨.refused _ _ [] (attemptOn .second) _ rfl rfl rfl rfl rfl (by decide +kernel) (.inl rfl),
    .relocationFailed _ _ [] (attemptOn .second) 9 .a _ rfl rfl rfl rfl rfl (by decide +kernel),
    .noSequence _ _ [] (.account 4) rfl rfl rfl rfl (by decide +kernel) (by decide +kernel),
    .noSequenceOnWear _ _ [] (.account 4) 9 [5] rfl rfl rfl rfl (by decide +kernel) (by decide +kernel)
      (by decide +kernel) rfl (by decide +kernel),
    .noSequenceOnSpare _ _ [] (attemptOn .second) _ 9 [5] rfl rfl rfl rfl rfl (by decide +kernel) rfl rfl
      (by decide +kernel),
    .refused _ _ [] ⟨.tariff 2, .b, 2, .second, true⟩ _ rfl rfl rfl rfl rfl (by decide +kernel) (.inr rfl),
    .refused _ _ [] ⟨.account 6, .b, 2, .second, true⟩ _ rfl rfl rfl rfl rfl (by decide +kernel) (.inr rfl)⟩

/-- A fault of an open, and one in an event whose claim has emptied the free list. -/
theorem test_hyp_FaultOfAnOpen :
    let opening := { (committing (.programming (attemptOn .second))).setSlot 1 { account with
      state := .opening, pending := some (imageOn account .open none (.slot 1)) } with freeList := [] }
    let spent := ((committing .waiting).setPair 4 ⟨some (.current 1), ⟨400000, some .a, 3⟩⟩).setPair 9
      ⟨some .free, ⟨3, some .a, 4294967295⟩⟩
    EndsInFault (.attemptComplete blankCopy) opening (entryAt (.programming (attemptOn .second))) none []
        (some (.account 4, .b, blankCopy))
      ∧ (opening.slot 1).pending.map (·.change) = some .open ∧ (opening.slot 1).currentPair = some 4
      ∧ EndsInFault .firstProgram { spent with freeList := [9] } (entryAt .waiting) (some 9) [] none
      ∧ (after (exec .firstProgram { spent with freeList := [9] })).map (fun t => t.alerts.map (·.condition))
        = some [(.storeFault, .account 1 7), (.sparesExhausted, .none), (.pairRetired, .pair 9)] :=
  ⟨.refused _ _ [] (attemptOn .second) _ rfl rfl rfl rfl rfl (by decide +kernel) (.inl rfl), rfl, rfl,
    .noSequenceOnWear _ _ [] (.account 4) 9 [] rfl rfl rfl rfl (by decide +kernel) (by decide +kernel)
      (by decide +kernel) rfl (by decide +kernel), by decide +kernel⟩

/-- A change, an open and a tariff change to drop. -/
theorem test_hyp_Dropped :
    let tariff := served.setTariff 2 { served.tariff 2 with pending := some ⟨⟨1, 2, 3, 4⟩, .service, 9⟩ }
    let opening := served.setSlot 1 { account with pending := some (imageOn account .open none (.slot 1)) }
    (entryAt .waiting).subject = .accountImage 1
      ∧ ((committing .waiting).slot 1).pending.map (·.change) = some .debitAmount
      ∧ (opening.slot 1).pending.map (·.change) = some .open ∧ (opening.slot 1).currentPair = some 4
      ∧ (opening.pair 4).track.wear.toNat < 400000
      ∧ 400000 ≤ ((opening.setPair 4 ⟨some (.current 1), ⟨400000, some .a, 3⟩⟩).pair 4).track.wear.toNat
      ∧ (tariff.tariff 2).pending = some ⟨⟨1, 2, 3, 4⟩, .service, 9⟩ := by decide +kernel

/-! ## Supply, resets, the scan and RESTART -/

theorem test_hyp_SteadyTimer :
    State.reset.inReset = false ∧ State.reset.supply = .low ∧ live.supply = .good ∧ live.vdd = .safe := by decide

/-- The change to GOOD from STARTING and in OPEN; with an empty queue, a WAITING head, a head stopped on its pair and on an
incoming pair, and an attempt under way. -/
theorem test_hyp_ChangeToGood :
    let timing (s : State) : State := { s with supply := .low, steadyTimer := .running }
    (timing State.reset).inReset = false ∧ (timing State.reset).supply = .low
      ∧ (timing State.reset).steadyTimer = .running ∧ ¬ servesPorts (timing State.reset) ∧ servesPorts (timing live)
      ∧ (timing (committing (.programming { attemptOn .second with underWay := false }))).commitQueue
          = [entryAt (.programming { attemptOn .second with underWay := false })]
      ∧ (timing (committing (.relocating { attemptOn .first with underWay := false } 9 .a))).commitQueue
          = [entryAt (.relocating { attemptOn .first with underWay := false } 9 .a)]
      ∧ (timing State.reset).commitQueue = [] ∧ (timing (committing .waiting)).commitQueue = [entryAt .waiting]
      ∧ (timing (committing (.programming (attemptOn .first)))).commitQueue = [entryAt (.programming (attemptOn .first))]
      ∧ (attemptOn .first).underWay = true := by decide +kernel

/-- The change to LOW in OPEN with a WAITING entry, in SCANNING with none, and in RESTARTING with a queue that
stays, with one that is emptied, and with nothing queued. -/
theorem test_hyp_ChangeToLow :
    (committing .waiting).inReset = false ∧ (committing .waiting).supply = .good
      ∧ (committing .waiting).phase ≠ .restarting ∧ (committing .waiting).phase = .open
      ∧ ({ live with phase := .scanning } : State).commitQueue = []
      ∧ ({ live with phase := .scanning } : State).phase ≠ .open
      ∧ ({ committing (.programming (attemptOn .first)) with phase := .restarting } : State).supply = .good
      ∧ (entryAt (.programming (attemptOn .first))).stage ≠ .waiting
      ∧ (entryAt .waiting).isTidy = false ∧ ({ committing .waiting with phase := .restarting } : State).phase = .restarting
      ∧ live.commitQueue = [] ∧ live.terminal.responses = [] ∧ live.service.responses = [] := by decide +kernel

/-- A part in RESTARTING whose collection wait runs, with one response to collect on either port. -/
def waiting (p : Port) : State :=
  { live.setPort p { live.port p with responses := [⟨1, Kind.restart.code, .ok, .zeros⟩] } with
    phase := .restarting, collectionWait := true }

theorem test_hyp_Resets :
    let cut := committing (.programming (attemptOn .first))
    cut.commitQueue = [entryAt (.programming (attemptOn .first))] ∧ (attemptOn .first).underWay = true
      ∧ (∀ e ∈ live.commitQueue.head?, e.stage.underWay = false)
      ∧ (∀ p ∈ [Port.terminal, .service], (waiting p).collectionWait = true ∧ (waiting p).inReset = false
        ∧ (waiting p).phase = .restarting ∧ (waiting p).commitQueue = []
        ∧ ((waiting p).port p).responses = [⟨1, Kind.restart.code, .ok, .zeros⟩]
        ∧ ((waiting p).port (otherPort p)).responses = [])
      ∧ (responseFrame ⟨1, Kind.restart.code, .ok, .zeros⟩).length = 5 ∧ live.collectionWait = false := by
  decide +kernel

theorem test_hyp_ResetEnd :
    ({ State.reset with inReset := true } : State).inReset = true ∧ State.reset.inReset = false := by decide

theorem test_hyp_Scan :
    ({ live with phase := .scanning } : State).inReset = false ∧ ({ live with phase := .scanning } : State).phase = .scanning := by
  decide

/-- The cells with the account image of key 7 as sequence 4 in copy A of account pair 4. -/
def imaged : State :=
  ({ live with phase := .scanning } : State).setCopy (.account 4) .a (programmedCopy (entryAt .waiting).image 4 1)

/-- A pair with a content and a pair with none. -/
theorem test_hyp_ScanContent :
    (contentOf 4 (imaged.cells (.account 4))).map (fun x => (x.key, x.isImage)) = some (7, true)
      ∧ contentOf 5 (imaged.cells (.account 5)) = none ∧ imaged.phase = .scanning := by decide +kernel

/-- Key 7 in two pairs: the older image, in pair 6, is no winner. -/
theorem test_hyp_ScanStale :
    let s := imaged.setCopy (.account 6) .a (programmedCopy (entryAt .waiting).image 3 1)
    (contentOf 6 (s.cells (.account 6))).map (fun x => (x.key, x.isImage, x.sequence)) = some (7, true, 3)
      ∧ (contentOf 4 (s.cells (.account 4))).map (fun x => (x.key, x.isImage, x.sequence)) = some (7, true, 4) := by
  decide +kernel

/-- An account image with a key of its own in each of the pairs 0 to 256. -/
def crowded : State :=
  { live with
    phase := .scanning
    accountCells := tabulate fun p =>
      if p.val < 257 then ⟨programmedCopy (.account (BitVec.ofNat 32 (p.val + 1)) 2 false 0 0 0) 1 1, blankCopy⟩
      else ⟨blankCopy, blankCopy⟩ }

/-- One winner more than there are slots. -/
theorem test_hyp_ScanExcess (p : PairNo) (h : p.val < 257) :
    ∃ x, Content crowded x ∧ x.pair = p ∧ x.isImage = true ∧ x.key.toNat = p.val + 1 := by
  have c : crowded.cells (.account p)
      = ⟨programmedCopy (.account (BitVec.ofNat 32 (p.val + 1)) 2 false 0 0 0) 1 1, blankCopy⟩ :=
    (get_tabulate _ p).trans (if_pos h)
  have k : (BitVec.ofNat 32 (p.val + 1)).toNat = p.val + 1 := by
    simp
    omega
  have e := contentOf_programmed p (BitVec.ofNat 32 (p.val + 1)) 2 false 0 0 0 1 1
    (fun x => by rw [x] at k; simp at k) (by decide) (by decide)
  rw [← c] at e
  exact ⟨⟨p, _, 1, true, _⟩, e, rfl, rfl, k⟩

theorem test_hyp_Restart :
    let c : Instr := .restart .service 1
    WindowLaw (offer c live) ∧ Handed c (offer c live) ∧ (offer c live).collectionWait = false := by decide +kernel

/-! ## Alerts -/

/-- An URGENT and a ROUTINE entry about pair `n`. -/
def urgentEntry (n : PairNo) : AlertEntry := ⟨.storeFault, .pair n, 0, 255⟩
def routineEntry (n : PairNo) : AlertEntry := ⟨.pairRetired, .pair n, 0, 1⟩

/-- A full queue of 16 entries of which the first `k` are URGENT. -/
def fullQueue (k : Nat) : List AlertEntry :=
  (List.finRange 16).map (fun n => if n.val < k then urgentEntry (n.castLE (by decide)) else routineEntry (n.castLE (by decide)))

theorem test_hyp_RaiseCoalesces :
    AlertLaw { live with alerts := [urgentEntry 0, routineEntry 1] }
      ∧ [urgentEntry 0, routineEntry 1] = [] ++ urgentEntry 0 :: [routineEntry 1]
      ∧ (urgentEntry 0).occurrences = 255 ∧ (routineEntry 1).occurrences ≠ 255 := by decide +kernel

/-- A queue with room, one full of ROUTINE after 15 URGENT, and one full of URGENT entries. -/
theorem test_hyp_RaiseJoins :
    AlertLaw { live with alerts := [urgentEntry 0, routineEntry 1] } ∧ AlertLaw { live with alerts := fullQueue 15 }
      ∧ AlertLaw { live with alerts := fullQueue 16 } ∧ (fullQueue 15).length = 16 ∧ (fullQueue 16).length = 16
      ∧ (∀ e ∈ fullQueue 16, e.urgent = true) ∧ (∀ e ∈ (fullQueue 15).drop 15, e.urgent = false)
      ∧ (∀ e ∈ fullQueue 15, e.condition ≠ (.supplyLow, .none)) ∧ (∀ e ∈ fullQueue 16, e.condition ≠ (.supplyLow, .none))
      ∧ AlertKind.urgent .supplyLow = true ∧ AlertKind.urgent .supplyRestored = false := by decide +kernel

/-- FETCH_ALERT with each filter on a head of each urgency and on an empty queue; SET_ALERT_MASK at 2 and at 3. -/
theorem test_hyp_AlertRequests :
    (∀ c ∈ [Instr.fetchAlert .terminal 1 0, .fetchAlert .terminal 1 1, .fetchAlert .terminal 1 2, .setAlertMask .terminal 1 2,
        .setAlertMask .terminal 1 3], Handed c (offer c live))
      ∧ (urgentEntry 0).urgent = true ∧ (routineEntry 0).urgent = false ∧ live.alerts = []
      ∧ 2 < (3 : Byte).toNat ∧ ({ State.reset with inReset := true } : State).inReset = true
      ∧ (live.port .terminal).mask = .all ∧ (live.port .service).mask = .urgent
      ∧ ({ live.terminal with mask := .none } : PortState).mask = .none := by decide +kernel

/-! ## The ports -/

/-- A READ_CLOCK frame with tag 5. -/
def clockFrame : List Byte := requestFrame 5 0x14 []

/-- Four requests with tags 1 to 4 in the Terminal window. -/
def fullWindow : List Request := [⟨1, 0x14, [], .untaken⟩, ⟨2, 0x14, [], .untaken⟩, ⟨3, 0x14, [], .untaken⟩, ⟨4, 0x14, [], .untaken⟩]

/-- A good frame; frames of length 3 and 33, cut short, with a CRC-8 that fails, and of a length not the kind's; a full
window, and a window of three with and without the tag. -/
theorem test_hyp_Submit :
    live.inReset = false ∧ State.reset.phase ≠ .open ∧ live.phase = .open
      ∧ checkFrame clockFrame = some ⟨5, 0x14, [], .untaken⟩ ∧ checkFrame [3, 0, 0] = none ∧ checkFrame [] = none
      ∧ checkFrame (33 :: clockFrame) = none ∧ checkFrame clockFrame.dropLast = none
      ∧ checkFrame (clockFrame.dropLast ++ [0]) = none ∧ checkFrame (requestFrame 5 0x14 [0]) = none
      ∧ fullWindow.length = 4 ∧ (fullWindow.drop 1).length < 4
      ∧ (∀ x ∈ fullWindow.drop 1, x.tag ≠ 5) ∧ (∃ x ∈ ([⟨5, 0x14, [], .untaken⟩] : List Request), x.tag = 5)
      ∧ live.service.window = [] ∧ clockFrame ≠ [] ∧ live.serviceAddress ≠ 83 := by decide +kernel

/-- A part in a reset, and an address that is not the part's (R158, R161). -/
theorem test_hyp_NoTransaction :
    ({ live with inReset := true } : State).inReset = true ∧ live.serviceAddress ≠ 0x53 := by decide

/-- A row of Table 12-1 with a body: the LAPSED hold of aHold, whose slot is reported as 0 (R75). -/
theorem test_hyp_ResponseFrame :
    (Kind.holdStatus, (0x13 : Byte), 44) ∈ responseRows
      ∧ ResponseBody .holdStatus (.hold (.lapsed aHold 500)) (holdFields 0x03 aHold 0 0 0 500)
      ∧ (responseFrame ⟨1, 0x13, .ok, .hold (.lapsed aHold 500)⟩).take 11 = [44, 1, 0x13, 0, 3, 0, 0, 0, 7, 0, 0]
      ∧ (Kind.freeze, (0x05 : Byte), 5) ∈ responseRows ∧ ResponseBody .freeze .zeros [] :=
  ⟨by decide, .lapsedHold _ _, by decide +kernel, by decide, .refusal .freeze 0x05 5 (by decide)⟩

/-- A ready response of 5 bytes on each port, and none; in RESTARTING with an entry left and with a response left. -/
theorem test_hyp_Collect :
    let r : Response := ⟨1, Kind.freeze.code, .ok, .zeros⟩
    live.inReset = false ∧ live.phase ≠ .restarting ∧ live.terminal.responses = [] ∧ live.service.responses = []
      ∧ ({ live.terminal with responses := [r] } : PortState).responses = [r]
      ∧ (responseFrame r).length ≤ 5 ∧ 4 < (responseFrame r).length
      ∧ SomethingLeft live [] [] ∧ SomethingLeft { committing .waiting with phase := .restarting } [] []
      ∧ SomethingLeft { live with phase := .restarting } [] [r] ∧ SomethingLeft { live with phase := .restarting } [r] [] := by
  simp only [SomethingLeft]
  decide +kernel

theorem test_hyp_Status :
    (0x0B : Byte) ≠ 0x0A ∧ (0x0B : Byte) ≠ 0x0C ∧ (0x0F : Byte) ≠ 0x0A ∧ (0x0F : Byte) ≠ 0x0C ∧ live.inReset = false := by
  decide

/-- The code bytes of R163: 0Ah submits the frame, 0Ch collects, 0Fh does neither. -/
theorem test_transaction_codes :
    let ready (s : State) : State := { s with terminal := { s.terminal with responses := [⟨1, 0x14, .ok, .word 0⟩] } }
    let seen (code : Byte) := (after (exec (.status code clockFrame) (ready live))).map
      (fun s => (s.terminal.outcome, s.terminal.window.length, s.terminal.responses.length))
    seen 0x0A = some (.accepted, 1, 1) ∧ seen 0x0F = some (.none, 0, 1)
      ∧ (after (exec (.status 0x0C (List.replicate 9 0)) (ready live))).map (·.terminal.responses) = some [] := by
  decide +kernel

/-- The port status 9Fh: a response ready, no alert, OPEN in GOOD with outcome ACCEPTED. -/
theorem test_port_status :
    portStatus { live with terminal := { live.terminal with
      responses := [⟨1, Kind.freeze.code, .ok, .zeros⟩], outcome := .accepted } } .terminal = 0x9F := by decide +kernel

/-! ## The laws, with a state that has something in every table -/

theorem test_hyp_Laws :
    AlertLaw { live with alerts := fullQueue 15 }
      ∧ WindowLaw { live with terminal := { live.terminal with window := fullWindow } }
      ∧ CommitLaw (committing (.programming (attemptOn .first))) := by decide +kernel

theorem test_hyp_CeilingLaw : CeilingLaw (committing .waiting) := by decide +kernel

theorem test_hyp_HoldLaw : HoldLaw (held.setHold 5 ⟨255, .settling aHold 1 299⟩) := by decide +kernel

theorem test_hyp_SupplyAndPhaseLaws :
    SupplyLaw tidying ∧ PhaseLaw tidying :=
  ⟨by decide +kernel, fun _ => ⟨by decide +kernel, by decide +kernel, by decide +kernel, by decide +kernel,
    by decide +kernel⟩, by decide +kernel, by decide +kernel⟩

/-! ## Commands carried out -/

theorem test_readClock_answer :
    latest .terminal (exec (.readClock .terminal 1) (offer (.readClock .terminal 1) { live with seconds := 77 }))
      = some ⟨1, 0x14, .ok, .word 77⟩ := by decide +kernel

theorem test_debitUnits_is_deferred_and_settle_is_refused_by_the_other_port :
    latest .terminal (exec (.debitUnits .terminal 1 7 10) (offer (.debitUnits .terminal 1 7 10) served)) = none
      ∧ latest .service (exec (.settleHold .service 1 ⟨3, 1⟩ 5) (offer (.settleHold .service 1 ⟨3, 1⟩ 5) held))
          = some ⟨1, 0x11, .notOwner, .zeros⟩ := by decide +kernel

/-- The collect that ends in the RESTART reset leaves the status and the frame on the wires (R157, log 6). -/
theorem test_collect_into_the_reset_keeps_the_wire :
    (after (exec (.collect 5) (waiting .terminal))).map
        (fun s => (s.inReset, s.terminal.responses, s.terminal.wire.sent.tail))
      = some (true, [], responseFrame ⟨1, Kind.restart.code, .ok, .zeros⟩) := by decide +kernel

/-- The change to GOOD begins the first program of a WAITING head (R93, R133). -/
theorem test_changeToGood_begins_the_waiting_head :
    (after (exec .changeToGood { committing .waiting with supply := .low, steadyTimer := .running })).map (·.commitQueue)
      = some [entryAt (.programming (attemptOn .first))] := by decide +kernel

theorem test_quote_answer :
    latest .service (exec (.quote .service 3 2 20) (offer (.quote .service 3 2 20) served))
      = some ⟨3, 0x0C, .ok, .quote 60 500 200 760⟩ := by decide +kernel

end Sys2Proof.Tests
end

/-! PROOFS. The account table (chapter 1): LIST_NEXT walks the key index in ascending order (R9). -/

namespace Sys2Proof.Machine

/-! ## The next key of an ascending index (R7, R9) -/

/-- In an ascending index the first entry above `key` is the least of those above it: the entries before it are not
above `key`, and the entries after it have greater keys. -/
theorem find?_above_le {index : List (Word × SlotNo)} {key : Word} {first : Word × SlotNo}
    (ascending : index.Pairwise (fun x y => x.1.toNat < y.1.toNat))
    (found : index.find? (fun e => decide (key.toNat < e.1.toNat)) = some first) :
    ∀ x ∈ index, key.toNat < x.1.toNat → first.1.toNat ≤ x.1.toNat := by
  intro x hx above
  obtain ⟨-, before, after, rfl, notAbove⟩ := List.find?_eq_some_iff_append.mp found
  have greater : ∀ y ∈ after, first.1.toNat < y.1.toNat :=
    (List.pairwise_cons.mp (List.pairwise_append.mp ascending).2.1).1
  rcases List.mem_append.mp hx with hbefore | hrest
  · have notAboveX := notAbove x hbefore
    simp [above] at notAboveX
  · rcases List.mem_cons.mp hrest with rfl | hafter
    · exact Nat.le_refl _
    · exact Nat.le_of_lt (greater x hafter)

/-- The next key is the key of the least entry above the given one (R9). -/
theorem nextKey_eq_of_least {s : State} {key : Word} {e : Word × SlotNo} (law : KeyIndexLaw s)
    (mem : e ∈ s.keyIndex) (above : key.toNat < e.1.toNat)
    (least : ∀ x ∈ s.keyIndex, key.toNat < x.1.toNat → e.1.toNat ≤ x.1.toNat) : nextKey s key = e.1 := by
  obtain ⟨ascending, -⟩ := law
  unfold nextKey
  cases found : s.keyIndex.find? (fun e => decide (key.toNat < e.1.toNat)) with
  | none => exact absurd (decide_eq_true above) (List.find?_eq_none.mp found e mem)
  | some first =>
    have firstLe : first.1.toNat ≤ e.1.toNat := find?_above_le ascending found e mem above
    have firstAbove : key.toNat < first.1.toNat := by simpa using List.find?_some found
    have leFirst : e.1.toNat ≤ first.1.toNat := least first (List.mem_of_find?_eq_some found) firstAbove
    exact BitVec.eq_of_toNat_eq (Nat.le_antisymm firstLe leFirst)

/-- At the end of the list, where no entry is above the given key, the next key is 0 (R9). -/
theorem nextKey_eq_zero {s : State} {key : Word} (atEnd : ∀ x ∈ s.keyIndex, x.1.toNat ≤ key.toNat) :
    nextKey s key = 0 := by
  have none_above : s.keyIndex.find? (fun e => decide (key.toNat < e.1.toNat)) = none :=
    List.find?_eq_none.mpr fun x hx => by simpa using atEnd x hx
  unfold nextKey
  rw [none_above]

/-! ## LIST_NEXT -/

/-- The handing does not touch the key index, so it does not move the next key. -/
@[simp] theorem nextKey_servedBy (p : Port) (s : State) (key : Word) : nextKey (servedBy p s) key = nextKey s key := rfl

/-- A LIST_NEXT that is handed over is answered OK with the next key, and nothing else happens. -/
theorem listNext_answersOnly {p : Port} {tag : Byte} {key : Word} {s : State} (handed : Handed (.listNext p tag key) s) :
    AnswersOnly (.listNext p tag key) p tag .listNext .ok (.word (nextKey s key)) s := by
  unfold AnswersOnly
  rw [exec_listNext_handed p tag key s handed, evalListNext, nextKey_servedBy]

/-- Settles O9: the walk through the ascending index stops at the least key above the given one, or finds none. -/
theorem listNextAnswersTheNextKey : Obligations.ListNextAnswersTheNextKey := by
  intro p tag key s law handed
  have answered := listNext_answersOnly handed
  refine ⟨fun e mem above least => ?_, fun atEnd => ?_⟩
  · rwa [nextKey_eq_of_least law mem above least] at answered
  · rwa [nextKey_eq_zero atEnd] at answered

end Sys2Proof.Machine

/-! PROOFS. The Charge Calculator (chapter 3): the tiers split the units, so every charge stays within its bound and its
field (R42, R43). -/

namespace Sys2Proof.Machine

/-! ## The two tiers on each side of the boundary (R42) -/

theorem tier1Part_of_le_boundary {r : Rates} {units : Half} (within : units.toNat ≤ r.boundary.toNat) :
    tier1Part r units = units.toNat * r.rate1.toNat := by
  rw [tier1Part, Nat.min_eq_left within]

theorem tier1Part_of_boundary_le {r : Rates} {units : Half} (beyond : r.boundary.toNat ≤ units.toNat) :
    tier1Part r units = r.boundary.toNat * r.rate1.toNat := by
  rw [tier1Part, Nat.min_eq_right beyond]

theorem tier2Part_of_le_boundary {r : Rates} {units : Half} (within : units.toNat ≤ r.boundary.toNat) :
    tier2Part r units = 0 := by
  rw [tier2Part, Nat.sub_eq_zero_of_le within, Nat.zero_mul]

theorem charge_of_le_boundary {r : Rates} {units : Half} (within : units.toNat ≤ r.boundary.toNat) :
    charge r units = r.fee.toNat + units.toNat * r.rate1.toNat := by
  rw [charge, tier1Part_of_le_boundary within, tier2Part_of_le_boundary within, Nat.add_zero]

theorem charge_of_boundary_le {r : Rates} {units : Half} (beyond : r.boundary.toNat ≤ units.toNat) :
    charge r units = r.fee.toNat + r.boundary.toNat * r.rate1.toNat
      + (units.toNat - r.boundary.toNat) * r.rate2.toNat := by
  rw [charge, tier1Part_of_boundary_le beyond, tier2Part]

/-! ## The bound (R43) -/

/-- Every unit is priced in exactly one tier: with one rate for both, the tier parts are the units at that rate. -/
theorem tierParts_add_of_single_rate {r : Rates} (single : r.rate1 = r.rate2) (units : Half) :
    tier1Part r units + tier2Part r units = units.toNat * r.rate1.toNat := by
  have split : min units.toNat r.boundary.toNat + (units.toNat - r.boundary.toNat) = units.toNat := by omega
  rw [tier1Part, tier2Part, ← single, ← Nat.add_mul, split]

/-- The dearest rates at boundary `b`: the fee and both rates at 65,535. -/
def dearestRates (b : Half) : Rates := ⟨65535, b, 65535, 65535⟩

theorem half_toNat_le (x : Half) : x.toNat ≤ (65535 : Half).toNat := Nat.le_of_lt_succ x.isLt

/-- At the dearest rates the boundary has no effect on the charge. -/
theorem charge_dearestRates (b units : Half) : charge (dearestRates b) units = 65535 + units.toNat * 65535 := by
  rw [charge, Nat.add_assoc, tierParts_add_of_single_rate rfl]
  rfl

theorem tier1Part_le_dearestRates (r : Rates) (units : Half) :
    tier1Part r units ≤ tier1Part (dearestRates r.boundary) units :=
  Nat.mul_le_mul_left _ (half_toNat_le r.rate1)

theorem tier2Part_le_dearestRates (r : Rates) (units : Half) :
    tier2Part r units ≤ tier2Part (dearestRates r.boundary) units :=
  Nat.mul_le_mul_left _ (half_toNat_le r.rate2)

theorem charge_le_dearestRates (r : Rates) (units : Half) : charge r units ≤ charge (dearestRates r.boundary) units :=
  Nat.add_le_add (Nat.add_le_add (half_toNat_le r.fee) (tier1Part_le_dearestRates r units))
    (tier2Part_le_dearestRates r units)

theorem charge_le_bound (r : Rates) (units : Half) : charge r units ≤ 4294901760 := by
  have dearest := charge_le_dearestRates r units
  rw [charge_dearestRates] at dearest
  have inRange : units.toNat ≤ 65535 := half_toNat_le units
  omega

/-! ## The figures in their fields (R43) -/

/-- A figure within the bound of a charge goes into its 32-bit field whole. -/
theorem asWord_toNat_of_le_bound {n : Nat} (within : n ≤ 4294901760) : (asWord n).toNat = n :=
  (BitVec.toNat_ofNat n 32).trans (Nat.mod_eq_of_lt (by omega))

theorem tier1Part_le_charge (r : Rates) (units : Half) : tier1Part r units ≤ charge r units := by
  rw [charge]
  omega

theorem tier2Part_le_charge (r : Rates) (units : Half) : tier2Part r units ≤ charge r units :=
  Nat.le_add_left _ _

/-- Settles O19: no class prices above the dearest rates at its boundary, where the tiers add up to all the units at
65,535; each part is at most the charge, so each fits its field. -/
theorem chargeIsFeeAndTwoTiersWithinItsBound : Obligations.ChargeIsFeeAndTwoTiersWithinItsBound := by
  refine ⟨fun r units => ?_, fun b => charge_dearestRates b 65535⟩
  have bound := charge_le_bound r units
  exact ⟨charge_of_le_boundary, charge_of_boundary_le, bound, asWord_toNat_of_le_bound bound,
    asWord_toNat_of_le_bound ((tier1Part_le_charge r units).trans bound),
    asWord_toNat_of_le_bound ((tier2Part_le_charge r units).trans bound), rfl⟩

end Sys2Proof.Machine

/-! PROOFS. The Hold Manager (chapter 4): READ_CLOCK answers the seconds counter as it stands at the taking (R61). -/

namespace Sys2Proof.Machine

/-! ## READ_CLOCK -/

/-- The handing does not touch the seconds counter. -/
@[simp] theorem seconds_servedBy (p : Port) (s : State) : (servedBy p s).seconds = s.seconds := rfl

/-- Settles O22: the evaluation places one response alone, and the handing before it does not move the counter that the
response carries; neither asks for the supply state. -/
theorem readClockAnswersTheCounter : Obligations.ReadClockAnswersTheCounter := by
  intro p tag s handed
  unfold AnswersOnly
  rw [exec_readClock_handed p tag s handed, evalReadClock, seconds_servedBy]

end Sys2Proof.Machine

/-! PROOFS. The Alert Queue (chapter 9): a raise coalesces (R140), joins by its urgency (R141), or meets a full queue
(R142). One equation of `raiseAlert` for each of these three, under the condition of its rule. -/

namespace Sys2Proof.Machine

/-! ## The courses of a raise (R140 to R142) -/

/-- No standing entry is of the raised kind and subject. -/
theorem any_concerns_eq_false {k : AlertKind} {sub : AlertSubject} {q : List AlertEntry}
    (fresh : ∀ e ∈ q, e.condition ≠ (k, sub)) : q.any (AlertEntry.concerns k sub) = false :=
  List.any_eq_false.mpr fun e he hc => fresh e he ((concerns_iff k sub e).mp hc)

theorem raiseAlert_of_standing {k : AlertKind} {sub : AlertSubject} {s : State} {e : AlertEntry}
    (standing : e ∈ s.alerts) (same : e.condition = (k, sub)) :
    raiseAlert k sub s
      = { s with alerts := s.alerts.map (fun x => if x.concerns k sub then x.again else x) } :=
  if_pos (List.any_eq_true.mpr ⟨e, standing, (concerns_iff k sub e).mpr same⟩)

theorem raiseAlert_of_room {k : AlertKind} {sub : AlertSubject} {s : State}
    (fresh : ∀ e ∈ s.alerts, e.condition ≠ (k, sub)) (room : s.alerts.length < 16) :
    raiseAlert k sub s = { s with alerts := joinAlert ⟨k, sub, s.seconds, 1⟩ s.alerts } := by
  have hasRoom : s.alerts.length < Config.alertPlaces := room
  rw [raiseAlert, if_neg (Bool.eq_false_iff.mp (any_concerns_eq_false fresh)), if_pos hasRoom]

/-- Into a full queue: what happens turns on the urgency of the raise and on a ROUTINE entry to give up. -/
theorem raiseAlert_of_full {k : AlertKind} {sub : AlertSubject} {s : State}
    (fresh : ∀ e ∈ s.alerts, e.condition ≠ (k, sub)) (full : s.alerts.length = 16) :
    raiseAlert k sub s
      = if k.urgent && s.alerts.any (fun x => !x.urgent) then
          { s with alerts := joinAlert ⟨k, sub, s.seconds, 1⟩ s.alerts.dropLast, lost := true }
        else { s with lost := true } := by
  have noRoom : ¬ s.alerts.length < Config.alertPlaces := full.not_lt
  rw [raiseAlert, if_neg (Bool.eq_false_iff.mp (any_concerns_eq_false fresh)), if_neg noRoom]

/-! ## Coalescing (R140) -/

/-- The stop at 255 is the largest count a byte holds, so below it one more does not wrap. -/
theorem again_eq (e : AlertEntry) :
    e.again = { e with occurrences := if e.occurrences = 255 then 255 else e.occurrences + 1 } := by
  have below : e.occurrences.toNat < Config.maxOccurrences ↔ e.occurrences ≠ 255 := by
    simp only [Config.maxOccurrences]
    bv_omega
  unfold AlertEntry.again
  by_cases stopped : e.occurrences = 255
  · rw [if_neg (mt below.mp (not_not_intro stopped)), if_pos stopped, ← stopped]
  · rw [if_pos (below.mpr stopped), if_neg stopped]

/-- A raise that coalesces leaves entries of other kinds and subjects as they are. -/
theorem map_again_of_fresh {k : AlertKind} {sub : AlertSubject} {q : List AlertEntry}
    (fresh : ∀ e ∈ q, e.condition ≠ (k, sub)) :
    q.map (fun x => if x.concerns k sub then x.again else x) = q :=
  (List.map_congr_left fun x hx => if_neg (mt (concerns_iff k sub x).mp (fresh x hx))).trans (List.map_id q)

/-- No two entries have one condition (R137), so the raise of an entry's condition reaches that entry alone. -/
theorem map_again_of_nodup {before after : List AlertEntry} {e : AlertEntry}
    (distinct : ((before ++ e :: after).map AlertEntry.condition).Nodup) :
    (before ++ e :: after).map (fun x => if x.concerns e.kind e.subject then x.again else x)
      = before ++ e.again :: after := by
  have only : e.condition ∉ (before ++ after).map AlertEntry.condition :=
    (List.nodup_cons.mp ((List.perm_middle.map AlertEntry.condition).nodup_iff.mp distinct)).1
  have others : ∀ x ∈ before ++ after, x.condition ≠ (e.kind, e.subject) := fun x hx same =>
    only (List.mem_map.mpr ⟨x, hx, same⟩)
  rw [List.map_append, List.map_cons, if_pos ((concerns_iff e.kind e.subject e).mpr rfl),
    map_again_of_fresh fun x hx => others x (List.mem_append_left after hx),
    map_again_of_fresh fun x hx => others x (List.mem_append_right before hx)]

/-- Settles O47: by R137 the raise reaches the one entry of its condition, which counts one more. -/
theorem raiseCoalesces : Obligations.RaiseCoalesces := by
  intro s before after e ⟨_, distinct, _⟩ queue
  have standing : e ∈ s.alerts := by simp [queue]
  rw [queue] at distinct
  rw [raiseAlert_of_standing standing rfl, queue, map_again_of_nodup distinct, again_eq]

/-! ## Joining (R141) and the full queue (R142) -/

/-- An URGENT entry joins directly after the last URGENT entry. -/
theorem joinAlert_of_urgent {e : AlertEntry} {urgent routine : List AlertEntry} (he : e.urgent = true)
    (hu : ∀ x ∈ urgent, x.urgent = true) (hr : ∀ x ∈ routine, x.urgent = false) :
    joinAlert e (urgent ++ routine) = urgent ++ e :: routine := by
  obtain ⟨noneTaken, allLeft⟩ :
      routine.takeWhile AlertEntry.urgent = [] ∧ routine.dropWhile AlertEntry.urgent = routine := by
    cases routine with
    | nil => exact ⟨rfl, rfl⟩
    | cons r rs => simp [hr r List.mem_cons_self]
  rw [joinAlert, if_pos he, List.takeWhile_append_of_pos hu, List.dropWhile_append_of_pos hu, noneTaken,
    allLeft, List.append_nil]

/-- A ROUTINE entry joins at the tail. -/
theorem joinAlert_of_routine {e : AlertEntry} (q : List AlertEntry) (he : e.urgent = false) :
    joinAlert e q = q ++ [e] := if_neg (Bool.eq_false_iff.mp he)

/-- A queue of URGENT entries before ROUTINE ones has an entry to give up where it has ROUTINE ones at all. -/
theorem any_routine_iff {urgent routine : List AlertEntry} (hu : ∀ x ∈ urgent, x.urgent = true)
    (hr : ∀ x ∈ routine, x.urgent = false) :
    (urgent ++ routine).any (fun x => !x.urgent) = true ↔ routine ≠ [] := by
  have nothing : urgent.any (fun x => !x.urgent) = false := List.any_eq_false.mpr fun x hx => by simp [hu x hx]
  rw [List.any_append, nothing, Bool.false_or]
  cases routine with
  | nil => simp
  | cons r rs => simp [hr r List.mem_cons_self]

/-- Settles O48: with room the entry joins at its place; into a full queue only an URGENT raise joins, and only where a
ROUTINE tail is there to give up, since without the tail the queue is still URGENT before ROUTINE. -/
theorem raiseJoinsOrIsDiscarded : Obligations.RaiseJoinsOrIsDiscarded := by
  intro s k sub urgent routine _ queue hu hr fresh
  have gives : s.alerts.any (fun x => !x.urgent) = true ↔ routine ≠ [] := queue ▸ any_routine_iff hu hr
  have raised : AlertEntry.urgent ⟨k, sub, s.seconds, 1⟩ = k.urgent := rfl
  refine ⟨?urgentJoins, ?routineJoins, ?routineDiscarded, ?urgentDiscarded, ?urgentDisplaces⟩
  case urgentJoins =>
    intro room hk
    rw [raiseAlert_of_room fresh room, queue, joinAlert_of_urgent (raised.trans hk) hu hr]
  case routineJoins =>
    intro room hk
    rw [raiseAlert_of_room fresh room, queue, joinAlert_of_routine _ (raised.trans hk)]
  case routineDiscarded =>
    intro full hk
    rw [raiseAlert_of_full fresh full, hk, Bool.false_and, if_neg Bool.false_ne_true]
  case urgentDiscarded =>
    intro full hk noRoutine
    rw [raiseAlert_of_full fresh full, hk, Bool.true_and, if_neg (mt gives.mp (not_not_intro noRoutine))]
  case urgentDisplaces =>
    intro full hk tail
    have kept : ∀ x ∈ routine.dropLast, x.urgent = false := fun x hx => hr x (List.mem_of_mem_dropLast hx)
    rw [raiseAlert_of_full fresh full, hk, Bool.true_and, if_pos (gives.mpr tail), queue,
      List.dropLast_append_of_ne_nil tail, joinAlert_of_urgent (raised.trans hk) hu kept]

end Sys2Proof.Machine

/-! PROOFS. What every event keeps, I: the laws of Safety.lean under each shared operation of Machine/Ops.lean. One relation,
`LawsKept`, says for all the laws at once that an operation carries them over; it is reflexive and transitive, so that what
an event keeps is read off the operations it is made of. -/

namespace Sys2Proof.Machine

/-! ## The relation -/

/-- The laws that read one table each are carried over from `s` to `t`, and the queue of commands stays (log 10). -/
structure TablesKept (s t : State) : Prop where
  alerts : AlertLaw s → AlertLaw t
  windows : WindowLaw s → WindowLaw t
  ceilings : CeilingLaw s → CeilingLaw t
  keys : KeyIndexLaw s → KeyIndexLaw t
  holds : HoldLaw s → HoldLaw t
  commits : CommitLaw s → CommitLaw t
  pending : t.pending = s.pending

/-- The event that begins in `s₀` may place responses and change holds: the ports are served, or an entry that a request
made stands in the commit queue. -/
def Busy (s₀ : State) : Prop := servesPorts s₀ ∨ ∃ e ∈ s₀.commitQueue, e.isTidy = false

/-- The event that begins in `s₀` may raise alerts: the ports are served, or the commit queue is not empty. -/
def MayRaise (s₀ : State) : Prop := servesPorts s₀ ∨ s₀.commitQueue ≠ []

/-- Where an event that begins in `s₀` stands after some of its operations: the laws of supply and phases hold, and the
phase is one in which the event may do what it was allowed at its beginning. -/
structure Ground (s₀ s : State) : Prop where
  supply : SupplyLaw s
  phase : PhaseLaw s
  busy : Busy s₀ → servesPorts s
  raises : MayRaise s₀ → ¬ (s.phase = .starting ∨ s.phase = .scanning)

/-- Operations of an event that begins in `s₀` lead from `s` to `t` and keep every law. -/
structure LawsKept (s₀ s t : State) : Prop where
  tables : TablesKept s t
  ground : Ground s₀ s → Ground s₀ t

theorem TablesKept.refl (s : State) : TablesKept s s :=
  ⟨id, id, id, id, id, id, rfl⟩

theorem TablesKept.trans {s t u : State} (h : TablesKept s t) (h' : TablesKept t u) : TablesKept s u where
  alerts := h'.alerts ∘ h.alerts
  windows := h'.windows ∘ h.windows
  ceilings := h'.ceilings ∘ h.ceilings
  keys := h'.keys ∘ h.keys
  holds := h'.holds ∘ h.holds
  commits := h'.commits ∘ h.commits
  pending := h'.pending.trans h.pending

theorem LawsKept.refl (s₀ s : State) : LawsKept s₀ s s := ⟨.refl s, id⟩

theorem LawsKept.trans {s₀ s t u : State} (h : LawsKept s₀ s t) (h' : LawsKept s₀ t u) : LawsKept s₀ s u :=
  ⟨h.tables.trans h'.tables, h'.ground ∘ h.ground⟩

/-- Operations made for the members of a list one after another. -/
theorem LawsKept.foldl {α : Type} {s₀ : State} {f : State → α → State} (l : List α)
    (step : ∀ a ∈ l, ∀ s, LawsKept s₀ s (f s a)) (s : State) : LawsKept s₀ s (l.foldl f s) := by
  induction l generalizing s with
  | nil => exact .refl s₀ s
  | cons a rest ih =>
    exact (step a List.mem_cons_self s).trans (ih (fun b hb => step b (List.mem_cons_of_mem a hb)) (f s a))

theorem Busy.mayRaise {s₀ : State} (h : Busy s₀) : MayRaise s₀ := by
  rcases h with h | ⟨e, he, -⟩
  · exact .inl h
  · exact .inr (List.ne_nil_of_mem he)

/-- A part that serves its ports is past SCANNING. -/
theorem not_before_tidying_of_serves {s : State} (h : servesPorts s) : ¬ (s.phase = .starting ∨ s.phase = .scanning) := by
  rcases h with h | h <;> simp [h]

/-- The laws of supply and phases at the beginning of an event are its ground. -/
theorem Ground.start {s : State} (supply : SupplyLaw s) (phase : PhaseLaw s) : Ground s s where
  supply := supply
  phase := phase
  busy := by
    rintro (h | ⟨e, he, requested⟩)
    · exact h
    · by_contra h
      obtain ⟨-, -, -, -, tidy⟩ := phase.1 h
      exact absurd (tidy e he) (by simp [requested])
  raises := by
    rintro (h | h) early
    · exact not_before_tidying_of_serves h early
    · exact h (phase.2.1 early).1

/-! ## Operations on what no law reads -/

/-- Cells, pair tables, free list, worn set, tariffs, report and the like alone have changed from `s` to `t`. -/
def Quiet (s t : State) : Prop :=
  t = { s with
    tariffs := t.tariffs, accountCells := t.accountCells, tariffCells := t.tariffCells, accountPairs := t.accountPairs,
    tariffPairs := t.tariffPairs, freeList := t.freeList, wornSet := t.wornSet, report := t.report, vdd := t.vdd,
    lost := t.lost, lastServed := t.lastServed, freeUses := t.freeUses }

theorem Quiet.kept {s₀ s t : State} (h : Quiet s t) : LawsKept s₀ s t := by
  unfold Quiet at h
  rw [h]
  exact ⟨⟨id, id, id, id, id, id, rfl⟩, fun g => ⟨g.supply, g.phase, g.busy, g.raises⟩⟩

theorem setTariff_kept (s₀ : State) (n : ClassNo) (v : TariffClass) (s : State) : LawsKept s₀ s (s.setTariff n v) :=
  Quiet.kept rfl

theorem setCopy_kept (s₀ : State) (p : PairId) (c : CopyName) (v : Copy) (s : State) :
    LawsKept s₀ s (s.setCopy p c v) := by
  cases p <;> exact Quiet.kept rfl

theorem recordVerified_kept (s₀ : State) (p : PairId) (c : CopyName) (n : Word) (s : State) :
    LawsKept s₀ s (recordVerified p c n s) := by
  cases p <;> exact Quiet.kept rfl

theorem addWear_kept (s₀ : State) (p : PairId) (s : State) : LawsKept s₀ s (addWear p s) := by
  obtain ⟨a, b, n, h⟩ := addWear_shape p s
  rw [h]
  exact Quiet.kept rfl

theorem claim_kept (s₀ : State) (p : PairNo) (r : PairRole) (s : State) : LawsKept s₀ s (claim p r s) := Quiet.kept rfl

theorem retire_kept (s₀ : State) (p : PairNo) (s : State) : LawsKept s₀ s (retire p s) := Quiet.kept rfl

theorem retireAll_kept (s₀ : State) (ps : List PairNo) (s : State) : LawsKept s₀ s (retireAll ps s) :=
  .foldl ps (fun p _ s => retire_kept s₀ p s) s

theorem handBack_kept (s₀ : State) (p : PairNo) (s : State) : LawsKept s₀ s (handBack p s) := by
  obtain ⟨t, f, w, h⟩ := handBack_shape p s
  rw [h]
  exact Quiet.kept rfl

theorem handBackAll_kept (s₀ : State) (ps : List PairNo) (s : State) : LawsKept s₀ s (handBackAll ps s) :=
  .foldl ps (fun p _ s => handBack_kept s₀ p s) s

theorem bindIncoming_kept (s₀ : State) (i : SlotNo) (e : CommitEntry) (s : State) :
    LawsKept s₀ s (bindIncoming i e s) := by
  obtain ⟨a, h⟩ := bindIncoming_shape i e s
  rw [h]
  exact Quiet.kept rfl

theorem servedBy_kept (s₀ : State) (p : Port) (s : State) : LawsKept s₀ s (servedBy p s) := Quiet.kept rfl

/-! ## Alerts -/

/-- Alerts that keep their law may change in an event that may raise them. -/
theorem alerts_kept {s₀ s : State} {a : List AlertEntry} {l : Bool} (may : MayRaise s₀)
    (law : AlertLaw s → AlertLaw { s with alerts := a, lost := l }) : LawsKept s₀ s { s with alerts := a, lost := l } where
  tables := ⟨law, id, id, id, id, id, rfl⟩
  ground g := ⟨g.supply, ⟨g.phase.1, fun early => absurd early (g.raises may), g.phase.2.2⟩, g.busy, g.raises⟩

theorem raiseAlert_kept {s₀ : State} (may : MayRaise s₀) (k : AlertKind) (sub : AlertSubject) (s : State) :
    LawsKept s₀ s (raiseAlert k sub s) := by
  have law := raiseAlert_alertLaw k sub s
  obtain ⟨a, l, h⟩ := raiseAlert_shape k sub s
  rw [h] at law ⊢
  exact alerts_kept may law

theorem raiseIf_kept {s₀ : State} {b : Bool} (may : b = true → MayRaise s₀) (k : AlertKind) (sub : AlertSubject)
    (s : State) : LawsKept s₀ s (raiseIf b k sub s) := by
  unfold raiseIf
  split
  · exact raiseAlert_kept (may ‹_›) k sub s
  · exact .refl s₀ s

theorem raiseRetired_kept {s₀ : State} (may : MayRaise s₀) (ps : List PairNo) (s : State) :
    LawsKept s₀ s (raiseRetired ps s) :=
  .foldl (ascending ps) (fun p _ s => raiseAlert_kept may .pairRetired (.pair p) s) s

theorem raiseSpares_kept {s₀ : State} (may : MayRaise s₀) (s : State) : LawsKept s₀ s (raiseSpares s) := by
  unfold raiseSpares
  split
  · exact raiseAlert_kept may .sparesExhausted .none s
  · exact .refl s₀ s

/-! ## Slots and the key index -/

/-- A slot keeps the ceiling law: its balance, committed and pending, is at most its ceiling (R24). -/
def SlotOk (v : Slot) : Prop :=
  v.balance.toNat ≤ v.ceiling.toNat ∧ ∀ img ∈ v.pending, img.balance.toNat ≤ img.ceiling.toNat

theorem slotOk_vacant : SlotOk Slot.vacant := ⟨Nat.le_refl _, fun _ h => absurd h (by simp [Slot.vacant])⟩

theorem setSlot_kept {s₀ s : State} {i : SlotNo} {v : Slot} (ok : SlotOk (s.slot i) → SlotOk v) :
    LawsKept s₀ s (s.setSlot i v) where
  tables := ⟨id, id, fun law j => by
    by_cases h : i = j
    · subst h
      rw [slot_setSlot_same]
      exact ok (law i)
    · rw [slot_setSlot_other s i j v h]
      exact law j, id, id, id, rfl⟩
  ground g := ⟨g.supply, g.phase, g.busy, g.raises⟩

/-- Indicators take no part in the ceiling law. -/
theorem setIndicators_kept (s₀ : State) (i : SlotNo) (s : State) : LawsKept s₀ s (setIndicators i s) :=
  setSlot_kept id

theorem reevaluate_kept {s₀ : State} (may : MayRaise s₀) (i : SlotNo) (s : State) : LawsKept s₀ s (reevaluate i s) :=
  (setIndicators_kept s₀ i s).trans
    ((raiseIf_kept (fun _ => may) _ _ _).trans (raiseIf_kept (fun _ => may) _ _ _))

theorem settleIndicators_kept {s₀ : State} (may : MayRaise s₀) (c : ChangeKind) (i : SlotNo) (s : State) :
    LawsKept s₀ s (settleIndicators c i s) := by
  unfold settleIndicators
  split
  · exact setIndicators_kept s₀ i s
  · exact reevaluate_kept may i s

theorem keyIndex_kept {s₀ s : State} {l : List (Word × SlotNo)}
    (law : KeyIndexLaw s → KeyIndexLaw { s with keyIndex := l }) : LawsKept s₀ s { s with keyIndex := l } :=
  ⟨⟨id, id, id, law, id, id, rfl⟩, fun g => ⟨g.supply, g.phase, g.busy, g.raises⟩⟩

theorem mem_insertKey (key : Word) (i : SlotNo) (l : List (Word × SlotNo)) (x : Word × SlotNo) :
    x ∈ insertKey key i l ↔ x = (key, i) ∨ x ∈ l := by
  induction l with
  | nil => simp [insertKey]
  | cons e rest ih =>
    unfold insertKey
    split
    · simp
    · simp only [List.mem_cons, ih]
      exact or_left_comm

/-- A key that is not in an ascending index takes its place in it. -/
theorem insertKey_ascending (key : Word) (i : SlotNo) (l : List (Word × SlotNo))
    (ascending : l.Pairwise (fun x y => x.1.toNat < y.1.toNat)) (fresh : ∀ x ∈ l, x.1 ≠ key) :
    (insertKey key i l).Pairwise (fun x y => x.1.toNat < y.1.toNat) := by
  induction l with
  | nil => exact List.pairwise_singleton _ _
  | cons e rest ih =>
    obtain ⟨above, ascending'⟩ := List.pairwise_cons.mp ascending
    unfold insertKey
    split
    · rename_i before
      refine List.pairwise_cons.mpr ⟨fun x hx => ?_, ascending⟩
      rcases List.mem_cons.mp hx with rfl | hx
      · exact before
      · exact before.trans (above x hx)
    · rename_i notBefore
      refine List.pairwise_cons.mpr ⟨fun x hx => ?_, ih ascending' fun x hx => fresh x (List.mem_cons_of_mem e hx)⟩
      rcases (mem_insertKey key i rest x).mp hx with rfl | hx
      · have ne : e.1.toNat ≠ key.toNat := fun h => fresh e List.mem_cons_self (BitVec.eq_of_toNat_eq h)
        exact lt_of_le_of_ne (not_lt.mp notBefore) ne
      · exact above x hx

/-- A key is absent from the index exactly where no entry carries it (R7). -/
theorem findKey_eq_none_iff (s : State) (key : Word) : findKey s key = none ↔ ∀ e ∈ s.keyIndex, e.1 ≠ key := by
  simp [findKey]

theorem insertKey_kept {s₀ s : State} {key : Word} {i : SlotNo} (fresh : findKey s key = none) (nonzero : key ≠ 0) :
    LawsKept s₀ s { s with keyIndex := insertKey key i s.keyIndex } := by
  refine keyIndex_kept fun law => ⟨insertKey_ascending key i _ law.1 ((findKey_eq_none_iff s key).mp fresh), fun e he => ?_⟩
  rcases (mem_insertKey key i s.keyIndex e).mp he with rfl | he
  · exact nonzero
  · exact law.2 e he

theorem vacate_kept (s₀ : State) (i : SlotNo) (s : State) : LawsKept s₀ s (vacate i s) :=
  (setSlot_kept fun _ => slotOk_vacant).trans
    (keyIndex_kept fun law => ⟨law.1.filter _, fun e he => law.2 e (List.mem_of_mem_filter he)⟩)

/-! ## Holds -/

/-- A hold entry keeps the hold law: a generation of 1 to 255 and fields within their ranges (R55). -/
def EntryOk (e : HoldEntry) : Prop := e.generation ≠ 0 ∧ entryWithinRange e = true

theorem entryOk_free {g : Byte} : EntryOk ⟨g, .free⟩ ↔ g ≠ 0 := by simp [EntryOk, entryWithinRange]

theorem entryOk_open {g : Byte} {h : Hold} : EntryOk ⟨g, .open h⟩ ↔ g ≠ 0 ∧ holdWithinSpan h := by
  simp [EntryOk, entryWithinRange]

theorem entryOk_settling {g : Byte} {h : Hold} {c r : Word} : EntryOk ⟨g, .settling h c r⟩ ↔
    g ≠ 0 ∧ holdWithinSpan h ∧ 1 ≤ c.toNat ∧ c.toNat + r.toNat = h.amount.toNat := by
  simp [EntryOk, entryWithinRange]

theorem entryOk_lapsed {g : Byte} {h : Hold} {w : Word} : EntryOk ⟨g, .lapsed h w⟩ ↔
    g ≠ 0 ∧ holdWithinSpan h ∧ h.deadline.toNat ≤ w.toNat := by
  simp [EntryOk, entryWithinRange]

/-- A hold entry in the form that its state gives it. -/
theorem entryOk_of_state {s : State} {n : HoldNo} {x : HoldState} (h : (s.hold n).state = x) :
    EntryOk (s.hold n) ↔ EntryOk ⟨(s.hold n).generation, x⟩ := by
  rw [← h]

theorem setHold_kept {s₀ s : State} {n : HoldNo} {e : HoldEntry} (ok : EntryOk (s.hold n) → EntryOk e)
    (free : e.state = .free ∨ Busy s₀) : LawsKept s₀ s (s.setHold n e) where
  tables := ⟨id, id, id, id, fun law m => by
    by_cases h : n = m
    · subst h
      rw [hold_setHold_same]
      exact ok (law n)
    · rw [hold_setHold_other s n m e h]
      exact law m, id, rfl⟩
  ground g := by
    refine ⟨g.supply, ⟨fun idle => ?_, g.phase.2⟩, g.busy, g.raises⟩
    obtain ⟨terminal, service, seconds, holds, tidy⟩ := g.phase.1 idle
    refine ⟨terminal, service, seconds, fun m => ?_, tidy⟩
    by_cases h : n = m
    · subst h
      rw [hold_setHold_same]
      exact free.resolve_right fun busy => idle (g.busy busy)
    · rw [hold_setHold_other s n m e h]
      exact holds m

theorem freeHold_kept (s₀ : State) (n : HoldNo) (s : State) : LawsKept s₀ s (freeHold n s) :=
  setHold_kept (fun ok => entryOk_free.mpr ok.1) (.inl rfl)

theorem reopenHold_kept {s₀ : State} (busy : Busy s₀) (n : HoldNo) (s : State) : LawsKept s₀ s (reopenHold n s) := by
  unfold reopenHold
  split
  · rename_i h c r settling
    refine setHold_kept (fun ok => ?_) (.inr busy)
    obtain ⟨generation, span, -, -⟩ := entryOk_settling.mp ((entryOk_of_state settling).mp ok)
    exact entryOk_open.mpr ⟨generation, span⟩
  all_goals exact .refl s₀ s

theorem freeSettled_kept (s₀ : State) (img : PendingImage) (s : State) : LawsKept s₀ s (freeSettled img s) := by
  unfold freeSettled
  split
  · exact .refl s₀ s
  · exact freeHold_kept s₀ _ s

theorem reopenSettled_kept {s₀ : State} (busy : Busy s₀) (img : PendingImage) (s : State) :
    LawsKept s₀ s (reopenSettled img s) := by
  unfold reopenSettled
  split
  · exact .refl s₀ s
  · exact reopenHold_kept busy _ s

/-! ## Ports -/

/-- A window of port `p` keeps the window law (R148). -/
def WindowOk : Port → List Request → Prop
  | .terminal, w => w.length ≤ Config.terminalPlaces ∧ (w.map (·.tag)).Nodup
  | .service, w => w.length ≤ Config.servicePlaces

theorem windowLaw_iff (s : State) : WindowLaw s ↔ ∀ p, WindowOk p (s.port p).window := by
  constructor
  · rintro ⟨places, servicePlaces, tags⟩ p
    cases p
    · exact ⟨places, tags⟩
    · exact servicePlaces
  · exact fun h => ⟨(h .terminal).1, h .service, (h .terminal).2⟩

theorem markRequest_windowOk {p : Port} {tag : Byte} {st : RequestState} {w : List Request} (h : WindowOk p w) :
    WindowOk p (markRequest tag st w) := by
  cases p
  · exact ⟨by rw [markRequest_length]; exact h.1, by rw [markRequest_tags]; exact h.2⟩
  · exact (markRequest_length tag st w).trans_le h

theorem WindowOk.sublist {p : Port} {w w' : List Request} (h : WindowOk p w) (sub : w'.Sublist w) : WindowOk p w' := by
  cases p
  · exact ⟨sub.length_le.trans h.1, h.2.sublist (sub.map _)⟩
  · exact sub.length_le.trans h

/-- What a port holds may change: its window within the law, and to more than nothing only where the ports are served. -/
theorem setPort_kept {s₀ s : State} {p : Port} {v : PortState} (ok : WindowOk p (s.port p).window → WindowOk p v.window)
    (idle : Busy s₀ ∨ servesPorts s ∨ ((s.port p).idle → v.idle)) : LawsKept s₀ s (s.setPort p v) where
  tables := by
    refine ⟨?_, fun law => (windowLaw_iff _).mpr fun q => ?_, ?_, ?_, ?_, ?_, setPort_pending s p v⟩
    case refine_2 =>
      by_cases h : p = q
      · subst h
        rw [port_setPort_same]
        exact ok ((windowLaw_iff s).mp law p)
      · rw [port_setPort_other s p q v h]
        exact (windowLaw_iff s).mp law q
    all_goals cases p <;> exact id
  ground g := by
    have serves : servesPorts (s.setPort p v) ↔ servesPorts s := by rw [servesPorts, setPort_phase]
    refine ⟨?_, ⟨fun quiet => ?_, ?_⟩, fun busy => serves.mpr (g.busy busy), ?_⟩
    · cases p <;> exact g.supply
    · have quiet' : ¬ servesPorts s := fun h => quiet (serves.mpr h)
      have keeps : (s.port p).idle → v.idle :=
        (idle.resolve_left fun busy => quiet' (g.busy busy)).resolve_left quiet'
      obtain ⟨terminal, service, rest⟩ := g.phase.1 quiet'
      cases p
      · exact ⟨keeps terminal, service, rest⟩
      · exact ⟨terminal, keeps service, rest⟩
    · cases p <;> exact g.phase.2
    · cases p <;> exact g.raises

theorem answerCode_kept {s₀ : State} (busy : Busy s₀) (p : Port) (tag kind : Byte) (st : Status) (f : Figures)
    (s : State) : LawsKept s₀ s (answerCode p tag kind st f s) :=
  setPort_kept markRequest_windowOk (.inl busy)

theorem answer_kept {s₀ : State} (busy : Busy s₀) (p : Port) (tag : Byte) (k : Kind) (st : Status) (f : Figures)
    (s : State) : LawsKept s₀ s (answer p tag k st f s) := answerCode_kept busy p tag k.code st f s

theorem answerImage_kept {s₀ : State} (busy : Busy s₀) (img : PendingImage) (st : Status) (f : Figures) (s : State) :
    LawsKept s₀ s (answerImage img st f s) := answer_kept busy _ _ _ st f s

theorem defer_kept (s₀ : State) (p : Port) (tag : Byte) (s : State) : LawsKept s₀ s (defer p tag s) :=
  setPort_kept markRequest_windowOk (.inr (.inr fun h => ⟨by simp [markRequest, h.1], h.2⟩))

/-! ## The commit queue -/

theorem stopped_of_waiting {e : CommitEntry} (h : e.stage = .waiting) : e.stopped = false := by
  simp [CommitEntry.stopped, h]

/-- A commit queue of which each entry stands as an entry of `s` does, or is one that the event brings in. -/
theorem queue_kept {s₀ s : State} {l : List CommitEntry} (law : CommitLaw s → CommitLaw { s with commitQueue := l })
    (requested : ∀ e ∈ l, e.isTidy = false → servesPorts s ∨ ∃ x ∈ s.commitQueue, x.isTidy = false)
    (empty : s.commitQueue = [] → l = [] ∨ s.phase = .open ∨ s.phase = .tidying) :
    LawsKept s₀ s { s with commitQueue := l } where
  tables := ⟨id, id, id, id, id, law, rfl⟩
  ground g := by
    refine ⟨g.supply, ⟨fun idle => ?_, fun early => ?_, fun wait => ?_⟩, g.busy, g.raises⟩
    · obtain ⟨terminal, service, seconds, holds, tidy⟩ := g.phase.1 idle
      refine ⟨terminal, service, seconds, holds, fun e he => ?_⟩
      by_contra h
      rcases requested e he (by simpa using h) with serves | ⟨x, hx, untidy⟩
      · exact idle serves
      · exact absurd (tidy x hx) (by simp [untidy])
    · obtain ⟨queue, alerts⟩ := g.phase.2.1 early
      refine ⟨(empty queue).resolve_right fun h => ?_, alerts⟩
      rcases early with e | e <;> rcases h with h | h <;> exact absurd (e.symm.trans h) (by decide)
    · obtain ⟨restarting, queue⟩ := g.phase.2.2 wait
      refine ⟨restarting, (empty queue).resolve_right fun h => ?_⟩
      rcases h with h | h <;> exact absurd (restarting.symm.trans h) (by decide)

/-- An entry that joins waits. -/
theorem commitLaw_join {s : State} {e : CommitEntry} (waiting : e.stage = .waiting) (law : CommitLaw s) :
    CommitLaw { s with commitQueue := s.commitQueue ++ [e] } := by
  refine ⟨fun x hx => ?_, fun x hx stopped => ?_⟩
  · have inTail : x ∈ (s.commitQueue ++ [e]).tail := hx
    rcases hq : s.commitQueue with _ | ⟨head, rest⟩
    · simp [hq] at inTail
    · rw [hq, List.cons_append, List.tail_cons, List.mem_append] at inTail
      rcases inTail with hx | hx
      · exact law.1 x (by rw [hq]; exact hx)
      · rw [List.mem_singleton.mp hx, waiting]
  · rcases List.mem_append.mp hx with hx | hx
    · exact law.2 x hx stopped
    · rw [List.mem_singleton.mp hx, stopped_of_waiting waiting] at stopped
      exact absurd stopped (by decide)

/-- An entry of a request joins in OPEN, a tidy entry in TIDYING. -/
theorem joinQueue_kept {s₀ s : State} {sub : EntrySubject} {image : Image} {p : Option Port} {tag : Option Byte}
    (phase : s.phase = .open ∨ (s.phase = .tidying ∧ ∃ q, sub = .tidyEmpty q)) :
    LawsKept s₀ s (joinQueue sub image p tag s) := by
  refine queue_kept (commitLaw_join rfl) (fun e he untidy => ?_) fun _ => .inr (phase.imp_right And.left)
  rcases List.mem_append.mp he with he | he
  · exact .inr ⟨e, he, untidy⟩
  · rcases phase with live | ⟨-, q, rfl⟩
    · exact .inl (.inl live)
    · rw [List.mem_singleton.mp he] at untidy
      exact absurd untidy (by simp [CommitEntry.isTidy])

/-- Entries that leave the queue. -/
theorem sublist_kept (s₀ : State) {s : State} {l : List CommitEntry} (sub : l.Sublist s.commitQueue) :
    LawsKept s₀ s { s with commitQueue := l } := by
  refine queue_kept (fun law => ⟨fun e he => law.1 e (sub.tail.subset he), fun e he => law.2 e (sub.subset he)⟩)
    (fun e he untidy => .inr ⟨e, sub.subset he, untidy⟩) fun queue => .inl ?_
  rw [queue] at sub
  exact List.sublist_nil.mp sub

theorem leaveHead_kept (s₀ s : State) : LawsKept s₀ s s.leaveHead := sublist_kept s₀ (List.tail_sublist _)

/-- The head takes another stage: stopped in LOW alone. -/
theorem setHead_kept {s₀ s : State} {e head : CommitEntry} {rest : List CommitEntry} (queue : s.commitQueue = head :: rest)
    (subject : e.subject = head.subject) (stopped : e.stopped = true → s.supply = .low) :
    LawsKept s₀ s (s.setHead e) := by
  have tidy : e.isTidy = head.isTidy := by simp only [CommitEntry.isTidy, subject]
  refine queue_kept (fun law => ⟨law.1, fun x hx stands => ?_⟩) (fun x hx untidy => .inr ?_) fun h => ?_
  · rcases List.mem_cons.mp hx with rfl | hx
    · exact stopped stands
    · exact law.2 x (List.mem_of_mem_tail hx) stands
  · rcases List.mem_cons.mp hx with rfl | hx
    · exact ⟨head, by simp [queue], tidy ▸ untidy⟩
    · exact ⟨x, List.mem_of_mem_tail hx, untidy⟩
  · rw [queue] at h
    exact absurd h (by simp)

/-! ## Phases, tidying and the drain -/

theorem openPhase_kept {s₀ s : State} (tidying : s.phase = .tidying) : LawsKept s₀ s (openPhase s) where
  tables := ⟨id, id, id, id, id, id, rfl⟩
  ground g := by
    refine ⟨⟨g.supply.1, fun h => absurd h (by simp [openPhase]), fun h => ?_⟩, ⟨fun h => absurd (.inl rfl) h, ?_, fun h => ?_⟩,
      fun _ => .inl rfl, fun _ => by simp [openPhase]⟩
    · exact absurd (tidying.symm.trans (g.supply.2.2 h)) (by decide)
    · exact fun h => absurd h (by simp [openPhase])
    · exact absurd (tidying.symm.trans (g.phase.2.2 h).1) (by decide)

theorem tidyFrom_kept (s₀ : State) (ps : List PairNo) (s : State) (tidying : s.phase = .tidying) :
    LawsKept s₀ s (tidyFrom ps s) := by
  induction ps generalizing s with
  | nil => exact openPhase_kept tidying
  | cons p rest ih =>
    unfold tidyFrom
    split
    · split
      · exact (retire_kept s₀ p s).trans (ih (retire p s) tidying)
      · exact joinQueue_kept (.inr ⟨tidying, p, rfl⟩)
    · exact ih s tidying

theorem tidyNext_kept (s₀ s : State) : LawsKept s₀ s (tidyNext s) := by
  unfold tidyNext
  split
  · exact tidyFrom_kept s₀ _ s ‹_›
  · exact .refl s₀ s

/-- The collection wait begins in RESTARTING with an empty commit queue. -/
theorem collectionWait_kept {s₀ s : State} (restarting : s.phase = .restarting) (empty : s.commitQueue = []) :
    LawsKept s₀ s { s with collectionWait := true } where
  tables := ⟨id, id, id, id, id, id, rfl⟩
  ground g := ⟨g.supply, ⟨g.phase.1, g.phase.2.1, fun _ => ⟨restarting, empty⟩⟩, g.busy, g.raises⟩

/-! ## What an event keeps from its beginning to its end -/

/-- An event leads from `s` to `t` and keeps every law. -/
structure LawsHold (s t : State) : Prop where
  tables : TablesKept s t
  phases : SupplyLaw s ∧ PhaseLaw s → SupplyLaw t ∧ PhaseLaw t

theorem LawsKept.hold {s t : State} (h : LawsKept s s t) : LawsHold s t where
  tables := h.tables
  phases laws := by
    have g := h.ground (.start laws.1 laws.2)
    exact ⟨g.supply, g.phase⟩

theorem LawsHold.refl (s : State) : LawsHold s s := (LawsKept.refl s s).hold

end Sys2Proof.Machine

/-! PROOFS. What every event keeps, II: the requests, the Commit Engine, the port transactions, the supply and start-up
events, and with them the laws that every step keeps (O53 to O59), the queue of commands (O2) and the state after a
reset (O1, O3, O60). -/

namespace Sys2Proof.Machine

/-! ## A request that is handed over -/

/-- The Arbiter hands over in OPEN alone (R151). -/
theorem live_of_arbiterChoice {s : State} {c : Port × Request} (h : arbiterChoice s = some c) :
    s.inReset = false ∧ s.phase = .open := by
  unfold arbiterChoice at h
  split at h
  · exact absurd h (by simp)
  · rename_i live
    simpa using live

/-- A taking keeps the laws where its evaluation does, in OPEN. -/
theorem taking_hold {p : Port} {q : Request} {s : State} {f : State → State}
    (kept : (servedBy p s).phase = .open → Busy s → LawsKept s (servedBy p s) (f (servedBy p s))) :
    LawsHold s (taking p q s f) := by
  rcases taking_cases p q s f with ⟨handed, h⟩ | ⟨-, h⟩
  · obtain ⟨-, live⟩ := live_of_arbiterChoice handed
    rw [h]
    exact ((servedBy_kept s p s).trans (kept live (.inl (.inl live)))).hold
  · rw [h]
    exact .refl s

theorem serve_kept {α : Type} {s₀ s : State} {p : Port} {tag : Byte} {k : Kind} {v : Except Status α}
    {f : α → State → State} (busy : Busy s₀) (accepted : ∀ a, v = .ok a → LawsKept s₀ s (f a s)) :
    LawsKept s₀ s (serve p tag k v f s) := by
  rcases serve_cases p tag k v f s with ⟨st, -, h⟩ | ⟨a, ok, h⟩
  · rw [h]
    exact answer_kept busy p tag k st .zeros s
  · rw [h]
    exact accepted a ok

/-- A balance less a figure that goes into its field stays within the ceiling. -/
theorem asWord_sub_le {b c : Word} {n : Nat} (h : b.toNat ≤ c.toNat) : (asWord (b.toNat - n)).toNat ≤ c.toNat :=
  ((Nat.mod_le _ _).trans (Nat.sub_le _ _)).trans h

theorem nextGeneration_ne_zero {g : Byte} : nextGeneration g ≠ 0 := by
  unfold nextGeneration
  split
  · decide
  · bv_omega

/-- A slot takes a pending image, its entry joins the commit queue and the response is deferred. -/
theorem putPending_kept {s₀ s : State} {i : SlotNo} {v : Slot} {sub : EntrySubject} {image : Image} {p : Port}
    {tag : Byte} (live : s.phase = .open) (ok : SlotOk (s.slot i) → SlotOk v) :
    LawsKept s₀ s (defer p tag (joinQueue sub image (some p) (some tag) (s.setSlot i v))) :=
  (setSlot_kept ok).trans <| (joinQueue_kept (s := s.setSlot i v) (.inl live)).trans (defer_kept s₀ p tag _)

/-- An image of a balance at most its ceiling, where the slot keeps the ceiling law, is made pending. -/
theorem makePending_kept {s₀ s : State} {i : SlotNo} {img : PendingImage} (live : s.phase = .open)
    (ok : SlotOk (s.slot i) → img.balance.toNat ≤ img.ceiling.toNat) : LawsKept s₀ s (makePending i img s) :=
  putPending_kept live fun law => ⟨law.1, fun _ hx => Option.mem_some.mp hx ▸ ok law⟩

section
variable {s₀ s : State} (busy : Busy s₀)
include busy

/-! ## Requests that change a hold alone -/

theorem evalOpenHold_kept (p : Port) (tag : Byte) (key amount : Word) (duration : Half) :
    LawsKept s₀ s (evalOpenHold p tag key amount duration s) := by
  refine serve_kept busy fun ⟨i, n⟩ ok => ?_
  have passed : amount ≠ 0 ∧ duration ≠ 0 ∧ duration.toNat ≤ 7200 ∧ s.seconds.toNat + duration.toNat ≤ 4294967295 := by
    unfold judgeOpenHold at ok
    repeat' split at ok
    all_goals cases ok
    simp_all [Config.maxDuration, maxWord]
  obtain ⟨amount0, duration0, short, counter⟩ := passed
  have deadline : (asWord (s.seconds.toNat + duration.toNat)).toNat = s.seconds.toNat + duration.toNat :=
    Nat.mod_eq_of_lt (by omega)
  have amount1 : amount.toNat ≠ 0 := fun h => amount0 (BitVec.eq_of_toNat_eq h)
  have duration1 : duration.toNat ≠ 0 := fun h => duration0 (BitVec.eq_of_toNat_eq h)
  refine (setHold_kept (fun law => entryOk_open.mpr ⟨nextGeneration_ne_zero, ?_⟩) (.inr busy)).trans <|
    (answer_kept busy _ _ _ _ _ _).trans <| reevaluate_kept busy.mayRaise i _
  simp only [holdWithinSpan, newHold, deadline, Config.maxHoldSpan]
  omega

/-- The courses of a request that names a hold: a refusal, the answer on a lapsed hold, or the request's own evaluation
of the OPEN hold that it names. -/
theorem serveHold_kept {p : Port} {tag : Byte} {k : Kind} {handle : Handle} {figures : Hold → Figures}
    {f : HoldNo → Hold → State → State}
    (accepted : ∀ n h, (s.hold n).state = .open h → LawsKept s₀ s (f n h s)) :
    LawsKept s₀ s (serveHold p tag k (judgeHold k p handle s) figures f s) := by
  unfold serveHold
  split
  · exact answer_kept busy _ _ _ _ _ s
  · exact (freeHold_kept s₀ _ s).trans (answer_kept busy _ _ _ _ _ _)
  · rename_i n h ok
    refine accepted n h ?_
    unfold judgeHold at ok
    repeat' split at ok
    all_goals cases ok
    assumption

theorem evalExtendHold_kept (p : Port) (tag : Byte) (handle : Handle) (seconds : Half) :
    LawsKept s₀ s (evalExtendHold p tag handle seconds s) := by
  refine serveHold_kept busy fun n h openHold => ?_
  unfold acceptExtend
  split
  · exact answer_kept busy _ _ _ _ _ s
  · rename_i ok
    have passed : extendedDeadline h seconds ≤ h.opened.toNat + Config.maxHoldSpan
        ∧ extendedDeadline h seconds ≤ 4294967295 := by
      unfold judgeExtend at ok
      split at ok
      · exact absurd ok (by simp)
      · split at ok
        · exact absurd ok (by simp)
        · rename_i within
          simp only [maxWord] at within
          omega
    have deadline : (asWord (extendedDeadline h seconds)).toNat = extendedDeadline h seconds :=
      Nat.mod_eq_of_lt (by omega)
    refine (setHold_kept (fun law => ?_) (.inr busy)).trans (answer_kept busy _ _ _ _ _ _)
    obtain ⟨generation, amount, after, -⟩ := entryOk_open.mp ((entryOk_of_state openHold).mp law)
    refine entryOk_open.mpr ⟨generation, amount, ?_, ?_⟩
    · rw [deadline]
      exact after.trans_le (Nat.le_add_right _ _)
    · rw [deadline]
      exact passed.1

theorem evalCancelHold_kept (p : Port) (tag : Byte) (handle : Handle) :
    LawsKept s₀ s (evalCancelHold p tag handle s) :=
  serveHold_kept busy fun n _ _ =>
    (freeHold_kept s₀ n s).trans <| (answer_kept busy _ _ _ _ _ _).trans <| reevaluate_kept busy.mayRaise _ _

/-! ## Requests that read, and alert requests -/

theorem answered_kept {α : Type} (p : Port) (tag : Byte) (k : Kind) (v : Except Status α) (f : α → State → Figures) :
    LawsKept s₀ s (serve p tag k v (fun a s => answer p tag k .ok (f a s) s) s) :=
  serve_kept busy fun _ _ => answer_kept busy _ _ _ _ _ s

/-- Entries that leave the alert queue. -/
theorem alerts_sublist_kept {l : List AlertEntry} {b : Bool} (sub : l.Sublist s.alerts) :
    LawsKept s₀ s { s with alerts := l, lost := b } :=
  alerts_kept busy.mayRaise fun law =>
    ⟨sub.length_le.trans law.1, law.2.1.sublist (sub.map _), law.2.2.sublist sub⟩

theorem evalFetchAlert_kept (p : Port) (tag filter : Byte) : LawsKept s₀ s (evalFetchAlert p tag filter s) := by
  refine serve_kept busy fun f _ => ?_
  have none_found : LawsKept s₀ s (fetchNone p tag s) :=
    (alerts_sublist_kept busy (List.Sublist.refl s.alerts)).trans (answer_kept busy _ _ _ _ _ _)
  unfold acceptFetch
  split
  · exact none_found
  · rename_i e rest queue
    split
    · exact (alerts_sublist_kept busy (by rw [queue]; exact List.sublist_cons_self e rest)).trans
        (answer_kept busy _ _ _ _ _ _)
    · exact none_found

theorem evalSetAlertMask_kept (p : Port) (tag mask : Byte) : LawsKept s₀ s (evalSetAlertMask p tag mask s) :=
  serve_kept busy fun m _ =>
    (setPort_kept (s := s) (v := { s.port p with mask := m }) id (.inl busy)).trans (answer_kept busy _ _ _ _ _ _)

end

section
variable {s₀ s : State} (busy : Busy s₀) (live : s.phase = .open)
include busy live

/-! ## Requests that make an image pending -/

theorem acceptImage_kept {i : SlotNo} {img : PendingImage}
    (ok : SlotOk (s.slot i) → img.balance.toNat ≤ img.ceiling.toNat) : LawsKept s₀ s (acceptImage i img s) :=
  (makePending_kept live ok).trans (reevaluate_kept busy.mayRaise i _)

theorem evalOpenAccount_kept (p : Port) (tag : Byte) (key : Word) (cls : Byte) (initial ceiling threshold : Word) :
    LawsKept s₀ s (evalOpenAccount p tag key cls initial ceiling threshold s) := by
  refine serve_kept busy fun ⟨i, q, c⟩ ok => ?_
  have passed : findKey s key = none ∧ key ≠ 0 ∧ initial.toNat ≤ ceiling.toNat := by
    unfold judgeOpen at ok
    repeat' split at ok
    all_goals cases ok
    exact ⟨by simp_all, by assumption, by omega⟩
  obtain ⟨fresh, nonzero, within⟩ := passed
  have opened : SlotOk (openingSlot key c q) := slotOk_vacant
  exact (claim_kept s₀ q (.current i) s).trans <| (setSlot_kept (v := openingSlot key c q) fun _ => opened).trans <|
    (insertKey_kept (s := (claim q (.current i) s).setSlot i (openingSlot key c q)) fresh nonzero).trans <|
    (makePending_kept (i := i) (by exact live) fun _ => within).trans <| raiseSpares_kept busy.mayRaise _

theorem evalCloseAccount_kept (p : Port) (tag : Byte) (key : Word) :
    LawsKept s₀ s (evalCloseAccount p tag key s) := by
  refine serve_kept busy fun i _ => (putPending_kept live fun law => ?_).trans (reevaluate_kept busy.mayRaise i _)
  exact ⟨law.1, fun _ hx => Option.mem_some.mp hx ▸ law.1⟩

theorem acceptMark_kept (k : Kind) (c : ChangeKind) (mark : Bool) (already : AccountState) (p : Port) (tag : Byte)
    (i : SlotNo) : LawsKept s₀ s (acceptMark k c mark already p tag i s) := by
  unfold acceptMark
  split
  · exact answer_kept busy p tag k .ok .zeros s
  · exact acceptImage_kept busy live And.left

theorem evalSetClass_kept (p : Port) (tag : Byte) (key : Word) (cls : Byte) :
    LawsKept s₀ s (evalSetClass p tag key cls s) := by
  refine serve_kept busy fun a _ => ?_
  unfold acceptSetClass
  split
  · exact answer_kept busy p tag .setClass .ok .zeros s
  · exact acceptImage_kept busy live And.left

theorem evalCredit_kept (p : Port) (tag : Byte) (key amount : Word) :
    LawsKept s₀ s (evalCredit p tag key amount s) := by
  refine serve_kept busy fun i ok => acceptImage_kept busy live fun _ => ?_
  have within : (s.slot i).balance.toNat + amount.toNat ≤ (s.slot i).ceiling.toNat := by
    unfold judgeCredit at ok
    repeat' split at ok
    all_goals cases ok
    omega
  exact (Nat.mod_le _ _).trans within

theorem evalDebitAmount_kept (p : Port) (tag : Byte) (key amount : Word) :
    LawsKept s₀ s (evalDebitAmount p tag key amount s) :=
  serve_kept busy fun _ _ => acceptImage_kept busy live fun law => asWord_sub_le law.1

theorem evalDebitUnits_kept (p : Port) (tag : Byte) (key : Word) (units : Half) :
    LawsKept s₀ s (evalDebitUnits p tag key units s) := by
  refine serve_kept busy fun i _ => ?_
  simp only [acceptDebitUnits]
  split
  · exact answer_kept busy _ _ _ _ _ s
  · exact acceptImage_kept busy live fun law => asWord_sub_le law.1

theorem evalSetLimits_kept (p : Port) (tag : Byte) (key ceiling threshold : Word) :
    LawsKept s₀ s (evalSetLimits p tag key ceiling threshold s) := by
  refine serve_kept busy fun i ok => ?_
  have within : (s.slot i).balance.toNat ≤ ceiling.toNat := by
    unfold judgeSetLimits at ok
    repeat' split at ok
    all_goals cases ok
    omega
  simp only [acceptSetLimits]
  split
  · exact answer_kept busy _ _ _ _ _ s
  · exact acceptImage_kept busy live fun _ => within

theorem evalSetTariff_kept (p : Port) (tag : Byte) (cls : Byte) (rates : Rates) :
    LawsKept s₀ s (evalSetTariff p tag cls rates s) := by
  refine serve_kept busy fun n _ => ?_
  simp only [acceptSetTariff]
  split
  · exact answer_kept busy _ _ _ _ _ s
  · exact (setTariff_kept s₀ n _ s).trans ((joinQueue_kept (by exact .inl live)).trans (defer_kept s₀ p tag _))

/-! ## SETTLE_HOLD -/

theorem evalSettleHold_kept (p : Port) (tag : Byte) (handle : Handle) (units : Half) :
    LawsKept s₀ s (evalSettleHold p tag handle units s) := by
  refine serveHold_kept busy fun n h openHold => ?_
  unfold acceptSettle
  split
  · exact (freeHold_kept s₀ n s).trans <| (answer_kept busy _ _ _ _ _ _).trans <| reevaluate_kept busy.mayRaise _ _
  · rename_i charged
    have capped : settleCharge h units ≤ h.amount.toNat := Nat.min_le_right _ _
    have inRange := h.amount.isLt
    have charge : (asWord (settleCharge h units)).toNat = settleCharge h units := Nat.mod_eq_of_lt (by omega)
    have residual : (asWord (h.amount.toNat - settleCharge h units)).toNat = h.amount.toNat - settleCharge h units :=
      Nat.mod_eq_of_lt (by omega)
    unfold settlePending
    refine (setHold_kept (fun law => ?_) (.inr busy)).trans
      (acceptImage_kept busy (by exact live) fun law => asWord_sub_le (n := settleCharge h units) law.1)
    obtain ⟨generation, span⟩ := entryOk_open.mp ((entryOk_of_state openHold).mp law)
    exact entryOk_settling.mpr ⟨generation, span, by omega, by omega⟩

end

/-! ## Resets and the drain -/

/-- A reset leaves a state in which every law holds (R113). -/
theorem beginReset_hold {s u : State} (k : ResetKind) (level : SupplyLevel) (pending : u.pending = s.pending) :
    LawsHold s { beginReset k u with vdd := level } where
  tables := by
    refine ⟨fun _ => ⟨Nat.zero_le _, List.Pairwise.nil, List.Pairwise.nil⟩,
      fun _ => ⟨Nat.zero_le _, Nat.zero_le _, List.Pairwise.nil⟩, fun _ i => ?_,
      fun _ => ⟨List.Pairwise.nil, fun e he => absurd he (List.not_mem_nil)⟩, fun _ n => ?_,
      fun _ => ⟨fun e he => absurd he (List.not_mem_nil), fun e he => absurd he (List.not_mem_nil)⟩, pending⟩
    · have vacant : State.slot { beginReset k u with vdd := level } i = Slot.vacant := by
        simp [State.slot, beginReset, State.reset, Vector.get]
      rw [vacant]
      exact slotOk_vacant
    · have free : State.hold { beginReset k u with vdd := level } n = ⟨255, .free⟩ := by
        simp [State.hold, beginReset, State.reset, Vector.get]
      rw [free]
      exact entryOk_free.mpr (by decide)
  phases _ := by
    refine ⟨⟨fun h => absurd h (by simp [beginReset, State.reset]), fun _ => rfl, fun _ => rfl⟩,
      fun _ => ⟨⟨rfl, rfl⟩, ⟨rfl, rfl⟩, rfl, fun n => ?_, fun e he => absurd he (List.not_mem_nil)⟩,
      fun _ => ⟨rfl, rfl⟩, fun h => absurd h (by simp [beginReset, State.reset])⟩
    simp [State.hold, beginReset, State.reset, Vector.get]

theorem LawsKept.reset {s u : State} (h : LawsKept s s u) (k : ResetKind) : LawsHold s (beginReset k u) :=
  beginReset_hold k u.vdd h.tables.pending

/-- The drain of RESTARTING keeps the laws at the end of an event (R126). -/
theorem LawsKept.drain {s u : State} (h : LawsKept s s u) : LawsHold s (checkDrain u) := by
  rcases checkDrain_cases u with e | ⟨restarting, empty, e | e⟩
  · rw [e]
    exact h.hold
  · rw [e]
    exact (h.trans (collectionWait_kept restarting empty)).hold
  · rw [e]
    exact h.reset .restart

/-! ## RESTART -/

theorem restarting_kept {s₀ s : State} (live : s.phase = .open) : LawsKept s₀ s { s with phase := .restarting } where
  tables := ⟨id, id, id, id, id, id, rfl⟩
  ground g := by
    have noWait : s.collectionWait ≠ true := fun h => absurd (live.symm.trans (g.phase.2.2 h).1) (by decide)
    have noReset : s.inReset ≠ true := fun h => absurd (live.symm.trans (g.supply.2.2 h)) (by decide)
    exact ⟨⟨g.supply.1, nofun, fun h => absurd h noReset⟩,
      ⟨fun h => absurd (.inr rfl) h, fun h => absurd h (by simp), fun h => absurd h noWait⟩,
      fun _ => .inr rfl, fun _ => by simp⟩

theorem execRestart_hold (p : Port) (tag : Byte) (s : State) :
    LawsHold s (taking p ⟨tag, Kind.restart.code, [], .untaken⟩ s (evalRestart p tag)) := by
  rcases taking_cases p ⟨tag, Kind.restart.code, [], .untaken⟩ s (evalRestart p tag) with ⟨handed, h⟩ | ⟨-, h⟩
  · obtain ⟨-, live⟩ := live_of_arbiterChoice handed
    have busy : Busy s := .inl (.inl live)
    rw [h]
    rcases serve_cases p tag .restart (judgeRestart p (servedBy p s)) (fun _ s => acceptRestart p tag s) (servedBy p s) with
      ⟨st, -, h⟩ | ⟨-, -, h⟩
    · show LawsHold s (evalRestart p tag (servedBy p s))
      rw [evalRestart, h]
      exact ((servedBy_kept s p s).trans (answer_kept busy p tag .restart st .zeros _)).hold
    · have answered : (answer p tag .restart .ok .zeros (servedBy p s)).phase = .open := by
        obtain ⟨t, r, e⟩ := answer_shape p tag .restart .ok .zeros (servedBy p s)
        rw [e]
        exact live
      show LawsHold s (evalRestart p tag (servedBy p s))
      rw [evalRestart, h]
      exact ((servedBy_kept s p s).trans <| (answer_kept busy p tag .restart .ok .zeros _).trans <|
        (restarting_kept answered).trans <|
        .foldl _ (fun q _ u => answerCode_kept busy .terminal q.tag q.kind .restarting .zeros u) _).drain
  · rw [h]
    exact .refl s

/-! ## Outcomes of the Commit Engine -/

@[simp] theorem bindIncoming_slots (i : SlotNo) (e : CommitEntry) (s : State) : (bindIncoming i e s).slots = s.slots := by
  obtain ⟨a, h⟩ := bindIncoming_shape i e s
  rw [h]

@[simp] theorem retireAll_slots (ps : List PairNo) (s : State) : (retireAll ps s).slots = s.slots := by
  obtain ⟨t, w, h⟩ := retireAll_shape ps s
  rw [h]

section
variable {s₀ s : State}

theorem doneImage_kept (busy : Busy s₀) {i : SlotNo} {img : PendingImage} (pending : (s.slot i).pending = some img)
    (e : CommitEntry) (n : Word) : LawsKept s₀ s (doneImage i img e n s) := by
  have slots : (retireAll (wornByDone (s.slot i) e) (bindIncoming i e s)).leaveHead.slot i = s.slot i :=
    slot_congr (by simp) i
  have ok : SlotOk (s.slot i) → SlotOk (doneSlot (s.slot i) img n (holderOf (s.slot i) e)) := fun law =>
    ⟨law.2 img pending, fun x hx => absurd hx (by simp [doneSlot])⟩
  exact (bindIncoming_kept s₀ i e s).trans <| (retireAll_kept s₀ _ _).trans <| (leaveHead_kept s₀ _).trans <|
    (setSlot_kept (by rw [slots]; exact ok)).trans <| (freeSettled_kept s₀ img _).trans <| (answerImage_kept busy img _ _ _).trans <|
    (raiseRetired_kept busy.mayRaise _ _).trans <| settleIndicators_kept busy.mayRaise _ _ _

theorem doneEmpty_kept (busy : Busy s₀) (i : SlotNo) (img : PendingImage) (e : CommitEntry) :
    LawsKept s₀ s (doneEmpty i img e s) :=
  (retireAll_kept s₀ _ s).trans <| (handBackAll_kept s₀ _ _).trans <| (leaveHead_kept s₀ _).trans <|
    (vacate_kept s₀ i _).trans <| (answerImage_kept busy img _ _ _).trans <| raiseRetired_kept busy.mayRaise _ _

theorem doneTariff_kept (busy : Busy s₀) (n : ClassNo) (img : PendingTariff) (sequence : Word) :
    LawsKept s₀ s (doneTariff n img sequence s) :=
  (leaveHead_kept s₀ s).trans <| (setTariff_kept s₀ n _ _).trans <| answer_kept busy _ _ _ _ _ _

theorem report_kept (s₀ s : State) (r : Report) : LawsKept s₀ s { s with report := r } := Quiet.kept rfl

theorem doneTidy_kept (may : MayRaise s₀) (p : PairNo) : LawsKept s₀ s (doneTidy p s) :=
  (handBack_kept s₀ p s).trans <| (leaveHead_kept s₀ _).trans <| (report_kept s₀ _ _).trans <|
    (raiseRetired_kept may _ _).trans <| tidyNext_kept s₀ _

theorem doneOutcome_kept {e : CommitEntry} (may : MayRaise s₀) (busy : e.isTidy = false → Busy s₀) (sequence : Word) :
    LawsKept s₀ s (doneOutcome e sequence s) := by
  unfold doneOutcome
  split <;> rename_i subject
  · split
    · exact leaveHead_kept s₀ s
    · exact doneImage_kept (busy (by simp [CommitEntry.isTidy, subject])) ‹_› e sequence
  · split
    · exact leaveHead_kept s₀ s
    · exact doneEmpty_kept (busy (by simp [CommitEntry.isTidy, subject])) _ _ e
  · split
    · exact leaveHead_kept s₀ s
    · exact doneTariff_kept (busy (by simp [CommitEntry.isTidy, subject])) _ _ sequence
  · exact doneTidy_kept may _

theorem faultOpen_kept (busy : Busy s₀) (i : SlotNo) (img : PendingImage) (e : CommitEntry) :
    LawsKept s₀ s (faultOpen i img e s) :=
  (retireAll_kept s₀ _ s).trans <| (leaveHead_kept s₀ _).trans <| (vacate_kept s₀ i _).trans <|
    (answerImage_kept busy img _ _ _).trans <| (raiseAlert_kept busy.mayRaise _ _ _).trans <|
    raiseRetired_kept busy.mayRaise _ _

theorem faultChange_kept (busy : Busy s₀) (i : SlotNo) (img : PendingImage) (e : CommitEntry) :
    LawsKept s₀ s (faultChange i img e s) := by
  have slots : (retireAll e.stage.incoming.toList s).leaveHead.slot i = s.slot i := slot_congr (by simp) i
  have ok : SlotOk (s.slot i) → SlotOk { s.slot i with state := .faulted, pending := none } := fun law =>
    ⟨law.1, fun x hx => absurd hx (by simp)⟩
  exact (retireAll_kept s₀ _ s).trans <| (leaveHead_kept s₀ _).trans <| (setSlot_kept (by rw [slots]; exact ok)).trans <|
    (reopenSettled_kept busy img _).trans <| (answerImage_kept busy img _ _ _).trans <|
    (raiseAlert_kept busy.mayRaise _ _ _).trans <| (raiseRetired_kept busy.mayRaise _ _).trans <|
    reevaluate_kept busy.mayRaise i _

theorem faultAccount_kept (busy : Busy s₀) (i : SlotNo) (e : CommitEntry) : LawsKept s₀ s (faultAccount i e s) := by
  unfold faultAccount
  split
  · exact leaveHead_kept s₀ s
  · split
    · exact faultOpen_kept busy i _ e
    · exact faultChange_kept busy i _ e

theorem faultTariff_kept (busy : Busy s₀) (n : ClassNo) : LawsKept s₀ s (faultTariff n s) := by
  unfold faultTariff
  split
  · exact leaveHead_kept s₀ s
  · exact (leaveHead_kept s₀ s).trans <| (setTariff_kept s₀ n _ _).trans <| (answer_kept busy _ _ _ _ _ _).trans <|
      raiseAlert_kept busy.mayRaise _ _ _

theorem faultTidy_kept (may : MayRaise s₀) (p : PairNo) : LawsKept s₀ s (faultTidy p s) :=
  (retire_kept s₀ p s).trans <| (leaveHead_kept s₀ _).trans <| (report_kept s₀ _ _).trans <|
    (raiseRetired_kept may _ _).trans <| tidyNext_kept s₀ _

theorem faultOutcome_kept {e : CommitEntry} (may : MayRaise s₀) (busy : e.isTidy = false → Busy s₀) :
    LawsKept s₀ s (faultOutcome e s) := by
  unfold faultOutcome
  split <;> rename_i subject
  · exact faultAccount_kept (busy (by simp [CommitEntry.isTidy, subject])) _ e
  · exact faultAccount_kept (busy (by simp [CommitEntry.isTidy, subject])) _ e
  · exact faultTariff_kept (busy (by simp [CommitEntry.isTidy, subject])) _
  · exact faultTidy_kept may _

theorem dropOpen_kept (busy : Busy s₀) (i : SlotNo) (img : PendingImage) : LawsKept s₀ s (dropOpen i img s) :=
  (handBackAll_kept s₀ _ s).trans <| (vacate_kept s₀ i _).trans <| (answerImage_kept busy img _ _ _).trans <|
    raiseRetired_kept busy.mayRaise _ _

theorem dropChange_kept (busy : Busy s₀) (i : SlotNo) (img : PendingImage) : LawsKept s₀ s (dropChange i img s) :=
  (setSlot_kept (v := droppedSlot (s.slot i) img.change) fun law =>
      ⟨law.1, fun x hx => absurd hx (by simp [droppedSlot])⟩).trans <|
    (reopenSettled_kept busy img _).trans <| (answerImage_kept busy img _ _ _).trans <|
    reevaluate_kept busy.mayRaise i _

theorem dropAccount_kept (busy : Busy s₀) (i : SlotNo) : LawsKept s₀ s (dropAccount i s) := by
  unfold dropAccount
  split
  · exact .refl s₀ s
  · split
    · exact dropOpen_kept busy i _
    · exact dropChange_kept busy i _

theorem dropOutcome_kept {e : CommitEntry} (busy : e.isTidy = false → Busy s₀) :
    LawsKept s₀ s (dropOutcome s e) := by
  unfold dropOutcome
  split <;> rename_i subject
  · exact dropAccount_kept (busy (by simp [CommitEntry.isTidy, subject])) _
  · exact dropAccount_kept (busy (by simp [CommitEntry.isTidy, subject])) _
  · unfold dropTariff
    split
    · exact .refl s₀ s
    · exact (setTariff_kept s₀ _ _ s).trans
        (answer_kept (busy (by simp [CommitEntry.isTidy, subject])) _ _ _ _ _ _)
  · exact .refl s₀ s

end

/-! ## Attempts of the Commit Engine -/

theorem not_stopped_of_underWay {e : CommitEntry} {st : Stage} {t : Attempt} (h : t.underWay = true) :
    ({ e with stage := st.setAttempt t } : CommitEntry).stopped = false := by
  cases st <;> simp [CommitEntry.stopped, Stage.setAttempt, Stage.underWay, Stage.attempt, h]

theorem addWear_commitQueue (p : PairId) (s : State) : (addWear p s).commitQueue = s.commitQueue := by
  obtain ⟨a, b, n, h⟩ := addWear_shape p s
  rw [h]

section
variable {s₀ s : State} {head : CommitEntry} {rest : List CommitEntry} (queue : s.commitQueue = head :: rest)
include queue

theorem beginAttempt_kept {e : CommitEntry} (subject : e.subject = head.subject) :
    LawsKept s₀ s (beginAttempt e s) := by
  unfold beginAttempt
  split
  · rename_i t p c _ _
    refine (addWear_kept s₀ p s).trans (setHead_kept ((addWear_commitQueue p s).trans queue) subject fun h => ?_)
    exact absurd h (by simp [not_stopped_of_underWay])
  · rename_i noSite
    refine setHead_kept queue subject fun h => ?_
    rcases hst : e.stage with _ | t | ⟨t, p, c⟩
    · exact absurd h (by simp [stopped_of_waiting hst])
    · exact absurd (by rw [hst]; rfl) (noSite t t.target t.copy (by rw [hst]; rfl))
    · exact absurd (by rw [hst]; rfl) (noSite t (.account p) c (by rw [hst]; rfl))

theorem enterStage_kept {e : CommitEntry} (subject : e.subject = head.subject) (st : Stage) :
    LawsKept s₀ s (enterStage e st s) := by
  unfold enterStage
  split
  · exact beginAttempt_kept queue subject
  · rename_i notGood
    exact setHead_kept queue subject fun _ => by cases h : s.supply <;> simp_all

theorem relocate_kept (may : MayRaise s₀) {e : CommitEntry} (busy : e.isTidy = false → Busy s₀)
    (subject : e.subject = head.subject) (i : SlotNo) (target : PairId) (copy : CopyName) :
    LawsKept s₀ s (relocate e i target copy s) := by
  unfold relocate
  split
  · exact .refl s₀ s
  · rename_i q _ _
    refine (claim_kept s₀ q (.incoming i) s).trans (.trans ?_ (raiseSpares_kept may _))
    split
    · exact faultOutcome_kept may busy
    · exact enterStage_kept (s := claim q (.incoming i) s) queue subject _

theorem programHead_kept (may : MayRaise s₀) (busy : head.isTidy = false → Busy s₀) (p : PairId) :
    LawsKept s₀ s (programHead head p s) := by
  simp only [programHead]
  split
  · exact faultOutcome_kept may busy
  · split
    · exact relocate_kept queue may busy rfl _ _ _
    · exact enterStage_kept queue rfl _

theorem attemptFailed_kept (may : MayRaise s₀) (busy : head.isTidy = false → Busy s₀) (t : Attempt) :
    LawsKept s₀ s (attemptFailed head t s) := by
  unfold attemptFailed
  split
  · exact enterStage_kept queue rfl _
  · exact faultOutcome_kept may busy
  · unfold targetRefused
    split
    · exact faultOutcome_kept may busy
    · split
      · exact faultOutcome_kept may busy
      · exact relocate_kept queue may busy rfl _ _ _
  · exact .refl s₀ s

end

/-- The head of the queue with which an event begins: the event may raise alerts, and a request's head lets it answer. -/
theorem head_mayRaise {s₀ : State} {e : CommitEntry} {rest : List CommitEntry} (queue : s₀.commitQueue = e :: rest) :
    MayRaise s₀ ∧ (e.isTidy = false → Busy s₀) :=
  ⟨.inr (by simp [queue]), fun h => .inr ⟨e, by simp [queue], h⟩⟩

/-- The first program of the head, in an event that began with this queue. -/
theorem firstProgram_kept {s₀ s : State} (same : s.commitQueue = s₀.commitQueue) : LawsKept s₀ s (firstProgram s) := by
  unfold firstProgram
  split
  · exact .refl s₀ s
  · rename_i e rest queue
    obtain ⟨may, busy⟩ := head_mayRaise (same.symm.trans queue)
    split
    · split
      · exact .refl s₀ s
      · exact programHead_kept queue may busy _
    · exact .refl s₀ s

theorem attemptComplete_kept (readBack : Copy) (s : State) : LawsKept s s (attemptComplete readBack s) := by
  unfold attemptComplete
  split
  · exact .refl s s
  · rename_i e rest queue
    obtain ⟨may, busy⟩ := head_mayRaise queue
    split
    · rename_i t p c _ _
      split
      · refine (setCopy_kept s p c readBack s).trans ?_
        unfold completeAttempt
        dsimp only
        split
        · exact (recordVerified_kept s p c _ _).trans (doneOutcome_kept may busy _)
        · exact attemptFailed_kept ((setCopy_commitQueue s p c readBack).trans queue) may busy t
      · exact .refl s s
    · exact .refl s s

/-! ## The second tick -/

theorem lapseEntry_kept {s₀ : State} (busy : Busy s₀) (s : State) (n : HoldNo) : LawsKept s₀ s (lapseEntry s n) := by
  unfold lapseEntry
  split
  · exact .refl s₀ s
  · rename_i h due
    obtain ⟨openHold, reached⟩ := (dueHold_eq_some s n h).mp due
    refine (setHold_kept (fun law => ?_) (.inr busy)).trans (raiseAlert_kept busy.mayRaise _ _ _)
    obtain ⟨generation, span⟩ := entryOk_open.mp ((entryOk_of_state openHold).mp law)
    exact entryOk_lapsed.mpr ⟨generation, span, reached⟩

theorem seconds_kept {s₀ s : State} (serves : servesPorts s) (w : Word) : LawsKept s₀ s { s with seconds := w } where
  tables := ⟨id, id, id, id, id, id, rfl⟩
  ground g := ⟨g.supply, ⟨fun h => absurd serves h, g.phase.2⟩, g.busy, g.raises⟩

theorem execSecondTick_hold (s : State) :
    LawsHold s (if ticks s then lapseHolds { s with seconds := s.seconds + 1 } else s) := by
  split
  · rename_i h
    have serves : servesPorts s := by
      simp only [ticks, Bool.and_eq_true, Bool.or_eq_true, decide_eq_true_eq] at h
      exact h.1.2
    have busy : Busy s := .inl serves
    exact ((seconds_kept serves _).trans <| (LawsKept.foldl _ (fun n _ u => lapseEntry_kept busy u n) _).trans <|
      .foldl _ (fun i _ u => reevaluate_kept busy.mayRaise i u) _).hold
  · exact .refl s

/-! ## Port transactions -/

/-- What a port holds besides its window and its response queue takes no part in the laws. -/
theorem setPort_wire_kept (s₀ s : State) (p : Port) {v : PortState} (window : v.window = (s.port p).window)
    (responses : v.responses = (s.port p).responses) : LawsKept s₀ s (s.setPort p v) :=
  setPort_kept (fun h => window ▸ h) (.inr (.inr fun h => ⟨window ▸ h.1, responses ▸ h.2⟩))

theorem recordWire_kept (s₀ : State) (p : Port) (sent : List Byte) (acknowledged : Nat) (s : State) :
    LawsKept s₀ s (recordWire p sent acknowledged s) := setPort_wire_kept s₀ s p rfl rfl

theorem sendStatus_kept (s₀ : State) (p : Port) (rest : List Byte) (acknowledged : Nat) (s : State) :
    LawsKept s₀ s (sendStatus p rest acknowledged s) :=
  (recordWire_kept s₀ p _ acknowledged s).trans (setPort_wire_kept s₀ _ p rfl rfl)

theorem endSubmit_kept (s₀ : State) (p : Port) (bytes : List Byte) (s : State) : LawsKept s₀ s (endSubmit p bytes s) := by
  unfold endSubmit
  split
  · exact setPort_wire_kept s₀ s p rfl rfl
  · rename_i q ok
    have passed : s.phase = .open ∧ (s.port p).window.length < windowPlaces p
        ∧ tagInUse p (s.port p).window q.tag = false := by
      unfold judgeSubmit at ok
      repeat' split at ok
      all_goals cases ok
      simp_all
    obtain ⟨live, room, fresh⟩ := passed
    refine setPort_kept (fun law => ?_) (.inr (.inl (.inl live)))
    cases p with
    | terminal =>
      refine ⟨by rw [List.length_append]; exact room, ?_⟩
      rw [List.map_append, List.map_singleton, List.nodup_append]
      refine ⟨law.2, List.nodup_singleton _, fun a ha b hb => ?_⟩
      obtain ⟨x, hx, rfl⟩ := List.mem_map.mp ha
      rw [List.mem_singleton.mp hb]
      have differs := List.any_eq_false.mp fresh x hx
      simpa using differs
    | service =>
      show (_ ++ [q]).length ≤ 1
      rw [List.length_append]
      exact room

theorem endCollect_kept (s₀ : State) (p : Port) (n : Nat) (s : State) : LawsKept s₀ s (endCollect p n s) := by
  unfold endCollect
  split
  · unfold removeHead
    split
    · exact setPort_wire_kept s₀ s p rfl rfl
    · rename_i r rest responses
      refine setPort_kept (fun law => law.sublist List.eraseP_sublist) (.inr (.inr fun idle => ?_))
      rw [PortState.idle, responses] at idle
      exact absurd idle.2 (by simp)
  · exact .refl s₀ s

theorem spiTransaction_hold (code : Byte) (received : List Byte) (s : State) :
    LawsHold s (spiTransaction code received s) := by
  unfold spiTransaction
  split
  · exact .refl s
  · split
    · exact ((sendStatus_kept s _ _ _ s).trans (endSubmit_kept s _ _ _)).hold
    · exact ((sendStatus_kept s _ _ _ s).trans (endCollect_kept s _ _ _)).drain
    · exact (sendStatus_kept s _ _ _ s).hold

theorem serviceWrite_kept (bytes : List Byte) (s : State) : LawsKept s s (serviceWrite bytes s) := by
  simp only [serviceWrite]
  split
  · exact recordWire_kept s _ _ _ s
  · exact (recordWire_kept s _ _ _ s).trans (endSubmit_kept s _ _ _)

theorem serviceRead_hold (count : Nat) (s : State) : LawsHold s (serviceRead count s) := by
  cases count with
  | zero => exact (recordWire_kept s _ _ _ s).hold
  | succ n => exact ((sendStatus_kept s _ _ _ s).trans (endCollect_kept s _ _ _)).drain

/-! ## Supply events -/

theorem supplyRise_hold (s : State) : LawsHold s (supplyRise s) := by
  unfold supplyRise
  split
  · rename_i h
    exact LawsKept.hold ⟨⟨id, id, id, id, id, id, rfl⟩,
      fun g => ⟨⟨fun _ => ⟨h.2, h.1⟩, g.supply.2⟩, g.phase, g.busy, g.raises⟩⟩
  · exact LawsKept.hold (Quiet.kept rfl)

theorem timerStopped_kept (s₀ s : State) (level : SupplyLevel) :
    LawsKept s₀ s { s with vdd := level, steadyTimer := .stopped } :=
  ⟨⟨id, id, id, id, id, id, rfl⟩,
    fun g => ⟨⟨nofun, g.supply.2⟩, g.phase, g.busy, g.raises⟩⟩

theorem supplyLow_kept (s₀ s : State) (level : SupplyLevel) :
    LawsKept s₀ s { s with supply := .low, steadyTimer := .stopped, vdd := level } where
  tables := ⟨id, id, id, id, id, fun law => ⟨law.1, fun _ _ _ => rfl⟩, rfl⟩
  ground g := ⟨⟨nofun, fun _ => rfl, g.supply.2.2⟩, g.phase, g.busy, g.raises⟩

theorem enterLow_kept (s : State) : LawsKept s s (enterLow s) := by
  obtain ⟨a, l, raised⟩ := raiseIf_shape (supplyAlertsOn s) .supplyLow .none
    { s with supply := .low, steadyTimer := .stopped, vdd := .belowSafe }
  refine (supplyLow_kept s s .belowSafe).trans <|
    (raiseIf_kept (fun h => .inl ((supplyAlertsOn_iff s).mp h)) .supplyLow .none _).trans <|
    (sublist_kept s (List.filter_sublist (p := fun e => !e.droppable))).trans <|
    .foldl _ (fun e he u => dropOutcome_kept fun requested => ?_) _
  have inQueue := List.mem_of_mem_filter he
  have raised' : raiseIf (supplyAlertsOn { s with supply := .low, steadyTimer := .stopped, vdd := .belowSafe }) .supplyLow
      .none { s with supply := .low, steadyTimer := .stopped, vdd := .belowSafe } = _ := raised
  rw [raised'] at inQueue
  exact .inr ⟨e, inQueue, requested⟩

theorem changeToLow_hold (s : State) : LawsHold s (changeToLow s) := by
  unfold changeToLow
  split
  · exact (enterLow_kept s).drain
  · exact (timerStopped_kept s s _).hold

/-- The supply becomes GOOD outside a reset, with a commit queue of which no entry stands stopped. -/
theorem supplyGood_kept {s₀ s : State} {q : List CommitEntry} (noReset : s.inReset = false)
    (tail : q.tail = s.commitQueue.tail) (empty : s.commitQueue = [] → q = [])
    (subjects : ∀ e ∈ q, ∃ x ∈ s.commitQueue, x.isTidy = e.isTidy)
    (running : CommitLaw s → ∀ e ∈ q, e.stopped = false) :
    LawsKept s₀ s { s with
      supply := .good, steadyTimer := .stopped, phase := phaseAtGood s.phase, commitQueue := q } where
  tables := ⟨id, id, id, id, id, fun law => ⟨fun e he => law.1 e (tail ▸ he),
    fun e he h => absurd h (by simp [running law e he])⟩, rfl⟩
  ground g := by
    have serves : servesPorts { s with
        supply := .good, steadyTimer := .stopped, phase := phaseAtGood s.phase, commitQueue := q } ↔ servesPorts s := by
      simp only [servesPorts]
      cases s.phase <;> simp [phaseAtGood]
    have early : phaseAtGood s.phase = .starting ∨ phaseAtGood s.phase = .scanning →
        s.phase = .starting ∨ s.phase = .scanning := by
      cases s.phase <;> simp [phaseAtGood]
    refine ⟨⟨nofun, fun h => ?_, fun h => absurd h (by simp [noReset])⟩,
      ⟨fun idle => ?_, fun h => ?_, fun wait => ?_⟩, fun busy => serves.mpr (g.busy busy),
      fun may h => g.raises may (early h)⟩
    · exact absurd h (by cases s.phase <;> simp [phaseAtGood])
    · obtain ⟨terminal, service, seconds, holds, tidy⟩ := g.phase.1 (fun h => idle (serves.mpr h))
      refine ⟨terminal, service, seconds, holds, fun e he => ?_⟩
      obtain ⟨x, hx, same⟩ := subjects e he
      exact same ▸ tidy x hx
    · obtain ⟨queue, alerts⟩ := g.phase.2.1 (early h)
      exact ⟨empty queue, alerts⟩
    · obtain ⟨restarting, queue⟩ := g.phase.2.2 wait
      exact ⟨by rw [restarting]; rfl, empty queue⟩

/-- The change of state with the head left as it is, where no attempt of it stands stopped. -/
theorem changeOfState_kept {s : State} (noReset : s.inReset = false)
    (head : ∀ e ∈ s.commitQueue.head?, e.stopped = false) : LawsKept s s (supplyGood s) := by
  refine (supplyGood_kept (q := s.commitQueue) noReset rfl id (fun e he => ⟨e, he, rfl⟩) fun law e he => ?_).trans
    (raiseIf_kept (fun h => .inl ((supplyAlertsOn_iff s).mp h)) _ _ _)
  rcases hq : s.commitQueue with _ | ⟨x, rest⟩
  · rw [hq] at he
    exact absurd he (by simp)
  · rw [hq] at he
    rcases List.mem_cons.mp he with rfl | he
    · exact head _ (by rw [hq]; rfl)
    · exact stopped_of_waiting (law.1 e (by rw [hq]; exact he))

theorem supplyGood_commitQueue (s : State) : (supplyGood s).commitQueue = s.commitQueue := by
  obtain ⟨a, l, h⟩ := supplyGood_shape s
  rw [h]

theorem raiseIf_setHead (b : Bool) (k : AlertKind) (sub : AlertSubject) (s : State) (e : CommitEntry) :
    (raiseIf b k sub s).setHead e = raiseIf b k sub (s.setHead e) := by
  cases b
  · rfl
  · have alerts : (s.setHead e).alerts = s.alerts := rfl
    simp only [raiseIf, raiseAlert, if_true, alerts]
    split_ifs <;> rfl

/-- A head that stands stopped goes on with its next attempt within the change to GOOD (R93): the change of state and the
attempt are taken together, since between the two the head stands stopped in GOOD. -/
theorem resumeStopped_kept {s : State} {e : CommitEntry} {rest : List CommitEntry} {t : Attempt}
    (noReset : s.inReset = false) (queue : s.commitQueue = e :: rest) (begun : e.stage.attempt = some t) :
    LawsKept s s (beginAttempt e (supplyGood s)) := by
  obtain ⟨p, c, site⟩ : ∃ p c, e.stage.site = some (p, c) := by
    rcases hst : e.stage with _ | t | ⟨t, q, c⟩
    · exact absurd begun (by simp [hst, Stage.attempt])
    · exact ⟨t.target, t.copy, rfl⟩
    · exact ⟨.account q, c, rfl⟩
  let e' : CommitEntry := { e with stage := e.stage.setAttempt { t with underWay := true } }
  have changed : LawsKept s s ((supplyGood s).setHead e') := by
    rw [supplyGood, raiseIf_setHead]
    refine (supplyGood_kept (q := e' :: rest) noReset (by rw [queue]; rfl)
      (fun h => absurd (queue.symm.trans h) (by simp)) (fun x hx => ?subjects) (fun law x hx => ?running)).trans ?raised
    case subjects =>
      rcases List.mem_cons.mp hx with rfl | hx
      · exact ⟨e, by simp [queue], rfl⟩
      · exact ⟨x, by simp [queue, hx], rfl⟩
    case running =>
      rcases List.mem_cons.mp hx with rfl | hx
      · exact not_stopped_of_underWay rfl
      · exact stopped_of_waiting (law.1 x (by rw [queue]; exact hx))
    case raised =>
      rw [State.setHead, queue]
      exact raiseIf_kept (fun h => .inl ((supplyAlertsOn_iff s).mp h)) _ _ _
  obtain ⟨a, b, n, worn⟩ := addWear_shape p (supplyGood s)
  have attempt : beginAttempt e (supplyGood s) = { (supplyGood s).setHead e' with
      accountPairs := a, tariffPairs := b, freeUses := n } := by
    unfold beginAttempt
    rw [begun, site]
    simp only [worn]
    rfl
  rw [attempt]
  exact changed.trans (Quiet.kept rfl)

/-- The change to GOOD with the resumption of the head (R133). -/
theorem changeToGood_hold (s : State) : LawsHold s (changeToGood s) := by
  unfold changeToGood
  split
  · rename_i h
    obtain ⟨noReset, -, -⟩ := h
    show LawsHold s (resumeHead (supplyGood s))
    have queue := supplyGood_commitQueue s
    rcases hq : s.commitQueue with _ | ⟨e, rest⟩
    · rw [resumeHead, queue, hq]
      exact (changeOfState_kept noReset (by simp [hq])).hold
    · have queue' : (supplyGood s).commitQueue = e :: rest := queue.trans hq
      have running : e.stopped = false → ∀ x ∈ s.commitQueue.head?, x.stopped = false := fun h x hx => by
        rw [hq, List.head?_cons, Option.mem_some_iff] at hx
        exact hx ▸ h
      rcases hatt : e.stage.attempt with _ | t
      · have waiting : e.stage = .waiting := by
          cases hst : e.stage <;> simp_all [Stage.attempt]
        rw [resumeHead_waiting _ e rest queue' waiting]
        exact ((changeOfState_kept noReset (running (stopped_of_waiting waiting))).trans (firstProgram_kept queue)).drain
      · rw [resumeHead, queue']
        simp only [hatt]
        split
        · rename_i underWay
          refine (changeOfState_kept noReset (running ?_)).hold
          simp [CommitEntry.stopped, Stage.underWay, hatt, underWay]
        · exact (resumeStopped_kept noReset hq hatt).hold
  · exact .refl s

theorem abandonAttempt_pending (cut : CutResult) (s : State) : (abandonAttempt cut s).pending = s.pending := by
  obtain ⟨a, b, h⟩ := abandonAttempt_shape cut s
  rw [h]

/-- The collapse of the supply begins a reset (R135). -/
theorem supplyCollapse_hold (cut : CutResult) (s : State) : LawsHold s (supplyCollapse cut s) :=
  beginReset_hold .powerOn .belowReset (abandonAttempt_pending cut s)

end Sys2Proof.Machine

/-! PROOFS. What every event keeps, III: the events of the Start-up Controller, and with them the laws that every command
and every step keeps (O53 to O59), the queue of commands (O2) and the state after a reset (O1, O3, O60). -/

namespace Sys2Proof.Machine

/-! ## The end of a reset and the scan -/

theorem resetEnd_hold (adr1 adr0 : Bool) (s : State) : LawsHold s (resetEnd adr1 adr0 s) := by
  unfold resetEnd
  split
  · rename_i reset
    refine LawsKept.hold ⟨⟨id, id, id, id, id, id, rfl⟩, fun g => ?_⟩
    have starting : s.phase = .starting := g.supply.2.2 reset
    have noServing : ¬ servesPorts s := by simp [starting]
    refine ⟨⟨fun _ => ⟨g.supply.2.1 starting, rfl⟩, fun _ => g.supply.2.1 starting, fun h => absurd h (by simp)⟩,
      ⟨fun _ => g.phase.1 noServing, fun _ => g.phase.2.1 (.inl starting), fun wait => ?_⟩,
      fun busy => absurd (g.busy busy) noServing, fun may => absurd (.inl starting) (g.raises may)⟩
    exact absurd (starting.symm.trans (g.phase.2.2 wait).1) (by decide)
  · exact .refl s

/-- A loaded account keeps the ceiling law, since its cell copy is no account image otherwise (Table 7-3). -/
theorem loadedSlot_ok {s : State} {x : Claimant} (image : x.isImage = true) (content : Content s x) :
    SlotOk (loadedSlot x) := by
  obtain ⟨n, -, -, -, -, -, -, ⟨-, -, -, within⟩ | ⟨-, close⟩⟩ := (contentOf_iff _ _ _).mp content
  · exact ⟨within, fun img h => absurd h (by simp [loadedSlot, Slot.vacant])⟩
  · exact absurd (image.symm.trans close) (by decide)

theorem scannedSlot_ok {loaded : List Claimant} (ok : ∀ x ∈ loaded, SlotOk (loadedSlot x)) (i : SlotNo) :
    SlotOk (scannedSlot loaded i) := by
  unfold scannedSlot
  split
  · exact slotOk_vacant
  · exact ok _ (List.mem_of_getElem? ‹_›)

/-- The loaded accounts in key order make a key index (R118). -/
theorem numbered_keyIndex {loaded : List Claimant} (sorted : loaded.Pairwise (fun x y => x.key.toNat < y.key.toNat))
    (nonzero : ∀ x ∈ loaded, x.key ≠ 0) (s : State) :
    KeyIndexLaw { s with keyIndex := (numbered loaded).map (fun x => (x.1.key, x.2)) } := by
  refine ⟨numbered_sorted loaded sorted, fun e he => ?_⟩
  obtain ⟨⟨x, i⟩, hx, rfl⟩ := List.mem_map.mp he
  exact nonzero x (List.mem_of_getElem? ((mem_numbered loaded x i).mp hx))

theorem scanTables_kept (s₀ s : State) : LawsKept s₀ s (scanTables s) := by
  have loaded : ∀ x ∈ (winners (claimants s)).take 256, x.isImage = true ∧ Content s x := fun x hx => by
    obtain ⟨image, content, -⟩ := (mem_winners s x).mp (List.mem_of_mem_take hx)
    exact ⟨image, content⟩
  have sorted := (winners_sorted s).sublist (List.take_sublist 256 _)
  have index := numbered_keyIndex sorted (fun x hx => ?nonzero) s
  case nonzero =>
    obtain ⟨-, -, -, -, nonzero, -⟩ := (contentOf_iff _ _ _).mp (loaded x hx).2
    exact nonzero
  refine ⟨⟨id, id, fun _ i => ?_, fun _ => index, id, id, rfl⟩, fun g => ⟨g.supply, g.phase, g.busy, g.raises⟩⟩
  have slot : (scanTables s).slot i = scannedSlot ((winners (claimants s)).take 256) i := get_tabulate _ i
  rw [slot]
  exact scannedSlot_ok (fun x hx => loadedSlot_ok (loaded x hx).1 (loaded x hx).2) i

/-- SCANNING ends in TIDYING. -/
theorem tidying_kept {s₀ s : State} (scanning : s.phase = .scanning) : LawsKept s₀ s { s with phase := .tidying } where
  tables := ⟨id, id, id, id, id, id, rfl⟩
  ground g := by
    have noServing : ¬ servesPorts s := by simp [scanning]
    refine ⟨⟨g.supply.1, nofun, fun reset => ?_⟩, ⟨fun _ => g.phase.1 noServing, fun h => absurd h (by simp), fun wait => ?_⟩,
      fun busy => absurd (g.busy busy) noServing, fun _ => by simp⟩
    · exact absurd (scanning.symm.trans (g.supply.2.2 reset)) (by decide)
    · exact absurd (scanning.symm.trans (g.phase.2.2 wait).1) (by decide)

theorem buildLists_kept (s₀ s : State) : LawsKept s₀ s (buildLists s) := Quiet.kept rfl

theorem scan_hold (s : State) : LawsHold s (scan s) := by
  unfold scan
  split
  · rename_i h
    have scanning : (buildLists (scanTables s)).phase = .scanning := h.2
    exact ((scanTables_kept s s).trans <| (buildLists_kept s _).trans <| (tidying_kept scanning).trans <|
      tidyNext_kept s _).hold
  · exact .refl s

/-! ## Every command -/

theorem LawsHold.ite {s t : State} {c : Prop} [Decidable c] (h : LawsHold s t) : LawsHold s (if c then t else s) := by
  split
  · exact h
  · exact .refl s

theorem execRequest_hold {c : Instr} {p : Port} {q : Request} {f : State → State} {s : State}
    (answers : exec c s = .next (taking p q s f))
    (kept : (servedBy p s).phase = .open → Busy s → LawsKept s (servedBy p s) (f (servedBy p s))) :
    ∃ t, exec c s = .next t ∧ LawsHold s t :=
  ⟨_, answers, taking_hold kept⟩

/-- Every command answers a next state and keeps every law. -/
theorem exec_hold (c : Instr) (s : State) : ∃ t, exec c s = .next t ∧ LawsHold s t := by
  cases c with
  | lookup p tag key => exact execRequest_hold rfl fun _ busy => answered_kept busy _ _ _ _ _
  | listNext p tag key => exact execRequest_hold rfl fun _ busy => answer_kept busy _ _ _ _ _ _
  | openAccount p tag key cls initial ceiling threshold =>
    exact execRequest_hold rfl fun live busy => evalOpenAccount_kept busy live p tag key cls initial ceiling threshold
  | closeAccount p tag key => exact execRequest_hold rfl fun live busy => evalCloseAccount_kept busy live p tag key
  | freeze p tag key =>
    exact execRequest_hold rfl fun live busy => serve_kept busy fun _ _ => acceptMark_kept busy live _ _ _ _ _ _ _
  | thaw p tag key =>
    exact execRequest_hold rfl fun live busy => serve_kept busy fun _ _ => acceptMark_kept busy live _ _ _ _ _ _ _
  | setClass p tag key cls => exact execRequest_hold rfl fun live busy => evalSetClass_kept busy live p tag key cls
  | credit p tag key amount => exact execRequest_hold rfl fun live busy => evalCredit_kept busy live p tag key amount
  | debitAmount p tag key amount =>
    exact execRequest_hold rfl fun live busy => evalDebitAmount_kept busy live p tag key amount
  | debitUnits p tag key units => exact execRequest_hold rfl fun live busy => evalDebitUnits_kept busy live p tag key units
  | setLimits p tag key ceiling threshold =>
    exact execRequest_hold rfl fun live busy => evalSetLimits_kept busy live p tag key ceiling threshold
  | quote p tag cls units => exact execRequest_hold rfl fun _ busy => answered_kept busy _ _ _ _ _
  | readTariff p tag cls => exact execRequest_hold rfl fun _ busy => answered_kept busy _ _ _ _ _
  | setTariff p tag cls rates => exact execRequest_hold rfl fun live busy => evalSetTariff_kept busy live p tag cls rates
  | openHold p tag key amount duration =>
    exact execRequest_hold rfl fun _ busy => evalOpenHold_kept busy p tag key amount duration
  | extendHold p tag handle seconds => exact execRequest_hold rfl fun _ busy => evalExtendHold_kept busy p tag handle seconds
  | settleHold p tag handle units => exact execRequest_hold rfl fun live busy => evalSettleHold_kept busy live p tag handle units
  | cancelHold p tag handle => exact execRequest_hold rfl fun _ busy => evalCancelHold_kept busy p tag handle
  | holdStatus p tag handle => exact execRequest_hold rfl fun _ busy => answered_kept busy _ _ _ _ _
  | readClock p tag => exact execRequest_hold rfl fun _ busy => answer_kept busy _ _ _ _ _ _
  | fetchAlert p tag filter => exact execRequest_hold rfl fun _ busy => evalFetchAlert_kept busy p tag filter
  | setAlertMask p tag mask => exact execRequest_hold rfl fun _ busy => evalSetAlertMask_kept busy p tag mask
  | readReport p tag => exact execRequest_hold rfl fun _ busy => answer_kept busy _ _ _ _ _ _
  | restart p tag => exact ⟨_, rfl, execRestart_hold p tag s⟩
  | badRequest p tag kind body =>
    exact ⟨_, rfl, .ite (taking_hold fun _ busy => answerCode_kept busy p tag kind _ _ _)⟩
  | submit bytes => exact ⟨_, rfl, spiTransaction_hold _ _ s⟩
  | collect clocked => exact ⟨_, rfl, spiTransaction_hold _ _ s⟩
  | status code received => exact ⟨_, rfl, spiTransaction_hold _ _ s⟩
  | voidTransaction clocks => exact ⟨_, rfl, .refl s⟩
  | i2cWrite address bytes => exact ⟨_, rfl, .ite (serviceWrite_kept bytes s).hold⟩
  | i2cRead address count => exact ⟨_, rfl, .ite (serviceRead_hold count s)⟩
  | secondTick => exact ⟨_, rfl, execSecondTick_hold s⟩
  | firstProgram => exact ⟨_, rfl, (firstProgram_kept rfl).drain⟩
  | attemptComplete readBack => exact ⟨_, rfl, (attemptComplete_kept readBack s).drain⟩
  | supplyRise => exact ⟨_, rfl, supplyRise_hold s⟩
  | supplyRipple => exact ⟨_, rfl, (timerStopped_kept s s _).hold⟩
  | changeToLow => exact ⟨_, rfl, changeToLow_hold s⟩
  | changeToGood => exact ⟨_, rfl, changeToGood_hold s⟩
  | supplyCollapse cut => exact ⟨_, rfl, supplyCollapse_hold cut s⟩
  | resetLine cut => exact ⟨_, rfl, beginReset_hold .resetLine _ (abandonAttempt_pending cut s)⟩
  | resetEnd adr1 adr0 => exact ⟨_, rfl, resetEnd_hold adr1 adr0 s⟩
  | scan => exact ⟨_, rfl, scan_hold s⟩
  | collectionWaitExpiry => exact ⟨_, rfl, .ite ((LawsKept.refl s s).reset .restart)⟩

/-- A step keeps the laws where a command does. -/
theorem stepKeeps {law : State → Prop} (pending : ∀ s l, law s → law { s with pending := l })
    (kept : ∀ {s t}, LawsHold s t → law s → law t) : StepKeeps law := by
  intro s t holds run
  unfold step at run
  split at run
  · cases run
    exact holds
  · rename_i c rest _
    obtain ⟨u, next, hold⟩ := exec_hold c { s with pending := rest }
    rw [next] at run
    cases run
    exact kept hold (pending s rest holds)

/-! ## The laws that every step keeps -/

/-- Settles O53: the only operation that adds an alert is a raise, which keeps the law. -/
theorem everyStepKeepsTheAlertLaw : Obligations.EveryStepKeepsTheAlertLaw :=
  stepKeeps (fun _ _ => id) fun h => h.tables.alerts

/-- Settles O54: a request joins a window only through the frame checks. -/
theorem everyStepKeepsTheWindowLaw : Obligations.EveryStepKeepsTheWindowLaw :=
  stepKeeps (fun _ _ => id) fun h => h.tables.windows

/-- Settles O55: every image that is made pending was judged against its ceiling, and only such an image is committed. -/
theorem everyStepKeepsTheCeilingLaw : Obligations.EveryStepKeepsTheCeilingLaw :=
  stepKeeps (fun _ _ => id) fun h => h.tables.ceilings

/-- Settles O56: a key joins the index at its place, and only where it is absent and not 0. -/
theorem everyStepKeepsTheKeyIndexLaw : Obligations.EveryStepKeepsTheKeyIndexLaw :=
  stepKeeps (fun _ _ => id) fun h => h.tables.keys

/-- Settles O57: every hold entry that an event writes is within its ranges where the entry before was. -/
theorem everyStepKeepsTheHoldLaw : Obligations.EveryStepKeepsTheHoldLaw :=
  stepKeeps (fun _ _ => id) fun h => h.tables.holds

/-- Settles O58: only the head takes a stage, and it takes a stopped one only in LOW; the change to GOOD starts it again. -/
theorem everyStepKeepsTheCommitLaw : Obligations.EveryStepKeepsTheCommitLaw :=
  stepKeeps (fun _ _ => id) fun h => h.tables.commits

/-- Settles O59: the two laws stand together, since each bounds what the events of a phase may do. -/
theorem everyStepKeepsTheSupplyAndPhaseLaws : Obligations.EveryStepKeepsTheSupplyAndPhaseLaws :=
  stepKeeps (fun _ _ => id) fun h => h.phases

/-! ## Steps, commands and the reset state -/

/-- Settles O1: by the definition of a step. -/
theorem stepRunsFrontCommand : Obligations.StepRunsFrontCommand := by
  refine ⟨fun c rest s => rfl, fun s empty => ?_⟩
  rw [step, empty]

/-- A request command that is not handed over changes nothing. -/
theorem exec_not_handed (c : Instr) (s : State) (request : (requestOf c).isSome = true)
    (other : arbiterChoice s ≠ requestOf c) : exec c s = .next s := by
  cases c with
  | badRequest p tag kind body =>
    have untaken : taking p ⟨tag, kind, body, .untaken⟩ s (evalBadRequest p tag kind) = s := if_neg other
    show Host.Outcome.next (if _ then _ else s) = _
    rw [untaken, ite_self]
  | submit | collect | status | voidTransaction | i2cWrite | i2cRead | secondTick | firstProgram | attemptComplete
  | supplyRise | supplyRipple | changeToLow | changeToGood | supplyCollapse | resetLine | resetEnd | scan
  | collectionWaitExpiry => cases request
  | _ => exact congrArg _ (if_neg other)

/-- Settles O2: no command touches the queue of commands, and a taking is made of the handed request alone. -/
theorem everyCommandAnswersNext : Obligations.EveryCommandAnswersNext := by
  refine ⟨fun c s => ?_, exec_not_handed⟩
  obtain ⟨t, next, hold⟩ := exec_hold c s
  exact ⟨t, next, hold.tables.pending⟩

@[simp] theorem slot_reset (i : SlotNo) : State.reset.slot i = Slot.vacant := by
  simp [State.slot, State.reset, Vector.get]

@[simp] theorem hold_reset (n : HoldNo) : State.reset.hold n = ⟨255, .free⟩ := by
  simp [State.hold, State.reset, Vector.get]

@[simp] theorem tariff_reset (n : ClassNo) : State.reset.tariff n = TariffClass.undefined := by
  simp [State.tariff, State.reset, Vector.get]

@[simp] theorem pair_reset (p : PairNo) : State.reset.pair p = ⟨none, PairTrack.cleared⟩ := by
  simp [State.pair, State.reset, Vector.get]

@[simp] theorem tariffPair_reset (n : ClassNo) : State.reset.tariffPairs.get n = PairTrack.cleared := by
  simp [State.reset, Vector.get]

/-- Settles O3: the fields as State.reset gives them. -/
theorem resetLeavesTheManualsValues : Obligations.ResetLeavesTheManualsValues := by
  refine ⟨slot_reset, rfl, hold_reset, rfl, tariff_reset, rfl, pair_reset, tariffPair_reset, rfl, rfl, rfl, rfl, rfl, rfl,
    rfl, rfl, rfl, rfl, rfl, rfl, fun p => ?_, rfl⟩
  have alert : alertLine State.reset p = false := rfl
  cases p
  · exact ⟨rfl, rfl, rfl, rfl, alert⟩
  · exact ⟨rfl, rfl, rfl, rfl, alert⟩

/-- Settles O60: every queue of the reset state is empty, and every slot and hold entry has its first value. -/
theorem everyLawHoldsAtReset : Obligations.EveryLawHoldsAtReset := by
  have noEntry : ∀ {P : CommitEntry → Prop}, ∀ e ∈ State.reset.commitQueue, P e := fun e he => absurd he List.not_mem_nil
  have noWait : State.reset.collectionWait ≠ true := by simp [State.reset]
  have noReset : State.reset.inReset ≠ true := by simp [State.reset]
  have free : ∀ n, (State.reset.hold n).state = .free := fun n => by rw [hold_reset]
  refine ⟨⟨Nat.zero_le _, List.Pairwise.nil, List.Pairwise.nil⟩, ⟨Nat.zero_le _, Nat.zero_le _, List.Pairwise.nil⟩,
    fun i => ?_, ⟨List.Pairwise.nil, fun e he => absurd he List.not_mem_nil⟩, fun n => ?_, ⟨noEntry, noEntry⟩,
    ⟨fun running => absurd running (by simp [State.reset]), fun _ => rfl, fun h => absurd h noReset⟩,
    ⟨fun _ => ⟨⟨rfl, rfl⟩, ⟨rfl, rfl⟩, rfl, free, noEntry⟩, fun _ => ⟨rfl, rfl⟩, fun h => absurd h noWait⟩⟩
  · rw [slot_reset]
    exact slotOk_vacant
  · rw [hold_reset]
    exact entryOk_free.mpr (by decide)

end Sys2Proof.Machine

/-! PROOFS. Requests: their frames (O4), the Arbiter (O5), and what steps 1 to 4 of the order of refusals answer (O6, O7,
O10). -/

namespace Sys2Proof.Machine

/-! ## Frames of requests (R155, R162) -/

@[simp] theorem ofCode_code (k : Kind) : Kind.ofCode k.code = some k := by
  cases k <;> rfl

/-- The request of every command waits UNTAKEN, with a body of the length of its kind. -/
theorem request_statement (c : Instr) : Laws.Requests.Statement c := by
  cases c with
  | badRequest p tag kind body => exact Laws.Requests.badRequest p tag kind body
  | submit | collect | status | voidTransaction | i2cWrite | i2cRead | secondTick | firstProgram | attemptComplete
  | supplyRise | supplyRipple | changeToLow | changeToGood | supplyCollapse | resetLine | resetEnd | scan
  | collectionWaitExpiry => exact Laws.Requests.ofNone rfl
  | _ => exact Laws.Requests.ofRequest rfl rfl rfl

theorem ratesBytes_joined (rates : Rates) (cls : Byte) : ratesAt (tariffBody cls rates) 1 = rates := by
  obtain ⟨fee, boundary, rate1, rate2⟩ := rates
  exact Rates.mk.injEq .. |>.mpr
    ⟨halfBytes_joined fee, halfBytes_joined boundary, halfBytes_joined rate1, halfBytes_joined rate2⟩

/-- The request of a well-formed command gives the command back, every operand from its place in the body (Table 12-1). -/
theorem commandOf_requestOf {c : Instr} {p : Port} {q : Request} (wf : c.wellFormed = true)
    (request : requestOf c = some (p, q)) : commandOf p q = c := by
  cases c with
  | lookup _ _ key | listNext _ _ key | closeAccount _ _ key | freeze _ _ key | thaw _ _ key =>
    cases request
    simp only [commandOf, ofCode_code]
    exact congrArg _ (wordBytes_joined key)
  | openAccount _ _ key cls initial ceiling threshold =>
    cases request
    simp only [commandOf, ofCode_code, Instr.openAccount.injEq, true_and]
    exact ⟨wordBytes_joined key, rfl, wordBytes_joined initial, wordBytes_joined ceiling, wordBytes_joined threshold⟩
  | setClass _ _ key cls =>
    cases request
    simp only [commandOf, ofCode_code, Instr.setClass.injEq, true_and]
    exact ⟨wordBytes_joined key, rfl⟩
  | credit _ _ key amount | debitAmount _ _ key amount =>
    cases request
    simp only [commandOf, ofCode_code]
    exact congrArg₂ _ (wordBytes_joined key) (wordBytes_joined amount)
  | debitUnits _ _ key units =>
    cases request
    simp only [commandOf, ofCode_code]
    exact congrArg₂ _ (wordBytes_joined key) (halfBytes_joined units)
  | setLimits _ _ key ceiling threshold =>
    cases request
    simp only [commandOf, ofCode_code, Instr.setLimits.injEq, true_and]
    exact ⟨wordBytes_joined key, wordBytes_joined ceiling, wordBytes_joined threshold⟩
  | quote _ _ cls units =>
    cases request
    simp only [commandOf, ofCode_code]
    exact congrArg₂ _ rfl (halfBytes_joined units)
  | setTariff _ _ cls rates =>
    cases request
    simp only [commandOf, ofCode_code]
    exact congrArg₂ _ rfl (ratesBytes_joined rates cls)
  | openHold _ _ key amount duration =>
    cases request
    simp only [commandOf, ofCode_code, Instr.openHold.injEq, true_and]
    exact ⟨wordBytes_joined key, wordBytes_joined amount, halfBytes_joined duration⟩
  | extendHold _ _ handle seconds =>
    cases request
    simp only [commandOf, ofCode_code]
    exact congrArg₂ _ rfl (halfBytes_joined seconds)
  | settleHold _ _ handle units =>
    cases request
    simp only [commandOf, ofCode_code]
    exact congrArg₂ _ rfl (halfBytes_joined units)
  | readTariff | cancelHold | holdStatus | fetchAlert | setAlertMask =>
    cases request
    simp only [commandOf, ofCode_code]
    rfl
  | readClock | readReport | restart =>
    cases request
    simp only [commandOf, ofCode_code]
  | badRequest _ _ kind body =>
    cases request
    have unknown : Kind.ofCode kind = none := by simpa [Instr.wellFormed] using wf
    simp only [commandOf, unknown]
  | _ => cases request

/-- Settles O4: the frame check passes a frame of the length of its kind, and the body gives the operands back. -/
theorem requestFrameCarriesItsCommand : Obligations.RequestFrameCarriesItsCommand := by
  intro c p q extra wf request short
  obtain ⟨untaken, fits⟩ := request_statement c p q request
  refine ⟨?_, commandOf_requestOf wf request⟩
  rw [checkFrame_requestFrame q.tag q.kind q.parameters extra short (fits wf), ← untaken]

/-! ## The Arbiter (R151) -/

/-- The candidate of a port is the first UNTAKEN request of its window. -/
theorem candidate_eq_some_iff (s : State) (p : Port) (q : Request) : candidate s p = some q ↔
    ∃ before after, (s.port p).window = before ++ q :: after ∧ q.state = .untaken
      ∧ ∀ x ∈ before, x.state ≠ .untaken := by
  rw [candidate, List.find?_eq_some_iff_append]
  simp only [decide_eq_true_eq, Bool.not_eq_true', decide_eq_false_iff_not]
  constructor
  · rintro ⟨untaken, before, after, split, taken⟩
    exact ⟨before, after, split, untaken, taken⟩
  · rintro ⟨before, after, split, untaken, taken⟩
    exact ⟨untaken, before, after, split, taken⟩

/-- In OPEN, outside a reset, the port not served last comes first. -/
theorem arbiterChoice_open {s : State} (noReset : s.inReset = false) (live : s.phase = .open) :
    arbiterChoice s = match candidate s (otherPort s.lastServed) with
      | some q => some (otherPort s.lastServed, q)
      | none => (candidate s s.lastServed).map (fun q => (s.lastServed, q)) := by
  simp only [arbiterChoice, noReset, live] <;> rfl

/-- Settles O5: the candidate is a `find?` in acceptance order, and the choice reads the other port's candidate first. -/
theorem arbiterTakesTurnsAndResponsesQueue : Obligations.ArbiterTakesTurnsAndResponsesQueue := by
  refine ⟨candidate_eq_some_iff, fun s idle => ?_, fun s noReset live => ⟨fun q other => ?_, fun q other own => ?_,
    fun terminal service => ?_⟩, fun p tag k st f s => ⟨answer_answered p tag k st f s, ?_⟩⟩
  · rw [arbiterChoice, if_pos idle]
  · rw [arbiterChoice_open noReset live, other]
  · rw [arbiterChoice_open noReset live, other, own]
    rfl
  · have nobody : ∀ p, candidate s p = none
      | .terminal => terminal
      | .service => service
    rw [arbiterChoice_open noReset live, nobody, nobody]
    rfl
  · obtain ⟨t, r, h⟩ := answer_shape p tag k st f s
    rw [h]

/-! ## Refusals that are answered (R5, R152) -/

theorem serve_error {α : Type} {p : Port} {tag : Byte} {k : Kind} {v : Except Status α} {f : α → State → State}
    {s : State} {st : Status} (h : v = .error st) : serve p tag k v f s = answer p tag k st .zeros s := by
  rw [h]
  rfl

theorem serve_ok {α : Type} {p : Port} {tag : Byte} {k : Kind} {v : Except Status α} {f : α → State → State}
    {s : State} {a : α} (h : v = .ok a) : serve p tag k v f s = f a s := by
  rw [h]
  rfl

theorem serveHold_refuse {p : Port} {tag : Byte} {k : Kind} {v : HoldVerdict} {figures : Hold → Figures}
    {f : HoldNo → Hold → State → State} {s : State} {st : Status} (h : v = .refuse st) :
    serveHold p tag k v figures f s = answer p tag k st .zeros s := by
  rw [h]
  rfl

/-- A refusal by steps 1 to 4 for a key is the refusal of the request that names it (R5). -/
theorem refusedAccount {c : Instr} {p : Port} {tag : Byte} {k : Kind} {key : Word} {s : State} {st : Status}
    (names : namesKey c = some (p, tag, k, key)) (handed : Handed c s) (refused : judgeAccount k p key s = .error st) :
    AnswersOnly c p tag k st .zeros s := by
  have taken : judgeAccount k p key (servedBy p s) = .error st := refused
  cases c with
  | lookup =>
    cases names
    exact (exec_lookup_handed _ _ _ s handed).trans (congrArg _ (serve_error taken))
  | closeAccount =>
    cases names
    exact (exec_closeAccount_handed _ _ _ s handed).trans
      (congrArg _ (serve_error (by rw [judgeClose, taken])))
  | freeze =>
    cases names
    exact (exec_freeze_handed _ _ _ s handed).trans (congrArg _ (serve_error taken))
  | thaw =>
    cases names
    exact (exec_thaw_handed _ _ _ s handed).trans (congrArg _ (serve_error taken))
  | setClass =>
    cases names
    exact (exec_setClass_handed _ _ _ _ s handed).trans
      (congrArg _ (serve_error (by rw [judgeSetClass, taken])))
  | credit =>
    cases names
    exact (exec_credit_handed _ _ _ _ s handed).trans
      (congrArg _ (serve_error (by rw [judgeCredit, taken])))
  | debitAmount =>
    cases names
    exact (exec_debitAmount_handed _ _ _ _ s handed).trans
      (congrArg _ (serve_error (by rw [judgeDebitAmount, taken])))
  | debitUnits =>
    cases names
    exact (exec_debitUnits_handed _ _ _ _ s handed).trans
      (congrArg _ (serve_error (by rw [judgeDebitUnits, taken])))
  | setLimits =>
    cases names
    exact (exec_setLimits_handed _ _ _ _ _ s handed).trans
      (congrArg _ (serve_error (by rw [judgeSetLimits, taken])))
  | openHold =>
    cases names
    exact (exec_openHold_handed _ _ _ _ _ s handed).trans
      (congrArg _ (serve_error (by rw [judgeOpenHold, taken])))
  | _ => cases names

/-- A refusal by steps 1 to 4 for a handle is the refusal of a request that changes the hold (R62). -/
theorem refusedHold {c : Instr} {p : Port} {tag : Byte} {k : Kind} {handle : Handle} {s : State} {st : Status}
    (names : namesHold c = some (p, tag, k, handle)) (handed : Handed c s) (changes : k ≠ .holdStatus)
    (refused : judgeHold k p handle s = .refuse st) : AnswersOnly c p tag k st .zeros s := by
  have taken : judgeHold k p handle (servedBy p s) = .refuse st := refused
  cases c with
  | extendHold =>
    cases names
    exact (exec_extendHold_handed _ _ _ _ s handed).trans (congrArg _ (serveHold_refuse taken))
  | settleHold =>
    cases names
    exact (exec_settleHold_handed _ _ _ _ s handed).trans (congrArg _ (serveHold_refuse taken))
  | cancelHold =>
    cases names
    exact (exec_cancelHold_handed _ _ _ s handed).trans (congrArg _ (serveHold_refuse taken))
  | holdStatus =>
    cases names
    exact absurd rfl changes
  | _ => cases names

theorem refusedHoldStatus {c : Instr} {p : Port} {tag : Byte} {handle : Handle} {s : State} {st : Status}
    (names : namesHold c = some (p, tag, .holdStatus, handle)) (handed : Handed c s)
    (refused : judgeHoldStatus p handle s = .error st) : AnswersOnly c p tag .holdStatus st .zeros s := by
  cases c with
  | holdStatus =>
    cases names
    exact (exec_holdStatus_handed _ _ _ s handed).trans (congrArg _ (serve_error refused))
  | _ => cases names

/-! ## Steps 1 and 2 (R152, R132) -/

theorem judgeAccount_of_admission {k : Kind} {p : Port} {s : State} {st : Status} (h : admission k p s = some st)
    (key : Word) : judgeAccount k p key s = .error st := by
  rw [judgeAccount, h]

theorem judgeHold_of_admission {k : Kind} {p : Port} {s : State} {st : Status} (h : admission k p s = some st)
    (handle : Handle) : judgeHold k p handle s = .refuse st := by
  rw [judgeHold, h]

theorem judgeClass_of_admission {k : Kind} {p : Port} {s : State} {st : Status} (h : admission k p s = some st)
    (cls : Byte) : judgeClass k p cls s = .error st := by
  rw [judgeClass, h]

/-- A request whose kind steps 1 and 2 refuse is answered so. -/
theorem refusedByAdmission {c : Instr} {p : Port} {q : Request} {k : Kind} {s : State} {st : Status}
    (wf : c.wellFormed = true) (request : requestOf c = some (p, q)) (chosen : arbiterChoice s = some (p, q))
    (kind : Kind.ofCode q.kind = some k) (refused : admission k p s = some st) :
    AnswersOnly c p q.tag k st .zeros s := by
  have handed : Handed c s := ⟨by rw [request]; rfl, chosen.trans request.symm⟩
  have never : ∀ {k : Kind}, k.serviceOnly = false → k.mayCommit = false → admission k p s ≠ some st :=
    fun open' free h => absurd ((admission_open _ p s open' free).symm.trans h) (by simp)
  have taken : admission k p (servedBy p s) = some st := refused
  cases c with
  | closeAccount | freeze | thaw | setClass | credit | debitAmount | debitUnits | setLimits =>
    cases request
    simp only [ofCode_code, Option.some.injEq] at kind
    subst kind
    exact refusedAccount rfl handed (judgeAccount_of_admission refused _)
  | settleHold =>
    cases request
    simp only [ofCode_code, Option.some.injEq] at kind
    subst kind
    exact refusedHold rfl handed (by decide) (judgeHold_of_admission refused _)
  | openAccount =>
    cases request
    simp only [ofCode_code, Option.some.injEq] at kind
    subst kind
    exact (exec_openAccount_handed _ _ _ _ _ _ _ s handed).trans (congrArg _ (serve_error (by rw [judgeOpen, taken])))
  | setTariff =>
    cases request
    simp only [ofCode_code, Option.some.injEq] at kind
    subst kind
    exact (exec_setTariff_handed _ _ _ _ s handed).trans
      (congrArg _ (serve_error (by rw [judgeSetTariff, judgeClass_of_admission taken])))
  | restart =>
    cases request
    simp only [ofCode_code, Option.some.injEq] at kind
    subst kind
    exact (exec_restart_handed _ _ s handed).trans (congrArg _ (serve_error (by rw [judgeRestart, taken])))
  | lookup | listNext | quote | readTariff | openHold | extendHold | cancelHold | holdStatus | readClock | fetchAlert
  | setAlertMask | readReport =>
    cases request
    simp only [ofCode_code, Option.some.injEq] at kind
    subst kind
    exact absurd refused (never rfl rfl)
  | badRequest p tag unknown body =>
    cases request
    exact absurd wf (by simp [Instr.wellFormed, kind])
  | _ => cases request

/-- Settles O6: steps 1 and 2 are the first of every order of refusals that has them. -/
theorem privilegeAndSupplyRefuse : Obligations.PrivilegeAndSupplyRefuse := by
  have privileged : ∀ k ∈ [Kind.openAccount, .closeAccount, .freeze, .thaw, .setClass, .credit, .setLimits, .setTariff,
      .restart], k.serviceOnly = true := by decide
  have committing : ∀ k ∈ [Kind.openAccount, .closeAccount, .freeze, .thaw, .setClass, .credit, .setLimits, .setTariff],
      k.mayCommit = true := by decide
  have debiting : ∀ k ∈ [Kind.debitAmount, .debitUnits, .settleHold], k.mayCommit = true ∧ k.serviceOnly = false := by
    decide
  intro c s p q k wf request chosen kind
  have refused := @refusedByAdmission c p q k s
  constructor
  · rintro ⟨rfl, mem⟩
    exact refused wf request chosen kind (admission_notPermitted k s (privileged k mem))
  · rintro (⟨rfl, mem⟩ | mem) low
    · exact refused wf request chosen kind (admission_supplyLow k _ s low (committing k mem) (.inr rfl))
    · obtain ⟨commits, anyone⟩ := debiting k mem
      exact refused wf request chosen kind (admission_supplyLow k p s low commits (.inl anyone))

/-- Settles O7: a request outside the catalogue has no order of refusals and a frame without a body. -/
theorem unknownKindIsBadRequest : Obligations.UnknownKindIsBadRequest := by
  intro p tag kind body s unknown handed
  refine ⟨exec_badRequest_handed p tag kind body s unknown handed, ?_⟩
  simp [responseFrame, frameOf, bodyLength, unknown, Figures.bytes]

/-! ## Steps 3 and 4 (R3 to R5, R62 to R64) -/

/-- An account named by a key past steps 1 and 2. -/
theorem judgeAccount_of_admitted {k : Kind} {p : Port} {s : State} (admitted : admission k p s = none) (key : Word) :
    judgeAccount k p key s = match findKey s key with
      | none => .error .noAccount
      | some i => match stateCheck k (s.slot i) with
        | some st => .error st
        | none => .ok i := by
  rw [judgeAccount, admitted] <;> rfl

theorem mayAsk_iff (k : Kind) (p : Port) (h : Hold) :
    mayAsk k p h = true ↔ h.owner = p ∨ (k = .cancelHold ∧ p = .service) := by
  simp [mayAsk]

section
variable {k : Kind} {p : Port} {handle : Handle} {n : HoldNo} {s : State} {h : Hold}
  (admitted : admission k p s = none)
include admitted

theorem judgeHold_unnamed (unnamed : ∀ n : HoldNo, ¬ Names handle n s) :
    judgeHold k p handle s = .refuse .noSuchHold := by
  rw [judgeHold, admitted]
  simp only [resolve_eq_none handle s unnamed]

theorem judgeHold_open (names : Names handle n s) (state : (s.hold n).state = .open h) :
    judgeHold k p handle s =
      if mayAsk k p h then
        match stateCheck k (s.slot h.slot) with
        | some st => .refuse st
        | none => .open n h
      else .refuse .notOwner := by
  rw [judgeHold, admitted]
  simp only [resolve_eq_some handle n s names, state] <;> rfl

theorem judgeHold_settling {c r : Word} (names : Names handle n s) (state : (s.hold n).state = .settling h c r) :
    judgeHold k p handle s = if h.owner = p then .refuse .accountBusy else .refuse .notOwner := by
  rw [judgeHold, admitted]
  simp only [resolve_eq_some handle n s names, state]

theorem judgeHold_lapsed {w : Word} (names : Names handle n s) (state : (s.hold n).state = .lapsed h w) :
    judgeHold k p handle s = if h.owner = p then .lapsed n h else .refuse .notOwner := by
  rw [judgeHold, admitted]
  simp only [resolve_eq_some handle n s names, state]

theorem judgeHold_notOwner (names : Names handle n s) (state : (s.hold n).state = .open h) (other : h.owner ≠ p)
    (noCancel : ¬ (k = .cancelHold ∧ p = .service)) : judgeHold k p handle s = .refuse .notOwner := by
  rw [judgeHold_open admitted names state, if_neg]
  exact fun may => ((mayAsk_iff k p h).mp may).elim other noCancel

theorem judgeHold_checked {st : Status} (names : Names handle n s) (state : (s.hold n).state = .open h)
    (may : h.owner = p ∨ (k = .cancelHold ∧ p = .service)) (check : stateCheck k (s.slot h.slot) = some st) :
    judgeHold k p handle s = .refuse st := by
  rw [judgeHold_open admitted names state, if_pos ((mayAsk_iff k p h).mpr may), check]

theorem judgeHold_passes (names : Names handle n s) (state : (s.hold n).state = .open h)
    (may : h.owner = p ∨ (k = .cancelHold ∧ p = .service)) (check : stateCheck k (s.slot h.slot) = none) :
    judgeHold k p handle s = .open n h := by
  rw [judgeHold_open admitted names state, if_pos ((mayAsk_iff k p h).mpr may), check]

end

section
variable {p : Port} {handle : Handle} {n : HoldNo} {s : State}

theorem judgeHoldStatus_unnamed (unnamed : ∀ n : HoldNo, ¬ Names handle n s) :
    judgeHoldStatus p handle s = .error .noSuchHold := by
  rw [judgeHoldStatus, admission_open .holdStatus p s rfl rfl]
  simp only [resolve_eq_none handle s unnamed]

theorem judgeHoldStatus_open {h : Hold} (names : Names handle n s) (state : (s.hold n).state = .open h) :
    judgeHoldStatus p handle s = match stateCheck .holdStatus (s.slot h.slot) with
      | some st => .error st
      | none => .ok (.open h) := by
  rw [judgeHoldStatus, admission_open .holdStatus p s rfl rfl]
  simp only [resolve_eq_some handle n s names, state] <;> rfl

theorem judgeHoldStatus_settling {h : Hold} {c r : Word} (names : Names handle n s)
    (state : (s.hold n).state = .settling h c r) :
    judgeHoldStatus p handle s = match stateCheck .holdStatus (s.slot h.slot) with
      | some st => .error st
      | none => .ok (.settling h c r) := by
  rw [judgeHoldStatus, admission_open .holdStatus p s rfl rfl]
  simp only [resolve_eq_some handle n s names, state] <;> rfl

theorem judgeHoldStatus_lapsed {h : Hold} {w : Word} (names : Names handle n s)
    (state : (s.hold n).state = .lapsed h w) : judgeHoldStatus p handle s = .ok (.lapsed h w) := by
  rw [judgeHoldStatus, admission_open .holdStatus p s rfl rfl]
  simp only [resolve_eq_some handle n s names, state]

end

theorem namesHold_kind {c : Instr} {p : Port} {tag : Byte} {k : Kind} {handle : Handle}
    (names : namesHold c = some (p, tag, k, handle)) :
    k ∈ [Kind.extendHold, .settleHold, .cancelHold, .holdStatus] := by
  cases c <;> cases names <;> decide

/-- Steps 1 and 2 let a request for an account pass from a port that may ask, in a supply state that serves it. -/
theorem admitted_of_key {k : Kind} {p : Port} {s : State}
    (port : p = .service ∨ k ∈ [Kind.lookup, .debitAmount, .debitUnits, .openHold])
    (supply : s.supply = .good ∨ k ∈ [Kind.lookup, .openHold]) : admission k p s = none := by
  have anyone : ∀ k ∈ [Kind.lookup, .debitAmount, .debitUnits, .openHold], k.serviceOnly = false := by decide
  have free : ∀ k ∈ [Kind.lookup, .openHold], k.serviceOnly = false ∧ k.mayCommit = false := by decide
  rcases supply with good | mem
  · rcases port with rfl | mem
    · exact admission_service_good k s good
    · exact admission_good k p s good (anyone k mem)
  · exact admission_open k p s (free k mem).1 (free k mem).2

theorem admitted_of_hold {k : Kind} {p : Port} {s : State}
    (mem : k ∈ [Kind.extendHold, .settleHold, .cancelHold, .holdStatus])
    (supply : s.supply = .good ∨ k ≠ .settleHold) : admission k p s = none := by
  have anyone : ∀ k ∈ [Kind.extendHold, .settleHold, .cancelHold, .holdStatus],
      k.serviceOnly = false ∧ (k ≠ .settleHold → k.mayCommit = false) := by decide
  obtain ⟨asked, free⟩ := anyone k mem
  rcases supply with good | other
  · exact admission_good k p s good asked
  · exact admission_open k p s asked (free other)

/-- Table 1-3 with the one-pending rule, kind by kind and state by state. -/
theorem stateCheck_table (v : Slot) :
    stateCheck .lookup v = none
    ∧ (∀ k ∈ [Kind.credit, .setLimits, .setClass, .freeze, .thaw, .closeAccount, .settleHold],
        (v.state = .active ∨ v.state = .frozen →
          stateCheck k v = if v.pending.isSome then some .accountBusy else none)
        ∧ (v.state = .opening ∨ v.state = .closing → stateCheck k v = some .accountBusy)
        ∧ (v.state = .faulted → stateCheck k v = some .faulted))
    ∧ (∀ k ∈ [Kind.debitAmount, .debitUnits],
        (v.state = .active → stateCheck k v = if v.pending.isSome then some .accountBusy else none)
        ∧ (v.state = .frozen → stateCheck k v = some .frozen)
        ∧ (v.state = .opening ∨ v.state = .closing → stateCheck k v = some .accountBusy)
        ∧ (v.state = .faulted → stateCheck k v = some .faulted))
    ∧ (∀ k ∈ [Kind.openHold, .extendHold],
        (v.state = .active →
          stateCheck k v = if v.pending.any (fun img => img.frozenMark) then some .frozen else none)
        ∧ (v.state = .frozen → stateCheck k v = some .frozen)
        ∧ (v.state = .opening ∨ v.state = .closing → stateCheck k v = some .accountBusy)
        ∧ (v.state = .faulted → stateCheck k v = some .faulted))
    ∧ (∀ k ∈ [Kind.cancelHold, .holdStatus],
        (v.state = .active ∨ v.state = .frozen ∨ v.state = .faulted → stateCheck k v = none)
        ∧ (v.state = .opening ∨ v.state = .closing → stateCheck k v = some .accountBusy)) := by
  have frozen : frozenPending v = if v.pending.any (fun img => img.frozenMark) then some .frozen else none := by
    unfold frozenPending
    cases v.pending <;> rfl
  rw [← frozen]
  simp only [List.forall_mem_cons, List.not_mem_nil, false_imp_iff, implies_true, and_true]
  cases hst : v.state <;> simp [stateCheck, hst, pendingCheck]

/-- Settles O10: Table 1-3 is `stateCheck`, and past steps 1 and 2 the refusals of steps 3 and 4 are read off the key
index, the hold table and that check. -/
theorem accountStateCheckIsTable13 : Obligations.AccountStateCheckIsTable13 := by
  refine ⟨stateCheck_table, findKey_eq_none_iff, fun c p tag k key s names handed port supply => ?_,
    fun c p tag k handle s names handed supply => ?_⟩
  · have admitted := admitted_of_key port supply
    refine ⟨fun absent => refusedAccount names handed ?_, fun i st found check => refusedAccount names handed ?_⟩
    · rw [judgeAccount_of_admitted admitted, absent]
    · rw [judgeAccount_of_admitted admitted, found]
      simp only [check]
  · have admitted : admission k p s = none := admitted_of_hold (namesHold_kind names) supply
    have refused := @refusedHold c p tag k handle s
    refine ⟨fun unnamed => ?_, fun n h named state => ⟨fun changes other noCancel => ?_, fun st may check => ?_⟩,
      fun n h charge residual named state => ⟨fun changes own => ?_, fun changes other => ?_, fun st status check => ?_⟩⟩
    · by_cases status : k = .holdStatus
      · subst status
        exact refusedHoldStatus names handed (judgeHoldStatus_unnamed unnamed)
      · exact refused names handed status (judgeHold_unnamed admitted unnamed)
    · exact refused names handed changes (judgeHold_notOwner admitted named state other noCancel)
    · by_cases status : k = .holdStatus
      · subst status
        exact refusedHoldStatus names handed (by rw [judgeHoldStatus_open named state, check])
      · exact refused names handed status (judgeHold_checked admitted named state (may.resolve_left status) check)
    · exact refused names handed changes (by rw [judgeHold_settling admitted named state, if_pos own])
    · exact refused names handed changes (by rw [judgeHold_settling admitted named state, if_neg other])
    · subst status
      exact refusedHoldStatus names handed (by rw [judgeHoldStatus_settling named state, check])

end Sys2Proof.Machine

/-! PROOFS. The account table, balances and tariffs (chapters 1 to 3): what each request answers, and the image it makes
pending (O8, O11 to O18, O20, O21). -/

namespace Sys2Proof.Machine

/-! ## Held total and re-evaluation (R22, R32, R33) -/

/-- A sum over a list of which one member is replaced. -/
theorem sum_map_set {α : Type} (f : α → Nat) (l : List α) (n : Nat) (h : n < l.length) (x : α) :
    ((l.set n x).map f).sum + f l[n] = (l.map f).sum + f x := by
  induction l generalizing n with
  | nil => exact absurd h (Nat.not_lt_zero n)
  | cons a rest ih =>
    cases n with
    | zero => simp only [List.set_cons_zero, List.map_cons, List.sum_cons, List.getElem_cons_zero]; omega
    | succ n =>
      have := ih n (Nat.lt_of_succ_lt_succ h)
      simp only [List.set_cons_succ, List.map_cons, List.sum_cons, List.getElem_cons_succ]
      omega

theorem heldTotal_setHold (s : State) (n : HoldNo) (e : HoldEntry) (i : SlotNo) :
    heldTotal (s.setHold n e) i + heldBy i (s.hold n) = heldTotal s i + heldBy i e := by
  have inTable : n.val < s.holds.toList.length := by simp
  have moved := sum_map_set (heldBy i) s.holds.toList n.val inTable e
  have here : s.holds.toList[n.val] = s.hold n := by simp [State.hold, Vector.get]
  have there : (s.setHold n e).holds.toList = s.holds.toList.set n.val e := by simp [State.setHold, Vector.toList_set]
  rw [here] at moved
  rw [heldTotal, heldTotal, there]
  exact moved

theorem heldTotal_free {s : State} (free : ∀ n : HoldNo, (s.hold n).state = .free) (i : SlotNo) :
    heldTotal s i = 0 := by
  refine List.sum_eq_zero fun x hx => ?_
  obtain ⟨e, he, rfl⟩ := List.mem_map.mp hx
  obtain ⟨n, hn, rfl⟩ := List.mem_iff_getElem.mp he
  have inTable : n < 32 := by simpa using hn
  have state : s.holds.toList[n].state = .free := by simpa [State.hold, Vector.get] using free ⟨n, inTable⟩
  simp only [heldBy, state]

/-- Settles O17: one entry's summand is replaced, and each state's summand is read off `heldBy`. -/
theorem heldTotalFollowsTheHolds : Obligations.HeldTotalFollowsTheHolds :=
  ⟨fun _ i free => heldTotal_free free i, heldTotal_setHold, fun _ _ _ => rfl, fun _ _ _ _ _ => rfl, fun _ _ _ _ => rfl,
    fun _ _ => rfl⟩

/-- What a re-evaluation raises, for a crossing into exhausted (`x`) and into low credit (`y`). -/
theorem reevaluate_raises {i : SlotNo} {s : State} {x y : Bool}
    (hx : x = decide (spendable s i = 0 ∧ (s.slot i).exhausted = false))
    (hy : y = decide (spendable s i < (s.slot i).threshold.toNat ∧ (s.slot i).low = false)) :
    AlertsLike (raiseIf y .lowCredit (.account i ((s.slot i).key.getD 0))
      (raiseIf x .creditExhausted (.account i ((s.slot i).key.getD 0)) s)) (reevaluate i s) := by
  subst hx hy
  exact reevaluate_alerts i s

theorem Recorded.like {c : AlertKind × AlertSubject} {u t : State} (h : Recorded c u) (like : AlertsLike u t) :
    Recorded c t := by
  obtain ⟨alerts, lost⟩ := like
  rw [Recorded, alerts, lost]
  exact h

/-- Settles O18: the two raises are made one after the other, each only on its crossing. -/
theorem reevaluationRaisesOnCrossings : Obligations.ReevaluationRaisesOnCrossings := by
  intro i s
  have raises := @reevaluate_raises i s
  refine ⟨reevaluate_becomes i _ s s rfl fun _ _ => rfl, reevaluate_spendable i i s, ?neither, ?exhausted, ?low,
    ?exhaustedAlone, ?lowAlone, ?both⟩
  case neither =>
    rintro ⟨noX, noY⟩
    exact raises (x := false) (y := false) (by simpa using noX) (by simpa using noY)
  case exhausted =>
    intro crossed
    refine Recorded.like ?_ (raises (x := true) (by simpa using crossed) rfl)
    exact raiseIf_keeps_recorded _ _ _ _ _ (raiseAlert_recorded _ _ s)
  case low =>
    intro crossed
    exact Recorded.like (raiseAlert_recorded _ _ _) (raises (y := true) rfl (by simpa using crossed))
  case exhaustedAlone =>
    intro crossed noY
    exact raises (x := true) (y := false) (by simpa using crossed) (by simpa using noY)
  case lowAlone =>
    intro noX crossed
    exact raises (x := false) (y := true) (by simpa using noX) (by simpa using crossed)
  case both =>
    intro crossedX crossedY
    exact raises (x := true) (y := true) (by simpa using crossedX) (by simpa using crossedY)

/-! ## LOOKUP and READ_REPORT (R8, R124) -/

theorem judgeLookup {p : Port} {key : Word} {s : State} {i : SlotNo} (found : findKey s key = some i) :
    judgeAccount .lookup p key s = .ok i := by
  rw [judgeAccount_of_admitted (admission_open .lookup p s rfl rfl), found]
  rfl

/-- Settles O8: both evaluations place one response, with figures read from the tables. -/
theorem lookupAndReadReportAnswerTheTables : Obligations.LookupAndReadReportAnswerTheTables := by
  refine ⟨fun p tag key s handed => ⟨fun i found => ?_, fun absent => refusedAccount rfl handed ?_⟩,
    fun p tag s handed => exec_readReport_handed p tag s handed⟩
  · exact (exec_lookup_handed p tag key s handed).trans (congrArg _ (serve_ok (judgeLookup (s := servedBy p s) found)))
  · rw [judgeAccount_of_admitted (admission_open .lookup p s rfl rfl), absent]

/-! ## A class named by a byte (R40, R41) -/

theorem definedClass_eq_some {s : State} {cls : Byte} {c : ClassNo} (code : cls.toNat = c.val)
    (defined : (s.tariff c).state = .defined) : definedClass s cls = some c := by
  rw [definedClass, classOf_eq_some cls c code]
  exact if_pos defined

theorem definedClass_eq_none {s : State} {cls : Byte}
    (undefined : 16 ≤ cls.toNat ∨ ∃ c : ClassNo, cls.toNat = c.val ∧ (s.tariff c).state = .undefined) :
    definedClass s cls = none := by
  rcases undefined with above | ⟨c, code, undefined⟩
  · rw [definedClass, classOf_eq_none cls above]
  · rw [definedClass, classOf_eq_some cls c code]
    exact if_neg (by simp [undefined])

/-! ## OPEN_ACCOUNT (R10, R11) -/

/-- An image made pending: the slot carries it, its entry is at the tail, and the response is deferred. -/
theorem makePending_eq (i : SlotNo) (img : PendingImage) (s : State) : ∃ te se, makePending i img s =
      { s.setSlot i { s.slot i with pending := some img } with
        commitQueue := s.commitQueue ++ [⟨.accountImage i, imageOf ((s.slot i).key.getD 0) img, some img.port,
          some img.tag, .waiting⟩]
        terminal := te
        service := se }
    ∧ Deferred img.port img.tag s (makePending i img s) := by
  obtain ⟨te, se, h⟩ := defer_shape img.port img.tag
    (joinQueue (.accountImage i) (imageOf ((s.slot i).key.getD 0) img) (some img.port) (some img.tag)
      (s.setSlot i { s.slot i with pending := some img }))
  refine ⟨te, se, h, (defer_deferred img.port img.tag _).congr (fun q => ?_) fun _ => rfl⟩
  cases q <;> rfl

/-- SPARES_EXHAUSTED is raised where the free list is empty, and nothing else of the state changes (R106). -/
theorem raiseSpares_of_ne {s : State} (spares : s.freeList ≠ []) : raiseSpares s = s := if_neg spares

theorem raiseSpares_of_nil {s : State} (noSpares : s.freeList = []) :
    raiseSpares s = raiseAlert .sparesExhausted .none s := if_pos noSpares

theorem raiseSpares_port (s : State) (q : Port) : (raiseSpares s).port q = s.port q := by
  obtain ⟨a, l, h⟩ := raiseSpares_shape s
  rw [h]
  cases q <;> rfl

theorem lowestVacant_eq_some {s : State} {i : SlotNo} (vacant : (s.slot i).state = .vacant)
    (lowest : ∀ j : SlotNo, j < i → (s.slot j).state ≠ .vacant) : lowestVacant s = some i := by
  refine List.find?_eq_some_iff_getElem.mpr ⟨by simpa using vacant, i.val, by simp, by simp, fun j hj => ?_⟩
  simpa using lowest ⟨j, hj.trans i.isLt⟩ hj

theorem lowestVacant_eq_none {s : State} (full : ∀ i : SlotNo, (s.slot i).state ≠ .vacant) : lowestVacant s = none :=
  List.find?_eq_none.mpr fun i _ => by simpa using full i

theorem lowestVacant_isSome {s : State} (vacant : ∃ i : SlotNo, (s.slot i).state = .vacant) :
    ∃ i, lowestVacant s = some i := by
  obtain ⟨i, vacant⟩ := vacant
  exact Option.isSome_iff_exists.mp (List.find?_isSome.mpr ⟨i, List.mem_finRange i, by simpa using vacant⟩)

/-- The order of refusals of OPEN_ACCOUNT past steps 1 and 2. -/
theorem judgeOpen_good {key : Word} {cls : Byte} {initial ceiling : Word} {s : State} (good : s.supply = .good) :
    judgeOpen .service key cls initial ceiling s =
      if (findKey s key).isSome then .error .duplicateKey
      else if key = 0 then .error .badValue
      else
        match definedClass s cls with
        | none => .error .badClass
        | some c =>
          if ceiling.toNat < initial.toNat then .error .badValue
          else
            match lowestVacant s with
            | none => .error .tableFull
            | some i =>
              match s.freeList with
              | [] => .error .noSpace
              | q :: _ => .ok (i, q, c) := by
  rw [judgeOpen, admission_service_good .openAccount s good] <;> rfl

/-- An accepted OPEN_ACCOUNT (R11). -/
theorem acceptOpen_spec {tag : Byte} {key initial ceiling threshold : Word} {i : SlotNo} {c : ClassNo} {pair : PairNo}
    {rest : List PairNo} {s : State} (free : s.freeList = pair :: rest) :
    ∃ t, acceptOpen .service tag key initial ceiling threshold i pair c (servedBy .service s) = t
      ∧ t.slot i = { openingSlot key c pair with
          pending := some (openImage .service tag i c initial ceiling threshold) }
      ∧ OtherSlots i s t ∧ RoleBecomes pair (.current i) s t ∧ t.freeList = rest
      ∧ (∀ e, e ∈ t.keyIndex ↔ e = (key, i) ∨ e ∈ s.keyIndex)
      ∧ t.commitQueue = s.commitQueue ++ [⟨.accountImage i, .account key c false initial ceiling threshold,
          some .service, some tag, .waiting⟩]
      ∧ Deferred .service tag s t
      ∧ (rest ≠ [] → t.alerts = s.alerts ∧ t.lost = s.lost)
      ∧ (rest = [] → AlertsLike (raiseAlert .sparesExhausted .none s) t ∧ Recorded (.sparesExhausted, .none) t)
      ∧ t = { s with
          slots := t.slots, keyIndex := t.keyIndex, accountPairs := t.accountPairs, freeList := rest,
          commitQueue := t.commitQueue, terminal := t.terminal, service := t.service, alerts := t.alerts,
          lost := t.lost, lastServed := .service } := by
  let img := openImage .service tag i c initial ceiling threshold
  let u := (claim pair (.current i) (servedBy .service s)).setSlot i (openingSlot key c pair)
  let v : State := { u with keyIndex := insertKey key i u.keyIndex }
  obtain ⟨te, se, pending, deferred⟩ := makePending_eq i img v
  have opening : v.slot i = openingSlot key c pair := slot_setSlot_same _ _ _
  have others : ∀ j, i ≠ j → v.slot j = s.slot j := fun j hj => slot_setSlot_other _ _ _ _ hj
  have freeList : (makePending i img v).freeList = rest := by
    rw [pending]
    exact congrArg List.tail free
  obtain ⟨a, l, raised⟩ := raiseSpares_shape (makePending i img v)
  refine ⟨raiseSpares (makePending i img v), rfl, ?slot, ?others, ?role, ?free, ?keys, ?queue, ?deferred, ?silent, ?exhausted,
    ?rest⟩
  case slot =>
    rw [raised, pending, opening]
    exact slot_setSlot_same v i _
  case others =>
    intro j hj
    rw [raised, pending]
    exact (slot_setSlot_other v i j _ (Ne.symm hj)).trans (others j (Ne.symm hj))
  case role =>
    rw [raised, pending]
    exact ⟨pair_setRole_same _ pair _, fun q hq => pair_setRole_other _ pair q _ (Ne.symm hq)⟩
  case free =>
    rw [raised]
    exact freeList
  case keys =>
    intro e
    rw [raised, pending]
    exact mem_insertKey key i s.keyIndex e
  case queue =>
    rw [raised, pending, opening]
    rfl
  case deferred =>
    refine deferred.congr (fun q => ?_) (raiseSpares_port _)
    cases q <;> rfl
  case silent =>
    intro spares
    rw [raiseSpares_of_ne (freeList ▸ spares), pending]
    exact ⟨rfl, rfl⟩
  case exhausted =>
    intro none_left
    refine ⟨?_, raiseSpares_recorded _ (freeList.trans none_left)⟩
    rw [raiseSpares_of_nil (freeList.trans none_left), pending]
    exact raiseAlert_like _ _ rfl ⟨rfl, rfl⟩
  case rest =>
    rw [raised, pending]
    simp only [← freeList, pending]
    rfl

/-- Settles O11: the order of refusals is followed step by step, and the acceptance is `acceptOpen_spec`. -/
theorem openAccountTakesSlotAndPair : Obligations.OpenAccountTakesSlotAndPair := by
  refine ⟨fun tag key cls initial ceiling threshold s i c pair rest handed good fresh nonzero code defined within vacant
    lowest free => ?_, fun tag key cls initial ceiling threshold s handed good => ?_⟩
  · have accepted : judgeOpen .service key cls initial ceiling s = .ok (i, pair, c) := by
      rw [judgeOpen_good good, if_neg (by simp [fresh]), if_neg nonzero, definedClass_eq_some code defined]
      simp only [if_neg (Nat.not_lt.mpr within), lowestVacant_eq_some vacant lowest, free]
    obtain ⟨t, eq, spec⟩ := acceptOpen_spec (tag := tag) (key := key) (initial := initial) (ceiling := ceiling)
      (threshold := threshold) (i := i) (c := c) free
    have taken : judgeOpen .service key cls initial ceiling (servedBy .service s) = .ok (i, pair, c) := accepted
    refine ⟨t, ?_, spec⟩
    rw [exec_openAccount_handed _ _ _ _ _ _ _ s handed, evalOpenAccount, serve_ok taken]
    exact congrArg _ eq
  · have refused : ∀ {st}, judgeOpen .service key cls initial ceiling s = .error st →
        AnswersOnly (.openAccount .service tag key cls initial ceiling threshold) .service tag .openAccount st .zeros s :=
      fun h => (exec_openAccount_handed _ _ _ _ _ _ _ s handed).trans (congrArg _ (serve_error h))
    refine ⟨fun known => refused ?_, fun fresh => ⟨fun zero => refused ?_, fun nonzero => ⟨fun undefined => refused ?_,
      fun c code defined => ⟨fun above => refused ?_, fun within => ⟨fun full => refused ?_,
        fun vacant noSpare => refused ?_⟩⟩⟩⟩⟩
    · rw [judgeOpen_good good, if_pos known]
    · rw [judgeOpen_good good, if_neg (by simp [fresh]), if_pos zero]
    · rw [judgeOpen_good good, if_neg (by simp [fresh]), if_neg nonzero, definedClass_eq_none undefined]
    · rw [judgeOpen_good good, if_neg (by simp [fresh]), if_neg nonzero, definedClass_eq_some code defined]
      simp only [if_pos above]
    · rw [judgeOpen_good good, if_neg (by simp [fresh]), if_neg nonzero, definedClass_eq_some code defined]
      simp only [if_neg (Nat.not_lt.mpr within), lowestVacant_eq_none full]
    · obtain ⟨i, lowest⟩ := lowestVacant_isSome vacant
      rw [judgeOpen_good good, if_neg (by simp [fresh]), if_neg nonzero, definedClass_eq_some code defined]
      simp only [if_neg (Nat.not_lt.mpr within), lowest, noSpare]

end Sys2Proof.Machine

/-! PROOFS. The account table, balances and tariffs, II: the requests for an account that is open, and the tariff requests
(O12 to O16, O20, O21). -/

namespace Sys2Proof.Machine

/-! ## CLOSE_ACCOUNT (R12) -/

/-- An accepted CLOSE_ACCOUNT (R12, R34). -/
theorem acceptClose_spec (tag : Byte) (i : SlotNo) (s : State) :
    ∃ t, acceptClose .service tag i (servedBy .service s) = t
      ∧ SlotBecomes i { s.slot i with
          state := .closing, pending := some (committedImage (s.slot i) .close .service tag (.word (s.slot i).balance)) } s t
      ∧ t.commitQueue = s.commitQueue ++ [⟨.accountEmpty i, .empty (s.slot i).key, some .service, some tag, .waiting⟩]
      ∧ Deferred .service tag s t ∧ Reevaluated i s t
      ∧ t = { s with
          slots := t.slots, commitQueue := t.commitQueue, terminal := t.terminal, service := t.service,
          alerts := t.alerts, lost := t.lost, lastServed := .service } := by
  let v : Slot := { s.slot i with
    state := .closing, pending := some (committedImage (s.slot i) .close .service tag (.word (s.slot i).balance)) }
  let w := joinQueue (.accountEmpty i) (.empty (s.slot i).key) (some .service) (some tag)
    ((servedBy .service s).setSlot i v)
  obtain ⟨te, se, deferred⟩ := defer_shape .service tag w
  obtain ⟨sl, a, l, evaluated⟩ := reevaluate_shape i (defer .service tag w)
  have slot : (defer .service tag w).slot i = v := by
    rw [deferred]
    exact slot_setSlot_same (servedBy .service s) i v
  refine ⟨reevaluate i (defer .service tag w), rfl, ?becomes, ?queue, ?deferred, ?reevaluated, ?rest⟩
  case becomes =>
    refine reevaluate_becomes i v s _ slot fun j hj => ?_
    rw [deferred]
    exact slot_setSlot_other (servedBy .service s) i j v (Ne.symm hj)
  case queue =>
    rw [evaluated, deferred]
    rfl
  case deferred =>
    refine (defer_deferred .service tag w).congr (fun q => ?_) (fun q => reevaluate_port i q _)
    cases q <;> rfl
  case reevaluated =>
    refine Reevaluated.of (u := defer .service tag w) (by rw [slot]) (by rw [slot]) ?_ rfl (reevaluate_holds i _) ?_ ⟨rfl, rfl⟩
    · rw [deferred]
      exact ⟨rfl, rfl⟩
    · rw [evaluated]
  case rest =>
    rw [evaluated, deferred]
    rfl

/-- Settles O12: past step 4 the holds alone decide, and the acceptance is `acceptClose_spec`. -/
theorem closeAccountQueuesEmptyImage : Obligations.CloseAccountQueuesEmptyImage := by
  intro tag key s i handed good found unpended
  have account := judgeAccount_unpended .closeAccount key i s good found unpended (by decide)
  have run := exec_closeAccount_handed .service tag key s handed
  refine ⟨fun holds => run.trans (congrArg _ (serve_error ?_)), fun noHolds => ?_⟩
  · show judgeClose .service key s = _
    rw [judgeClose, account]
    exact if_pos holds
  · have accepted : judgeClose .service key (servedBy .service s) = .ok i := by
      show judgeClose .service key s = _
      rw [judgeClose, account]
      exact if_neg (not_not_intro noHolds)
    obtain ⟨t, eq, spec⟩ := acceptClose_spec tag i s
    refine ⟨t, ?_, spec⟩
    rw [run, evalCloseAccount, serve_ok accepted, eq]

/-! ## FREEZE and THAW (R13) -/

/-- FREEZE or THAW for the state that stands already. -/
theorem acceptMark_already {k : Kind} {c : ChangeKind} {mark : Bool} {already : AccountState} {p : Port} {tag : Byte}
    {i : SlotNo} {s : State} (stands : (s.slot i).state = already) :
    acceptMark k c mark already p tag i s = answer p tag k .ok .zeros s := if_pos stands

theorem acceptMark_pending {k : Kind} {c : ChangeKind} {mark : Bool} {already : AccountState} {p : Port} {tag : Byte}
    {i : SlotNo} {s : State} (other : (s.slot i).state ≠ already) :
    ImagePending i { committedImage (s.slot i) c p tag .zeros with frozenMark := mark } s
      (acceptMark k c mark already p tag i (servedBy p s)) := by
  have other' : ((servedBy p s).slot i).state ≠ already := other
  rw [acceptMark, if_neg other']
  exact acceptImage_pending i { committedImage (s.slot i) c p tag .zeros with frozenMark := mark } s

/-- Settles O13: the account's state decides between the answer at once and the image. -/
theorem freezeAndThawSetTheMark : Obligations.FreezeAndThawSetTheMark := by
  intro tag key s i good found noPending
  have freeze : ∀ st, (s.slot i).state = st → st = .active ∨ st = .frozen →
      judgeAccount .freeze .service key (servedBy .service s) = .ok i := fun st h open' =>
    judgeAccount_unpended .freeze key i s good found ⟨h ▸ open', noPending⟩ (by decide)
  have thaw : ∀ st, (s.slot i).state = st → st = .active ∨ st = .frozen →
      judgeAccount .thaw .service key (servedBy .service s) = .ok i := fun st h open' =>
    judgeAccount_unpended .thaw key i s good found ⟨h ▸ open', noPending⟩ (by decide)
  refine ⟨fun handed active => ⟨_, ?freezes, acceptMark_pending (k := .freeze) (already := .frozen) (by simp [active])⟩,
    fun handed frozen => ?isFrozen, fun handed frozen => ⟨_, ?thaws, acceptMark_pending (k := .thaw) (already := .active) (by simp [frozen])⟩,
    fun handed active => ?isActive⟩
  case freezes => rw [exec_freeze_handed _ _ _ s handed, evalFreeze, serve_ok (freeze _ active (.inl rfl))]
  case isFrozen =>
    rw [AnswersOnly, exec_freeze_handed _ _ _ s handed, evalFreeze, serve_ok (freeze _ frozen (.inr rfl)),
      acceptMark_already (s := servedBy .service s) frozen]
  case thaws => rw [exec_thaw_handed _ _ _ s handed, evalThaw, serve_ok (thaw _ frozen (.inr rfl))]
  case isActive =>
    rw [AnswersOnly, exec_thaw_handed _ _ _ s handed, evalThaw, serve_ok (thaw _ active (.inl rfl)),
      acceptMark_already (s := servedBy .service s) active]

/-! ## SET_CLASS and SET_LIMITS (R14, R30) -/

/-- Settles O14: each request compares with the committed fields before it makes an image. -/
theorem setClassAndSetLimitsMoveTheFields : Obligations.SetClassAndSetLimitsMoveTheFields := by
  refine ⟨fun tag key cls s i handed good found unpended => ?_,
    fun tag key ceiling threshold s i handed good found unpended => ?_⟩
  · have account : judgeAccount .setClass .service key (servedBy .service s) = .ok i :=
      judgeAccount_unpended .setClass key i s good found unpended (by decide)
    have run := exec_setClass_handed .service tag key cls s handed
    refine ⟨fun undefined => ?_, fun c code defined => ?_⟩
    · have noClass : definedClass (servedBy .service s) cls = none := definedClass_eq_none (s := s) undefined
      exact run.trans (congrArg _ (serve_error (by rw [judgeSetClass, account, noClass])))
    · have class' : definedClass (servedBy .service s) cls = some c := definedClass_eq_some (s := s) code defined
      have accepted : judgeSetClass .service key cls (servedBy .service s) = .ok (i, c) := by
        rw [judgeSetClass, account, class']
      rw [evalSetClass, serve_ok accepted] at run
      refine ⟨fun own => run.trans (congrArg _ (if_pos own)), fun other => ⟨_, run, ?_⟩⟩
      have other' : ((servedBy .service s).slot i).cls ≠ c := other
      rw [acceptSetClass, if_neg other']
      exact acceptImage_pending i { committedImage (s.slot i) .setClass .service tag .zeros with cls := c } s
  · have account : judgeAccount .setLimits .service key (servedBy .service s) = .ok i :=
      judgeAccount_unpended .setLimits key i s good found unpended (by decide)
    have run := exec_setLimits_handed .service tag key ceiling threshold s handed
    refine ⟨fun below => ?_, fun within => ?_⟩
    · refine run.trans (congrArg _ (serve_error ?_))
      rw [judgeSetLimits, account]
      exact if_pos below
    · have accepted : judgeSetLimits .service key ceiling (servedBy .service s) = .ok i := by
        rw [judgeSetLimits, account]
        exact if_neg (Nat.not_lt.mpr within)
      rw [evalSetLimits, serve_ok accepted] at run
      refine ⟨fun ⟨sameCeiling, sameThreshold⟩ => run.trans (congrArg _ (if_pos ⟨sameCeiling.symm, sameThreshold.symm⟩)),
        fun other => ⟨_, run, ?_⟩⟩
      have other' : ¬ (((servedBy .service s).slot i).ceiling = ceiling
          ∧ ((servedBy .service s).slot i).threshold = threshold) := fun h => other ⟨h.1.symm, h.2.symm⟩
      rw [acceptSetLimits, if_neg other']
      exact acceptImage_pending i { committedImage (s.slot i) .setLimits .service tag .zeros with
        ceiling := ceiling, threshold := threshold } s

/-! ## CREDIT, DEBIT_AMOUNT and DEBIT_UNITS (R26 to R28) -/

theorem asWord_sub_eq {b a c : Word} {n : Nat} (amount : n = a.toNat) (sum : b.toNat + a.toNat = c.toNat) :
    asWord (c.toNat - n) = b := asWord_eq b _ (by omega)

/-- Settles O15: the refusals of step 5 are read off in their order, and the figure of the image fits its field. -/
theorem creditAndDebitAmountMoveTheBalance : Obligations.CreditAndDebitAmountMoveTheBalance := by
  refine ⟨fun tag key amount s i handed good found unpended => ?_,
    fun p tag key amount s i handed good found active noPending => ?_⟩
  · have account : judgeAccount .credit .service key (servedBy .service s) = .ok i :=
      judgeAccount_unpended .credit key i s good found unpended (by decide)
    have run := exec_credit_handed .service tag key amount s handed
    refine ⟨fun zero => run.trans (congrArg _ (serve_error ?_)),
      fun nonzero above => run.trans (congrArg _ (serve_error ?_)), fun b nonzero sum within => ?_⟩
    · rw [judgeCredit, account]
      exact if_pos zero
    · rw [judgeCredit, account]
      exact (if_neg nonzero).trans (if_pos above)
    · have accepted : judgeCredit .service key amount (servedBy .service s) = .ok i := by
        rw [judgeCredit, account]
        exact (if_neg nonzero).trans (if_neg (Nat.not_lt.mpr (sum ▸ within)))
      rw [evalCredit, serve_ok accepted] at run
      refine ⟨_, run, ?_⟩
      have pending := acceptImage_pending i { committedImage (s.slot i) .credit .service tag (.word b) with balance := b } s
      rw [← asWord_eq b _ sum] at pending ⊢
      exact pending
  · have account : judgeAccount .debitAmount p key (servedBy p s) = .ok i :=
      judgeAccount_debit .debitAmount p key i s good found active noPending (by decide)
    have run := exec_debitAmount_handed p tag key amount s handed
    have spend : spendable (servedBy p s) i = (s.slot i).balance.toNat - heldTotal s i := spendable_unpended s i noPending
    refine ⟨fun zero => run.trans (congrArg _ (serve_error ?_)),
      fun nonzero above => run.trans (congrArg _ (serve_error ?_)), fun b nonzero covered difference => ?_⟩
    · rw [judgeDebitAmount, account]
      exact if_pos zero
    · rw [judgeDebitAmount, account]
      exact (if_neg nonzero).trans (if_pos (by rw [spend]; exact above))
    · have accepted : judgeDebitAmount p key amount (servedBy p s) = .ok i := by
        rw [judgeDebitAmount, account]
        exact (if_neg nonzero).trans (if_neg (by rw [spend]; omega))
      rw [evalDebitAmount, serve_ok accepted] at run
      refine ⟨_, run, ?_⟩
      have pending := acceptImage_pending i { committedImage (s.slot i) .debitAmount p tag (.word b) with balance := b } s
      rw [← asWord_sub_eq rfl difference] at pending ⊢
      exact pending

/-- Settles O16: the charge is compared with the spendable amount, and it fits its field. -/
theorem debitUnitsTakesTheCharge : Obligations.DebitUnitsTakesTheCharge := by
  intro p tag key units s i handed good found active noPending
  have account : judgeAccount .debitUnits p key (servedBy p s) = .ok i :=
    judgeAccount_debit .debitUnits p key i s good found active noPending (by decide)
  have run := exec_debitUnits_handed p tag key units s handed
  have spend : spendable (servedBy p s) i = (s.slot i).balance.toNat - heldTotal s i := spendable_unpended s i noPending
  have price : chargeOn (servedBy p s) i units = charge (s.tariff (s.slot i).cls).rates units := rfl
  refine ⟨fun undefined => run.trans (congrArg _ (serve_error ?_)), fun defined => ?_⟩
  · rw [judgeDebitUnits, account]
    exact if_pos undefined
  · have isDefined : (s.tariff (s.slot i).cls).state ≠ .undefined := by simp [defined]
    have accepted : ¬ (s.slot i).balance.toNat - heldTotal s i < charge (s.tariff (s.slot i).cls).rates units →
        judgeDebitUnits p key units (servedBy p s) = .ok i := fun covered => by
      rw [judgeDebitUnits, account]
      exact (if_neg isDefined).trans (if_neg (by rw [spend, price]; exact covered))
    refine ⟨fun above => run.trans (congrArg _ (serve_error ?_)), fun nothing => ?_, fun c b some' cost covered difference => ?_⟩
    · rw [judgeDebitUnits, account]
      exact (if_neg isDefined).trans (if_pos (by rw [spend, price]; exact above))
    · rw [evalDebitUnits, serve_ok (accepted (by omega))] at run
      exact run.trans (congrArg _ (if_pos nothing))
    · rw [evalDebitUnits, serve_ok (accepted (by omega))] at run
      have charged : chargeOn (servedBy p s) i units ≠ 0 := fun h =>
        some' (BitVec.eq_of_toNat_eq (cost.trans (price.symm.trans h)))
      refine ⟨_, run, ?_⟩
      have pending := acceptImage_pending i { committedImage (s.slot i) .debitUnits p tag (.debit c b) with balance := b } s
      rw [acceptDebitUnits, if_neg charged, price]
      rw [← asWord_sub_eq cost.symm difference, ← asWord_eq c _ cost] at pending ⊢
      exact pending

/-! ## QUOTE, READ_TARIFF and SET_TARIFF (R45 to R48) -/

theorem judgeClass_of_admitted {k : Kind} {p : Port} {s : State} (admitted : admission k p s = none) (cls : Byte) :
    judgeClass k p cls s = match classOf cls with
      | none => .error .badClass
      | some n => .ok n := by
  rw [judgeClass, admitted] <;> rfl

/-- Settles O20: neither request can be refused by steps 1 and 2. -/
theorem quoteAndReadTariffAnswerTheClass : Obligations.QuoteAndReadTariffAnswerTheClass := by
  refine ⟨fun p tag cls units s handed => ?_, fun p tag cls s handed => ?_⟩
  · have admitted : admission .quote p (servedBy p s) = none := admission_open .quote p s rfl rfl
    have run := exec_quote_handed p tag cls units s handed
    refine ⟨fun n code defined => ?_, fun undefined => run.trans (congrArg _ (serve_error ?_))⟩
    · have accepted : judgeQuote p cls (servedBy p s) = .ok n := by
        rw [judgeQuote, judgeClass_of_admitted admitted, classOf_eq_some cls n code]
        exact if_neg (show (s.tariff n).state ≠ .undefined by simp [defined])
      exact run.trans (congrArg _ (serve_ok accepted))
    · rcases undefined with above | ⟨n, code, undefined⟩
      · rw [judgeQuote, judgeClass_of_admitted admitted, classOf_eq_none cls above]
      · rw [judgeQuote, judgeClass_of_admitted admitted, classOf_eq_some cls n code]
        exact if_pos undefined
  · have admitted : admission .readTariff p (servedBy p s) = none := admission_open .readTariff p s rfl rfl
    have run := exec_readTariff_handed p tag cls s handed
    refine ⟨fun n code => run.trans (congrArg _ (serve_ok ?_)), fun above => run.trans (congrArg _ (serve_error ?_))⟩
    · rw [judgeClass_of_admitted admitted, classOf_eq_some cls n code]
    · rw [judgeClass_of_admitted admitted, classOf_eq_none cls above]

/-- Settles O21: the class as it stands decides, and the queued values touch the class, the queue and the port alone. -/
theorem setTariffQueuesTheValues : Obligations.SetTariffQueuesTheValues := by
  intro tag cls rates s handed good
  have admitted : admission .setTariff .service (servedBy .service s) = none := admission_service_good .setTariff s good
  have run := exec_setTariff_handed .service tag cls rates s handed
  refine ⟨fun above => run.trans (congrArg _ (serve_error ?_)), fun n code => ?_⟩
  · rw [judgeSetTariff, judgeClass_of_admitted admitted, classOf_eq_none cls above]
  have class' : judgeClass .setTariff .service cls (servedBy .service s) = .ok n := by
    rw [judgeClass_of_admitted admitted, classOf_eq_some cls n code]
  have accepted : (s.tariff n).storeFault = false → judgeSetTariff .service cls (servedBy .service s) = .ok n :=
    fun noFault => by
      rw [judgeSetTariff, class']
      exact if_neg (show ¬ (s.tariff n).storeFault = true by simp [noFault])
  refine ⟨fun fault => run.trans (congrArg _ (serve_error ?_)), fun noFault same => ?_, fun noFault other => ?_⟩
  · rw [judgeSetTariff, class']
    exact if_pos fault
  · rw [evalSetTariff, serve_ok (accepted noFault)] at run
    exact run.trans (congrArg _ (if_pos same))
  · rw [evalSetTariff, serve_ok (accepted noFault)] at run
    let v : TariffClass := { s.tariff n with pending := some ⟨rates, .service, tag⟩ }
    let w := joinQueue (.tariffImage n) (.tariff rates) (some .service) (some tag) ((servedBy .service s).setTariff n v)
    have queued : acceptSetTariff .service tag rates n (servedBy .service s) = defer .service tag w := if_neg other
    obtain ⟨te, se, deferred⟩ := defer_shape .service tag w
    refine ⟨defer .service tag w, run.trans (congrArg _ queued), ?_, fun m hm => ?_, ?_, ?_, ?_⟩
    · rw [deferred]
      exact tariff_setTariff_same (servedBy .service s) n v
    · rw [deferred]
      exact tariff_setTariff_other (servedBy .service s) n m v (Ne.symm hm)
    · rw [deferred]
      rfl
    · refine (defer_deferred .service tag w).congr (fun q => ?_) fun _ => rfl
      cases q <;> rfl
    · rw [deferred]
      rfl

end Sys2Proof.Machine

/-! PROOFS. The Hold Manager (chapter 4): the requests that change or report a hold (O23 to O29). -/

namespace Sys2Proof.Machine

/-! ## A hold entry that changes with its request's answer -/

theorem setHold_becomes (s : State) (n : HoldNo) (e : HoldEntry) : HoldBecomes n e s (s.setHold n e) :=
  ⟨hold_setHold_same s n e, fun m hm => hold_setHold_other s n m e (Ne.symm hm)⟩

theorem HoldBecomes.congr {n : HoldNo} {e : HoldEntry} {s u t : State} (h : HoldBecomes n e s u)
    (same : t.holds = u.holds) : HoldBecomes n e s t := by
  obtain ⟨this', others⟩ := h
  exact ⟨(hold_congr same n).trans this', fun m hm => (hold_congr same m).trans (others m hm)⟩

/-- An entry changes and the request is answered. -/
theorem holdAnswered_spec (p : Port) (tag : Byte) (k : Kind) (st : Status) (f : Figures) (n : HoldNo) (e : HoldEntry)
    (s : State) :
    ∃ t, answer p tag k st f ((servedBy p s).setHold n e) = t ∧ HoldBecomes n e s t ∧ Answered p tag k st f s t
      ∧ t = { s with holds := t.holds, terminal := t.terminal, service := t.service, lastServed := p } := by
  obtain ⟨te, se, answered⟩ := answer_shape p tag k st f ((servedBy p s).setHold n e)
  refine ⟨_, rfl, (setHold_becomes s n e).congr ?_, (answer_answered p tag k st f _).congr (fun q => ?_) fun _ => rfl, ?_⟩
  · rw [answered]
    rfl
  · cases q <;> rfl
  · rw [answered]
    rfl

/-- An entry changes, the request is answered, and slot `i` is re-evaluated (R34). -/
theorem holdReevaluated_spec (p : Port) (tag : Byte) (k : Kind) (st : Status) (f : Figures) (n : HoldNo) (e : HoldEntry)
    (i : SlotNo) (s : State) :
    ∃ t, reevaluate i (answer p tag k st f ((servedBy p s).setHold n e)) = t
      ∧ HoldBecomes n e s t ∧ SlotBecomes i (s.slot i) s t ∧ Reevaluated i s t ∧ Answered p tag k st f s t
      ∧ t = { s with
          slots := t.slots, holds := t.holds, terminal := t.terminal, service := t.service, alerts := t.alerts,
          lost := t.lost, lastServed := p } := by
  obtain ⟨u, eq, changed, answered, shape⟩ := holdAnswered_spec p tag k st f n e s
  rw [eq]
  obtain ⟨sl, a, l, evaluated⟩ := reevaluate_shape i u
  have slots : ∀ j, u.slot j = s.slot j := fun j => by
    rw [shape]
    rfl
  have alerts : AlertsLike s u := by
    rw [shape]
    exact ⟨rfl, rfl⟩
  refine ⟨reevaluate i u, rfl, changed.congr (reevaluate_holds i u), reevaluate_becomes i _ s u (slots i) fun j _ => slots j,
    ?_, answered.congr (fun _ => rfl) (fun q => reevaluate_port i q u), ?_⟩
  · refine Reevaluated.of (u := u) (by rw [slots]) (by rw [slots]) alerts rfl (reevaluate_holds i u) ?_ ⟨rfl, rfl⟩
    rw [evaluated]
  · rw [evaluated]
    conv_lhs => rw [shape]

/-! ## OPEN_HOLD (R66 to R68) -/

/-- The order of refusals of OPEN_HOLD at steps 5 and 6. -/
theorem judgeOpenHold_of_account {p : Port} {key amount : Word} {duration : Half} {s : State} {i : SlotNo}
    (account : judgeAccount .openHold p key s = .ok i) :
    judgeOpenHold p key amount duration s =
      if amount = 0 then .error .badValue
      else if duration = 0 ∨ Config.maxDuration < duration.toNat then .error .badValue
      else if maxWord < s.seconds.toNat + duration.toNat then .error .tooLong
      else if (s.tariff (s.slot i).cls).state = .undefined then .error .badClass
      else if spendable s i < amount.toNat then .error .insufficient
      else
        match entryForHold s with
        | none => .error .holdsFull
        | some n => .ok (i, n) := by
  rw [judgeOpenHold, account] <;> rfl

/-- Settles O23: past the refusals the entry changes, the answer is placed and the slot is re-evaluated. -/
theorem openHoldReservesCredit : Obligations.OpenHoldReservesCredit := by
  intro p tag key amount duration s i n deadline handed found reservable amount0 duration0 short sum defined covered entry
  have account := judgeAccount_reservable p key i s found reservable
  have inCounter := deadline.isLt
  have passes : ¬ (duration = 0 ∨ Config.maxDuration < duration.toNat) :=
    not_or.mpr ⟨duration0, Nat.not_lt.mpr short⟩
  have accepted : judgeOpenHold p key amount duration (servedBy p s) = .ok (i, n) := by
    show judgeOpenHold p key amount duration s = _
    rw [judgeOpenHold_of_account account, if_neg amount0, if_neg passes,
      if_neg (by simp only [maxWord]; omega), if_neg (by simp [defined]), if_neg (by omega), entry]
  have deadline' : asWord (s.seconds.toNat + duration.toNat) = deadline := asWord_eq deadline _ sum
  obtain ⟨t, eq, changed, slot, reevaluated, answered, rest⟩ := holdReevaluated_spec p tag .openHold .ok
    (.handle n (nextGeneration (s.hold n).generation) deadline) n
    ⟨nextGeneration (s.hold n).generation, .open ⟨i, key, p, amount, (s.tariff (s.slot i).cls).rates, s.seconds, deadline⟩⟩
    i s
  refine ⟨t, nextGeneration (s.hold n).generation, ?_, rfl, changed, slot, reevaluated, answered, rest⟩
  rw [exec_openHold_handed _ _ _ _ _ s handed, evalOpenHold, serve_ok accepted, ← eq, ← deadline']
  rfl

theorem lowestFree_eq_some {s : State} {n : HoldNo} (free : (s.hold n).state = .free)
    (lowest : ∀ m : HoldNo, m < n → (s.hold m).state ≠ .free) : lowestFree s = some n := by
  refine List.find?_eq_some_iff_getElem.mpr ⟨by simpa using free, n.val, by simp, by simp, fun j hj => ?_⟩
  simpa using lowest ⟨j, hj.trans n.isLt⟩ hj

theorem lowestFree_eq_none {s : State} (full : ∀ m : HoldNo, (s.hold m).state ≠ .free) : lowestFree s = none :=
  List.find?_eq_none.mpr fun m _ => by simpa using full m

theorem earlierLapsed_of_lapsed {s : State} {m : HoldNo} {h : Hold} {w : Word} (state : (s.hold m).state = .lapsed h w)
    (best : Option (HoldNo × Word)) : earlierLapsed s best m =
      if ∀ b ∈ best, w.toNat < b.2.toNat then some (m, w) else best := by
  cases best with
  | none => simp [earlierLapsed, state]
  | some b => simp [earlierLapsed, state]

theorem earlierLapsed_of_other {s : State} {m : HoldNo} (state : ∀ h w, (s.hold m).state ≠ .lapsed h w)
    (best : Option (HoldNo × Word)) : earlierLapsed s best m = best := by
  cases hst : (s.hold m).state with
  | lapsed h w => exact absurd hst (state h w)
  | _ => simp [earlierLapsed, hst]

/-- A best candidate that no later entry beats stays. -/
theorem foldl_earlierLapsed_stays {s : State} (l : List HoldNo) {n : HoldNo} {w : Word}
    (least : ∀ m ∈ l, ∀ h' w', (s.hold m).state = .lapsed h' w' → w.toNat ≤ w'.toNat) :
    l.foldl (earlierLapsed s) (some (n, w)) = some (n, w) := by
  induction l with
  | nil => rfl
  | cons m rest ih =>
    have stays : earlierLapsed s (some (n, w)) m = some (n, w) := by
      cases hst : (s.hold m).state with
      | lapsed h' w' =>
        rw [earlierLapsed_of_lapsed hst, if_neg]
        have := least m List.mem_cons_self h' w' hst
        simp only [Option.mem_some_iff, forall_eq']
        omega
      | _ => exact earlierLapsed_of_other (by simp [hst]) _
    rw [List.foldl_cons, stays]
    exact ih fun m hm => least m (List.mem_cons_of_mem _ hm)

/-- The earliest LAPSED entry of a list in ascending order is found behind candidates that lapsed later. -/
theorem foldl_earlierLapsed_finds {s : State} {n : HoldNo} {h : Hold} {w : Word} (state : (s.hold n).state = .lapsed h w)
    (l : List HoldNo) (ascending : l.Pairwise (· < ·)) (mem : n ∈ l)
    (least : ∀ m ∈ l, ∀ h' w', (s.hold m).state = .lapsed h' w' → w.toNat < w'.toNat ∨ (w = w' ∧ n ≤ m))
    (best : Option (HoldNo × Word)) (later : ∀ b ∈ best, w.toNat < b.2.toNat) :
    l.foldl (earlierLapsed s) best = some (n, w) := by
  induction l generalizing best with
  | nil => exact absurd mem List.not_mem_nil
  | cons m rest ih =>
    obtain ⟨above, ascending'⟩ := List.pairwise_cons.mp ascending
    have least' := fun x hx => least x (List.mem_cons_of_mem m hx)
    rw [List.foldl_cons]
    rcases List.mem_cons.mp mem with rfl | mem
    · rw [earlierLapsed_of_lapsed state, if_pos later]
      refine foldl_earlierLapsed_stays rest fun x hx h' w' hst => ?_
      rcases least' x hx h' w' hst with lt | ⟨rfl, -⟩
      · exact lt.le
      · exact Nat.le_refl _
    · refine ih ascending' mem least' _ ?_
      cases hst : (s.hold m).state with
      | lapsed h' w' =>
        have beaten : w.toNat < w'.toNat := (least m List.mem_cons_self h' w' hst).resolve_right fun ⟨_, le⟩ =>
          absurd (above n mem) (not_lt.mpr le)
        rw [earlierLapsed_of_lapsed hst]
        split
        · simpa using beaten
        · exact later
      | _ =>
        rw [earlierLapsed_of_other (by simp [hst])]
        exact later

theorem finRange_ascending (n : Nat) : (List.finRange n).Pairwise (· < ·) := List.pairwise_lt_finRange n

/-- Settles O24: the order of refusals is followed step by step, and the LAPSED entry is found by one pass in ascending
order. -/
theorem openHoldRefusesInOrderAndFindsItsEntry : Obligations.OpenHoldRefusesInOrderAndFindsItsEntry := by
  refine ⟨fun p tag key amount duration s i handed found reservable => ?_,
    fun s => ⟨fun n free lowest => ?_, fun n h w full state least => ?_, fun full noneLapsed => ?_⟩⟩
  · have account := judgeAccount_reservable p key i s found reservable
    have refused : ∀ {st}, judgeOpenHold p key amount duration s = .error st →
        AnswersOnly (.openHold p tag key amount duration) p tag .openHold st .zeros s :=
      fun h => (exec_openHold_handed _ _ _ _ _ s handed).trans (congrArg _ (serve_error h))
    have order := judgeOpenHold_of_account (amount := amount) (duration := duration) account
    refine ⟨fun bad => refused ?_, fun amount0 duration0 short => ?_⟩
    · rw [order]
      by_cases amount0 : amount = 0
      · exact if_pos amount0
      · rw [if_neg amount0]
        exact if_pos (bad.resolve_left amount0)
    · have passes : ¬ (duration = 0 ∨ Config.maxDuration < duration.toNat) :=
        not_or.mpr ⟨duration0, Nat.not_lt.mpr short⟩
      rw [if_neg amount0, if_neg passes] at order
      refine ⟨fun past => refused ?_, fun inCounter => ⟨fun undefined => refused ?_, fun defined =>
        ⟨fun above => refused ?_, fun covered noEntry => refused ?_⟩⟩⟩
      · rw [order]
        exact if_pos past
      all_goals rw [if_neg (Nat.not_lt.mpr inCounter)] at order
      · rw [order, if_pos undefined]
      all_goals rw [if_neg (by simp [defined])] at order
      · rw [order, if_pos above]
      · rw [order, if_neg (Nat.not_lt.mpr covered), noEntry]
  · rw [entryForHold, lowestFree_eq_some free lowest]
  · rw [entryForHold, lowestFree_eq_none full]
    simp only [earliestLapsed]
    rw [foldl_earlierLapsed_finds state (List.finRange 32) (finRange_ascending 32) (List.mem_finRange n)
      (fun m _ => least m) none (by simp)]
    rfl
  · rw [entryForHold, lowestFree_eq_none full]
    simp only [earliestLapsed]
    rw [List.foldl_fixed' fun m => earlierLapsed_of_other (noneLapsed m) none]
    rfl

/-! ## EXTEND_HOLD, SETTLE_HOLD and CANCEL_HOLD on an OPEN hold (R69 to R74) -/

theorem serveHold_open {p : Port} {tag : Byte} {k : Kind} {v : HoldVerdict} {figures : Hold → Figures}
    {f : HoldNo → Hold → State → State} {s : State} {n : HoldNo} {h : Hold} (verdict : v = .open n h) :
    serveHold p tag k v figures f s = f n h s := by
  rw [verdict]
  rfl

theorem serveHold_lapsed {p : Port} {tag : Byte} {k : Kind} {v : HoldVerdict} {figures : Hold → Figures}
    {f : HoldNo → Hold → State → State} {s : State} {n : HoldNo} {h : Hold} (verdict : v = .lapsed n h) :
    serveHold p tag k v figures f s = answer p tag k .holdLapsed (figures h) (freeHold n s) := by
  rw [verdict]
  rfl

theorem stateCheck_reservable {i : SlotNo} {s : State} (h : Reservable i s) : stateCheck .extendHold (s.slot i) = none := by
  obtain ⟨active, noMark⟩ := h
  simp only [stateCheck, active, frozenPending]
  cases pending : (s.slot i).pending with
  | none => rfl
  | some img => simp [noMark img pending]

theorem stateCheck_unpended {i : SlotNo} {s : State} (h : Unpended i s) : stateCheck .settleHold (s.slot i) = none := by
  obtain ⟨active | frozen, noPending⟩ := h
  · simp [stateCheck, active, pendingCheck, noPending]
  · simp [stateCheck, frozen, pendingCheck, noPending]

theorem stateCheck_released {k : Kind} {v : Slot} (kind : k = .cancelHold ∨ k = .holdStatus)
    (state : v.state = .active ∨ v.state = .frozen ∨ v.state = .faulted) : stateCheck k v = none := by
  obtain ⟨-, -, -, -, released⟩ := stateCheck_table v
  exact (released k (by rcases kind with rfl | rfl <;> decide)).1 state

/-- Settles O25: step 5 decides, and the deadline's sum fits its field. -/
theorem extendHoldMovesTheDeadline : Obligations.ExtendHoldMovesTheDeadline := by
  intro p tag handle seconds s n h handed names openHold owner reservable
  have passes : judgeHold .extendHold p handle (servedBy p s) = .open n h :=
    judgeHold_passes (s := s) (admission_open .extendHold p s rfl rfl) names openHold (.inl owner)
      (stateCheck_reservable reservable)
  have run := exec_extendHold_handed p tag handle seconds s handed
  rw [evalExtendHold, serveHold_open passes] at run
  have refused : ∀ {st}, judgeExtend h seconds = some st →
      AnswersOnly (.extendHold p tag handle seconds) p tag .extendHold st .zeros s := fun verdict => by
    rw [acceptExtend, verdict] at run
    exact run
  refine ⟨fun zero => refused (if_pos zero), fun nonzero => ⟨fun past => refused ?_, fun d sum within => ?_⟩⟩
  · exact (if_neg nonzero).trans (if_pos past)
  · have accepted : judgeExtend h seconds = none := by
      rw [judgeExtend, if_neg nonzero, if_neg]
      have := d.isLt
      simp only [extendedDeadline, Config.maxHoldSpan, maxWord]
      omega
    rw [acceptExtend, accepted] at run
    have deadline : asWord (extendedDeadline h seconds) = d := asWord_eq d _ sum
    obtain ⟨t, eq, spec⟩ := holdAnswered_spec p tag .extendHold .ok (.extend d h.amount) n
      ⟨(s.hold n).generation, .open { h with deadline := d }⟩ s
    refine ⟨t, run.trans (congrArg _ ?_), spec⟩
    rw [← eq, ← deadline]
    rfl

/-- Settles O26: the charge, capped at the amount, decides between the answer at once and the settle image. -/
theorem settleHoldTakesAtMostTheAmount : Obligations.SettleHoldTakesAtMostTheAmount := by
  intro p tag handle units s n h handed good names openHold owner unpended amount0
  have passes : judgeHold .settleHold p handle (servedBy p s) = .open n h :=
    judgeHold_passes (s := s) (admission_good .settleHold p s good rfl) names openHold (.inl owner)
      (stateCheck_unpended unpended)
  have run := exec_settleHold_handed p tag handle units s handed
  rw [evalSettleHold, serveHold_open passes] at run
  refine ⟨fun nothing => ?_, fun c residual excess b charged cost rest surplus difference => ?_⟩
  · have free : settleCharge h units = 0 := by rw [settleCharge, nothing, Nat.zero_min]
    rw [acceptSettle, if_pos free] at run
    have figures : settleFigures h units (s.slot h.slot).balance
        = .settle 0 false 0 (s.slot h.slot).balance h.amount h.deadline := by
      rw [settleFigures, free, settleCapped, settleExcess, nothing, Nat.zero_sub]
      simp [asWord]
    obtain ⟨t, eq, spec⟩ := holdReevaluated_spec p tag .settleHold .ok
      (.settle 0 false 0 (s.slot h.slot).balance h.amount h.deadline) n ⟨(s.hold n).generation, .free⟩ h.slot s
    refine ⟨t, run.trans (congrArg _ ?_), spec⟩
    rw [← eq, ← figures]
    rfl
  · have amount1 : h.amount.toNat ≠ 0 := fun h0 => amount0 (BitVec.eq_of_toNat_eq h0)
    have charge' : c.toNat = settleCharge h units := cost
    have taken : settleCharge h units ≠ 0 := by
      rw [settleCharge]
      omega
    have residual' : asWord (h.amount.toNat - settleCharge h units) = residual := asWord_eq _ _ (charge' ▸ rest)
    have balance' : asWord ((s.slot h.slot).balance.toNat - settleCharge h units) = b := asWord_sub_eq charge'.symm difference
    have figures : settleFigures h units b
        = .settle c (decide (h.amount.toNat < charge h.rates units)) excess b h.amount h.deadline := by
      rw [settleFigures, asWord_eq c _ charge', settleCapped, settleExcess, asWord_eq excess _ surplus]
    let e : HoldEntry := ⟨(s.hold n).generation, .settling h c residual⟩
    let img : PendingImage := { committedImage (s.slot h.slot) .settle p tag
        (.settle c (decide (h.amount.toNat < charge h.rates units)) excess b h.amount h.deadline) with
      balance := b, handle := some (n, (s.hold n).generation) }
    have pending : settlePending p tag units n h (servedBy p s)
        = acceptImage h.slot img (servedBy p (s.setHold n e)) := by
      show acceptImage h.slot _ _ = _
      have image : settleImage p tag units n h (servedBy p s) = img := by
        show { committedImage (s.slot h.slot) .settle p tag
            (settleFigures h units (asWord ((s.slot h.slot).balance.toNat - settleCharge h units))) with
          balance := asWord ((s.slot h.slot).balance.toNat - settleCharge h units)
          handle := some (n, (s.hold n).generation) } = img
        rw [balance', figures]
      rw [image, asWord_eq c _ charge', residual']
      rfl
    obtain ⟨u, accepted⟩ : ∃ u, acceptImage h.slot img (servedBy p (s.setHold n e)) = u := ⟨_, rfl⟩
    have spec : ImagePending h.slot img (s.setHold n e) u := accepted ▸ acceptImage_pending h.slot img (s.setHold n e)
    obtain ⟨slot, queue, deferred, reevaluated, shape⟩ := spec
    have holds : u.holds = (s.setHold n e).holds := by rw [shape]
    rw [acceptSettle, if_neg taken, pending, accepted] at run
    refine ⟨u, run, (setHold_becomes s n e).congr holds, slot, queue, deferred.congr (fun q => ?_) fun _ => rfl,
      reevaluated, ?_⟩
    · cases q <;> rfl
    · rw [holds]
      exact shape

/-- Settles O27: the release asks neither for a commit nor, from the Service Port, for ownership. -/
theorem cancelHoldReleasesTheAmount : Obligations.CancelHoldReleasesTheAmount := by
  intro p tag handle s n h handed names openHold may state
  have passes : judgeHold .cancelHold p handle (servedBy p s) = .open n h :=
    judgeHold_passes (s := s) (admission_open .cancelHold p s rfl rfl) names openHold (may.imp_right fun h => ⟨rfl, h⟩)
      (stateCheck_released (.inl rfl) state)
  have run := exec_cancelHold_handed p tag handle s handed
  rw [evalCancelHold, serveHold_open passes] at run
  obtain ⟨t, eq, spec⟩ := holdReevaluated_spec p tag .cancelHold .ok (.release h.amount h.deadline) n
    ⟨(s.hold n).generation, .free⟩ h.slot s
  exact ⟨t, run.trans (congrArg _ eq), spec⟩

/-! ## HOLD_STATUS and LAPSED holds (R65, R75) -/

/-- Settles O28: the verdict is the hold's state, and the answer carries it. -/
theorem holdStatusReportsTheHold : Obligations.HoldStatusReportsTheHold := by
  intro p tag handle s handed
  have answered : ∀ {x}, judgeHoldStatus p handle s = .ok x →
      AnswersOnly (.holdStatus p tag handle) p tag .holdStatus .ok (.hold x) s :=
    fun verdict => (exec_holdStatus_handed p tag handle s handed).trans (congrArg _ (serve_ok (s := servedBy p s) verdict))
  refine ⟨fun n h w names lapsed => answered (judgeHoldStatus_lapsed names lapsed), fun n h names stands state => answered ?_,
    fun unnamed => refusedHoldStatus rfl handed (judgeHoldStatus_unnamed unnamed)⟩
  have check := stateCheck_released (k := .holdStatus) (.inr rfl) state
  rcases stands with openHold | ⟨c, r, settling⟩
  · rw [judgeHoldStatus_open names openHold, check, openHold]
  · rw [judgeHoldStatus_settling names settling, check, settling]

/-- Settles O29: all three requests pass the entry to `serveHold`, which frees it with the answer. -/
theorem lapsedHoldIsAnsweredOnce : Obligations.LapsedHoldIsAnsweredOnce := by
  intro c k f p tag handle u s n h w handed names lapsed request
  have admitted : admission k p s = none := by
    rcases request with ⟨-, rfl, -⟩ | ⟨-, rfl, -, good⟩ | ⟨-, rfl, -⟩
    · exact admission_open .extendHold p s rfl rfl
    · exact admission_good .settleHold p s good rfl
    · exact admission_open .cancelHold p s rfl rfl
  have verdict := judgeHold_lapsed admitted names lapsed
  refine ⟨fun owner => ?_, fun other => ?_⟩
  · have own : judgeHold k p handle (servedBy p s) = .lapsed n h := verdict.trans (if_pos owner)
    obtain ⟨t, eq, spec⟩ := holdAnswered_spec p tag k .holdLapsed f n ⟨(s.hold n).generation, .free⟩ s
    refine ⟨t, ?_, spec⟩
    rw [← eq]
    rcases request with ⟨rfl, rfl, rfl⟩ | ⟨rfl, rfl, rfl, -⟩ | ⟨rfl, rfl, rfl⟩
    · exact (exec_extendHold_handed p tag handle u s handed).trans (congrArg _ (serveHold_lapsed own))
    · exact (exec_settleHold_handed p tag handle u s handed).trans (congrArg _ (serveHold_lapsed own))
    · exact (exec_cancelHold_handed p tag handle s handed).trans (congrArg _ (serveHold_lapsed own))
  · have notOwn := verdict.trans (if_neg other)
    rcases request with ⟨rfl, rfl, -⟩ | ⟨rfl, rfl, -⟩ | ⟨rfl, rfl, -⟩
    · exact refusedHold rfl handed (by decide) notOwn
    · exact refusedHold rfl handed (by decide) notOwn
    · exact refusedHold rfl handed (by decide) notOwn

end Sys2Proof.Machine

/-! PROOFS. The Hold Manager, II: the second tick (O30). The lapses go through the hold table in ascending order of entry,
then each slot that lost a hold is re-evaluated. -/

namespace Sys2Proof.Machine

/-! ## The lapses (R60) -/

theorem lapseEntry_of_due {s : State} {n : HoldNo} {h : Hold} (due : dueHold s n = some h) : lapseEntry s n =
    raiseAlert .holdLapsed (.hold n (s.hold n).generation h.key)
      (s.setHold n { s.hold n with state := .lapsed h s.seconds }) := by
  rw [lapseEntry, due]

theorem lapseEntry_of_not_due {s : State} {n : HoldNo} (idle : dueHold s n = none) : lapseEntry s n = s := by
  rw [lapseEntry, idle]

/-- Whether a hold is due is read from its entry and the counter. -/
theorem dueHold_congr {s t : State} {n : HoldNo} (hold : t.hold n = s.hold n) (seconds : t.seconds = s.seconds) :
    dueHold t n = dueHold s n := by
  rw [dueHold, dueHold, hold, seconds]

/-- The entry of a hold that is due at a lapse. -/
theorem lapseEntry_hold_of_due {s : State} {n : HoldNo} {h : Hold} (due : dueHold s n = some h) :
    (lapseEntry s n).hold n = ⟨(s.hold n).generation, .lapsed h s.seconds⟩
      ∧ Recorded (.holdLapsed, .hold n (s.hold n).generation h.key) (lapseEntry s n) := by
  rw [lapseEntry_of_due due]
  refine ⟨?_, raiseAlert_recorded _ _ _⟩
  obtain ⟨a, l, raised⟩ := raiseAlert_shape .holdLapsed (.hold n (s.hold n).generation h.key)
    (s.setHold n { s.hold n with state := .lapsed h s.seconds })
  rw [raised]
  exact hold_setHold_same s n _

theorem lapseEntry_shape (s : State) (n : HoldNo) :
    ∃ ho a l, lapseEntry s n = { s with holds := ho, alerts := a, lost := l } := by
  rcases due : dueHold s n with _ | h
  · rw [lapseEntry_of_not_due due]
    exact ⟨_, _, _, rfl⟩
  · obtain ⟨a, l, raised⟩ := raiseAlert_shape .holdLapsed (.hold n (s.hold n).generation h.key)
      (s.setHold n { s.hold n with state := .lapsed h s.seconds })
    rw [lapseEntry_of_due due, raised]
    exact ⟨_, _, _, rfl⟩

theorem lapseEntry_keeps_recorded {c : AlertKind × AlertSubject} {s : State} (n : HoldNo) (h : Recorded c s) :
    Recorded c (lapseEntry s n) := by
  rcases due : dueHold s n with _ | x
  · rwa [lapseEntry_of_not_due due]
  · rw [lapseEntry_of_due due]
    exact raiseAlert_keeps_recorded _ _ _ _ h

/-- What an operation keeps at each member of a list it keeps along the list. -/
theorem foldl_keeps {α : Type} {P : State → Prop} {f : State → α → State} (l : List α)
    (step : ∀ a s, P s → P (f s a)) {s : State} (h : P s) : P (l.foldl f s) :=
  List.foldlRecOn l f h fun s hs a _ => step a s hs

theorem foldl_lapseEntry_shape (l : List HoldNo) (s : State) :
    ∃ ho a o, l.foldl lapseEntry s = { s with holds := ho, alerts := a, lost := o } := by
  refine foldl_keeps (P := fun t => ∃ ho a o, t = { s with holds := ho, alerts := a, lost := o }) l ?_ ⟨_, _, _, rfl⟩
  rintro n _ ⟨ho, a, o, rfl⟩
  obtain ⟨ho', a', o', h⟩ := lapseEntry_shape { s with holds := ho, alerts := a, lost := o } n
  exact ⟨ho', a', o', h⟩

/-- The lapses of a list of entries, each once. -/
theorem foldl_lapseEntry_hold {l : List HoldNo} (once : l.Nodup) (s : State) :
    (∀ n, n ∉ l ∨ dueHold s n = none → (l.foldl lapseEntry s).hold n = s.hold n)
    ∧ ∀ n ∈ l, ∀ h, dueHold s n = some h →
      (l.foldl lapseEntry s).hold n = ⟨(s.hold n).generation, .lapsed h s.seconds⟩
        ∧ Recorded (.holdLapsed, .hold n (s.hold n).generation h.key) (l.foldl lapseEntry s) := by
  induction l generalizing s with
  | nil => exact ⟨fun _ _ => rfl, fun _ h => absurd h List.not_mem_nil⟩
  | cons m rest ih =>
    obtain ⟨notLater, once'⟩ := List.nodup_cons.mp once
    obtain ⟨seconds, -, others⟩ := lapseEntry_keeps s m
    obtain ⟨untouched, lapsed⟩ := ih once' (lapseEntry s m)
    refine ⟨fun n idle => ?_, fun n hn h due => ?_⟩
    · by_cases same : n = m
      · subst same
        have notDue := idle.resolve_left (not_not_intro List.mem_cons_self)
        rw [List.foldl_cons, untouched n (.inl notLater), lapseEntry_of_not_due notDue]
      · rw [List.foldl_cons, untouched n ?_, others n same]
        rw [dueHold_congr (others n same) seconds]
        exact idle.imp_left fun h hn => h (List.mem_cons_of_mem m hn)
    · rcases List.mem_cons.mp hn with rfl | hn
      · obtain ⟨entry, recorded⟩ := lapseEntry_hold_of_due due
        rw [List.foldl_cons, untouched n (.inl notLater), entry]
        exact ⟨rfl, foldl_keeps rest (fun n s => lapseEntry_keeps_recorded n) recorded⟩
      · have other : n ≠ m := fun h => notLater (h ▸ hn)
        have due' : dueHold (lapseEntry s m) n = some h := (dueHold_congr (others n other) seconds).trans due
        have := lapsed n hn h due'
        rw [others n other, seconds] at this
        exact this

/-! ## The re-evaluations (R33, R34) -/

theorem foldl_reevaluate_shape (l : List SlotNo) (s : State) :
    ∃ sl a o, l.foldl (fun s i => reevaluate i s) s = { s with slots := sl, alerts := a, lost := o } := by
  refine foldl_keeps (P := fun t => ∃ sl a o, t = { s with slots := sl, alerts := a, lost := o }) l ?_ ⟨_, _, _, rfl⟩
  rintro i _ ⟨sl, a, o, rfl⟩
  obtain ⟨sl', a', o', h⟩ := reevaluate_shape i { s with slots := sl, alerts := a, lost := o }
  exact ⟨sl', a', o', h⟩

theorem foldl_reevaluate_spendable (l : List SlotNo) (s : State) (j : SlotNo) :
    spendable (l.foldl (fun s i => reevaluate i s) s) j = spendable s j :=
  foldl_keeps (P := fun t => spendable t j = spendable s j) l (fun i t h => (reevaluate_spendable i j t).trans h) rfl

/-- A slot that is not in the list stays as it is. -/
theorem foldl_reevaluate_other {l : List SlotNo} {i : SlotNo} (h : i ∉ l) (s : State) :
    (l.foldl (fun s i => reevaluate i s) s).slot i = s.slot i := by
  induction l generalizing s with
  | nil => rfl
  | cons j rest ih =>
    have other : j ≠ i := fun e => h (e ▸ List.mem_cons_self)
    rw [List.foldl_cons, ih (fun hi => h (List.mem_cons_of_mem j hi)), reevaluate_slot, if_neg other]

/-- The slot with its indicators at the conditions, by a spendable amount (R32). -/
def indicated (v : Slot) (spend : Nat) : Slot :=
  { v with low := lowCreditHolds v.threshold spend, exhausted := exhaustedHolds spend }

theorem reevaluate_slot_same (i : SlotNo) (s : State) :
    (reevaluate i s).slot i = indicated (s.slot i) (spendable s i) := by
  rw [reevaluate_slot, if_pos rfl]
  rfl

/-- A crossing at a re-evaluation is recorded (R33). -/
theorem reevaluate_records (i : SlotNo) (s : State) :
    (lowCreditHolds (s.slot i).threshold (spendable s i) = true → (s.slot i).low = false →
      Recorded (.lowCredit, .account i ((s.slot i).key.getD 0)) (reevaluate i s))
    ∧ (exhaustedHolds (spendable s i) = true → (s.slot i).exhausted = false →
      Recorded (.creditExhausted, .account i ((s.slot i).key.getD 0)) (reevaluate i s)) := by
  obtain ⟨-, -, -, exhausted, low, -⟩ := reevaluationRaisesOnCrossings i s
  exact ⟨fun holds before => low ⟨(lowCreditHolds_iff _ _).mp holds, before⟩,
    fun holds before => exhausted ⟨(exhaustedHolds_iff _).mp holds, before⟩⟩

/-- A slot in the list, re-evaluated once or more often: its indicators follow the conditions, and what it crossed into
stands recorded. -/
theorem foldl_reevaluate_slot {l : List SlotNo} {i : SlotNo} (h : i ∈ l) (s : State) :
    (l.foldl (fun s i => reevaluate i s) s).slot i = indicated (s.slot i) (spendable s i)
    ∧ (lowCreditHolds (s.slot i).threshold (spendable s i) = true → (s.slot i).low = false →
        Recorded (.lowCredit, .account i ((s.slot i).key.getD 0)) (l.foldl (fun s i => reevaluate i s) s))
    ∧ (exhaustedHolds (spendable s i) = true → (s.slot i).exhausted = false →
        Recorded (.creditExhausted, .account i ((s.slot i).key.getD 0)) (l.foldl (fun s i => reevaluate i s) s)) := by
  induction l generalizing s with
  | nil => exact absurd h List.not_mem_nil
  | cons j rest ih =>
    rw [List.foldl_cons]
    by_cases same : j = i
    · subst same
      obtain ⟨low, exhausted⟩ := reevaluate_records j s
      have keeps := fun {c} => foldl_keeps (P := Recorded c) rest (fun i s => reevaluate_keeps_recorded i c s)
        (s := reevaluate j s)
      refine ⟨?_, fun holds before => keeps (low holds before), fun holds before => keeps (exhausted holds before)⟩
      by_cases again : j ∈ rest
      · rw [(ih again (reevaluate j s)).1, reevaluate_spendable, reevaluate_slot_same]
        rfl
      · rw [foldl_reevaluate_other again, reevaluate_slot_same]
    · have later := ih ((List.mem_cons.mp h).resolve_left fun e => same e.symm) (reevaluate j s)
      rw [reevaluate_spendable, reevaluate_slot, if_neg same] at later
      exact later

theorem mem_dueSlots (s : State) (i : SlotNo) : i ∈ dueSlots s ↔ ∃ n h, dueHold s n = some h ∧ h.slot = i := by
  simp [dueSlots]

/-! ## The tick -/

theorem ticks_iff (s : State) : ticks s = true ↔ s.inReset = false ∧ (s.phase = .open ∨ s.phase = .restarting)
    ∧ s.seconds.toNat < 4294967295 := by
  simp [ticks, maxWord, and_assoc]

/-- The lapses of every entry and the re-evaluations after them. -/
theorem lapseHolds_spec (x : State) : ∃ y t, lapseHolds x = t ∧ y = (List.finRange 32).foldl lapseEntry x
    ∧ y.slots = x.slots ∧ t = (dueSlots x).foldl (fun s i => reevaluate i s) y
    ∧ t = { x with holds := t.holds, slots := t.slots, alerts := t.alerts, lost := t.lost } ∧ t.holds = y.holds := by
  obtain ⟨ho, a, o, lapses⟩ := foldl_lapseEntry_shape (List.finRange 32) x
  obtain ⟨sl, a', o', evaluated⟩ := foldl_reevaluate_shape (dueSlots x) ((List.finRange 32).foldl lapseEntry x)
  refine ⟨_, _, rfl, rfl, by rw [lapses], rfl, ?_, ?_⟩
  · rw [lapseHolds, evaluated, lapses]
  · rw [lapseHolds, evaluated]

/-- Settles O30: the entries are lapsed once each, the slots that lost a hold are re-evaluated on the lapsed table, and the
alerts of the lapses come first. -/
theorem secondTickLapsesDueHolds : Obligations.SecondTickLapsesDueHolds := by
  refine ⟨fun s idle => ?_, fun s noReset serves room => ?_⟩
  · refine congrArg _ (if_neg fun on => ?_)
    obtain ⟨noReset, serves, room⟩ := (ticks_iff s).mp on
    rcases idle with reset | ⟨notOpen, notRestarting⟩ | full
    · exact absurd (noReset.symm.trans reset) (by decide)
    · exact serves.elim notOpen notRestarting
    · rw [full] at room
      exact absurd room (by decide)
  · let x : State := { s with seconds := s.seconds + 1 }
    obtain ⟨y, t, eq, lapses, slots, evaluated, shape, holds⟩ := lapseHolds_spec x
    have run : exec .secondTick s = .next t :=
      congrArg _ ((if_pos ((ticks_iff s).mpr ⟨noReset, serves, room⟩)).trans eq)
    have seconds : t.seconds = s.seconds + 1 := by rw [shape]
    have counted : (s.seconds + 1).toNat = s.seconds.toNat + 1 := by bv_omega
    have due : ∀ n h, dueHold x n = some h ↔ (s.hold n).state = .open h ∧ h.deadline.toNat ≤ s.seconds.toNat + 1 :=
      fun n h => (dueHold_eq_some x n h).trans (by rw [show x.seconds.toNat = s.seconds.toNat + 1 from counted]; rfl)
    have idle : ∀ n, dueHold x n = none ↔ ∀ h, (s.hold n).state = .open h → s.seconds.toNat + 1 < h.deadline.toNat :=
      fun n => (dueHold_eq_none x n).trans (by rw [show x.seconds.toNat = s.seconds.toNat + 1 from counted]; rfl)
    have entries := foldl_lapseEntry_hold (List.nodup_finRange 32) x
    rw [← lapses] at entries
    obtain ⟨untouched, lapsed⟩ := entries
    have spendable' : ∀ i, spendable t i = spendable y i := fun i => by rw [evaluated, foldl_reevaluate_spendable]
    have ySlot : ∀ i, y.slot i = s.slot i := fun i => slot_congr slots i
    have touched : ∀ i ∈ dueSlots x, t.slot i = indicated (s.slot i) (spendable t i)
        ∧ (lowCreditHolds (s.slot i).threshold (spendable t i) = true → (s.slot i).low = false →
            Recorded (.lowCredit, .account i ((s.slot i).key.getD 0)) t)
        ∧ (exhaustedHolds (spendable t i) = true → (s.slot i).exhausted = false →
            Recorded (.creditExhausted, .account i ((s.slot i).key.getD 0)) t) := fun i hi => by
      have slot := foldl_reevaluate_slot hi y
      rw [← evaluated, ySlot, ← spendable'] at slot
      exact slot
    have others : ∀ i, i ∉ dueSlots x → t.slot i = s.slot i := fun i hi => by
      rw [evaluated, foldl_reevaluate_other hi, ySlot]
    refine ⟨t, run, seconds ▸ counted, ?lapsed, ?kept, ?indicators, ?crossings, ?untouched, ?silent, ?lapseAlerts, ?rest⟩
    case lapsed =>
      intro n h openHold reached
      obtain ⟨entry, recorded⟩ := lapsed n (List.mem_finRange n) h ((due n h).mpr ⟨openHold, reached⟩)
      refine ⟨(hold_congr holds n).trans (entry.trans (by rw [seconds]; rfl)), ?_⟩
      have : Recorded (.holdLapsed, .hold n (s.hold n).generation h.key) t := by
        rw [evaluated]
        exact foldl_keeps _ (fun i s => reevaluate_keeps_recorded i _ s) recorded
      exact this
    case kept =>
      exact fun n notDue => (hold_congr holds n).trans (untouched n (.inr ((idle n).mpr notDue)))
    case indicators =>
      intro i
      by_cases hi : i ∈ dueSlots x
      · rw [(touched i hi).1]
        rfl
      · rw [others i hi]
    case crossings =>
      intro n h openHold reached
      obtain ⟨slot, low, exhausted⟩ := touched h.slot
        ((mem_dueSlots x h.slot).mpr ⟨n, h, (due n h).mpr ⟨openHold, reached⟩, rfl⟩)
      rw [slot]
      exact ⟨rfl, rfl, low, exhausted⟩
    case untouched =>
      refine fun i notDue => others i fun hi => ?_
      obtain ⟨n, h, isDue, onSlot⟩ := (mem_dueSlots x i).mp hi
      obtain ⟨openHold, reached⟩ := (due n h).mp isDue
      exact absurd reached (Nat.not_le.mpr (notDue n h openHold onSlot))
    case silent =>
      intro noneDue
      have none' : ∀ n, dueHold x n = none := fun n => (idle n).mpr (noneDue n)
      have same : y = x := by
        rw [lapses]
        exact foldl_keeps (P := (· = x)) _ (fun n u h => by rw [h, lapseEntry_of_not_due (none' n)]) rfl
      have noSlot : dueSlots x = [] := List.filterMap_eq_nil_iff.mpr fun n _ => by rw [none' n]; rfl
      rw [evaluated, noSlot, same]
      exact ⟨rfl, rfl⟩
    case lapseAlerts =>
      intro noCrossing
      have silent : AlertsLike y t := by
        rw [evaluated]
        refine foldl_reevaluate_silent (dueSlots x) y fun i hi => ?_
        have stood := noCrossing i
        rw [(touched i hi).1] at stood
        rw [ySlot, ← spendable']
        exact ⟨fun below => stood.1 ((lowCreditHolds_iff _ _).mpr below), fun nothing => stood.2 ((exhaustedHolds_iff _).mpr nothing)⟩
      have alerts := lapses_alerts (s.seconds + 1) s
      rw [seconds]
      rw [show { s with seconds := s.seconds + 1 } = x from rfl, ← lapses] at alerts
      exact ⟨silent.1.trans alerts.1, silent.2.trans alerts.2⟩
    case rest =>
      rw [seconds]
      exact shape

end Sys2Proof.Machine

/-! PROOFS. The Supply Monitor's timer, the end of a reset, RESTART, and the alert requests. -/

namespace Sys2Proof.Machine

/-! ## The pin and the steady timer (R129) -/

theorem ripple_of_safe {v : SupplyLevel} (safe : v = .safe) : v.ripple = .belowSafe := by rw [safe]; rfl

/-- Settles O40: SUPPLY_RISE by its two branches, SUPPLY_RIPPLE by its definition. -/
theorem steadyTimerFollowsTheSupply : Obligations.SteadyTimerFollowsTheSupply := by
  intro s
  refine ⟨fun running low => ?_, fun still => ?_, s.vdd.ripple, rfl, ripple_of_safe⟩
  · exact congrArg Host.Outcome.next (if_pos ⟨running, low⟩)
  · refine congrArg Host.Outcome.next (if_neg fun ⟨running, low⟩ => ?_)
    rcases still with inReset | good
    · exact absurd (running.symm.trans inReset) (by decide)
    · exact absurd (low.symm.trans good) (by decide)

/-! ## The end of a reset (R113, R129, R158) -/

theorem timerAtResetEnd_eq (v : SupplyLevel) :
    v.timerAtResetEnd = if v = .safe then .running else .stopped := by cases v <;> rfl

theorem atResetEnd_ne (v : SupplyLevel) : v.atResetEnd ≠ .belowReset := by cases v <;> decide

theorem sampledAddress_eq (adr1 adr0 : Bool) : sampledAddress adr1 adr0
    = BitVec.ofNat 7 (82 + (if adr1 then 2 else 0) + (if adr0 then 1 else 0)) := by
  cases adr1 <;> cases adr0 <;> rfl

/-- Settles O44: by the two branches of `resetEnd`. -/
theorem resetEndEntersStarting : Obligations.ResetEndEntersStarting := by
  intro s adr1 adr0
  refine ⟨fun inReset => ⟨s.vdd.atResetEnd, ?_, atResetEnd_ne _⟩, fun running => ?_⟩
  · rw [← sampledAddress_eq, ← timerAtResetEnd_eq]
    exact congrArg Host.Outcome.next (if_pos inReset)
  · exact congrArg Host.Outcome.next (if_neg (by rw [running]; decide))

/-! ## SET_ALERT_MASK (R146) -/

/-- In the body of `AlertMask.ofCode` the name `none` is the mask `AlertMask.none`: a code that Table 12-2 does not name
gives the mask NONE instead of no mask. -/
theorem maskOfCode_three : AlertMask.ofCode 3 = some .none := rfl

/-- A part in OPEN whose Terminal window holds a SET_ALERT_MASK with the code 3, which names no mask. -/
def maskThreeOffered : State :=
  { State.reset with
    phase := .open
    supply := .good
    terminal := { State.reset.terminal with window := [⟨1, Kind.setAlertMask.code, [3], .untaken⟩] } }

theorem maskThreeOffered_handed : Handed (.setAlertMask .terminal 1 3) maskThreeOffered := by decide +kernel

/-- The model accepts the request. -/
theorem exec_maskThree : exec (.setAlertMask .terminal 1 3) maskThreeOffered
    = .next (acceptMask .terminal 1 .none (servedBy .terminal maskThreeOffered)) := by
  have judged : judgeMask .terminal 3 (servedBy .terminal maskThreeOffered) = .ok .none := by
    rw [judgeMask, admission_open _ _ _ rfl rfl, maskOfCode_three]
  have run := exec_setAlertMask_handed _ _ _ _ maskThreeOffered_handed
  rwa [evalSetAlertMask, serve_ok judged] at run

/-- Refutes O49: on `maskThreeOffered` a SET_ALERT_MASK with the code 3 is answered OK with the mask NONE set, where the
statement demands BAD_VALUE. -/
theorem not_alertRequestsServeTheQueueAndTheMask : ¬ Obligations.AlertRequestsServeTheQueueAndTheMask := by
  intro ⟨_, masks, _⟩
  have demanded : AnswersOnly (.setAlertMask .terminal 1 3) .terminal 1 .setAlertMask .badValue .zeros maskThreeOffered :=
    (masks .terminal 1 3 maskThreeOffered maskThreeOffered_handed).2 (by decide)
  have same := Host.Outcome.next.inj (exec_maskThree.symm.trans demanded)
  have statuses := congrArg (fun t : State => t.terminal.responses.map Response.status) same
  exact absurd statuses (by decide)

end Sys2Proof.Machine

/-! PROOFS. RESTART: the UNTAKEN Terminal requests answered one after another. -/

namespace Sys2Proof.Machine

/-- The window after requests with these tags are answered. -/
def answeredWindow (tags : List Byte) (window : List Request) : List Request :=
  window.map (fun q => if q.tag ∈ tags then { q with state := .answered } else q)

theorem answeredWindow_nil (window : List Request) : answeredWindow [] window = window := by
  simp [answeredWindow]

theorem answeredWindow_cons (tag : Byte) (tags : List Byte) (window : List Request) :
    answeredWindow tags (markRequest tag .answered window) = answeredWindow (tag :: tags) window := by
  unfold answeredWindow markRequest
  rw [List.map_map]
  refine List.map_congr_left fun q _ => ?_
  by_cases named : q.tag = tag
  · simp [named]
  · simp [named]

/-- Requests answered RESTARTING in their order (R125). -/
theorem foldl_answerRestarting (l : List Request) (s : State) :
    l.foldl answerRestarting s = { s with
      terminal := { s.terminal with
        responses := s.terminal.responses ++ l.map (fun q => ⟨q.tag, q.kind, .restarting, .zeros⟩)
        window := answeredWindow (l.map (·.tag)) s.terminal.window } } := by
  induction l generalizing s with
  | nil => simp [answeredWindow_nil]
  | cons q rest ih =>
    rw [List.foldl_cons, ih]
    simp only [answerRestarting, answerCode, State.port, State.setPort, answeredWindow_cons, List.map_cons,
      List.append_assoc, List.singleton_append]

/-- Where no two requests share a tag, answering the UNTAKEN ones by their tags answers no other. -/
theorem answeredWindow_untaken {window : List Request} (distinct : (window.map (·.tag)).Nodup) :
    answeredWindow ((window.filter (fun q => decide (q.state = .untaken))).map (·.tag)) window
      = window.map (fun q => if q.state = .untaken then { q with state := .answered } else q) := by
  refine List.map_congr_left fun q hq => ?_
  have named : q.tag ∈ (window.filter (fun q => decide (q.state = .untaken))).map (·.tag) ↔ q.state = .untaken := by
    rw [List.mem_map]
    constructor
    · rintro ⟨x, hx, sameTag⟩
      obtain ⟨inWindow, untaken⟩ := List.mem_filter.mp hx
      rw [List.inj_on_of_nodup_map distinct hq inWindow sameTag.symm]
      exact of_decide_eq_true untaken
    · exact fun untaken => ⟨q, List.mem_filter.mpr ⟨hq, decide_eq_true untaken⟩, rfl⟩
  simp only [named]

/-- RESTART accepted from the Service Port (R125, R126). -/
theorem acceptRestart_eq (tag : Byte) (s : State) (law : WindowLaw s) : acceptRestart .service tag s = { s with
    phase := .restarting
    service := { s.service with
      responses := s.service.responses ++ [⟨tag, Kind.restart.code, .ok, .zeros⟩]
      window := windowWith tag .answered s.service.window }
    terminal := { s.terminal with
      responses := s.terminal.responses ++ (s.terminal.window.filter (fun q => decide (q.state = .untaken))).map
        (fun q => ⟨q.tag, q.kind, .restarting, .zeros⟩)
      window := s.terminal.window.map (fun q => if q.state = .untaken then { q with state := .answered } else q) }
    collectionWait := s.collectionWait || decide (s.commitQueue = []) } := by
  obtain ⟨-, -, distinct⟩ := law
  simp only [acceptRestart, foldl_answerRestarting]
  rw [checkDrain_of_responses _ fun empty => List.append_ne_nil_of_right_ne_nil _ (List.cons_ne_nil _ _) empty.2]
  rw [← answeredWindow_untaken distinct]
  simp [untakenTerminal, answer, answerCode, State.port, State.setPort, markRequest, windowWith]

theorem judgeRestart_service (s : State) : judgeRestart .service s = .ok () := by
  unfold judgeRestart
  cases supply : s.supply with
  | good => rw [admission_service_good _ s supply]
  | low => simp [admission, supply, Kind.serviceOnly, Kind.mayCommit]

/-- Settles O46: by the answers to the UNTAKEN requests, one after another. -/
theorem restartAnswersTheWaiting : Obligations.RestartAnswersTheWaiting := by
  intro tag s law handed noWait
  have run := exec_restart_handed .service tag s handed
  rw [evalRestart, serve_ok (judgeRestart_service _), acceptRestart_eq tag (servedBy .service s) law] at run
  refine ⟨_, run, rfl, rfl, rfl, ?_, rfl⟩
  show (s.collectionWait || _) = _
  rw [noWait]
  exact Bool.false_or _

end Sys2Proof.Machine

/-! PROOFS. The ports: STATUS transactions and the port status byte, the end of a submit, and collecting. -/

namespace Sys2Proof.Machine

/-! ## The port status byte (R154, R163) -/

theorem phaseIndex_le (ph : Phase) (v : Supply) : phaseIndex ph v ≤ 8 := by cases ph <;> cases v <;> decide

theorem outcomeCode_le (o : SubmitOutcome) : o.code ≤ 5 := by cases o <;> decide

theorem conditionCode_lt (s : State) (p : Port) : conditionCode s p < 64 := by
  have phase := phaseIndex_le s.phase s.supply
  have outcome := outcomeCode_le (s.port p).outcome
  unfold conditionCode
  omega

/-- A byte of two flags over a code of six bits, read back. -/
theorem flagsOverCode (ready alert : Bool) {code : Nat} (small : code < 64) :
    (BitVec.ofNat 8 ((if ready then 128 else 0) + (if alert then 64 else 0) + code)).getLsbD 7 = ready
    ∧ (BitVec.ofNat 8 ((if ready then 128 else 0) + (if alert then 64 else 0) + code)).getLsbD 6 = alert
    ∧ (BitVec.ofNat 8 ((if ready then 128 else 0) + (if alert then 64 else 0) + code)).toNat % 64 = code := by
  simp only [BitVec.getLsbD_ofNat, BitVec.toNat_ofNat, Nat.testBit_eq_decide_div_mod_eq]
  cases ready <;> cases alert <;> simp <;> omega

theorem rdyLine_running {s : State} {p : Port} (running : s.inReset = false) :
    rdyLine s p = decide ((s.port p).responses ≠ []) := by
  unfold rdyLine
  rw [running]
  cases (s.port p).responses <;> rfl

theorem portStatus_spec {s : State} {p : Port} (running : s.inReset = false) :
    (portStatus s p).getLsbD 7 = decide ((s.port p).responses ≠ [])
    ∧ (portStatus s p).getLsbD 6 = alertLine s p ∧ (portStatus s p).toNat % 64 = conditionCode s p := by
  rw [← rdyLine_running running]
  exact flagsOverCode (rdyLine s p) (alertLine s p) (conditionCode_lt s p)

/-- A transaction with the code byte of SUBMIT is a SUBMIT (R156). -/
theorem exec_status_submit (received : List Byte) (s : State) :
    exec (.status 0x0A received) s = exec (.submit received) s := rfl

/-- What a STATUS course sends and clears. -/
theorem exec_status_other {code : Byte} (received : List Byte) {s : State} (running : s.inReset = false)
    (notSubmit : code ≠ 0x0A) (notCollect : code ≠ 0x0C) :
    exec (.status code received) s = .next { s with terminal := { s.terminal with
      outcome := .none, wire := ⟨portStatus s .terminal :: List.replicate received.length 255, 0⟩ } } :=
  exec_status code received s running notSubmit notCollect

theorem exec_status_reset (code : Byte) (received : List Byte) {s : State} (inReset : s.inReset = true) :
    exec (.status code received) s = .next s := congrArg _ (spiTransaction_reset code received s inReset)

/-- Settles O52: the course by the code byte, and the status byte as two flags over a code below 64. -/
theorem statusTransactionsAndThePortStatusByte : Obligations.StatusTransactionsAndThePortStatusByte := by
  refine ⟨fun s received n => ⟨fun code notSubmit notCollect running =>
    exec_status_other received running notSubmit notCollect, exec_status_submit received s,
    exec_status_collect received s, rfl, fun inReset code => exec_status_reset code received inReset⟩,
    fun s p running => ?_⟩
  obtain ⟨ready, alert, code⟩ := portStatus_spec (p := p) running
  refine ⟨ready, alert, code.trans ?_⟩
  refine congrArg₂ (fun phase outcome => 6 * phase + outcome) ?_ ?_
  · cases s.phase <;> cases s.supply <;> rfl
  · cases (s.port p).outcome <;> rfl

/-! ## The frame check (R155, R162) -/

theorem lengthFitsKind_eq_false {kind : Byte} {n : Nat} :
    lengthFitsKind kind n = false ↔ ∃ k, Kind.ofCode kind = some k ∧ k.requestLength ≠ n := by
  unfold lengthFitsKind
  cases Kind.ofCode kind <;> simp

theorem lengthInRange_iff {n : Nat} : lengthInRange n = true ↔ 4 ≤ n ∧ n ≤ 32 := by simp [lengthInRange]

/-- The frame check of a frame that is not empty, with its length byte. -/
theorem checkFrame_cons (b : Byte) (rest : List Byte) : checkFrame (b :: rest) =
    if (lengthInRange b.toNat && decide (b.toNat ≤ (b :: rest).length)
        && crc8 ((b :: rest).take (b.toNat - 1)) == byteAt (b :: rest) (b.toNat - 1)
        && lengthFitsKind (byteAt (b :: rest) 2) b.toNat) = true then
      some (requestIn b.toNat (b :: rest))
    else none := rfl

theorem checkFrame_eq_none_iff (bytes : List Byte) : checkFrame bytes = none ↔
    bytes = [] ∨ (byteAt bytes 0).toNat < 4 ∨ 32 < (byteAt bytes 0).toNat
      ∨ bytes.length < (byteAt bytes 0).toNat
      ∨ crc8 (bytes.take ((byteAt bytes 0).toNat - 1)) ≠ byteAt bytes ((byteAt bytes 0).toNat - 1)
      ∨ ∃ k, Kind.ofCode (byteAt bytes 2) = some k ∧ k.requestLength ≠ (byteAt bytes 0).toNat := by
  cases bytes with
  | nil => exact iff_of_true rfl (.inl rfl)
  | cons b rest =>
    have first : byteAt (b :: rest) 0 = b := rfl
    have refused : checkFrame (b :: rest) = none ↔ ¬ (lengthInRange b.toNat && decide (b.toNat ≤ (b :: rest).length)
        && crc8 ((b :: rest).take (b.toNat - 1)) == byteAt (b :: rest) (b.toNat - 1)
        && lengthFitsKind (byteAt (b :: rest) 2) b.toNat) = true := by
      rw [checkFrame_cons]
      exact ⟨fun h holds => by rw [if_pos holds] at h; exact absurd h (by simp), fun h => if_neg h⟩
    rw [refused, first, ← lengthFitsKind_eq_false]
    simp only [Bool.and_eq_true, lengthInRange_iff, decide_eq_true_eq, beq_iff_eq, not_and_or, Nat.not_le,
      Bool.not_eq_true, reduceCtorEq, false_or, or_assoc, ne_eq]

theorem checkFrame_eq_some {bytes : List Byte} {q : Request} (passes : checkFrame bytes = some q) :
    q = ⟨byteAt bytes 1, byteAt bytes 2, (bytes.take ((byteAt bytes 0).toNat - 1)).drop 3, .untaken⟩ := by
  cases bytes with
  | nil => exact absurd passes (by simp [checkFrame])
  | cons b rest =>
    rw [checkFrame_cons] at passes
    split_ifs at passes
    exact (Option.some.inj passes).symm

/-! ## The end of a submit (R154, R155, R158) -/

/-- What the end of a submit records in the port, by the checks in their order. -/
structure SubmitEnds (p : Port) (bytes : List Byte) (s : State) (o : SubmitOutcome) (w : List Request) : Prop where
  notOpen : s.phase ≠ .open → o = .notReady ∧ w = (s.port p).window
  badFrame : s.phase = .open → checkFrame bytes = none → o = .frameError ∧ w = (s.port p).window
  full : s.phase = .open → ∀ q, checkFrame bytes = some q → windowPlaces p ≤ (s.port p).window.length →
    o = .windowFull ∧ w = (s.port p).window
  duplicate : s.phase = .open → ∀ q, checkFrame bytes = some q → (s.port p).window.length < windowPlaces p →
    tagInUse p (s.port p).window q.tag = true → o = .duplicateTag ∧ w = (s.port p).window
  accepted : s.phase = .open → ∀ q, checkFrame bytes = some q → (s.port p).window.length < windowPlaces p →
    tagInUse p (s.port p).window q.tag = false → o = .accepted ∧ w = (s.port p).window ++ [q]

/-- The end of a submit changes the outcome and the window of its port. -/
theorem endSubmit_spec (p : Port) (bytes : List Byte) (s : State) : ∃ o w,
    endSubmit p bytes s = s.setPort p { s.port p with outcome := o, window := w } ∧ SubmitEnds p bytes s o w := by
  unfold endSubmit judgeSubmit
  by_cases phase : s.phase = .open
  case neg =>
    exact ⟨.notReady, _, by rw [if_pos phase], ⟨fun _ => ⟨rfl, rfl⟩, fun h => absurd h phase, fun h => absurd h phase,
      fun h => absurd h phase, fun h => absurd h phase⟩⟩
  rw [if_neg (not_not.mpr phase)]
  cases frame : checkFrame bytes with
  | none =>
    exact ⟨.frameError, _, rfl, ⟨fun h => absurd phase h, fun _ _ => ⟨rfl, rfl⟩, fun _ q h => by simp [frame] at h,
      fun _ q h => by simp [frame] at h, fun _ q h => by simp [frame] at h⟩⟩
  | some q =>
    have same : ∀ q', checkFrame bytes = some q' → q = q' := fun q' h => Option.some.inj (frame.symm.trans h)
    dsimp only
    by_cases room : (s.port p).window.length < windowPlaces p
    case neg =>
      refine ⟨.windowFull, _, by rw [if_pos (Nat.not_lt.mp room)], ⟨fun h => absurd phase h, fun _ h => by simp [frame] at h,
        fun _ _ _ _ => ⟨rfl, rfl⟩, fun _ _ _ h => absurd h room, fun _ _ _ h => absurd h room⟩⟩
    rw [if_neg (Nat.not_le.mpr room)]
    cases used : tagInUse p (s.port p).window q.tag with
    | true =>
      exact ⟨.duplicateTag, _, rfl, ⟨fun h => absurd phase h, fun _ h => by simp [frame] at h,
        fun _ _ _ h => absurd room (Nat.not_lt.mpr h), fun _ _ _ _ _ => ⟨rfl, rfl⟩,
        fun _ q' h _ h' => by rw [← same q' h, used] at h'; exact absurd h' (by decide)⟩⟩
    | false =>
      exact ⟨.accepted, _, rfl, ⟨fun h => absurd phase h, fun _ h => by simp [frame] at h,
        fun _ _ _ h => absurd room (Nat.not_lt.mpr h),
        fun _ q' h _ h' => by rw [← same q' h, used] at h'; exact absurd h' (by decide),
        fun _ q' h _ _ => ⟨rfl, by rw [same q' h]⟩⟩⟩

theorem tagInUse_terminal {window : List Request} {tag : Byte} :
    tagInUse .terminal window tag = true ↔ ∃ x ∈ window, x.tag = tag := by
  simp [tagInUse]

/-- The end of a submit of the Terminal Port. -/
theorem submit_terminal (bytes : List Byte) {s : State} (running : s.inReset = false) :
    ∃ t o w, exec (.submit bytes) s = .next t
      ∧ t = { s with terminal := { s.terminal with
          outcome := o, window := w, wire := ⟨portStatus s .terminal :: List.replicate bytes.length 255, 0⟩ } }
      ∧ SubmitEnds .terminal bytes s o w := by
  obtain ⟨o, w, ends, spec⟩ := endSubmit_spec .terminal bytes
    (sendStatus .terminal (List.replicate bytes.length 255) 0 s)
  exact ⟨_, o, w, exec_submit bytes s running, ends, ⟨spec.1, spec.2, spec.3, spec.4, spec.5⟩⟩

theorem addressed_own {s : State} (running : s.inReset = false) : addressed s.serviceAddress s = true := by
  simp [addressed, running]

theorem addressed_other {a : BitVec 7} {s : State} (other : a ≠ s.serviceAddress) : addressed a s = false := by
  simp [addressed, other]

theorem exec_i2cWrite_unaddressed {a : BitVec 7} (bytes : List Byte) {s : State} (other : addressed a s = false) :
    exec (.i2cWrite a bytes) s = .next s := congrArg Host.Outcome.next (if_neg (by rw [other]; decide))

theorem exec_i2cWrite_own (bytes : List Byte) {s : State} (running : s.inReset = false) :
    exec (.i2cWrite s.serviceAddress bytes) s = .next (serviceWrite bytes s) :=
  congrArg Host.Outcome.next (if_pos (addressed_own running))

/-- The end of a submit of the Service Port. -/
theorem submit_service {bytes : List Byte} {s : State} (running : s.inReset = false) (data : bytes ≠ []) :
    ∃ t o w, exec (.i2cWrite s.serviceAddress bytes) s = .next t
      ∧ t = { s with service := { s.service with outcome := o, window := w, wire := ⟨[], bytes.length + 1⟩ } }
      ∧ SubmitEnds .service bytes s o w := by
  obtain ⟨o, w, ends, spec⟩ := endSubmit_spec .service bytes (recordWire .service [] (bytes.length + 1) s)
  refine ⟨_, o, w, exec_i2cWrite_own bytes running, ?_, ⟨spec.1, spec.2, spec.3, spec.4, spec.5⟩⟩
  exact (if_neg data).trans ends

/-- Settles O50: the checks at the end of a submit in their order, for both ports. -/
theorem submitChecksTheFrame : Obligations.SubmitChecksTheFrame := by
  refine ⟨fun s bytes running => ⟨?terminal, fun data => ?service, exec_i2cWrite_own [] running,
      fun a other => exec_i2cWrite_unaddressed bytes (addressed_other other)⟩,
    fun s bytes inReset => ⟨congrArg Host.Outcome.next (spiTransaction_reset _ _ _ inReset),
      fun a => exec_i2cWrite_unaddressed bytes (addressed_reset a s inReset)⟩,
    checkFrame_eq_none_iff, fun _ _ passes => checkFrame_eq_some passes⟩
  case terminal =>
    obtain ⟨t, o, w, run, shape, ends⟩ := submit_terminal bytes running
    refine ⟨t, o, w, run, shape, ends.notOpen, ends.badFrame, fun phase q frame => ⟨ends.full phase q frame,
      fun room used => ends.duplicate phase q frame room (tagInUse_terminal.mpr used), fun room fresh => ?_⟩⟩
    refine ends.accepted phase q frame room (Bool.not_eq_true _ ▸ fun used => ?_)
    obtain ⟨x, inWindow, same⟩ := tagInUse_terminal.mp used
    exact fresh x inWindow same
  case service =>
    obtain ⟨t, o, w, run, shape, ends⟩ := submit_service running data
    refine ⟨t, o, w, run, shape, ends.notOpen, ends.badFrame, fun phase q frame => ⟨ends.full phase q frame,
      fun empty => ?_⟩⟩
    have window : (s.port .service).window = [] := empty
    obtain ⟨outcome, joined⟩ := ends.accepted phase q frame (by rw [window]; decide) rfl
    exact ⟨outcome, by rw [joined, window]; rfl⟩

end Sys2Proof.Machine

/-! PROOFS. Collecting on both ports, the frame of a response, and what a reset leaves. -/

namespace Sys2Proof.Machine

/-! ## What a collect sends and takes (R157, R159) -/

theorem setPort_setPort (s : State) (p : Port) (v w : PortState) : (s.setPort p v).setPort p w = s.setPort p w := by
  cases p <;> rfl

theorem sendStatus_eq (p : Port) (rest : List Byte) (acknowledged : Nat) (s : State) :
    sendStatus p rest acknowledged s = s.setPort p { s.port p with
      outcome := .none, wire := ⟨portStatus s p :: rest, acknowledged⟩ } := by
  cases p <;> rfl

theorem collectFrame_ready {v : PortState} {r : Response} {rest : List Response} (queue : v.responses = r :: rest) :
    collectFrame v = responseFrame r := by
  rw [collectFrame, queue]

theorem collectFrame_empty {v : PortState} (queue : v.responses = []) : collectFrame v = emptyFrame := by
  rw [collectFrame, queue]

theorem removeHead_ready {v : PortState} {r : Response} {rest : List Response} (queue : v.responses = r :: rest) :
    removeHead v = { v with responses := rest, window := v.window.eraseP (fun q => q.tag == r.tag) } := by
  rw [removeHead, queue]

theorem removeHead_empty {v : PortState} (queue : v.responses = []) : removeHead v = v := by
  rw [removeHead, queue]

/-- The state after a collect of `n` frame bytes on port `p`, before the drain of RESTARTING. -/
def afterCollect (p : Port) (n acknowledged : Nat) (s : State) : State :=
  endCollect p n (sendStatus p (clockedOut (collectFrame (s.port p)) n) acknowledged s)

theorem afterCollect_eq (p : Port) (n acknowledged : Nat) (s : State) : afterCollect p n acknowledged s =
    if (collectFrame (s.port p)).length ≤ n then
      s.setPort p (removeHead { s.port p with
        outcome := .none, wire := ⟨portStatus s p :: clockedOut (collectFrame (s.port p)) n, acknowledged⟩ })
    else s.setPort p { s.port p with
      outcome := .none, wire := ⟨portStatus s p :: clockedOut (collectFrame (s.port p)) n, acknowledged⟩ } := by
  rw [afterCollect, endCollect, sendStatus_eq, port_setPort_same, setPort_setPort]
  rfl

/-- A collect of the whole frame of the head takes it. -/
theorem afterCollect_whole {p : Port} {n : Nat} {s : State} {r : Response} {rest : List Response} (acknowledged : Nat)
    (queue : (s.port p).responses = r :: rest) (whole : (responseFrame r).length ≤ n) :
    afterCollect p n acknowledged s = s.setPort p { s.port p with
      outcome := .none, responses := rest, window := (s.port p).window.eraseP (fun q => q.tag == r.tag),
      wire := ⟨portStatus s p :: (responseFrame r ++ List.replicate (n - (responseFrame r).length) 255),
        acknowledged⟩ } := by
  rw [afterCollect_eq, collectFrame_ready queue, if_pos whole, clockedOut_whole _ n whole]
  exact congrArg (s.setPort p) (removeHead_ready queue)

/-- A collect that is cut short takes nothing. -/
theorem afterCollect_short {p : Port} {n : Nat} {s : State} {r : Response} {rest : List Response} (acknowledged : Nat)
    (queue : (s.port p).responses = r :: rest) (short : n < (responseFrame r).length) :
    afterCollect p n acknowledged s = s.setPort p { s.port p with
      outcome := .none, wire := ⟨portStatus s p :: (responseFrame r).take n, acknowledged⟩ } := by
  rw [afterCollect_eq, collectFrame_ready queue, if_neg (Nat.not_le.mpr short), clockedOut_short _ n short]

/-- With nothing ready the empty frame goes out and nothing is taken. -/
theorem afterCollect_empty {p : Port} {s : State} (n acknowledged : Nat) (queue : (s.port p).responses = []) :
    afterCollect p n acknowledged s = s.setPort p { s.port p with
      outcome := .none,
      wire := ⟨portStatus s p :: ([0x04, 0x00, 0x00, 0xAB].take n ++ List.replicate (n - 4) 255), acknowledged⟩ } := by
  rw [afterCollect_eq, collectFrame_empty queue]
  split_ifs
  · exact congrArg (s.setPort p) (removeHead_empty queue)
  · rfl

theorem exec_collect_drain (n : Nat) {s : State} (running : s.inReset = false) :
    exec (.collect n) s = .next (checkDrain (afterCollect .terminal n 0 s)) := exec_collect n s running

theorem exec_i2cRead_unaddressed {a : BitVec 7} (n : Nat) {s : State} (other : addressed a s = false) :
    exec (.i2cRead a n) s = .next s := congrArg Host.Outcome.next (if_neg (by rw [other]; decide))

theorem exec_i2cRead_drain (n : Nat) {s : State} (running : s.inReset = false) :
    exec (.i2cRead s.serviceAddress (n + 1)) s = .next (checkDrain (afterCollect .service n 1 s)) :=
  congrArg Host.Outcome.next (if_pos (addressed_own running))

/-- A collect of the Terminal Port, but for the one that leaves nothing in RESTARTING. -/
theorem collect_terminal {s : State} (n : Nat) (running : s.inReset = false) :
    (∀ r rest, s.terminal.responses = r :: rest →
      ((responseFrame r).length ≤ n → SomethingLeft s rest s.service.responses →
        exec (.collect n) s = .next { s with
          collectionWait := waitsNow s
          terminal := { s.terminal with
            outcome := .none, responses := rest, window := s.terminal.window.eraseP (fun q => q.tag == r.tag),
            wire := ⟨portStatus s .terminal
              :: (responseFrame r ++ List.replicate (n - (responseFrame r).length) 255), 0⟩ } })
      ∧ (n < (responseFrame r).length → exec (.collect n) s = .next { s with
          collectionWait := waitsNow s
          terminal := { s.terminal with
            outcome := .none, wire := ⟨portStatus s .terminal :: (responseFrame r).take n, 0⟩ } }))
    ∧ (s.terminal.responses = [] → SomethingLeft s [] s.service.responses →
      exec (.collect n) s = .next { s with
        collectionWait := waitsNow s
        terminal := { s.terminal with
          outcome := .none,
          wire := ⟨portStatus s .terminal :: ([0x04, 0x00, 0x00, 0xAB].take n ++ List.replicate (n - 4) 255), 0⟩ } }) := by
  rw [exec_collect_drain n running]
  refine ⟨fun r rest queue => ⟨fun whole left => ?_, fun short => ?_⟩, fun queue left => ?_⟩
  · rw [afterCollect_whole (p := .terminal) 0 queue whole, checkDrain_left _ left]
    rfl
  · rw [afterCollect_short (p := .terminal) 0 queue short]
    refine congrArg _ (checkDrain_left _ (.inr (.inr (.inl ?_))))
    exact ne_of_eq_of_ne queue (List.cons_ne_nil _ _)
  · rw [afterCollect_empty (p := .terminal) n 0 queue]
    exact congrArg _ (checkDrain_left _ (show SomethingLeft s s.terminal.responses _ from queue ▸ left))

/-- A collect of the Service Port, but for the one that leaves nothing in RESTARTING. -/
theorem collect_service {s : State} (n : Nat) (running : s.inReset = false) :
    (∀ r rest, s.service.responses = r :: rest →
      ((responseFrame r).length ≤ n → SomethingLeft s s.terminal.responses rest →
        exec (.i2cRead s.serviceAddress (n + 1)) s = .next { s with
          collectionWait := waitsNow s
          service := { s.service with
            outcome := .none, responses := rest, window := s.service.window.eraseP (fun q => q.tag == r.tag),
            wire := ⟨portStatus s .service
              :: (responseFrame r ++ List.replicate (n - (responseFrame r).length) 255), 1⟩ } })
      ∧ (n < (responseFrame r).length → exec (.i2cRead s.serviceAddress (n + 1)) s = .next { s with
          collectionWait := waitsNow s
          service := { s.service with
            outcome := .none, wire := ⟨portStatus s .service :: (responseFrame r).take n, 1⟩ } }))
    ∧ (s.service.responses = [] → SomethingLeft s s.terminal.responses [] →
      exec (.i2cRead s.serviceAddress (n + 1)) s = .next { s with
        collectionWait := waitsNow s
        service := { s.service with
          outcome := .none,
          wire := ⟨portStatus s .service :: ([0x04, 0x00, 0x00, 0xAB].take n ++ List.replicate (n - 4) 255), 1⟩ } }) := by
  rw [exec_i2cRead_drain n running]
  refine ⟨fun r rest queue => ⟨fun whole left => ?_, fun short => ?_⟩, fun queue left => ?_⟩
  · rw [afterCollect_whole (p := .service) 1 queue whole, checkDrain_left _ left]
    rfl
  · rw [afterCollect_short (p := .service) 1 queue short]
    refine congrArg _ (checkDrain_left _ (.inr (.inr (.inr ?_))))
    exact ne_of_eq_of_ne queue (List.cons_ne_nil _ _)
  · rw [afterCollect_empty (p := .service) n 1 queue]
    exact congrArg _ (checkDrain_left _ (show SomethingLeft s _ s.service.responses from queue ▸ left))

/-! ## The frame of a response (R162, Tables 12-1 and 12-2) -/

theorem responseFrame_spec {k : Kind} {code : Byte} {len : Nat} {f : Figures} {body : List Byte} (tag : Byte)
    (st : Status) (row : (k, code, len) ∈ responseRows) (holds : ResponseBody k f body) :
    ∃ covered, covered = BitVec.ofNat 8 len :: tag :: code :: st.code :: body
      ∧ responseFrame ⟨tag, k.code, st, f⟩ = covered ++ [crc8 covered] ∧ covered.length + 1 = len := by
  obtain ⟨bytes, length⟩ := holds.bytes
  obtain ⟨sameCode, sameLength⟩ : k.code = code ∧ bodyLength k.code + 5 = len := responseRows_spec _ row
  refine ⟨_, rfl, ?_, ?_⟩
  · have total : (tag :: k.code :: st.code :: body).length + 2 = len := by
      simp only [List.length_cons]
      omega
    simp only [responseFrame, frameOf, bytes, total, natByte, ← sameCode]
  · simp only [List.length_cons]
    omega

theorem codesOfTable122 : CodesOfTable122 := by
  unfold CodesOfTable122
  decide

/-- Settles O51: a collect by the bytes it clocks, the frame of a response by the rows of Table 12-1. -/
theorem collectTakesTheHead : Obligations.CollectTakesTheHead := by
  refine ⟨fun s n running => ?_, fun s n inReset => ⟨?_, fun a => ?_⟩,
    fun k code len f body tag st row holds => responseFrame_spec tag st row holds, codesOfTable122⟩
  · obtain ⟨terminalReady, terminalEmpty⟩ := collect_terminal n running
    obtain ⟨serviceReady, serviceEmpty⟩ := collect_service n running
    exact ⟨terminalReady, terminalEmpty, serviceReady, serviceEmpty,
      fun a other => exec_i2cRead_unaddressed n (addressed_other other)⟩
  · exact congrArg Host.Outcome.next (spiTransaction_reset _ _ _ inReset)
  · exact exec_i2cRead_unaddressed n (addressed_reset a s inReset)

/-! ## What a cut leaves of the cells (R95, Table 5-6) -/

theorem abandonAttempt_idle {cut : CutResult} {s : State} (idle : ∀ e ∈ s.commitQueue.head?, e.stage.underWay = false) :
    abandonAttempt cut s = s := by
  unfold abandonAttempt
  cases queue : s.commitQueue with
  | nil => rfl
  | cons e rest =>
    have notUnderWay : e.stage.underWay = false := idle e (by rw [queue]; rfl)
    cases stage : e.stage with
    | waiting => simp only [stage, Stage.attempt, Stage.site]
    | programming a | relocating a q c =>
      have still : a.underWay = false := by rwa [stage] at notUnderWay
      simp [stage, Stage.attempt, Stage.site, still]

theorem abandonAttempt_underWay {cut : CutResult} {s : State} {e : CommitEntry} {rest : List CommitEntry} {a : Attempt}
    {p : PairId} {c : CopyName} (queue : s.commitQueue = e :: rest) (underWay : a.underWay = true)
    (attempt : e.stage.attempt = some a) (site : e.stage.site = some (p, c)) :
    abandonAttempt cut s = s.setCopy p c (cutContent ((s.cells p).copy c) (entryCopy e a p s) cut) := by
  unfold abandonAttempt
  rw [queue]
  simp only [attempt, site]
  exact if_pos underWay

/-- A stage whose attempt programs copy `c` of pair `p`. -/
theorem stage_programs {e : CommitEntry} {a : Attempt} {p : PairId} {c : CopyName}
    (programs : (e.stage = .programming a ∧ p = a.target ∧ c = a.copy)
      ∨ (∃ q, e.stage = .relocating a q c ∧ p = .account q)) :
    e.stage.attempt = some a ∧ e.stage.site = some (p, c) := by
  rcases programs with ⟨stage, rfl, rfl⟩ | ⟨q, stage, rfl⟩
  · rw [stage]
    exact ⟨rfl, rfl⟩
  · rw [stage]
    exact ⟨rfl, rfl⟩

theorem cutLeaves_abandonAttempt (cut : CutResult) (s : State) : CutLeaves cut s (abandonAttempt cut s) := by
  refine ⟨fun idle => ?_, fun e rest a p c queue underWay programs => ?_⟩
  · rw [abandonAttempt_idle idle]
    exact ⟨rfl, rfl⟩
  · obtain ⟨attempt, site⟩ := stage_programs programs
    rw [abandonAttempt_underWay queue underWay attempt site]
    refine ⟨fun q other => cells_setCopy_other s p q c _ other.symm, _, cells_setCopy_same s p c _, ?_, ?_, ?_, ?_⟩
    · rintro rfl
      rfl
    · rintro rfl
      rfl
    · rintro x rfl torn
      exact if_pos torn
    · rintro rfl
      rfl

/-- What a cut leaves is read of the cells alone. -/
theorem CutLeaves.congr {cut : CutResult} {s t u : State} (h : CutLeaves cut s t)
    (account : u.accountCells = t.accountCells) (tariff : u.tariffCells = t.tariffCells) : CutLeaves cut s u := by
  have cells : ∀ q, u.cells q = t.cells q := fun q => by
    cases q
    · simp only [State.cells, account]
    · simp only [State.cells, tariff]
  obtain ⟨idle, programs⟩ := h
  refine ⟨fun still => ?_, fun e rest a p c queue underWay on => ?_⟩
  · obtain ⟨sameAccount, sameTariff⟩ := idle still
    exact ⟨account.trans sameAccount, tariff.trans sameTariff⟩
  · obtain ⟨others, v, here, left⟩ := programs e rest a p c queue underWay on
    exact ⟨fun q other => (cells q).trans (others q other), v, (cells p).trans here, left⟩

/-! ## Resets (R113, R126, R135) -/

theorem recordedKind_powerOn (inReset : Bool) (before : ResetKind) : recordedKind inReset before .powerOn = .powerOn := by
  cases inReset <;> cases before <;> rfl

theorem recordedKind_resetLine (inReset : Bool) (before : ResetKind) : recordedKind inReset before .resetLine
    = if inReset = true ∧ before = .powerOn then .powerOn else .resetLine := by
  cases inReset <;> cases before <;> rfl

/-- A RESTART reset outside a reset. -/
theorem restartReset_spec {s : State} (running : s.inReset = false) :
    beginReset .restart s = { resetFields (beginReset .restart s) with inReset := true }
    ∧ (beginReset .restart s).report = Report.afterReset .restart ∧ sameCells s (beginReset .restart s) := by
  refine ⟨rfl, ?_, rfl, rfl⟩
  show Report.afterReset (recordedKind s.inReset _ _) = _
  rw [running]
  rfl

theorem checkDrain_drained {s : State} (restarting : s.phase = .restarting) (queue : s.commitQueue = [])
    (terminal : s.terminal.responses = []) (service : s.service.responses = []) :
    checkDrain s = beginReset .restart s := by
  unfold checkDrain
  rw [if_pos ⟨restarting, queue⟩, if_pos ⟨terminal, service⟩]

/-- An event in RESTARTING that leaves nothing to program and nothing to collect ends in the RESTART reset. -/
theorem drained_exec {c : Instr} {s u : State} (run : exec c s = .next (checkDrain u)) (running : u.inReset = false)
    (restarting : u.phase = .restarting) (queue : u.commitQueue = []) (terminal : u.terminal.responses = [])
    (service : u.service.responses = []) :
    ∃ t, exec c s = .next t ∧ t = { resetFields t with inReset := true } ∧ t.report = Report.afterReset .restart
      ∧ sameCells u t ∧ t.terminal.wire = u.terminal.wire ∧ t.service.wire = u.service.wire := by
  rw [checkDrain_drained restarting queue terminal service] at run
  obtain ⟨fields, kind, cells⟩ := restartReset_spec running
  exact ⟨_, run, fields, kind, cells, rfl, rfl⟩

/-- Settles O43: every reset through `beginReset`, the cells through the attempt the reset abandons. -/
theorem resetsClearTheVolatileState : Obligations.ResetsClearTheVolatileState := by
  intro s cut
  obtain ⟨account, tariff, abandoned⟩ := abandonAttempt_shape cut s
  have leaves := cutLeaves_abandonAttempt cut s
  refine ⟨⟨_, rfl, rfl, ?collapse, rfl, leaves.congr rfl rfl⟩, ⟨_, rfl, rfl, ?line, ?pin, leaves.congr rfl rfl⟩,
    fun waiting running => ⟨_, congrArg Host.Outcome.next (if_pos waiting), restartReset_spec running⟩,
    fun noWait => congrArg Host.Outcome.next (if_neg (by rw [noWait]; decide)), fun running restarting queue r n whole =>
    ⟨fun terminal service => ?_, fun terminal service => ?_⟩⟩
  case collapse => exact congrArg Report.afterReset (recordedKind_powerOn _ _)
  case line =>
    rw [← recordedKind_resetLine, abandoned]
    rfl
  case pin =>
    rw [abandoned]
    rfl
  · have run := exec_collect_drain n running
    rw [afterCollect_whole (p := .terminal) 0 terminal whole] at run
    exact drained_exec run running restarting queue rfl service
  · have run := exec_i2cRead_drain n running
    rw [afterCollect_whole (p := .service) 1 service whole] at run
    obtain ⟨t, run, fields, kind, cells, terminalWire, serviceWire⟩ :=
      drained_exec run running restarting queue terminal rfl
    exact ⟨t, run, fields, kind, cells, serviceWire, terminalWire⟩

end Sys2Proof.Machine

/-! PROOFS. Cell copies: their classes, the newest valid copy of a pair, and the verify of an attempt. -/

namespace Sys2Proof.Machine

/-! ## The class of a copy (R99) -/

theorem knownCopyKind_iff (b : Byte) : knownCopyKind b = true ↔ b = 1 ∨ b = 2 ∨ b = 3 := by
  simp [knownCopyKind, or_assoc]

theorem checkPasses_iff (c : Copy) : checkPasses c = true ↔ crc16 (coveredBytes c) = c.check := beq_iff_eq

theorem classify_eq_blank_iff (c : Copy) : classify c = .blank ↔ c = blankCopy := by
  unfold classify
  split_ifs with blank <;> simp [blank]

theorem classify_eq_valid_iff (c : Copy) : classify c = .valid ↔ c ≠ blankCopy ∧ crc16 (coveredBytes c) = c.check
    ∧ (c.kind = 1 ∨ c.kind = 2 ∨ c.kind = 3) ∧ c.sequence ≠ 0 := by
  rw [← knownCopyKind_iff, ← checkPasses_iff]
  unfold classify
  split_ifs with blank checked
  · simp [blank]
  · simp only [Bool.and_eq_true, decide_eq_true_eq] at checked
    exact iff_of_true rfl ⟨blank, checked.2, checked.1⟩
  · simp only [Bool.and_eq_true, decide_eq_true_eq] at checked
    simp only [false_iff, not_and]
    exact fun _ passes known sequence => checked ⟨⟨known, sequence⟩, passes⟩

/-! ## The newest valid copy of a pair (R100) -/

theorem isValid_iff (c : Copy) : isValid c = true ↔ classify c = .valid := by simp [isValid]

/-- The newest valid copy by which copies are valid and by their sequences. -/
theorem newestValid_spec (c : CellPair) :
    (newestValid c = none ↔ classify c.a ≠ .valid ∧ classify c.b ≠ .valid)
    ∧ (newestValid c = some .a ↔ classify c.a = .valid
        ∧ (classify c.b = .valid → c.b.sequence.toNat ≤ c.a.sequence.toNat))
    ∧ (newestValid c = some .b ↔ classify c.b = .valid
        ∧ (classify c.a = .valid → c.a.sequence.toNat < c.b.sequence.toNat)) := by
  simp only [ne_eq, ← isValid_iff, newestValid, newestOf]
  cases a : isValid c.a <;> cases b : isValid c.b
  case true.true =>
    by_cases order : c.b.sequence.toNat ≤ c.a.sequence.toNat
    · simp [order, Nat.not_lt.mpr order]
    · simp [order, Nat.lt_of_not_le order]
  all_goals simp

/-! ## The verify (R84) -/

/-- The fields of a TARIFF body read back. -/
theorem tariff_body (r : Rates) : bodyRates (Image.tariff r).body = r := by
  have high : ∀ {a b : Nat} (k n : Nat) (x : BitVec a) (y : BitVec b), b ≤ k →
      (x ++ y).extractLsb' k n = x.extractLsb' (k - b) n := fun _ _ _ _ h => BitVec.extractLsb'_append_eq_of_le h
  have low : ∀ {a b : Nat} (x : BitVec a) (y : BitVec b), (x ++ y).extractLsb' 0 b = y :=
    fun _ _ => BitVec.extractLsb'_append_eq_right
  simp only [bodyRates, Image.body]
  congr 1
  · rw [high 128 16 _ _ (by decide), high _ 16 _ _ (by decide), high _ 16 _ _ (by decide), high _ 16 _ _ (by decide)]
    simp
  · rw [high 112 16 _ _ (by decide), high _ 16 _ _ (by decide), high _ 16 _ _ (by decide)]
    exact low _ _
  · rw [high 96 16 _ _ (by decide), high _ 16 _ _ (by decide)]
    exact low _ _
  · rw [high 80 16 _ _ (by decide)]
    exact low _ _

/-- The key of an EMPTY body read back. -/
theorem empty_body (key : Option Word) : bodyKey (Image.empty key).body = key.getD 0 := by
  simp only [bodyKey, Image.body]
  rw [BitVec.extractLsb'_append_eq_of_le (by decide)]
  simp

theorem matchesBody_self (image : Image) : image.matchesBody image.body = true := by
  cases image with
  | account key cls frozenMark balance ceiling threshold =>
    obtain ⟨hkey, hcls, hfrozen, hbalance, hceiling, hthreshold⟩ := account_body key cls frozenMark balance ceiling threshold
    simp [Image.matchesBody, hkey, hcls, hfrozen, hbalance, hceiling, hthreshold]
  | tariff r => simp [Image.matchesBody, tariff_body]
  | empty key => simp [Image.matchesBody, empty_body]

theorem verifyPasses_iff (image : Image) (sequence wear : Word) (c : Copy) : verifyPasses image sequence wear c = true ↔
    checkPasses c = true ∧ c.kind = image.kindByte ∧ c.sequence = sequence ∧ c.wear = wear
      ∧ image.matchesBody c.body = true := by
  simp only [verifyPasses, Bool.and_eq_true, beq_iff_eq, and_assoc]

/-- The verify passes on what was programmed. -/
theorem verifyPasses_programmed (image : Image) (sequence wear : Word) :
    verifyPasses image sequence wear (programmedCopy image sequence wear) = true := by
  exact (verifyPasses_iff _ _ _ _).mpr ⟨beq_self_eq_true _, rfl, rfl, rfl, matchesBody_self image⟩

/-- A class number read back from its byte. -/
theorem classByte_toNat {b : Byte} {cls : ClassNo} (same : b = BitVec.ofNat 8 cls.val) : b.toNat = cls.val := by
  rw [same, BitVec.toNat_ofNat]
  have := cls.isLt
  omega

theorem matchesBody_account {key : Word} {cls : ClassNo} {frozenMark : Bool} {balance ceiling threshold : Word}
    {b : BitVec 144} (same : (Image.account key cls frozenMark balance ceiling threshold).matchesBody b = true) :
    bodyKey b = key ∧ (bodyClass b).toNat = cls.val ∧ bodyFrozen b = frozenMark ∧ bodyBalance b = balance
      ∧ bodyCeiling b = ceiling ∧ bodyThreshold b = threshold := by
  simp only [Image.matchesBody, Bool.and_eq_true, beq_iff_eq, and_assoc] at same
  obtain ⟨hkey, hcls, rest⟩ := same
  exact ⟨hkey, classByte_toNat hcls, rest⟩

/-- Settles O32: by the cases of `classify` and `newestOf`, and the fields of a body read back. -/
theorem copiesAreClassedAndVerified : Obligations.CopiesAreClassedAndVerified := by
  refine ⟨fun c => ⟨classify_eq_blank_iff c, classify_eq_valid_iff c⟩, newestValid_spec,
    fun r => ⟨fun h => ?_, fun h => ?_, fun h => ?_⟩, verifyPasses_programmed, fun image sequence wear c passes => ?_⟩
  iterate 3 rw [inactiveCopy, h]
  obtain ⟨check, kind, seq, wear', body⟩ := (verifyPasses_iff image sequence wear c).mp passes
  refine ⟨kind, seq, wear', (checkPasses_iff c).mp check, ?_⟩
  cases image with
  | account key cls frozenMark balance ceiling threshold => exact matchesBody_account body
  | tariff r => exact beq_iff_eq.mp body
  | empty key => exact beq_iff_eq.mp body

end Sys2Proof.Machine

/-! PROOFS. The Commit Engine, I: the first program, the verify that fails, and the change to GOOD, all through what
entering a stage of the head leaves. -/

namespace Sys2Proof.Machine

/-! ## A stage entered by the head (R81, R85, R92, R101) -/

/-- The head `e` stands in stage `next` and the wear of pair `p` alone may have risen, as it does with the supply
GOOD. -/
structure StageEntered (e : CommitEntry) (next : Stage) (p : PairId) (s t : State) : Prop where
  queue : t.commitQueue = { e with stage := next } :: s.commitQueue.tail
  track : ∃ w, t.track p = { s.track p with wear := w } ∧ (s.supply = .low → w = (s.track p).wear)
    ∧ (s.supply = .good → (s.track p).wear.toNat < 4294967295 → w = (s.track p).wear + 1)
  others : ∀ q, q ≠ p → t.track q = s.track q
  roles : ∀ q, (t.pair q).role = (s.pair q).role
  shape : t = { s with
    commitQueue := t.commitQueue, accountPairs := t.accountPairs, tariffPairs := t.tariffPairs, freeUses := t.freeUses }

/-- The next attempt of the head begins. -/
theorem beginAttempt_entered {e : CommitEntry} {s : State} {a : Attempt} {p : PairId} {c : CopyName}
    (good : s.supply = .good) (attempt : e.stage.attempt = some a) (site : e.stage.site = some (p, c)) :
    StageEntered e (e.stage.setAttempt { a with underWay := true }) p s (beginAttempt e s) := by
  obtain ⟨w, n, begun, wear⟩ := beginAttempt_eq e s a p c attempt site
  obtain ⟨account, tariff, tracked⟩ := setTrack_shape s p { s.track p with wear := w }
  rw [begun]
  refine ⟨?_, ⟨w, ?_, fun low => ?_, fun _ => wear⟩, fun q other => ?_, fun q => ?_, ?_⟩
  · rw [tracked]
    rfl
  · exact track_setTrack_same s p { s.track p with wear := w }
  · rw [good] at low
    exact absurd low (by decide)
  · exact track_setTrack_other s p q { s.track p with wear := w } other.symm
  · exact role_setTrack s p q { s.track p with wear := w }
  · rw [tracked]
    rfl

/-- A head that waits for GOOD in its stage. -/
theorem setHead_entered {e : CommitEntry} {next : Stage} {p : PairId} {s : State} (low : s.supply = .low) :
    StageEntered e next p s (s.setHead { e with stage := next }) := by
  refine ⟨rfl, ⟨(s.track p).wear, by cases p <;> rfl, fun _ => rfl, fun good => ?_⟩, fun q _ => by cases q <;> rfl,
    fun _ => rfl, rfl⟩
  rw [low] at good
  exact absurd good (by decide)

theorem setAttempt_self {st : Stage} {a : Attempt} (attempt : st.attempt = some a) : st.setAttempt a = st := by
  cases st <;> cases attempt <;> rfl

/-- The head enters a stage whose next attempt starts at once with the supply GOOD. -/
theorem enterStage_entered {e : CommitEntry} {st : Stage} {s : State} {a : Attempt} {p : PairId} {c : CopyName}
    (attempt : st.attempt = some a) (site : st.site = some (p, c)) (still : a.underWay = false) :
    StageEntered e (st.setAttempt { a with underWay := decide (s.supply = .good) }) p s (enterStage e st s) := by
  unfold enterStage
  cases supply : s.supply with
  | good =>
    obtain ⟨queue, track, others, roles, shape⟩ := beginAttempt_entered (e := { e with stage := st }) supply attempt site
    exact ⟨queue, track, others, roles, shape⟩
  | low =>
    have same : ({ a with underWay := decide (Supply.low = .good) } : Attempt) = a := by
      rw [show decide (Supply.low = Supply.good) = a.underWay from still.symm]
    rw [if_neg (by decide), same, setAttempt_self attempt]
    exact setHead_entered supply

/-- The head keeps the drain of RESTARTING away. -/
theorem StageEntered.undrained {e : CommitEntry} {next : Stage} {p : PairId} {s t : State}
    (entered : StageEntered e next p s t) : checkDrain t = t :=
  checkDrain_of_ne t (by rw [entered.queue]; exact List.cons_ne_nil _ _)

/-- The record of an account pair on which a stage is entered. -/
theorem StageEntered.pair {e : CommitEntry} {next : Stage} {q : PairNo} {s t : State}
    (entered : StageEntered e next (.account q) s t) :
    ∃ w, t.pair q = { s.pair q with track := { (s.pair q).track with wear := w } }
      ∧ (s.supply = .low → w = (s.pair q).track.wear)
      ∧ (s.supply = .good → (s.pair q).track.wear.toNat < 4294967295 → w = (s.pair q).track.wear + 1) := by
  obtain ⟨w, track, low, good⟩ := entered.track
  refine ⟨w, ?_, low, good⟩
  have role := entered.roles q
  have same : (t.pair q).track = { (s.pair q).track with wear := w } := track
  calc t.pair q = ⟨(t.pair q).role, (t.pair q).track⟩ := rfl
    _ = _ := by rw [role, same]

/-- The record of every other account pair. -/
theorem StageEntered.otherPair {e : CommitEntry} {next : Stage} {q r : PairNo} {s t : State}
    (entered : StageEntered e next (.account q) s t) (other : r ≠ q) : t.pair r = s.pair r := by
  have role := entered.roles r
  have track : (t.pair r).track = (s.pair r).track := entered.others (.account r) fun h => other (PairId.account.inj h)
  calc t.pair r = ⟨(t.pair r).role, (t.pair r).track⟩ := rfl
    _ = s.pair r := by rw [role, track]

/-- Entering a stage of an account pair leaves the tariff pairs. -/
theorem StageEntered.tariffPairs {e : CommitEntry} {next : Stage} {q : PairNo} {s t : State}
    (entered : StageEntered e next (.account q) s t) : t.tariffPairs = s.tariffPairs := by
  apply Vector.ext
  intro n hn
  exact entered.others (.tariff ⟨n, hn⟩) (by simp)

/-! ## The first program (R81, R82, R84) -/

theorem exec_firstProgram {s : State} {e : CommitEntry} {rest : List CommitEntry} {p : PairId}
    (running : s.inReset = false) (good : s.supply = .good) (queue : s.commitQueue = e :: rest)
    (waiting : e.stage = .waiting) (target : targetOf s e.subject = some p) :
    exec .firstProgram s = .next (checkDrain (programHead e p s)) := by
  show Host.Outcome.next (checkDrain (firstProgram s)) = _
  unfold firstProgram
  rw [queue]
  dsimp only
  rw [if_pos ⟨running, good, waiting⟩, target]

theorem not_maxWord_lt {n : Nat} {sequence : Word} (fits : sequence.toNat = n) : ¬ maxWord < n := by
  have bound : maxWord = 4294967295 := rfl
  have := sequence.isLt
  omega

/-- The first program on a target that is no wear relocation. -/
theorem programHead_direct {s : State} {e : CommitEntry} {p : PairId} {sequence : Word}
    (fits : sequence.toNat = settledSequence s e.subject p) (stays : wearRelocates s e.subject p = false) :
    programHead e p s = enterStage e (.programming ⟨p, inactiveCopy (s.track p), sequence, .first, false⟩) s := by
  unfold programHead
  dsimp only
  rw [if_neg (not_maxWord_lt fits), stays, asWord_eq sequence _ fits]

/-- The target pair of a subject (R82). -/
theorem targetOf_eq {s : State} {sub : EntrySubject} {p : PairId}
    (account : ∀ i, sub = .accountImage i ∨ sub = .accountEmpty i → (s.slot i).currentPair.map .account = some p)
    (tariff : ∀ n, sub = .tariffImage n → p = .tariff n) (tidy : ∀ q, sub = .tidyEmpty q → p = .account q) :
    targetOf s sub = some p := by
  cases sub with
  | accountImage i => exact account i (.inl rfl)
  | accountEmpty i => exact account i (.inr rfl)
  | tariffImage n => exact congrArg some (tariff n rfl).symm
  | tidyEmpty q => exact congrArg some (tidy q rfl).symm

/-- Settles O31: the first program enters its stage with the supply GOOD. -/
theorem firstProgramSettlesTheTarget : Obligations.FirstProgramSettlesTheTarget := by
  intro s e rest p sequence running good queue waiting account tariff tidy stays fits
  have run := exec_firstProgram running good queue waiting (targetOf_eq account tariff tidy)
  rw [programHead_direct fits stays] at run
  have entered := enterStage_entered (e := e) (s := s)
    (st := .programming ⟨p, inactiveCopy (s.track p), sequence, .first, false⟩) rfl rfl rfl
  rw [entered.undrained] at run
  obtain ⟨w, track, _, wear⟩ := entered.track
  refine ⟨_, w, run, ?_, track, wear good, entered.others, entered.roles, entered.shape⟩
  rw [entered.queue, queue, good]
  rfl

/-! ## A relocation begins (R83, R86, R106) -/

/-- What a relocation of the head `e` for slot `i` leaves: the head of the free list is claimed and its stage
entered. -/
structure Relocated (e : CommitEntry) (i : SlotNo) (a : Attempt) (q : PairNo) (spare : List PairNo) (s t : State) :
    Prop where
  queue : t.commitQueue = { e with
    stage := .relocating { a with underWay := decide (s.supply = .good) } q (inactiveCopy (s.pair q).track) }
      :: s.commitQueue.tail
  freeList : t.freeList = spare
  pair : ∃ w, t.pair q = ⟨some (.incoming i), { (s.pair q).track with wear := w }⟩
    ∧ (s.supply = .low → w = (s.pair q).track.wear)
    ∧ (s.supply = .good → (s.pair q).track.wear.toNat < 4294967295 → w = (s.pair q).track.wear + 1)
  others : ∀ r, r ≠ q → t.pair r = s.pair r
  spares : spare ≠ [] → t.alerts = s.alerts ∧ t.lost = s.lost
  exhausted : spare = [] →
    AlertsLike (raiseAlert .sparesExhausted .none s) t ∧ Recorded (.sparesExhausted, .none) t
  shape : t = { s with
    commitQueue := t.commitQueue, freeList := spare, accountPairs := t.accountPairs, alerts := t.alerts, lost := t.lost,
    freeUses := t.freeUses }

theorem relocate_eq {s : State} {e : CommitEntry} {i : SlotNo} {target : PairId} {copy : CopyName} {q : PairNo}
    {spare : List PairNo} {sequence : Word} (free : s.freeList = q :: spare)
    (fits : sequence.toNat = settledSequence s e.subject (.account q)) :
    relocate e i target copy s = raiseSpares (enterStage e
      (.relocating ⟨target, copy, sequence, .first, false⟩ q (inactiveCopy (s.pair q).track))
      (claim q (.incoming i) s)) := by
  unfold relocate
  rw [free]
  dsimp only
  rw [if_neg (not_maxWord_lt fits), asWord_eq sequence _ fits]

theorem relocate_relocated {s : State} {e : CommitEntry} {i : SlotNo} {target : PairId} {copy : CopyName} {q : PairNo}
    {spare : List PairNo} {sequence : Word} (free : s.freeList = q :: spare)
    (fits : sequence.toNat = settledSequence s e.subject (.account q)) :
    Relocated e i ⟨target, copy, sequence, .first, false⟩ q spare s (relocate e i target copy s) := by
  rw [relocate_eq free fits]
  have claimed : claim q (.incoming i) s = { s.setRole q (.incoming i) with freeList := spare } := by
    rw [claim, free, List.tail_cons]
  have entered := enterStage_entered (e := e) (s := claim q (.incoming i) s)
    (st := .relocating ⟨target, copy, sequence, .first, false⟩ q (inactiveCopy (s.pair q).track)) rfl rfl rfl
  have tariffs := entered.tariffPairs
  obtain ⟨w, pair, low, good⟩ := entered.pair
  have others := fun r (other : r ≠ q) => entered.otherPair other
  have shape := entered.shape
  have queue := entered.queue
  generalize enterStage e _ (claim q (.incoming i) s) = u at *
  rw [claimed] at *
  have freeList : u.freeList = spare := by rw [shape]
  have own : ({ s.setRole q (.incoming i) with freeList := spare } : State).pair q
      = { s.pair q with role := some (.incoming i) } := pair_setRole_same s q _
  rw [own] at pair low good
  obtain ⟨a, l, raised⟩ := raiseSpares_shape u
  have records : ∀ r, (raiseSpares u).pair r = u.pair r := fun r => by rw [raised]; rfl
  refine ⟨?_, ?_, ⟨w, ?_, low, good⟩, fun r other => ?_, fun spares => ?_, fun none_left => ⟨?_, ?_⟩, ?_⟩
  · rw [raised]
    exact queue
  · rw [raised]
    exact freeList
  · rw [records, pair]
  · rw [records, others r other]
    exact pair_setRole_other s q r _ other.symm
  · rw [raiseSpares_of_ne (freeList ▸ spares), shape]
    exact ⟨rfl, rfl⟩
  · rw [raiseSpares_of_nil (freeList.trans none_left), shape]
    exact raiseAlert_like _ _ rfl ⟨rfl, rfl⟩
  · exact raiseSpares_recorded _ (freeList.trans none_left)
  · rw [raised, shape, tariffs]
    rfl

theorem Relocated.undrained {e : CommitEntry} {i : SlotNo} {a : Attempt} {q : PairNo} {spare : List PairNo}
    {s t : State} (relocated : Relocated e i a q spare s t) : checkDrain t = t :=
  checkDrain_of_ne t (by rw [relocated.queue]; exact List.cons_ne_nil _ _)

/-! ## The completion of an attempt (R84 to R87) -/

theorem exec_attemptComplete {s : State} {e : CommitEntry} {rest : List CommitEntry} {a : Attempt} {p : PairId}
    {c : CopyName} (readBack : Copy) (running : s.inReset = false) (queue : s.commitQueue = e :: rest)
    (underWay : a.underWay = true) (attempt : e.stage.attempt = some a) (site : e.stage.site = some (p, c)) :
    exec (.attemptComplete readBack) s = .next (checkDrain (completeAttempt e a p c readBack s)) := by
  show Host.Outcome.next (checkDrain (attemptComplete readBack s)) = _
  unfold attemptComplete
  rw [queue]
  simp only [attempt, site]
  rw [if_pos ⟨running, underWay⟩]

theorem completeAttempt_passed {s : State} {e : CommitEntry} {a : Attempt} {p : PairId} {c : CopyName} {readBack : Copy}
    (passes : verifyPasses e.image a.sequence (s.track p).wear readBack = true) :
    completeAttempt e a p c readBack s
      = doneOutcome e a.sequence (recordVerified p c a.sequence (s.setCopy p c readBack)) := if_pos passes

theorem completeAttempt_failed {s : State} {e : CommitEntry} {a : Attempt} {p : PairId} {c : CopyName} {readBack : Copy}
    (fails : verifyPasses e.image a.sequence (s.track p).wear readBack = false) :
    completeAttempt e a p c readBack s = attemptFailed e a (s.setCopy p c readBack) :=
  if_neg (by rw [fails]; decide)

theorem attemptFailed_first {s : State} {e : CommitEntry} {a : Attempt} (first : a.number = .first) :
    attemptFailed e a s = enterStage e (e.stage.setAttempt { a with number := .second, underWay := false }) s := by
  unfold attemptFailed
  rw [first]

theorem attemptFailed_second {s : State} {e : CommitEntry} {a : Attempt} {i : SlotNo} {q : PairNo} {spare : List PairNo}
    (second : a.number = .second) (stage : e.stage = .programming a)
    (subject : e.subject = .accountImage i ∨ e.subject = .accountEmpty i) (free : s.freeList = q :: spare) :
    attemptFailed e a s = relocate e i a.target a.copy s := by
  have slot : e.subject.slot? = some i := by rcases subject with h | h <;> rw [h] <;> rfl
  unfold attemptFailed
  rw [second, stage]
  dsimp only
  unfold targetRefused
  rw [slot]
  exact if_neg (by rw [free]; exact List.cons_ne_nil _ _)

/-! ## The tables that a written copy leaves -/

@[simp] theorem track_setCopy (s : State) (p q : PairId) (c : CopyName) (v : Copy) :
    (s.setCopy p c v).track q = s.track q := by cases p <;> cases q <;> rfl

@[simp] theorem pair_setCopy (s : State) (p : PairId) (q : PairNo) (c : CopyName) (v : Copy) :
    (s.setCopy p c v).pair q = s.pair q := by cases p <;> rfl

@[simp] theorem durableSequence_setCopy (s : State) (p : PairId) (c : CopyName) (v : Copy) (sub : EntrySubject) :
    durableSequence (s.setCopy p c v) sub = durableSequence s sub := by cases p <;> cases sub <;> rfl

/-- The cells after a written copy, read through a later state with the same cells. -/
theorem ReadBackIn.of {s t : State} {p : PairId} {c : CopyName} {v : Copy}
    (account : t.accountCells = (s.setCopy p c v).accountCells) (tariff : t.tariffCells = (s.setCopy p c v).tariffCells) :
    ReadBackIn p c v s t :=
  CellsAfter.congr (cellsAfter_setCopy s p c v) account tariff

/-! ## Settlements -/

/-- A failed attempt 1 (R85). -/
theorem firstFailure_spec {s : State} {e : CommitEntry} {rest : List CommitEntry} {a b : Attempt} {readBack : Copy}
    {p : PairId} {c : CopyName} {next : Stage} (running : s.inReset = false) (queue : s.commitQueue = e :: rest)
    (underWay : a.underWay = true) (first : a.number = .first)
    (again : b = { a with number := .second, underWay := decide (s.supply = .good) })
    (programs : (e.stage = .programming a ∧ p = a.target ∧ c = a.copy ∧ next = .programming b)
      ∨ (∃ q, e.stage = .relocating a q c ∧ p = .account q ∧ next = .relocating b q c))
    (fails : verifyPasses e.image a.sequence (s.track p).wear readBack = false) :
    ∃ t, exec (.attemptComplete readBack) s = .next t
      ∧ StageEntered e next p (s.setCopy p c readBack) t := by
  have facts : e.stage.attempt = some a ∧ e.stage.site = some (p, c) ∧ next = e.stage.setAttempt b
      ∧ (e.stage.setAttempt { a with number := .second, underWay := false }).attempt
          = some { a with number := .second, underWay := false }
      ∧ (e.stage.setAttempt { a with number := .second, underWay := false }).site = some (p, c) := by
    rcases programs with ⟨stage, rfl, rfl, rfl⟩ | ⟨q, stage, rfl, rfl⟩ <;> rw [stage] <;> exact ⟨rfl, rfl, rfl, rfl, rfl⟩
  obtain ⟨attempt, site, nextStage, attempt', site'⟩ := facts
  have run := exec_attemptComplete readBack running queue underWay attempt site
  rw [completeAttempt_failed fails, attemptFailed_first first] at run
  have entered := enterStage_entered (e := e) (s := s.setCopy p c readBack) attempt' site' rfl
  rw [entered.undrained] at run
  have stages : (e.stage.setAttempt { a with number := .second, underWay := false }).setAttempt
      { a with number := .second, underWay := decide ((s.setCopy p c readBack).supply = .good) } = next := by
    rw [setCopy_supply, ← again, nextStage]
    cases e.stage <;> rfl
  exact ⟨_, run, stages ▸ entered⟩

/-- Settles O37: attempt 1 enters its stage again, attempt 2 on the target begins a relocation. -/
theorem failedVerifyTriesAgain : Obligations.FailedVerifyTriesAgain := by
  intro s e rest a readBack running queue underWay
  refine ⟨fun first p c b next again programs fails => ?_,
    fun second i q spare sequence stage fails subject free fits => ?_⟩
  · obtain ⟨t, run, entered⟩ := firstFailure_spec running queue underWay first again programs fails
    obtain ⟨w, track, low, good⟩ := entered.track
    have others := entered.others
    have shape := entered.shape
    simp only [track_setCopy, setCopy_supply] at track low good others
    refine ⟨t, run, ?_, .of ?_ ?_, fun q => ?_, others, fun q => ?_, fun lowSupply q => ?_, fun goodSupply room => ?_, ?_⟩
    · rw [entered.queue, setCopy_commitQueue, queue]
      rfl
    · rw [shape]
    · rw [shape]
    · by_cases same : q = p
      · rw [same, track]
        exact ⟨rfl, rfl⟩
      · rw [others q same]
        exact ⟨rfl, rfl⟩
    · rw [entered.roles, pair_setCopy]
    · by_cases same : q = p
      · rw [same, track, low lowSupply]
      · exact others q same
    · rw [track]
      exact good goodSupply room
    · obtain ⟨x, y, copied⟩ := setCopy_shape s p c readBack
      rw [copied] at shape
      rw [shape]
  · have run := exec_attemptComplete readBack running queue underWay (p := a.target) (c := a.copy)
      (by rw [stage]; rfl) (by rw [stage]; rfl)
    generalize copied : s.setCopy a.target a.copy readBack = u
    have freeList : u.freeList = q :: spare := by rw [← copied, setCopy_freeList, free]
    have settled : sequence.toNat = settledSequence u e.subject (.account q) := by
      rw [settledSequence, ← copied, track_setCopy, durableSequence_setCopy]
      exact fits
    have pairs : ∀ r, u.pair r = s.pair r := fun r => by rw [← copied, pair_setCopy]
    rw [completeAttempt_failed fails, copied, attemptFailed_second second stage subject freeList] at run
    have relocated := relocate_relocated (i := i) (target := a.target) (copy := a.copy) freeList settled
    rw [relocated.undrained] at run
    generalize relocate e i a.target a.copy u = t at *
    obtain ⟨x, y, cells⟩ := setCopy_shape s a.target a.copy readBack
    rw [copied] at cells
    have supply : u.supply = s.supply := by rw [cells]
    obtain ⟨w, pair, low, good⟩ := relocated.pair
    have others := relocated.others
    have shape := relocated.shape
    have exhausted := relocated.exhausted
    simp only [pairs, supply] at pair low good others
    refine ⟨_, w, run, ?_, relocated.freeList, pair, low, good, others, .of ?_ ?_, fun none_left => ?_,
      fun spares => ?_, ?_⟩
    · rw [relocated.queue, supply, pairs, cells, queue]
      rfl
    · rw [copied, shape]
    · rw [copied, shape]
    · obtain ⟨like, recorded⟩ := exhausted none_left
      have same : AlertsLike (raiseAlert .sparesExhausted .none s) (raiseAlert .sparesExhausted .none u) :=
        raiseAlert_like _ _ (by rw [cells]) (by rw [cells]; exact ⟨rfl, rfl⟩)
      exact ⟨⟨like.1.trans same.1, like.2.trans same.2⟩, recorded⟩
    · rw [(relocated.spares spares).1, (relocated.spares spares).2, cells]
      exact ⟨rfl, rfl⟩
    · rw [cells] at shape
      rw [shape]

end Sys2Proof.Machine

/-! PROOFS. The two changes of the supply state: what resumes at GOOD, and what is dropped at LOW. -/

namespace Sys2Proof.Machine

/-! ## The change to GOOD (R93, R133) -/

theorem exec_changeToGood {s : State} (running : s.inReset = false) (low : s.supply = .low)
    (steady : s.steadyTimer = .running) : exec .changeToGood s = .next (resumeHead (supplyGood s)) :=
  congrArg Host.Outcome.next (if_pos ⟨running, low, steady⟩)

theorem resumeHead_empty {s : State} (queue : s.commitQueue = []) : resumeHead s = s := by
  unfold resumeHead
  rw [queue]

theorem resumeHead_underWay {s : State} {e : CommitEntry} {rest : List CommitEntry} (queue : s.commitQueue = e :: rest)
    (underWay : e.stage.underWay = true) : resumeHead s = s := by
  unfold resumeHead
  rw [queue]
  cases stage : e.stage with
  | waiting => exact absurd (stage ▸ underWay) (by decide)
  | programming a | relocating a q c =>
    have running : a.underWay = true := by rwa [stage] at underWay
    simp [stage, Stage.attempt, running]

/-- The attempt and the site of a stage that stands between attempts. -/
theorem stopped_site {e : CommitEntry} {a : Attempt} {p : PairId}
    (stopped : e.stage = .programming a ∧ p = a.target ∨ ∃ q c, e.stage = .relocating a q c ∧ p = .account q) :
    e.stage.attempt = some a ∧ ∃ c, e.stage.site = some (p, c) := by
  rcases stopped with ⟨stage, rfl⟩ | ⟨q, c, stage, rfl⟩
  · exact ⟨by rw [stage]; rfl, a.copy, by rw [stage]; rfl⟩
  · exact ⟨by rw [stage]; rfl, c, by rw [stage]; rfl⟩

/-- Settles O41: the change of state is `supplyGood`, and what follows it `resumeHead` by the head's stage. -/
theorem changeToGoodResumes : Obligations.ChangeToGoodResumes := by
  intro s running low steady
  have run := exec_changeToGood running low steady
  obtain ⟨al, lo, shape⟩ := supplyGood_shape s
  have alerts := supplyGood_alerts s
  have recorded := supplyGood_recorded s
  have silent := supplyGood_silent s
  generalize supplyGood s = u at *
  rw [phaseAtGood_eq] at shape
  have queue : u.commitQueue = s.commitQueue := by rw [shape]
  have tracks : ∀ q, u.track q = s.track q := fun q => by rw [shape]; cases q <;> rfl
  have pairs : ∀ q, u.pair q = s.pair q := fun q => by rw [shape]; rfl
  refine ⟨u, ?_, fun serves => ⟨alerts serves, recorded serves⟩, silent, fun e rest head waiting => ?_, fun empty => ?_,
    fun e rest head underWay => ?_, fun e rest a p head still stopped => ?_⟩
  · rw [shape]
  · rw [run, resumeHead_waiting u e rest (queue.trans head) waiting]
    rfl
  · rw [run, resumeHead_empty (queue.trans empty)]
  · rw [run, resumeHead_underWay (queue.trans head) underWay]
  · obtain ⟨attempt, c, site⟩ := stopped_site stopped
    have good : u.supply = .good := by rw [shape]
    rw [resumeHead_stopped u e rest a (queue.trans head) attempt still] at run
    have entered := beginAttempt_entered good attempt site
    obtain ⟨w, track, _, wear⟩ := entered.track
    have others := entered.others
    simp only [tracks] at track wear others
    refine ⟨_, w, run, ?_, track, wear good, others, fun r => (entered.roles r).trans (by rw [pairs]), entered.shape⟩
    rw [entered.queue, queue, head]
    rfl

/-! ## The change to LOW (R92, R130) -/

/-- The change of state with its alert, before the drops. -/
def stateLow (s : State) : State :=
  let x : State := { s with supply := .low, steadyTimer := .stopped, vdd := .belowSafe }
  raiseIf (supplyAlertsOn x) .supplyLow .none x

/-- The state after the change of state, the dropped entries having left the queue. -/
def lowWithQueueKept (s : State) : State := { stateLow s with
    commitQueue := s.commitQueue.filter (fun e => !(decide (e.stage = .waiting) && !e.isTidy)) }

theorem stateLow_shape (s : State) : ∃ a l, stateLow s =
    { s with supply := .low, steadyTimer := .stopped, vdd := .belowSafe, alerts := a, lost := l } :=
  raiseIf_shape _ _ _ _

theorem stateLow_serving {s : State} (serves : servesPorts s) :
    AlertsLike (raiseAlert .supplyLow .none s) (stateLow s) ∧ Recorded (.supplyLow, .none) (stateLow s) := by
  have on : supplyAlertsOn { s with supply := .low, steadyTimer := .stopped, vdd := .belowSafe } = true :=
    (supplyAlertsOn_iff _).mpr serves
  simp only [stateLow, on]
  exact ⟨raiseAlert_like _ _ rfl ⟨rfl, rfl⟩, raiseAlert_recorded _ _ _⟩

theorem stateLow_silent {s : State} (silent : ¬ servesPorts s) :
    (stateLow s).alerts = s.alerts ∧ (stateLow s).lost = s.lost := by
  have off : supplyAlertsOn { s with supply := .low, steadyTimer := .stopped, vdd := .belowSafe } = false := by
    rw [← Bool.not_eq_true, supplyAlertsOn_iff]
    exact silent
  simp only [stateLow, off]
  exact ⟨rfl, rfl⟩

/-- The change to LOW: the state of `lowWithQueueKept`, the drops in queue order, then the drain of RESTARTING. -/
theorem exec_changeToLow {s : State} (running : s.inReset = false) (good : s.supply = .good) :
    exec .changeToLow s = .next (checkDrain
      ((s.commitQueue.filter (fun e => decide (e.stage = .waiting) && !e.isTidy)).foldl dropOutcome
        (lowWithQueueKept s))) := by
  refine (congrArg Host.Outcome.next (if_pos ⟨running, good⟩)).trans (congrArg (Host.Outcome.next ∘ checkDrain) ?_)
  obtain ⟨a, l, shape⟩ := stateLow_shape s
  have dropped : CommitEntry.droppable = fun e => decide (e.stage = .waiting) && !e.isTidy := funext droppable_eq
  show dropWaiting (stateLow s) = _
  simp only [dropWaiting, dropped, lowWithQueueKept, shape]

/-- A dropped entry keeps every alert that stands or is recorded lost. -/
theorem dropOutcome_keeps_recorded {c : AlertKind × AlertSubject} (e : CommitEntry) {s : State} (h : Recorded c s) :
    Recorded c (dropOutcome s e) := by
  have account : ∀ i, Recorded c (dropAccount i s) := fun i => by
    unfold dropAccount
    cases (s.slot i).pending with
    | none => exact h
    | some img =>
      dsimp only
      split_ifs
      · refine raiseRetired_keeps_recorded _ c _ (h.like ?_)
        obtain ⟨t, f, w, handed⟩ := handBackAll_shape (s.slot i).currentPair.toList s
        obtain ⟨te, se, answered⟩ := answerImage_shape img .supplyLow .zeros
          (vacate i (handBackAll (s.slot i).currentPair.toList s))
        rw [answered, handed]
        exact ⟨rfl, rfl⟩
      · refine reevaluate_keeps_recorded i c _ (h.like ?_)
        obtain ⟨ho, reopened⟩ := reopenSettled_shape img (s.setSlot i (droppedSlot (s.slot i) img.change))
        obtain ⟨te, se, answered⟩ := answerImage_shape img .supplyLow .zeros
          (reopenSettled img (s.setSlot i (droppedSlot (s.slot i) img.change)))
        rw [answered, reopened]
        exact ⟨rfl, rfl⟩
  unfold dropOutcome
  cases e.subject with
  | accountImage i | accountEmpty i => exact account i
  | tariffImage n =>
    dsimp only
    unfold dropTariff
    cases (s.tariff n).pending with
    | none => exact h
    | some img =>
      obtain ⟨te, se, answered⟩ := answer_shape img.port img.tag .setTariff .supplyLow .zeros
        (s.setTariff n { s.tariff n with pending := none })
      refine h.like ?_
      dsimp only
      rw [answered]
      exact ⟨rfl, rfl⟩
  | tidyEmpty p => exact h

/-- The entries that a change to LOW drops. -/
def droppedAtLow (s : State) : List CommitEntry := s.commitQueue.filter (fun e => decide (e.stage = .waiting) && !e.isTidy)

/-- The state after the drops, before the drain of RESTARTING. -/
def afterDrops (s : State) : State := (droppedAtLow s).foldl dropOutcome (lowWithQueueKept s)

/-- What the drops leave: the fields of the change of state that they do not change. -/
theorem afterDrops_fields (s : State) : (afterDrops s).supply = .low ∧ (afterDrops s).steadyTimer = .stopped
    ∧ (afterDrops s).phase = s.phase
    ∧ (afterDrops s).commitQueue = s.commitQueue.filter (fun e => !(decide (e.stage = .waiting) && !e.isTidy))
    ∧ sameCells s (afterDrops s) ∧ (afterDrops s).seconds = s.seconds ∧ (afterDrops s).report = s.report
    ∧ (afterDrops s).inReset = s.inReset := by
  obtain ⟨a, l, changed⟩ := stateLow_shape s
  obtain ⟨sl, ki, ho, ta, pa, fr, wo, al, lo, te, se, dropped⟩ :=
    foldl_dropOutcome_shape (droppedAtLow s) (lowWithQueueKept s)
  rw [afterDrops, dropped, lowWithQueueKept, changed]
  exact ⟨rfl, rfl, rfl, rfl, ⟨rfl, rfl⟩, rfl, rfl, rfl⟩

/-- SUPPLY_LOW raised in OPEN stands after the drops, or is recorded lost. -/
theorem afterDrops_recorded {s : State} (serves : servesPorts s) : Recorded (.supplyLow, .none) (afterDrops s) :=
  foldl_keeps (P := Recorded (.supplyLow, .none)) (droppedAtLow s) (fun e _ => dropOutcome_keeps_recorded e)
    ((stateLow_serving serves).2.like ⟨rfl, rfl⟩)

/-- With nothing in the queue and the ports not served the change of state is all. -/
theorem afterDrops_quiet {s : State} (queue : s.commitQueue = []) (silent : ¬ servesPorts s) :
    afterDrops s = { s with supply := .low, steadyTimer := .stopped, vdd := .belowSafe } := by
  obtain ⟨a, l, changed⟩ := stateLow_shape s
  obtain ⟨alerts, lost⟩ := stateLow_silent silent
  rw [changed] at alerts lost
  have none_dropped : droppedAtLow s = [] := by rw [droppedAtLow, queue, List.filter_nil]
  rw [afterDrops, none_dropped, List.foldl_nil, lowWithQueueKept, changed, queue, List.filter_nil]
  simp only at alerts lost
  rw [alerts, lost, ← queue]

/-- Settles O42: the drops of a change to LOW, which change neither cells nor queue, phase or counter. -/
theorem changeToLowDropsWaitingEntries : Obligations.ChangeToLowDropsWaitingEntries := by
  refine ⟨fun s running good open' => ?_, fun s running good => ?_⟩
  · have run : exec .changeToLow s = .next (checkDrain (afterDrops s)) := exec_changeToLow running good
    obtain ⟨supply, timer, phase, queue, cells, seconds, report, -⟩ := afterDrops_fields s
    rw [checkDrain, if_neg fun drain => open' (phase.symm.trans drain.1)] at run
    refine ⟨_, run, supply, timer, phase, queue, fun isOpen => afterDrops_recorded (.inl isOpen), fun empty other => ?_,
      cells, seconds, report⟩
    rw [afterDrops_quiet empty fun serves => serves.elim other open']
  · have run : exec .changeToLow s = .next (checkDrain (afterDrops s)) := exec_changeToLow running good
    obtain ⟨-, -, phase, queue, cells, -, -, inReset⟩ := afterDrops_fields s
    obtain ⟨a, l, changed⟩ := stateLow_shape s
    have kept : (lowWithQueueKept s).commitQueue = (afterDrops s).commitQueue := queue.symm
    refine ⟨lowWithQueueKept s, afterDrops s, ?_, fun serves => stateLow_serving serves,
      fun silent => stateLow_silent silent, rfl, fun left => ?_, fun restarting empty => ⟨fun responses => ?_,
      fun terminal service => ?_⟩⟩
    · rw [lowWithQueueKept, changed]
    · rw [run, checkDrain, if_neg fun drain => ?_]
      exact left.elim (fun h => h (phase.symm.trans drain.1)) fun h => h (kept.trans drain.2)
    · rw [run, checkDrain_of_responses _ fun none_left => responses.elim (fun h => h none_left.1) fun h => h none_left.2]
      simp [phase, restarting, kept.symm.trans empty]
    · obtain ⟨t, run, fields, kind, sameAsDropped, -, -⟩ := drained_exec run (inReset.trans running)
        (phase.trans restarting) (kept.symm.trans empty) terminal service
      exact ⟨t, run, fields, kind, sameAsDropped.1.trans cells.1, sameAsDropped.2.trans cells.2⟩

end Sys2Proof.Machine

/-! PROOFS. The Commit Engine, II: outcomes that end in a re-evaluation, and dropped entries. -/

namespace Sys2Proof.Machine

theorem AlertsLike.trans {s t u : State} (h : AlertsLike s t) (h' : AlertsLike t u) : AlertsLike s u :=
  ⟨h'.1.trans h.1, h'.2.trans h.2⟩

/-! ## A slot that an outcome changes, then re-evaluated (R33, R34) -/

/-- What a re-evaluation answers is read of the slots and holds alone. -/
theorem SlotBecomes.congr {i : SlotNo} {v : Slot} {s s' t t' : State} (h : SlotBecomes i v s t) (hs : s'.slots = s.slots)
    (slots : t'.slots = t.slots) (holds : t'.holds = t.holds) : SlotBecomes i v s' t' := by
  obtain ⟨own, others⟩ := h
  have spend : spendable t' i = spendable t i := spendable_congr i holds (by rw [slot_congr slots])
  refine ⟨?_, fun j other => ?_⟩
  · rw [slot_congr slots, spend, own]
  · rw [slot_congr slots, others j other, slot_congr hs]

/-- The alerts of a re-evaluation after an outcome that keeps the indicators of its slot. -/
theorem reevaluated_of {i : SlotNo} {x u : State} (low : (u.slot i).low = (x.slot i).low)
    (exhausted : (u.slot i).exhausted = (x.slot i).exhausted) (alerts : AlertsLike x u) :
    Reevaluated i x (reevaluate i u) := by
  obtain ⟨t, a, l, shape⟩ := reevaluate_shape i u
  exact Reevaluated.of low exhausted alerts rfl (reevaluate_holds i u) (by rw [shape]) ⟨rfl, rfl⟩

/-- An outcome read through the re-evaluation after it. -/
theorem Answered.reevaluated {p : Port} {tag : Byte} {k : Kind} {st : Status} {f : Figures} {s u : State} {i : SlotNo}
    (h : Answered p tag k st f s u) : Answered p tag k st f s (reevaluate i u) :=
  h.congr (fun _ => rfl) fun q => reevaluate_port i q u

/-- A settle's hold put back in OPEN (R73). -/
theorem reopenSettled_becomes {img : PendingImage} {s : State} {n : HoldNo} {g : Byte} {h : Hold} {c r : Word}
    (handle : img.handle = some (n, g)) (settling : (s.hold n).state = .settling h c r) :
    HoldBecomes n ⟨(s.hold n).generation, .open h⟩ s (reopenSettled img s) := by
  rw [reopenSettled_some img s n g h c r handle settling]
  exact ⟨hold_setHold_same s n _, fun m other => hold_setHold_other s n m _ other.symm⟩

/-! ## A dropped change (R17, R34, R73) -/

theorem dropOutcome_account {s : State} {e : CommitEntry} {i : SlotNo} {img : PendingImage}
    (subject : e.subject = .accountImage i ∨ e.subject = .accountEmpty i) (pending : (s.slot i).pending = some img) :
    dropOutcome s e = if img.change = .open then dropOpen i img s else dropChange i img s := by
  have account : dropOutcome s e = dropAccount i s := by
    unfold dropOutcome
    rcases subject with h | h <;> rw [h]
  rw [account, dropAccount, pending]

/-- A dropped change before its re-evaluation. -/
def droppedChange (i : SlotNo) (img : PendingImage) (s : State) : State :=
  answerImage img .supplyLow .zeros (reopenSettled img (s.setSlot i (droppedSlot (s.slot i) img.change)))

theorem droppedChange_shape (i : SlotNo) (img : PendingImage) (s : State) : ∃ ho te se, droppedChange i img s =
    { s.setSlot i (droppedSlot (s.slot i) img.change) with holds := ho, terminal := te, service := se } := by
  obtain ⟨ho, reopened⟩ := reopenSettled_shape img (s.setSlot i (droppedSlot (s.slot i) img.change))
  obtain ⟨te, se, answered⟩ := answerImage_shape img .supplyLow .zeros
    (reopenSettled img (s.setSlot i (droppedSlot (s.slot i) img.change)))
  exact ⟨ho, te, se, by rw [droppedChange, answered, reopened]⟩

theorem droppedChange_holds (i : SlotNo) (img : PendingImage) (s : State) : (droppedChange i img s).holds
    = (reopenSettled img (s.setSlot i (droppedSlot (s.slot i) img.change))).holds := by
  obtain ⟨te, se, answered⟩ := answerImage_shape img .supplyLow .zeros
    (reopenSettled img (s.setSlot i (droppedSlot (s.slot i) img.change)))
  rw [droppedChange, answered]

theorem droppedChange_answered (i : SlotNo) (img : PendingImage) (s : State) :
    Answered img.port img.tag img.change.kind .supplyLow .zeros s (droppedChange i img s) := by
  obtain ⟨ho, reopened⟩ := reopenSettled_shape img (s.setSlot i (droppedSlot (s.slot i) img.change))
  refine (answer_answered img.port img.tag img.change.kind .supplyLow .zeros _).congr (fun q => ?_) fun q => rfl
  rw [reopened]
  cases q <;> rfl

/-- What a dropped change leaves. -/
theorem dropChange_spec (i : SlotNo) (img : PendingImage) (s : State) :
    SlotBecomes i (droppedSlot (s.slot i) img.change) s (dropChange i img s)
    ∧ (∀ n g h c r, img.handle = some (n, g) → (s.hold n).state = .settling h c r →
        HoldBecomes n ⟨(s.hold n).generation, .open h⟩ s (dropChange i img s))
    ∧ (img.handle = none → (dropChange i img s).holds = s.holds)
    ∧ Answered img.port img.tag img.change.kind .supplyLow .zeros s (dropChange i img s)
    ∧ Reevaluated i s (dropChange i img s) := by
  rw [show dropChange i img s = reevaluate i (droppedChange i img s) from rfl]
  obtain ⟨ho, te, se, shape⟩ := droppedChange_shape i img s
  have own : (droppedChange i img s).slot i = droppedSlot (s.slot i) img.change := by
    rw [shape]
    exact slot_setSlot_same s i _
  have holds : (reevaluate i (droppedChange i img s)).holds = _ :=
    (reevaluate_holds i _).trans (droppedChange_holds i img s)
  refine ⟨reevaluate_becomes i _ s _ own fun j other => ?_, fun n g h c r handle settling => ?_, fun handle => ?_,
    (droppedChange_answered i img s).reevaluated, reevaluated_of ?_ ?_ ?_⟩
  · rw [shape]
    exact slot_setSlot_other s i j _ other.symm
  · obtain ⟨own, others⟩ := reopenSettled_becomes (s := s.setSlot i (droppedSlot (s.slot i) img.change)) handle settling
    exact ⟨(hold_congr holds n).trans own, fun m other => (hold_congr holds m).trans (others m other)⟩
  · exact holds.trans (by rw [reopenSettled_none img _ handle]; rfl)
  · rw [own]
    rfl
  · rw [own]
    rfl
  · rw [shape]
    exact ⟨rfl, rfl⟩

/-! ## A pair handed back, with its alert (R107, R110) -/

theorem retiredBack_below {p : PairNo} {s : State} (below : (s.pair p).track.wear.toNat < 400000) :
    retiredBack [p] s = [] :=
  List.filter_cons_of_neg (by rw [atLimit_iff]; omega)

theorem retiredBack_at {p : PairNo} {s : State} (at_limit : 400000 ≤ (s.pair p).track.wear.toNat) :
    retiredBack [p] s = [p] :=
  List.filter_cons_of_pos ((atLimit_iff s p).mpr at_limit)

/-- The alerts of an event that closes a slot and retires no pair but the one handed back. -/
theorem handedBack_alerts {p : PairNo} {s t : State} (alerts : AlertsLike (raiseRetired (retiredBack [p] s) s) t) :
    ((s.pair p).track.wear.toNat < 400000 → AlertsLike s t)
    ∧ (400000 ≤ (s.pair p).track.wear.toNat → AlertsLike (raiseAlert .pairRetired (.pair p) s) t
      ∧ Recorded (.pairRetired, .pair p) t) := by
  refine ⟨fun below => ?_, fun at_limit => ?_⟩
  · rwa [retiredBack_below below, raiseRetired_nil] at alerts
  · rw [retiredBack_at at_limit, raiseRetired_one] at alerts
    exact ⟨alerts, (raiseAlert_recorded _ _ s).like alerts⟩

/-! ## Settlement -/

/-- A dropped open (R17, R107). -/
theorem dropOpen_spec {s : State} {i : SlotNo} {img : PendingImage} {p : PairNo}
    (claimed : (s.slot i).currentPair = some p) (change : img.change = .open) :
    (dropOpen i img s).slot i = Slot.vacant ∧ OtherSlots i s (dropOpen i img s)
    ∧ HandedBack p [] s (dropOpen i img s)
    ∧ (s.pair p).track = ((dropOpen i img s).pair p).track ∧ (∀ q, q ≠ p → (dropOpen i img s).pair q = s.pair q)
    ∧ ((s.pair p).track.wear.toNat < 400000 → AlertsLike s (dropOpen i img s))
    ∧ (400000 ≤ (s.pair p).track.wear.toNat → AlertsLike (raiseAlert .pairRetired (.pair p) s) (dropOpen i img s)
      ∧ Recorded (.pairRetired, .pair p) (dropOpen i img s))
    ∧ (∀ x, x ∈ (dropOpen i img s).keyIndex ↔ x ∈ s.keyIndex ∧ some x.1 ≠ (s.slot i).key)
    ∧ Answered img.port img.tag .openAccount .supplyLow .zeros s (dropOpen i img s) := by
  obtain ⟨slot, others, keys, back, track, pairs, alerts, answered⟩ := dropOpen_closed i img p s claimed
  obtain ⟨below, at_limit⟩ := handedBack_alerts alerts
  rw [change] at answered
  exact ⟨slot, others, back, track.symm, pairs, below, at_limit, keys, answered⟩

theorem dropOutcome_tariff {s : State} {e : CommitEntry} {n : ClassNo} {img : PendingTariff}
    (subject : e.subject = .tariffImage n) (pending : (s.tariff n).pending = some img) :
    dropOutcome s e = answer img.port img.tag .setTariff .supplyLow .zeros
      (s.setTariff n { s.tariff n with pending := none }) := by
  rw [dropOutcome, subject]
  dsimp only
  rw [dropTariff, pending]

/-- Settles O39: by the entry's subject and change kind. -/
theorem droppedChangeRollsBack : Obligations.DroppedChangeRollsBack := by
  refine ⟨fun s e i img subject pending => ⟨fun other => ?change, fun change p claimed => ?opened⟩,
    fun s e n img subject pending => ?tariff⟩
  case change =>
    rw [dropOutcome_account subject pending, if_neg other]
    obtain ⟨slot, reopened, still, answered, reevaluated⟩ := dropChange_spec i img s
    obtain ⟨sl, ho, al, lo, te, se, shape⟩ := dropChange_shape i img s
    refine ⟨slot, reopened, still, answered, reevaluated, ?_⟩
    generalize dropChange i img s = t at *
    rw [shape]
  case opened =>
    rw [dropOutcome_account subject pending, if_pos change]
    obtain ⟨slot, others, back, track, pairs, below, at_limit, keys, answered⟩ := dropOpen_spec claimed change
    obtain ⟨sl, ki, pa, fr, wo, al, lo, te, se, shape⟩ := dropOpen_shape i img s
    refine ⟨slot, others, back, track, pairs, below, at_limit, keys, answered, ?_⟩
    generalize dropOpen i img s = t at *
    rw [shape]
  case tariff =>
    rw [dropOutcome_tariff subject pending]
    have answered := answer_answered img.port img.tag .setTariff .supplyLow .zeros
      (s.setTariff n { s.tariff n with pending := none })
    obtain ⟨te, se, shape⟩ := answer_shape img.port img.tag .setTariff .supplyLow .zeros
      (s.setTariff n { s.tariff n with pending := none })
    generalize answer img.port img.tag .setTariff .supplyLow .zeros _ = t at *
    have tariffs : t.tariffs = (s.setTariff n { s.tariff n with pending := none }).tariffs := by rw [shape]
    refine ⟨(tariff_congr tariffs n).trans (tariff_setTariff_same s n _),
      fun m other => (tariff_congr tariffs m).trans (tariff_setTariff_other s n m _ other.symm),
      answered.congr (fun q => by cases q <;> rfl) fun _ => rfl, ?_⟩
    rw [shape]
    rfl

end Sys2Proof.Machine

/-! PROOFS. The Commit Engine, III: the fault outcomes, and the tidy entries that follow one another. -/

namespace Sys2Proof.Machine

/-! ## The state after an event that ends in a fault (R82, R83, R86, R87) -/

/-- `t` is the fault outcome `x` with the alerts raised after it and the drain that a placed response leaves. -/
structure AfterFault (spare : List PairNo) (s x t : State) : Prop where
  shape : t = { x with
    alerts := t.alerts, lost := t.lost,
    collectionWait := x.collectionWait || decide (x.phase = .restarting ∧ x.commitQueue = []) }
  keeps : ∀ c, Recorded c x → Recorded c t
  spares : ∀ b : State, b.seconds = x.seconds → AlertsLike b x → x.freeList = spare → WithSpares spare s b t

/-- An event that ends the head in a fault, where the fault outcome places a response. -/
theorem endsInFault_answered {c : Instr} {s : State} {e : CommitEntry} {incoming : Option PairNo} {spare : List PairNo}
    {written : Option (PairId × CopyName × Copy)} (h : EndsInFault c s e incoming spare written) :
    ∃ (u : State) (f : CommitEntry), FaultGround s u incoming spare written ∧ f.subject = e.subject
      ∧ f.stage.incoming = incoming
      ∧ ∀ {p : Port} {tag : Byte} {k : Kind} {st : Status} {g : Figures}, Answered p tag k st g u (faultOutcome f u) →
        ∃ t, exec c s = .next t ∧ AfterFault spare s (faultOutcome f u) t := by
  obtain ⟨u, f, v, ground, subject, relocated, run, ⟨a, l, shape⟩, keeps, -, spares⟩ := endsInFault_next h
  refine ⟨u, f, ground, subject, relocated, fun answered => ⟨_, run, ?_⟩⟩
  have drained := checkDrain_of_responses v (by rw [shape]; exact answered.responses)
  have like : AlertsLike v (checkDrain v) := by rw [drained]; exact ⟨rfl, rfl⟩
  refine ⟨?_, fun x recorded => (keeps x recorded).like like, fun b seconds same free => ?_⟩
  · rw [drained, shape]
  · obtain ⟨room, exhausted⟩ := spares b seconds same free
    rw [WithSpares, drained]
    exact ⟨room, exhausted⟩

/-- Pairs that have become WORN, read in a later state. -/
theorem Retired.later {ps : List PairNo} {s t t' : State} (h : Retired ps s t) (pairs : t'.accountPairs = t.accountPairs)
    (worn : t'.wornSet = t.wornSet) (keeps : ∀ c, Recorded c t → Recorded c t') : Retired ps s t' := by
  obtain ⟨retired, others, members⟩ := h
  refine ⟨fun p mem => ⟨(pair_congr pairs p).trans (retired p mem).1, keeps _ (retired p mem).2⟩,
    fun p mem => (pair_congr pairs p).trans (others p mem), fun p => by rw [worn, members]⟩

/-- The alerts of a fault, with the incoming pair, read on the state before the event. -/
theorem faultAlerts_like {s u : State} {k : AlertKind} {sub : AlertSubject} (l : List PairNo)
    (seconds : u.seconds = s.seconds) (like : AlertsLike s u) :
    AlertsLike (retirementAlerts l (raiseAlert k sub s)) (retirementAlerts l (raiseAlert k sub u)) := by
  refine retirementAlerts_like l ?_ (raiseAlert_like k sub seconds like)
  rw [raiseAlert_seconds, raiseAlert_seconds, seconds]

theorem faultAlerts_slots (l : List PairNo) (k : AlertKind) (sub : AlertSubject) (s : State) :
    (retirementAlerts l (raiseAlert k sub s)).slots = s.slots := by
  obtain ⟨a, o, raised⟩ := raiseAlert_shape k sub s
  obtain ⟨a', o', retired⟩ := retirementAlerts_shape l (raiseAlert k sub s)
  rw [retired, raised]

theorem faultOutcome_account {s : State} {e : CommitEntry} {i : SlotNo} {img : PendingImage}
    (subject : e.subject = .accountImage i ∨ e.subject = .accountEmpty i) (pending : (s.slot i).pending = some img) :
    faultOutcome e s = if img.change = .open then faultOpen i img e s else faultChange i img e s := by
  have account : faultOutcome e s = faultAccount i e s := by
    unfold faultOutcome
    rcases subject with h | h <;> rw [h]
  rw [account, faultAccount, pending]

/-- A fault of a change to an open account (R19, R73, R88). -/
theorem changeFaults {c : Instr} {s : State} {e : CommitEntry} {incoming : Option PairNo} {spare : List PairNo}
    {written : Option (PairId × CopyName × Copy)} (h : EndsInFault c s e incoming spare written) {i : SlotNo}
    {img : PendingImage} (subject : e.subject = .accountImage i ∨ e.subject = .accountEmpty i)
    (pending : (s.slot i).pending = some img) (change : img.change ≠ .open) :
    ∃ t, exec c s = .next t
      ∧ SlotBecomes i { s.slot i with state := .faulted, pending := none } s t
      ∧ (img.handle = none → t.holds = s.holds)
      ∧ (∀ n g h w r, img.handle = some (n, g) → (s.hold n).state = .settling h w r →
          HoldBecomes n ⟨(s.hold n).generation, .open h⟩ s t)
      ∧ Answered img.port img.tag img.change.kind .storeFault .zeros s t
      ∧ Recorded (.storeFault, .account i ((s.slot i).key.getD 0)) t
      ∧ WithSpares spare s (reevaluation i (retirementAlerts incoming.toList
          (raiseAlert .storeFault (.account i ((s.slot i).key.getD 0)) s)) t) t
      ∧ Retired incoming.toList s t ∧ CellsAfter written s t
      ∧ t.collectionWait = (s.collectionWait || decide (s.phase = .restarting ∧ s.commitQueue.tail = []))
      ∧ t = { s with
          slots := t.slots, holds := t.holds, commitQueue := s.commitQueue.tail, accountCells := t.accountCells,
          tariffCells := t.tariffCells, accountPairs := t.accountPairs, freeList := spare, wornSet := t.wornSet,
          alerts := t.alerts, lost := t.lost, terminal := t.terminal, service := t.service,
          collectionWait := t.collectionWait } := by
  obtain ⟨u, f, ground, same, relocated, ends⟩ := endsInFault_answered h
  have frame := ground.frame
  have slots : u.slots = s.slots := by rw [frame]
  have outcome := faultOutcome_account (same ▸ subject) ((congrArg Slot.pending (slot_congr slots i)).trans pending)
  rw [if_neg change] at outcome
  rw [outcome] at ends
  obtain ⟨slot, still, reopened, answered, recorded, retired, alerts⟩ := faultChange_spec i img f u
  obtain ⟨sl, ho, pa, wo, al, lo, te, se, shape⟩ := faultChange_shape i img f u
  rw [slot_congr slots, relocated] at *
  obtain ⟨t, run, after⟩ := ends answered
  generalize faultChange i img f u = x at *
  have tShape := after.shape
  have holds : t.holds = x.holds := by rw [tShape]
  have uHolds : u.holds = s.holds := by rw [frame]
  refine ⟨t, run, slot.congr slots.symm ?_ holds, fun handle => ?_, fun n g h w r handle settling => ?_,
    answered.congr ?_ ?_, after.keeps _ recorded, after.spares _ ?_ ?_ ?_,
    (retired.ground ?_ ground.tracks ?_).later ?_ ?_ after.keeps, ground.cells.congr ?_ ?_, ?_, ?_⟩
  · rw [tShape]
  · rw [holds, still handle, uHolds]
  · rw [← hold_congr uHolds n] at settling ⊢
    obtain ⟨own, others⟩ := (reopened n g h w r handle settling).congr holds
    exact ⟨own, fun m other => (others m other).trans (hold_congr uHolds m)⟩
  · intro q
    rw [frame]
    cases q <;> rfl
  · intro q
    rw [tShape]
    cases q <;> rfl
  · rw [reevaluation_seconds, tShape]
  · have base : AlertsLike s u := by rw [frame]; exact ⟨rfl, rfl⟩
    have like := faultAlerts_like (k := .storeFault) (sub := .account i ((s.slot i).key.getD 0)) incoming.toList
      (by rw [frame]) base
    have first := reevaluation_base i t like
      (by rw [slot_congr (faultAlerts_slots _ _ _ u), slot_congr (faultAlerts_slots _ _ _ s), slot_congr slots])
    have second := reevaluation_like i (retirementAlerts incoming.toList
      (raiseAlert .storeFault (.account i ((s.slot i).key.getD 0)) u)) (t := t) (t' := x) (by rw [tShape]) holds.symm
      (by rw [tShape])
    exact first.trans (second.trans alerts)
  · rw [shape, frame]
  · exact fun q mem => ground.pairs q mem
  · rw [frame]
  · rw [tShape]
  · rw [tShape]
  · rw [tShape, shape]
  · rw [tShape, shape]
  · rw [tShape, shape, frame]
  · rw [tShape, shape, frame]

/-- A fault of an open (R18, R88). -/
theorem openFaults {c : Instr} {s : State} {e : CommitEntry} {incoming : Option PairNo} {spare : List PairNo}
    {written : Option (PairId × CopyName × Copy)} (h : EndsInFault c s e incoming spare written) {i : SlotNo}
    {img : PendingImage} (subject : e.subject = .accountImage i ∨ e.subject = .accountEmpty i)
    (pending : (s.slot i).pending = some img) (change : img.change = .open) {p : PairNo}
    (claimed : (s.slot i).currentPair = some p) :
    ∃ t, exec c s = .next t
      ∧ t.slot i = Slot.vacant ∧ OtherSlots i s t
      ∧ (∀ x, x ∈ t.keyIndex ↔ x ∈ s.keyIndex ∧ some x.1 ≠ (s.slot i).key)
      ∧ Answered img.port img.tag .openAccount .storeFault .zeros s t
      ∧ Recorded (.storeFault, .account i ((s.slot i).key.getD 0)) t
      ∧ WithSpares spare s (retirementAlerts (p :: incoming.toList)
          (raiseAlert .storeFault (.account i ((s.slot i).key.getD 0)) s)) t
      ∧ Retired (p :: incoming.toList) s t ∧ CellsAfter written s t
      ∧ t.collectionWait = (s.collectionWait || decide (s.phase = .restarting ∧ s.commitQueue.tail = []))
      ∧ t = { s with
          slots := t.slots, keyIndex := t.keyIndex, commitQueue := s.commitQueue.tail,
          accountCells := t.accountCells, tariffCells := t.tariffCells, accountPairs := t.accountPairs,
          freeList := spare, wornSet := t.wornSet, alerts := t.alerts, lost := t.lost, terminal := t.terminal,
          service := t.service, collectionWait := t.collectionWait } := by
  obtain ⟨u, f, ground, same, relocated, ends⟩ := endsInFault_answered h
  have frame := ground.frame
  have slots : u.slots = s.slots := by rw [frame]
  have outcome := faultOutcome_account (same ▸ subject) ((congrArg Slot.pending (slot_congr slots i)).trans pending)
  rw [if_pos change] at outcome
  rw [outcome] at ends
  obtain ⟨slot, others, keys, answered, recorded, retired, alerts⟩ :=
    faultOpen_spec i img f p u ((congrArg Slot.currentPair (slot_congr slots i)).trans claimed)
  obtain ⟨sl, ki, pa, wo, al, lo, te, se, shape⟩ := faultOpen_shape i img f u
  rw [change, ChangeKind.kind] at answered
  rw [slot_congr slots] at keys recorded alerts
  rw [relocated] at retired alerts
  obtain ⟨t, run, after⟩ := ends answered
  generalize faultOpen i img f u = x at *
  have tShape := after.shape
  refine ⟨t, run, ?_, fun j other => ?_, fun y => ?_, answered.congr ?_ ?_, after.keeps _ recorded,
    after.spares _ ?_ ?_ ?_, (retired.ground ?_ ground.tracks ?_).later ?_ ?_ after.keeps, ground.cells.congr ?_ ?_,
    ?_, ?_⟩
  · rw [tShape]
    exact slot
  · rw [tShape]
    exact (others j other).trans (slot_congr slots j)
  · rw [tShape, keys, frame]
  · intro q
    rw [frame]
    cases q <;> rfl
  · intro q
    rw [tShape]
    cases q <;> rfl
  · obtain ⟨a, o, raised⟩ := raiseAlert_shape .storeFault (.account i ((s.slot i).key.getD 0)) s
    obtain ⟨a', o', retiredAlerts⟩ := retirementAlerts_shape (p :: incoming.toList)
      (raiseAlert .storeFault (.account i ((s.slot i).key.getD 0)) s)
    rw [retiredAlerts, raised, shape, frame]
  · have base : AlertsLike s u := by rw [frame]; exact ⟨rfl, rfl⟩
    have like := faultAlerts_like (k := .storeFault) (sub := .account i ((s.slot i).key.getD 0))
      (p :: incoming.toList) (by rw [frame]) base
    exact like.trans alerts
  · rw [shape, frame]
  · exact fun q mem => ground.pairs q fun inside => mem (List.mem_cons_of_mem _ inside)
  · rw [frame]
  · rw [tShape]
  · rw [tShape]
  · rw [tShape, shape]
  · rw [tShape, shape]
  · rw [tShape, shape, frame]
  · rw [tShape, shape, frame]

/-- With no claim the alerts of an event are those of its outcome. -/
theorem AfterFault.like {s x t : State} (after : AfterFault s.freeList s x t) {b : State} (seconds : b.seconds = x.seconds)
    (like : AlertsLike b x) (free : x.freeList = s.freeList) : AlertsLike b t := by
  obtain ⟨room, -⟩ := after.spares b seconds like free
  exact room (em (s.freeList = [])).symm

/-- A fault of a tariff change (R52). -/
theorem tariffFaults {c : Instr} {s : State} {e : CommitEntry} {incoming : Option PairNo} {spare : List PairNo}
    {written : Option (PairId × CopyName × Copy)} (h : EndsInFault c s e incoming spare written) {n : ClassNo}
    {img : PendingTariff} (direct : incoming = none) (subject : e.subject = .tariffImage n)
    (pending : (s.tariff n).pending = some img) :
    ∃ t, exec c s = .next t
      ∧ t.tariff n = { s.tariff n with pending := none, storeFault := true }
      ∧ (∀ m, m ≠ n → t.tariff m = s.tariff m)
      ∧ Answered img.port img.tag .setTariff .storeFault .zeros s t
      ∧ AlertsLike (raiseAlert .storeFault (.cls n) s) t ∧ Recorded (.storeFault, .cls n) t ∧ CellsAfter written s t
      ∧ t.collectionWait = (s.collectionWait || decide (s.phase = .restarting ∧ s.commitQueue.tail = []))
      ∧ t = { s with
          tariffs := t.tariffs, commitQueue := s.commitQueue.tail, accountCells := t.accountCells,
          tariffCells := t.tariffCells, alerts := t.alerts, lost := t.lost, terminal := t.terminal,
          service := t.service, collectionWait := t.collectionWait } := by
  have spares := h.spare direct
  subst direct spares
  obtain ⟨u, f, ground, same, -, ends⟩ := endsInFault_answered h
  have frame := ground.frame
  have tariffs : u.tariffs = s.tariffs := by rw [frame]
  have pairs : u.accountPairs = s.accountPairs :=
    Vector.ext fun q hq => ground.pairs ⟨q, hq⟩ (by simp)
  have outcome : faultOutcome f u = faultTariff n u := by rw [faultOutcome, same, subject]
  rw [outcome] at ends
  obtain ⟨own, others, answered, recorded, alerts⟩ :=
    faultTariff_spec n img u ((congrArg TariffClass.pending (tariff_congr tariffs n)).trans pending)
  obtain ⟨ta, al, lo, te, se, shape⟩ := faultTariff_shape n u
  obtain ⟨t, run, after⟩ := ends answered
  generalize faultTariff n u = x at *
  have tShape := after.shape
  have tTariffs : t.tariffs = x.tariffs := by rw [tShape]
  refine ⟨t, run, ?_, fun m other => ?_, answered.congr ?_ ?_, after.like ?_ ?_ ?_, after.keeps _ recorded,
    ground.cells.congr ?_ ?_, ?_, ?_⟩
  · rw [tariff_congr tTariffs, own, tariff_congr tariffs]
  · rw [tariff_congr tTariffs, others m other, tariff_congr tariffs]
  · intro q
    rw [frame]
    cases q <;> rfl
  · intro q
    rw [tShape]
    cases q <;> rfl
  · rw [raiseAlert_seconds, shape, frame]
  · have like : AlertsLike (raiseAlert .storeFault (.cls n) s) (raiseAlert .storeFault (.cls n) u) :=
      raiseAlert_like _ _ (by rw [frame]) (by rw [frame]; exact ⟨rfl, rfl⟩)
    exact like.trans alerts
  · rw [shape, frame]
  · rw [tShape, shape]
  · rw [tShape, shape]
  · rw [tShape, shape, frame]
  · rw [tShape, shape, frame, pairs]

/-! ## The STALE pair that follows (R120 to R122) -/

theorem tidyNext_eq {w : State} (tidying : w.phase = .tidying) : tidyNext w = tidyFrom (List.finRange 288) w :=
  if_pos tidying

/-- A pair that the tidies pass keeps its track, and its role but where it is STALE at the wear limit. -/
theorem tidyNext_records {w : State} (tidying : w.phase = .tidying) (q : PairNo) :
    ((tidyNext w).pair q).track = (w.pair q).track
    ∧ (((tidyNext w).pair q).role = (w.pair q).role ∨ (w.pair q).role = some .stale
      ∧ ((tidyNext w).pair q).role = some .worn ∧ 400000 ≤ (w.pair q).track.wear.toNat) := by
  obtain ⟨tracks, roles, -⟩ := tidyFrom_spec (List.finRange 288) w (List.pairwise_lt_finRange 288)
  rw [tidyNext_eq tidying]
  refine ⟨tracks q, (roles q).imp_right fun passed => ?_⟩
  obtain ⟨-, stale, worn, limit⟩ := passed
  exact ⟨stale, worn, limit⟩

/-- The fields that the taking of the next STALE pair leaves. -/
theorem tidyNext_leaves {w : State} (tidying : w.phase = .tidying) : (tidyNext w).phase ≠ .restarting
    ∧ tidyNext w = { w with
        accountPairs := (tidyNext w).accountPairs, wornSet := (tidyNext w).wornSet,
        commitQueue := (tidyNext w).commitQueue, phase := (tidyNext w).phase,
        report := { w.report with
          wornCount := (tidyNext w).report.wornCount, freeCount := (tidyNext w).report.freeCount } } := by
  rcases tidyNext_cases w tidying with ⟨-, ends⟩ | ⟨q, xs, -, -, -, -, follows⟩
  · obtain ⟨pa, wo, retired⟩ := retireAll_shape (stalePairs w (List.finRange 288)) w
    rw [ends, retired]
    exact ⟨by simp [openPhase], rfl⟩
  · obtain ⟨pa, wo, retired⟩ := retireAll_shape (stalePairs w xs) w
    rw [follows, retired]
    exact ⟨by simp [joinQueue, tidying], rfl⟩

/-- A tidy pair made WORN, its failure counted and its retirement raised, before the next STALE pair is taken. -/
def tidyFailed (p : PairNo) (s : State) : State :=
  raiseAlert .pairRetired (.pair p)
    { (retire p s).leaveHead with report := { s.report with tidyFailures := s.report.tidyFailures + 1 } }

theorem faultTidy_eq (p : PairNo) (s : State) : faultTidy p s = tidyNext (tidyFailed p s) :=
  congrArg tidyNext (raiseRetired_one p _)

theorem tidyFailed_shape (p : PairNo) (s : State) : ∃ a l, tidyFailed p s =
    { s.setRole p .worn with
      wornSet := insertWorn p s.wornSet, commitQueue := s.commitQueue.tail, alerts := a, lost := l,
      report := { s.report with tidyFailures := s.report.tidyFailures + 1 } } := by
  obtain ⟨a, l, raised⟩ := raiseAlert_shape .pairRetired (.pair p)
    { (retire p s).leaveHead with report := { s.report with tidyFailures := s.report.tidyFailures + 1 } }
  exact ⟨a, l, raised⟩

/-- What a tidy failure of pair `p` leaves (R121). -/
theorem faultTidy_spec {p : PairNo} {s : State} (tidying : s.phase = .tidying) :
    (faultTidy p s).pair p = { s.pair p with role := some .worn } ∧ p ∈ (faultTidy p s).wornSet
    ∧ TidyFollows p s (faultTidy p s)
    ∧ (∀ q, q ≠ p → ((faultTidy p s).pair q).track = (s.pair q).track ∧ (((faultTidy p s).pair q).role = (s.pair q).role
      ∨ (s.pair q).role = some .stale ∧ ((faultTidy p s).pair q).role = some .worn ∧ 400000 ≤ (s.pair q).track.wear.toNat))
    ∧ AlertsLike (raiseAlert .pairRetired (.pair p) s) (faultTidy p s) ∧ Recorded (.pairRetired, .pair p) (faultTidy p s)
    ∧ (faultTidy p s).phase ≠ .restarting
    ∧ faultTidy p s = { s with
        commitQueue := (faultTidy p s).commitQueue, accountPairs := (faultTidy p s).accountPairs,
        wornSet := (faultTidy p s).wornSet, alerts := (faultTidy p s).alerts, lost := (faultTidy p s).lost,
        phase := (faultTidy p s).phase,
        report := { s.report with
          tidyFailures := s.report.tidyFailures + 1, wornCount := (faultTidy p s).report.wornCount,
          freeCount := (faultTidy p s).report.freeCount } } := by
  obtain ⟨a, l, failed⟩ := tidyFailed_shape p s
  have like : AlertsLike (raiseAlert .pairRetired (.pair p) s) (tidyFailed p s) := raiseAlert_like _ _ rfl ⟨rfl, rfl⟩
  have own : (tidyFailed p s).pair p = { s.pair p with role := some .worn } := by
    rw [failed]
    exact pair_setRole_same s p .worn
  have others : ∀ q, q ≠ p → (tidyFailed p s).pair q = s.pair q := fun q other => by
    rw [failed]
    exact pair_setRole_other s p q .worn other.symm
  have worn : ∀ q, q ∈ (tidyFailed p s).wornSet ↔ q = p ∨ q ∈ s.wornSet := fun q => by
    rw [failed]
    exact mem_insertWorn p q s.wornSet
  have sorted : s.wornSet.Pairwise (fun x y => x < y) → (tidyFailed p s).wornSet.Pairwise (fun x y => x < y) := by
    rw [failed]
    exact insertWorn_sorted p s.wornSet
  have phase : (tidyFailed p s).phase = .tidying := by rw [failed]; exact tidying
  obtain ⟨follows, kept⟩ := tidyNext_follows p s (tidyFailed p s) phase (by rw [own]; simp) others (by rw [failed])
    (fun q => by rw [worn, own]; simp [or_comm]) sorted (by rw [failed]) (by rw [failed])
  obtain ⟨running, shape⟩ := tidyNext_leaves phase
  have records := fun q => tidyNext_records phase q
  rw [faultTidy_eq]
  generalize tidyNext (tidyFailed p s) = t at *
  have likeT : AlertsLike (raiseAlert .pairRetired (.pair p) s) t := by rw [shape]; exact like
  refine ⟨kept.trans own, ?_, follows, fun q other => ?_, likeT, (raiseAlert_recorded _ _ s).like likeT, running, ?_⟩
  · obtain ⟨-, -, -, members, -⟩ := follows
    exact (members p).mpr (.inr ⟨by rw [kept, own], .inl rfl⟩)
  · rw [← others q other]
    exact records q
  · rw [shape, failed]
    rfl

/-- A fault of a tidy entry (R121). -/
theorem tidyFaults {c : Instr} {s : State} {e : CommitEntry} {incoming : Option PairNo} {spare : List PairNo}
    {written : Option (PairId × CopyName × Copy)} (h : EndsInFault c s e incoming spare written) {p : PairNo}
    (direct : incoming = none) (subject : e.subject = .tidyEmpty p) (tidying : s.phase = .tidying) :
    ∃ t, exec c s = .next t
      ∧ (t.pair p).role = some .worn ∧ (t.pair p).track = (s.pair p).track ∧ p ∈ t.wornSet
      ∧ (∀ q, q ≠ p → (t.pair q).track = (s.pair q).track ∧ ((t.pair q).role = (s.pair q).role
        ∨ (s.pair q).role = some .stale ∧ (t.pair q).role = some .worn ∧ 400000 ≤ (s.pair q).track.wear.toNat))
      ∧ TidyFollows p s t
      ∧ AlertsLike (raiseAlert .pairRetired (.pair p) s) t ∧ Recorded (.pairRetired, .pair p) t
      ∧ CellsAfter written s t
      ∧ t.report = { s.report with
          tidyFailures := s.report.tidyFailures + 1, wornCount := t.report.wornCount,
          freeCount := t.report.freeCount }
      ∧ t = { s with
          commitQueue := t.commitQueue, accountCells := t.accountCells, tariffCells := t.tariffCells,
          accountPairs := t.accountPairs, wornSet := t.wornSet, alerts := t.alerts, lost := t.lost,
          phase := t.phase, report := t.report } := by
  have spares := h.spare direct
  subst direct spares
  obtain ⟨u, f, v, ground, same, -, run, ⟨a, l, shape⟩, keeps, -, withSpares⟩ := endsInFault_next h
  have pairs : u.accountPairs = s.accountPairs := Vector.ext fun q hq => ground.pairs ⟨q, hq⟩ (by simp)
  have cells := ground.cells
  have frame := ground.frame
  rw [pairs] at frame
  generalize u.accountCells = ac, u.tariffCells = tc at frame
  subst frame
  rw [faultOutcome, same, subject] at shape keeps withSpares
  dsimp only at shape keeps withSpares
  obtain ⟨own, member, follows, records, alerts, recorded, running, left⟩ := faultTidy_spec (p := p)
    (s := { s with accountCells := ac, tariffCells := tc }) tidying
  generalize faultTidy p _ = x at *
  have undrained : checkDrain v = v := if_neg fun drain => running (by rw [shape] at drain; exact drain.1)
  rw [undrained] at run
  have same' : AlertsLike (raiseAlert .pairRetired (.pair p) s) (raiseAlert .pairRetired (.pair p)
      { s with accountCells := ac, tariffCells := tc }) := raiseAlert_like _ _ rfl ⟨rfl, rfl⟩
  have base : AlertsLike (raiseAlert .pairRetired (.pair p) s) x := same'.trans alerts
  have like : AlertsLike (raiseAlert .pairRetired (.pair p) s) v :=
    (withSpares _ (by rw [raiseAlert_seconds, left]) base (by rw [left])).1 (em (s.freeList = [])).symm
  have tables : v.accountPairs = x.accountPairs ∧ v.wornSet = x.wornSet ∧ v.report = x.report := by
    rw [shape]
    exact ⟨rfl, rfl, rfl⟩
  have pair : ∀ q, v.pair q = x.pair q := pair_congr tables.1
  refine ⟨v, run, ?_, ?_, ?_, fun q other => ?_, ?_, like, (raiseAlert_recorded _ _ s).like like, cells.congr ?_ ?_,
    ?_, ?_⟩
  · rw [pair, own]
  · rw [pair, own]
    rfl
  · rw [tables.2.1]
    exact member
  · rw [pair]
    exact records q other
  · rw [shape]
    exact follows
  · rw [shape, left]
  · rw [shape, left]
  · rw [tables.2.2, left]
  · rw [shape, left]

/-- Settles O38: by the entry's subject, each fault outcome read on the state before the event. -/
theorem faultsAreAppliedToTheirSubjects : Obligations.FaultsAreAppliedToTheirSubjects := by
  intro c s e incoming spare written h
  exact ⟨fun i img subject pending => ⟨fun change => changeFaults h subject pending change,
      fun change p claimed => openFaults h subject pending change claimed⟩,
    fun n img direct subject pending => tariffFaults h direct subject pending,
    fun p direct subject tidying => tidyFaults h direct subject tidying⟩

end Sys2Proof.Machine

/-! PROOFS. The Commit Engine, IV: a copy verified, and the tidy entries. -/

namespace Sys2Proof.Machine

/-! ## A copy that has passed its verify (R84, R101) -/

/-- The state on which a done outcome is applied: copy `c` of account pair `p` holds what it reads back and is the pair's
newest. -/
def verified (p : PairNo) (c : CopyName) (sequence : Word) (readBack : Copy) (s : State) : State :=
  recordVerified (.account p) c sequence (s.setCopy (.account p) c readBack)

theorem verified_pair_same (p : PairNo) (c : CopyName) (sequence : Word) (readBack : Copy) (s : State) :
    (verified p c sequence readBack s).pair p
      = { s.pair p with track := ⟨(s.pair p).track.wear, some c, sequence⟩ } := by
  rw [verified, recordVerified, track_setCopy]
  show ((s.setCopy (.account p) c readBack).setPair p _).pair p = _
  rw [pair_setPair_same, pair_setCopy]
  rfl

theorem verified_pair_other {p q : PairNo} (c : CopyName) (sequence : Word) (readBack : Copy) (s : State) (other : q ≠ p) :
    (verified p c sequence readBack s).pair q = s.pair q := by
  show ((s.setCopy (.account p) c readBack).setPair p _).pair q = _
  rw [pair_setPair_other _ _ _ _ other.symm, pair_setCopy]

theorem verified_wear (p q : PairNo) (c : CopyName) (sequence : Word) (readBack : Copy) (s : State) :
    ((verified p c sequence readBack s).pair q).track.wear = (s.pair q).track.wear := by
  by_cases same : q = p
  · rw [same, verified_pair_same]
  · rw [verified_pair_other c sequence readBack s same]

theorem verified_shape (p : PairNo) (c : CopyName) (sequence : Word) (readBack : Copy) (s : State) : ∃ cells pairs,
    verified p c sequence readBack s = { s with accountCells := cells, accountPairs := pairs } := ⟨_, _, rfl⟩

/-- The cells after a verified copy, read through a later state with the same cells. -/
theorem verified_readBack {p : PairNo} {c : CopyName} {sequence : Word} {readBack : Copy} {s t : State}
    (account : t.accountCells = (verified p c sequence readBack s).accountCells)
    (tariff : t.tariffCells = s.tariffCells) : ReadBackIn (.account p) c readBack s t := .of account tariff

/-! ## A done tidy (R121) -/

theorem retiredByHandBack_eq (p : PairNo) (s : State) : retiredByHandBack p s = retiredBack [p] s := by
  rw [retiredByHandBack, retiredBack, List.filter_singleton]
  cases atLimit s p <;> rfl

/-- A tidied pair handed back and counted, its retirement raised, before the next STALE pair is taken. -/
def tidied (p : PairNo) (s : State) : State :=
  raiseRetired (retiredBack [p] s)
    { (handBack p s).leaveHead with report := { s.report with pairsTidied := s.report.pairsTidied + 1 } }

theorem tidied_shape (p : PairNo) (s : State) : ∃ a l, tidied p s = { handBack p s with
    commitQueue := s.commitQueue.tail, alerts := a, lost := l,
    report := { s.report with pairsTidied := s.report.pairsTidied + 1 } } := by
  obtain ⟨pa, fr, wo, handed⟩ := handBack_shape p s
  obtain ⟨a, l, raised⟩ := raiseRetired_shape (retiredBack [p] s)
    { (handBack p s).leaveHead with report := { s.report with pairsTidied := s.report.pairsTidied + 1 } }
  refine ⟨a, l, raised.trans ?_⟩
  rw [handed]
  rfl

theorem doneTidy_eq (p : PairNo) (s : State) : doneTidy p s = tidyNext (tidied p s) := by
  obtain ⟨pa, fr, wo, handed⟩ := handBack_shape p s
  have report : (handBack p s).leaveHead.report = s.report := by rw [handed]; rfl
  simp only [doneTidy, retiredByHandBack_eq, report, tidied]

/-- The worn set after a hand-back, by the role the pair then has. -/
theorem HandedBack.worn {p : PairNo} {s t : State} (h : HandedBack p [] s t) :
    (t.pair p).role ≠ some .stale
    ∧ (∀ q, q ∈ t.wornSet ↔ q ∈ s.wornSet ∨ (q = p ∧ (t.pair p).role = some .worn))
    ∧ (s.wornSet.Pairwise (fun x y => x < y) → t.wornSet.Pairwise (fun x y => x < y)) := by
  rcases Nat.lt_or_ge (s.pair p).track.wear.toNat 400000 with below | at_limit
  · obtain ⟨role, -, members, sorted, -⟩ := h.1 below
    refine ⟨by rw [role]; simp, fun q => ?_, sorted⟩
    rw [members, role]
    simp
  · obtain ⟨role, -, members, sorted, -⟩ := h.2 at_limit
    refine ⟨by rw [role]; simp, fun q => ?_, sorted⟩
    rw [members, role]
    simp [or_comm]

/-- What a done tidy of pair `p` leaves, its copy verified (R121). -/
structure TidyDone (p : PairNo) (c : CopyName) (sequence : Word) (readBack : Copy) (s t : State) : Prop where
  readBack : ReadBackIn (.account p) c readBack s t
  track : (t.pair p).track = ⟨(s.pair p).track.wear, some c, sequence⟩
  below : (s.pair p).track.wear.toNat < 400000 → (t.pair p).role = some .free ∧ Placed p s t ∧ AlertsLike s t
  at_limit : 400000 ≤ (s.pair p).track.wear.toNat → (t.pair p).role = some .worn ∧ p ∈ t.wornSet
    ∧ t.freeList = s.freeList ∧ AlertsLike (raiseAlert .pairRetired (.pair p) s) t ∧ Recorded (.pairRetired, .pair p) t
  report : t.report = { s.report with
    pairsTidied := s.report.pairsTidied + 1, wornCount := t.report.wornCount, freeCount := t.report.freeCount }
  follows : TidyFollows p s t
  running : t.phase ≠ .restarting
  shape : t = { s with
    commitQueue := t.commitQueue, accountCells := t.accountCells, accountPairs := t.accountPairs,
    freeList := t.freeList, wornSet := t.wornSet, alerts := t.alerts, lost := t.lost, phase := t.phase,
    report := t.report }

theorem doneTidy_tidyDone {p : PairNo} {s : State} (c : CopyName) (sequence : Word) (readBack : Copy)
    (tidying : s.phase = .tidying) :
    TidyDone p c sequence readBack s (doneTidy p (verified p c sequence readBack s)) := by
  have wear := fun q => verified_wear p q c sequence readBack s
  have own := verified_pair_same p c sequence readBack s
  have others := fun q (other : q ≠ p) => verified_pair_other c sequence readBack s other
  obtain ⟨cells, pairs, seen⟩ := verified_shape p c sequence readBack s
  have written := fun {t : State} => verified_readBack (p := p) (c := c) (sequence := sequence) (readBack := readBack)
    (s := s) (t := t)
  generalize verified p c sequence readBack s = r at *
  obtain ⟨back, track, kept⟩ := handBack_spec p r
  obtain ⟨pa, fr, wo, handed⟩ := handBack_shape p r
  obtain ⟨a, l, done⟩ := tidied_shape p r
  obtain ⟨notStale, members, sorted⟩ := back.worn
  have alerts : AlertsLike (raiseRetired (retiredBack [p] r) r) (tidied p r) :=
    raiseRetired_like _ (by rw [handed]; rfl) (by rw [handed]; exact ⟨rfl, rfl⟩)
  have records : ∀ q, (tidied p r).pair q = (handBack p r).pair q := fun q => by rw [done]; rfl
  have phase : (tidied p r).phase = .tidying := by rw [done, handed, seen]; exact tidying
  obtain ⟨follows, stays⟩ := tidyNext_follows p s (tidied p r) phase (by rw [records]; exact notStale)
    (fun q other => by rw [records, kept q other, others q other]) (by rw [done, seen])
    (fun q => by rw [records, done, members, seen]) (by rw [done]; rw [seen] at sorted ⊢; exact sorted)
    (by rw [done, seen]) (by rw [done, seen])
  obtain ⟨running, left⟩ := tidyNext_leaves phase
  rw [doneTidy_eq]
  generalize tidyNext (tidied p r) = t at *
  have free : t.freeList = (handBack p r).freeList := by rw [left, done]
  have like : AlertsLike (raiseRetired (retiredBack [p] r) r) t := by rw [left]; exact alerts
  obtain ⟨silent, raised⟩ := handedBack_alerts like
  have base : AlertsLike s r := by rw [seen]; exact ⟨rfl, rfl⟩
  rw [wear] at silent raised
  obtain ⟨backBelow, backAt⟩ := back
  rw [wear] at backBelow backAt
  refine ⟨written ?_ ?_, ?_, fun below => ?_, fun at_limit => ?_, ?_, follows, running, ?_⟩
  · rw [left, done, handed]
  · rw [left, done, handed, seen]
  · rw [stays, records, track, own]
  · obtain ⟨role, placed, -⟩ := backBelow below
    exact ⟨by rw [stays, records, role], placed.congr (fun q => (wear q).symm) (by rw [seen]) free,
      base.trans (silent below)⟩
  · obtain ⟨role, freeList, -⟩ := backAt at_limit
    obtain ⟨raisedAlerts, recorded⟩ := raised at_limit
    obtain ⟨-, -, -, inSet, -⟩ := follows
    have worn : (t.pair p).role = some .worn := by rw [stays, records, role]
    exact ⟨worn, (inSet p).mpr (.inr ⟨worn, .inl rfl⟩), by rw [free, freeList, seen],
      (raiseAlert_like _ _ (by rw [seen]) base).trans raisedAlerts, recorded⟩
  · rw [left, done, seen]
  · rw [left, done, handed, seen]

/-! ## A failed tidy -/

theorem attemptFailed_tidy {s : State} {e : CommitEntry} {a : Attempt} {p : PairNo} (second : a.number = .second)
    (stage : e.stage = .programming a) (subject : e.subject = .tidyEmpty p) : attemptFailed e a s = faultTidy p s := by
  unfold attemptFailed
  rw [second, stage]
  simp only [targetRefused, subject, EntrySubject.slot?, faultOutcome]

/-- Settles O36: a verify that passes hands the pair back, a second failure makes it WORN, and the first failure leaves
the head in its stage. -/
theorem tidyEntriesFollowOneAnother : Obligations.TidyEntriesFollowOneAnother := by
  intro s e p a readBack running tidying queue subject stage underWay target stale
  have attempt : e.stage.attempt = some a := by rw [stage]; rfl
  have site : e.stage.site = some (.account p, a.copy) := by rw [stage, ← target]; rfl
  have run := exec_attemptComplete readBack running queue underWay attempt site
  have track : s.track (.account p) = (s.pair p).track := rfl
  cases verify : verifyPasses e.image a.sequence (s.pair p).track.wear readBack with
  | true =>
    have done := doneTidy_tidyDone a.copy a.sequence readBack tidying (p := p)
    have outcome : doneOutcome e a.sequence (verified p a.copy a.sequence readBack s)
        = doneTidy p (verified p a.copy a.sequence readBack s) := by rw [doneOutcome, subject]
    rw [completeAttempt_passed verify] at run
    generalize doneTidy p (verified p a.copy a.sequence readBack s) = t at *
    have undrained : checkDrain t = t := if_neg fun drain => done.running drain.1
    have final : exec (.attemptComplete readBack) s = .next t := by
      rw [run]
      exact congrArg _ ((congrArg checkDrain outcome).trans undrained)
    refine ⟨t, final, target ▸ done.readBack, fun _ => ⟨done.track, done.below, done.at_limit, done.report⟩,
      fun fails => absurd fails (by decide), fun _ => ⟨done.follows, ?_⟩, ?_⟩
    · rw [done.shape]
    · rw [done.shape]
  | false =>
    cases number : a.number with
    | second =>
      rw [completeAttempt_failed verify, attemptFailed_tidy number stage subject] at run
      obtain ⟨x, y, copied⟩ := setCopy_shape s (.account p) a.copy readBack
      obtain ⟨own, member, follows, -, alerts, recorded, notRestarting, left⟩ := faultTidy_spec (p := p)
        (s := s.setCopy (.account p) a.copy readBack) (by rw [copied]; exact tidying)
      have written := cellsAfter_setCopy s (.account p) a.copy readBack
      have tariff : (s.setCopy (.account p) a.copy readBack).tariffCells = s.tariffCells := rfl
      generalize s.setCopy (.account p) a.copy readBack = u at *
      generalize faultTidy p u = t at *
      rw [show checkDrain t = t from if_neg fun drain => notRestarting drain.1] at run
      have base : AlertsLike (raiseAlert .pairRetired (.pair p) s) (raiseAlert .pairRetired (.pair p) u) :=
        raiseAlert_like _ _ (by rw [copied]) (by rw [copied]; exact ⟨rfl, rfl⟩)
      have followsS : TidyFollows p s t := by rw [copied] at follows; exact follows
      have pair : u.pair p = s.pair p := by rw [copied]; rfl
      refine ⟨t, run, ?_, fun passes => absurd passes (by decide), fun _ _ => ⟨?_, member, ?_, base.trans alerts, recorded,
        ?_⟩, fun _ => ⟨followsS, ?_⟩, ?_⟩
      · rw [target]
        exact CellsAfter.congr written (by rw [left]) (by rw [left])
      · rw [own, pair]
      · rw [left, copied]
      · rw [left, copied]
      · rw [left, copied]
      · rw [copied] at left tariff
        rw [left, ← tariff]
    | first =>
      obtain ⟨t, run, entered⟩ := firstFailure_spec running queue underWay number rfl
        (.inl ⟨stage, target.symm, rfl, rfl⟩) (p := .account p) verify
      have left := entered.shape
      have tariffs := entered.tariffPairs
      refine ⟨t, run, ?_, fun passes => absurd passes (by decide), fun _ second => absurd second (by decide),
        fun ends => ends.elim (fun h => absurd h (by decide)) fun h => absurd h (by decide), ?_⟩
      · rw [target]
        exact CellsAfter.congr (cellsAfter_setCopy s (.account p) a.copy readBack) (by rw [left]) (by rw [left])
      · rw [left, tariffs]
        rfl

end Sys2Proof.Machine

/-! PROOFS. The Commit Engine, V: done account images, in their own pair and in the incoming pair of a relocation. -/

namespace Sys2Proof.Machine

/-! ## What a done image settles (R15, R35, R72, R88) -/

theorem doneState_eq (before : AccountState) (c : ChangeKind) : doneState before c
    = if c = .open ∨ c = .thaw then .active else if c = .freeze then .frozen else before := by
  cases c <;> rfl

theorem doneStatus_capped {f : Figures} {charge excess balance amount deadline}
    (capped : f = .settle charge true excess balance amount deadline) : doneStatus f = .capped := by
  rw [capped]
  rfl

theorem doneStatus_ok {f : Figures} (other : ∀ charge excess balance amount deadline,
    f ≠ .settle charge true excess balance amount deadline) : doneStatus f = .ok := by
  unfold doneStatus
  split
  · exact absurd rfl (other _ _ _ _ _)
  · rfl

theorem DoneAnswered.of {img : PendingImage} {s t : State}
    (h : Answered img.port img.tag img.change.kind (doneStatus img.figures) img.figures s t) : DoneAnswered img s t := by
  refine ⟨fun _ _ _ _ _ capped => ?_, fun other => ?_⟩
  · rwa [doneStatus_capped capped] at h
  · rwa [doneStatus_ok other] at h

theorem freeSettled_none {img : PendingImage} (s : State) (handle : img.handle = none) : freeSettled img s = s := by
  unfold freeSettled
  rw [handle]

/-- A settle's hold is freed (R72). -/
theorem freeSettled_becomes {img : PendingImage} {n : HoldNo} {g : Byte} (s : State) (handle : img.handle = some (n, g)) :
    HoldBecomes n ⟨(s.hold n).generation, .free⟩ s (freeSettled img s) := by
  unfold freeSettled
  rw [handle]
  exact ⟨hold_setHold_same s n _, fun m other => hold_setHold_other s n m _ other.symm⟩

/-- The pair table after the relocation of a done image: the incoming pair CURRENT, the pairs `worn` WORN. -/
def rebound (i : SlotNo) (e : CommitEntry) (worn : List PairNo) (s : State) : State :=
  retireAll worn (bindIncoming i e s)

/-- A done image before the indicators of its slot are settled. -/
def imageDone (i : SlotNo) (img : PendingImage) (e : CommitEntry) (sequence : Word) (s : State) : State :=
  raiseRetired (wornByDone (s.slot i) e) (answerImage img (doneStatus img.figures) img.figures
    (freeSettled img ((rebound i e (wornByDone (s.slot i) e) s).leaveHead.setSlot i
      (doneSlot (s.slot i) img sequence (holderOf (s.slot i) e)))))

theorem doneImage_eq (i : SlotNo) (img : PendingImage) (e : CommitEntry) (sequence : Word) (s : State) :
    doneImage i img e sequence s = settleIndicators img.change i (imageDone i img e sequence s) := rfl

/-- What `imageDone` leaves: slot, holds, response, alerts, and the fields besides. -/
structure ImageDone (i : SlotNo) (img : PendingImage) (e : CommitEntry) (sequence : Word) (s x : State) : Prop where
  slot : x.slot i = doneSlot (s.slot i) img sequence (holderOf (s.slot i) e)
  others : OtherSlots i s x
  still : img.handle = none → x.holds = s.holds
  freed : ∀ n g, img.handle = some (n, g) → HoldBecomes n ⟨(s.hold n).generation, .free⟩ s x
  answered : DoneAnswered img s x
  alerts : AlertsLike (raiseRetired (wornByDone (s.slot i) e) s) x
  recorded : ∀ p ∈ wornByDone (s.slot i) e, Recorded (.pairRetired, .pair p) x
  responses : ¬ (x.terminal.responses = [] ∧ x.service.responses = [])
  shape : x = { s with
    slots := x.slots, holds := x.holds, commitQueue := s.commitQueue.tail,
    accountPairs := (rebound i e (wornByDone (s.slot i) e) s).accountPairs,
    wornSet := (rebound i e (wornByDone (s.slot i) e) s).wornSet, alerts := x.alerts, lost := x.lost,
    terminal := x.terminal, service := x.service }

theorem rebound_shape (i : SlotNo) (e : CommitEntry) (worn : List PairNo) (s : State) :
    ∃ pa wo, rebound i e worn s = { s with accountPairs := pa, wornSet := wo } := by
  obtain ⟨pa, bound⟩ := bindIncoming_shape i e s
  obtain ⟨pa', wo, retired⟩ := retireAll_shape worn (bindIncoming i e s)
  exact ⟨pa', wo, by rw [rebound, retired, bound]⟩

theorem imageDone_imageDone (i : SlotNo) (img : PendingImage) (e : CommitEntry) (sequence : Word) (s : State) :
    ImageDone i img e sequence s (imageDone i img e sequence s) := by
  unfold imageDone
  obtain ⟨pa, wo, bound⟩ := rebound_shape i e (wornByDone (s.slot i) e) s
  generalize moved : rebound i e (wornByDone (s.slot i) e) s = b at *
  generalize placed : b.leaveHead.setSlot i (doneSlot (s.slot i) img sequence (holderOf (s.slot i) e)) = y
  obtain ⟨ho, freed⟩ := freeSettled_shape img y
  have kept := freeSettled_none y (img := img)
  have becomes := fun {n g} => freeSettled_becomes (n := n) (g := g) y (img := img)
  generalize freeSettled img y = z at *
  have answered := answer_answered img.port img.tag img.change.kind (doneStatus img.figures) img.figures z
  obtain ⟨te, se, shaped⟩ := answerImage_shape img (doneStatus img.figures) img.figures z
  rw [show answer img.port img.tag img.change.kind (doneStatus img.figures) img.figures z
    = answerImage img (doneStatus img.figures) img.figures z from rfl] at answered
  generalize answerImage img (doneStatus img.figures) img.figures z = w at *
  obtain ⟨al, lo, raised⟩ := raiseRetired_shape (wornByDone (s.slot i) e) w
  have recorded := fun p mem => raiseRetired_recorded (wornByDone (s.slot i) e) p w mem
  have like : AlertsLike (raiseRetired (wornByDone (s.slot i) e) s) (raiseRetired (wornByDone (s.slot i) e) w) := by
    refine raiseRetired_like _ ?_ ?_ <;> rw [shaped, freed, ← placed, bound]
    · rfl
    · exact ⟨rfl, rfl⟩
  generalize raiseRetired (wornByDone (s.slot i) e) w = x at *
  have slots : x.slots = y.slots := by rw [raised, shaped, freed]
  have holds : x.holds = z.holds := by rw [raised, shaped]
  have holdsBefore : y.holds = s.holds := by rw [← placed, bound]; rfl
  have placed' : Answered img.port img.tag img.change.kind (doneStatus img.figures) img.figures s x := by
    refine answered.congr (fun q => ?_) fun q => ?_
    · rw [freed, ← placed, bound]
      cases q <;> rfl
    · rw [raised]
      cases q <;> rfl
  refine ⟨?_, fun j other => ?_, fun handle => ?_, fun n g handle => ?_, .of placed', like, recorded, placed'.responses, ?_⟩
  · rw [slot_congr slots, ← placed]
    exact slot_setSlot_same _ i _
  · rw [slot_congr slots, ← placed, bound]
    exact slot_setSlot_other _ i j _ other.symm
  · rw [holds, kept handle, holdsBefore]
  · obtain ⟨own, others⟩ := (becomes handle).congr holds
    rw [hold_congr holdsBefore] at own
    exact ⟨own, fun m other => (others m other).trans (hold_congr holdsBefore m)⟩
  · rw [moved, raised, shaped, freed, ← placed, bound]
    rfl

/-! ## The indicators after it (R15, R35) -/

/-- Reevaluated reads slots, holds, counter and alerts alone. -/
theorem Reevaluated.congr {i : SlotNo} {x x' t t' : State} (h : Reevaluated i x t) (base : AlertsLike x x')
    (slot : x'.slot i = x.slot i) (slots : t'.slots = t.slots) (holds : t'.holds = t.holds)
    (seconds : t'.seconds = t.seconds) (alerts : AlertsLike t t') : Reevaluated i x' t' := by
  have before := reevaluation_base i t' base slot
  have after := reevaluation_like i x (t := t') (t' := t) slots.symm holds.symm seconds.symm
  have own : AlertsLike (reevaluation i x t') t' := after.trans (h.trans alerts)
  exact ⟨own.1.trans before.1.symm, own.2.trans before.2.symm⟩

/-- The slot, the alerts and the fields that settling the indicators of slot `i` leaves. -/
theorem settleIndicators_spec {i : SlotNo} {x s : State} {v : Slot} (c : ChangeKind) (own : x.slot i = v)
    (others : OtherSlots i s x) (low : v.low = (s.slot i).low) (exhausted : v.exhausted = (s.slot i).exhausted) :
    SlotBecomes i v s (settleIndicators c i x)
    ∧ (∀ b : State, b.slot i = s.slot i → AlertsLike b x → c ≠ .open → Reevaluated i b (settleIndicators c i x))
    ∧ (c = .open → AlertsLike x (settleIndicators c i x))
    ∧ (∀ k, Recorded k x → Recorded k (settleIndicators c i x))
    ∧ settleIndicators c i x = { x with
        slots := (settleIndicators c i x).slots, alerts := (settleIndicators c i x).alerts,
        lost := (settleIndicators c i x).lost } := by
  by_cases opened : c = .open
  · have settled : settleIndicators c i x = setIndicators i x := if_pos opened
    rw [settled]
    refine ⟨⟨?_, fun j other => ?_⟩, fun _ _ _ other => absurd opened other, fun _ => ⟨rfl, rfl⟩, fun _ h => h, rfl⟩
    · have spend : spendable (setIndicators i x) i = spendable x i :=
        spendable_congr i rfl (by rw [setIndicators, slot_setSlot_same]; rfl)
      rw [spend, setIndicators, slot_setSlot_same, own]
    · exact (slot_setSlot_other x i j _ other.symm).trans (others j other)
  · have settled : settleIndicators c i x = reevaluate i x := if_neg opened
    rw [settled]
    obtain ⟨t, a, l, shape⟩ := reevaluate_shape i x
    refine ⟨reevaluate_becomes i v s x own others, fun b same alerts _ => reevaluated_of ?_ ?_ alerts,
      fun h => absurd h opened, fun k => reevaluate_keeps_recorded i k x, ?_⟩
    · rw [own, same, low]
    · rw [own, same, exhausted]
    · rw [shape]

/-! ## The done outcome as the answer of an event -/

/-- What a done image on slot `i` leaves on the state `s` before the event, its copy verified in pair `q` (R15, R35, R72,
R84, R88, R126). -/
structure ImageEvent (i : SlotNo) (img : PendingImage) (e : CommitEntry) (sequence : Word) (q : PairNo) (c : CopyName)
    (readBack : Copy) (s t : State) : Prop where
  slot : SlotBecomes i (doneSlot (s.slot i) img sequence (holderOf (s.slot i) e)) s t
  queue : t.commitQueue = s.commitQueue.tail
  cells : ReadBackIn (.account q) c readBack s t
  pairs : ∀ r, t.pair r
    = (rebound i e (wornByDone (s.slot i) e) (verified q c sequence readBack s)).pair r
  worn : t.wornSet = (rebound i e (wornByDone (s.slot i) e) (verified q c sequence readBack s)).wornSet
  still : img.handle = none → t.holds = s.holds
  freed : ∀ n g, img.handle = some (n, g) → HoldBecomes n ⟨(s.hold n).generation, .free⟩ s t
  answered : DoneAnswered img s t
  wait : WaitAfter s.commitQueue.tail s t
  recorded : ∀ p ∈ wornByDone (s.slot i) e, Recorded (.pairRetired, .pair p) t
  changed : img.change ≠ .open → Reevaluated i (raiseRetired (wornByDone (s.slot i) e) s) t
  opened : img.change = .open → AlertsLike (raiseRetired (wornByDone (s.slot i) e) s) t
  shape : t = { s with
    slots := t.slots, holds := t.holds, commitQueue := s.commitQueue.tail, accountCells := t.accountCells,
    accountPairs := t.accountPairs, wornSet := t.wornSet, alerts := t.alerts, lost := t.lost, terminal := t.terminal,
    service := t.service, collectionWait := t.collectionWait }

/-- DoneAnswered reads the ports alone. -/
theorem DoneAnswered.congr {img : PendingImage} {s s' t t' : State} (h : DoneAnswered img s t)
    (before : ∀ q, s'.port q = s.port q) (after : ∀ q, t'.port q = t.port q) : DoneAnswered img s' t' := by
  obtain ⟨capped, ok⟩ := h
  exact ⟨fun a b c d f is => (capped a b c d f is).congr before after, fun other => (ok other).congr before after⟩

/-- The drain of RESTARTING after an outcome that has placed a response. -/
theorem doneImage_event {i : SlotNo} {img : PendingImage} {e : CommitEntry} (sequence : Word) (q : PairNo) (c : CopyName)
    (readBack : Copy) (s : State) : ImageEvent i img e sequence q c readBack s
      (checkDrain (doneImage i img e sequence (verified q c sequence readBack s))) := by
  have written := fun {t : State} => verified_readBack (p := q) (c := c) (sequence := sequence) (readBack := readBack)
    (s := s) (t := t)
  obtain ⟨ac, ap, seen⟩ := verified_shape q c sequence readBack s
  rw [doneImage_eq]
  have spec := imageDone_imageDone i img e sequence (verified q c sequence readBack s)
  generalize imageDone i img e sequence (verified q c sequence readBack s) = x at *
  have slots : (verified q c sequence readBack s).slots = s.slots := by rw [seen]
  obtain ⟨own, others, still, freed, answered, alerts, recorded, responses, shape⟩ := spec
  rw [slot_congr slots] at own alerts recorded shape
  have othersS : OtherSlots i s x := fun j other => (others j other).trans (slot_congr slots j)
  obtain ⟨becomes, reevaluated, silent, keeps, settled⟩ := settleIndicators_spec img.change own othersS rfl rfl
  generalize settleIndicators img.change i x = y at *
  have drained := checkDrain_of_responses y (by rw [settled]; exact responses)
  generalize checkDrain y = t at *
  have holds : t.holds = x.holds := by rw [drained, settled]
  have yt : AlertsLike y t := by rw [drained]; exact ⟨rfl, rfl⟩
  have base : AlertsLike (raiseRetired (wornByDone (s.slot i) e) s)
      (raiseRetired (wornByDone (s.slot i) e) (verified q c sequence readBack s)) :=
    raiseRetired_like _ (by rw [seen]) (by rw [seen]; exact ⟨rfl, rfl⟩)
  have holdsS : (verified q c sequence readBack s).holds = s.holds := by rw [seen]
  obtain ⟨al, lo, raised⟩ := raiseRetired_shape (wornByDone (s.slot i) e) s
  refine ⟨becomes.congr rfl ?_ ?_, ?_, written ?_ ?_, fun r => pair_congr ?_ r, ?_, fun handle => ?_, fun n g handle => ?_,
    answered.congr (fun p => ?_) (fun p => ?_), ?_, fun p mem => (keeps _ (recorded p mem)).like yt, fun change => ?_,
    fun change => base.trans (alerts.trans ((silent change).trans yt)), ?_⟩
  · rw [drained]
  · rw [drained]
  · rw [drained, settled, shape, seen]
  · rw [drained, settled, shape]
  · rw [drained, settled, shape, seen]
  · rw [drained, settled, shape]
  · rw [drained, settled, shape]
  · rw [holds, still handle, holdsS]
  · obtain ⟨ownHold, otherHolds⟩ := (freed n g handle).congr holds
    rw [hold_congr holdsS] at ownHold
    exact ⟨ownHold, fun m other => (otherHolds m other).trans (hold_congr holdsS m)⟩
  · rw [seen]
    cases p <;> rfl
  · rw [drained, settled]
    cases p <;> rfl
  · rw [drained, settled, shape, seen]
    rfl
  · refine (reevaluated (raiseRetired (wornByDone (s.slot i) e) s) ?_ (base.trans alerts) change).congr ⟨rfl, rfl⟩ rfl
      ?_ ?_ ?_ yt
    · rw [raised]
      rfl
    · rw [drained]
    · rw [drained]
    · rw [drained]
  · rw [drained, settled, shape, seen]

end Sys2Proof.Machine

/-! PROOFS. The Commit Engine, VI: the statements about done account images, wear relocations, closes and tariffs. -/

namespace Sys2Proof.Machine

/-! ## The pairs of a done outcome (R88, R89) -/

theorem wornByDone_direct {v : Slot} {e : CommitEntry} (direct : e.stage.incoming = none) : wornByDone v e = [] := by
  simp [wornByDone, direct]

theorem wornByDone_relocated {v : Slot} {e : CommitEntry} {p q : PairNo} (incoming : e.stage.incoming = some q)
    (current : v.currentPair = some p) : wornByDone v e = [p] := by
  simp [wornByDone, incoming, current]

theorem holderOf_direct {v : Slot} {e : CommitEntry} (direct : e.stage.incoming = none) :
    holderOf v e = v.currentPair := by
  simp [holderOf, direct]

theorem holderOf_relocated {v : Slot} {e : CommitEntry} {q : PairNo} (incoming : e.stage.incoming = some q) :
    holderOf v e = some q := by
  simp [holderOf, incoming]

theorem rebound_direct (i : SlotNo) {e : CommitEntry} (s : State) (direct : e.stage.incoming = none) :
    rebound i e [] s = s := by
  simp [rebound, bindIncoming, direct, retireAll]

/-- The pair table after a done relocation. -/
theorem rebound_relocated (i : SlotNo) {e : CommitEntry} {p q : PairNo} (s : State) (incoming : e.stage.incoming = some q)
    (apart : p ≠ q) :
    (rebound i e [p] s).pair q = { s.pair q with role := some (.current i) }
    ∧ (rebound i e [p] s).pair p = { s.pair p with role := some .worn }
    ∧ (∀ r, r ≠ p → r ≠ q → (rebound i e [p] s).pair r = s.pair r)
    ∧ ∀ x, x ∈ (rebound i e [p] s).wornSet ↔ x = p ∨ x ∈ s.wornSet := by
  have bound : bindIncoming i e s = s.setRole q (.current i) := by rw [bindIncoming, incoming]
  rw [rebound, bound]
  refine ⟨?_, ?_, fun r notP notQ => ?_, fun x => ?_⟩
  · rw [retireAll_pair, if_neg (by simpa using apart.symm), pair_setRole_same]
  · rw [retireAll_pair, if_pos (by simp), pair_setRole_other s q p _ apart.symm]
  · rw [retireAll_pair, if_neg (by simpa using notP), pair_setRole_other s q r _ notQ.symm]
  · rw [mem_retireAll_wornSet, List.mem_singleton]
    rfl

theorem doneOutcome_image {s : State} {e : CommitEntry} {i : SlotNo} {img : PendingImage} (sequence : Word)
    (subject : e.subject = .accountImage i) (pending : (s.slot i).pending = some img) :
    doneOutcome e sequence s = doneImage i img e sequence s := by
  rw [doneOutcome, subject]
  dsimp only
  rw [pending]

/-- An attempt whose verify passes, on an account pair. -/
theorem exec_verified {s : State} {e : CommitEntry} {rest : List CommitEntry} {a : Attempt} {q : PairNo} {c : CopyName}
    {readBack : Copy} (running : s.inReset = false) (queue : s.commitQueue = e :: rest) (underWay : a.underWay = true)
    (attempt : e.stage.attempt = some a) (site : e.stage.site = some (.account q, c))
    (passes : verifyPasses e.image a.sequence (s.pair q).track.wear readBack = true) :
    exec (.attemptComplete readBack) s
      = .next (checkDrain (doneOutcome e a.sequence (verified q c a.sequence readBack s))) := by
  rw [exec_attemptComplete readBack running queue underWay attempt site]
  exact congrArg _ (congrArg checkDrain (completeAttempt_passed (p := .account q) passes))

/-- A done image as the answer of the attempt that completes. -/
theorem exec_doneImage {s : State} {e : CommitEntry} {rest : List CommitEntry} {a : Attempt} {q : PairNo} {c : CopyName}
    {i : SlotNo} {img : PendingImage} {readBack : Copy} (running : s.inReset = false) (queue : s.commitQueue = e :: rest)
    (subject : e.subject = .accountImage i) (underWay : a.underWay = true) (attempt : e.stage.attempt = some a)
    (site : e.stage.site = some (.account q, c)) (pending : (s.slot i).pending = some img)
    (passes : verifyPasses e.image a.sequence (s.pair q).track.wear readBack = true) :
    ∃ t, exec (.attemptComplete readBack) s = .next t ∧ ImageEvent i img e a.sequence q c readBack s t := by
  have run := exec_verified running queue underWay attempt site passes
  rw [doneOutcome_image (s := verified q c a.sequence readBack s) a.sequence subject pending] at run
  exact ⟨_, run, doneImage_event a.sequence q c readBack s⟩

/-- Settles O33: the done outcome with no incoming pair. -/
theorem doneImageIsCommitted : Obligations.DoneImageIsCommitted := by
  intro s e rest i img a p readBack running queue subject stage underWay target current pending passes
  obtain ⟨t, run, event⟩ := exec_doneImage (q := p) (c := a.copy) running queue subject underWay
    (by rw [stage]; rfl) (by rw [stage, ← target]; rfl) pending passes
  have direct : e.stage.incoming = none := by rw [stage]; rfl
  obtain ⟨slot, left, cells, pairs, worn, still, freed, answered, wait, -, changed, opened, shape⟩ := event
  rw [wornByDone_direct direct] at pairs worn changed opened
  rw [rebound_direct i _ direct] at pairs worn
  rw [holderOf_direct direct, doneSlot, doneState_eq] at slot
  rw [queue, List.tail_cons] at left wait shape
  refine ⟨t, run, slot, left, cells.1, cells.2, ?_, fun q other => ?_, still, freed, answered, wait, changed, opened, ?_⟩
  · rw [pairs, verified_pair_same]
  · rw [pairs, verified_pair_other _ _ _ _ other]
  · have sameWorn : t.wornSet = s.wornSet := worn
    rw [sameWorn] at shape
    exact shape

/-! ## Wear relocations (R83, R106) -/

theorem wearRelocates_image {s : State} {i : SlotNo} {img : PendingImage} {p q : PairNo} {spare : List PairNo}
    (pending : (s.slot i).pending = some img) (change : img.change ≠ .open)
    (worn : 400000 ≤ (s.pair p).track.wear.toNat) (free : s.freeList = q :: spare) :
    wearRelocates s (.accountImage i) (.account p) = true := by
  have notOpen : openPending (s.slot i) = false := by
    rw [openPending, pending]
    exact decide_eq_false change
  have atLimit : Config.wearLimit ≤ (s.track (.account p)).wear.toNat := worn
  simp [wearRelocates, notOpen, atLimit, free]

/-- The first program of an account image that is a wear relocation. -/
theorem programHead_relocates {s : State} {e : CommitEntry} {i : SlotNo} {p : PairId} {first : Word}
    (subject : e.subject = .accountImage i) (fits : first.toNat = settledSequence s e.subject p)
    (relocates : wearRelocates s e.subject p = true) :
    programHead e p s = relocate e i p (inactiveCopy (s.track p)) s := by
  have slot : e.subject.slot? = some i := by rw [subject]; rfl
  unfold programHead
  dsimp only
  rw [if_neg (not_maxWord_lt fits), relocates, slot]

/-- A wear relocation begun by the first program. -/
theorem relocationBegins {s : State} {e : CommitEntry} {rest : List CommitEntry} {i : SlotNo} {img : PendingImage}
    {p q : PairNo} {spare : List PairNo} {first sequence : Word} (running : s.inReset = false) (good : s.supply = .good)
    (queue : s.commitQueue = e :: rest) (waiting : e.stage = .waiting) (subject : e.subject = .accountImage i)
    (pending : (s.slot i).pending = some img) (change : img.change ≠ .open) (current : (s.slot i).currentPair = some p)
    (worn : 400000 ≤ (s.pair p).track.wear.toNat) (free : s.freeList = q :: spare)
    (fits : first.toNat = settledSequence s e.subject (.account p))
    (settled : sequence.toNat = settledSequence s e.subject (.account q)) :
    ∃ t, exec .firstProgram s = .next t
      ∧ Relocated e i ⟨.account p, inactiveCopy (s.pair p).track, sequence, .first, false⟩ q spare s t := by
  have target : targetOf s e.subject = some (.account p) := by
    rw [subject]
    exact congrArg (Option.map PairId.account) current
  have run := exec_firstProgram running good queue waiting target
  rw [programHead_relocates subject fits (subject ▸ wearRelocates_image pending change worn free)] at run
  have relocated := relocate_relocated (i := i) (target := .account p) (copy := inactiveCopy (s.track (.account p)))
    free settled
  rw [relocated.undrained] at run
  exact ⟨_, run, relocated⟩

/-- Settles O34: the claim of the first program, and the done outcome with an incoming pair. -/
theorem relocationMovesTheSlotToASpare : Obligations.RelocationMovesTheSlotToASpare := by
  refine ⟨fun s e rest i img p q spare first sequence running good queue waiting subject pending change current worn free
      fits settled => ?_,
    fun s e rest i img a p q c readBack running queue subject stage underWay apart current pending passes => ?_⟩
  · obtain ⟨t, run, relocated⟩ :=
      relocationBegins running good queue waiting subject pending change current worn free fits settled
    obtain ⟨head, freeList, ⟨w, pair, -, wear⟩, others, spares, exhausted, shape⟩ := relocated
    refine ⟨t, w, run, ?_, freeList, pair, wear good, others, spares, exhausted, shape⟩
    rw [head, queue, good]
    rfl
  · obtain ⟨t, run, event⟩ := exec_doneImage (q := q) (c := c) running queue subject underWay
      (by rw [stage]; rfl) (by rw [stage]; rfl) pending passes
    have incoming : e.stage.incoming = some q := by rw [stage]; rfl
    obtain ⟨slot, left, cells, pairs, worn, still, freed, answered, wait, recorded, changed, opened, shape⟩ := event
    rw [wornByDone_relocated incoming current] at pairs worn recorded changed opened
    rw [raiseRetired_one] at changed opened
    obtain ⟨pairQ, pairP, pairR, members⟩ := rebound_relocated i (verified q c a.sequence readBack s) incoming apart
    rw [holderOf_relocated incoming, doneSlot, doneState_eq] at slot
    rw [queue, List.tail_cons] at left wait shape
    refine ⟨t, run, slot, ?_, ?_, fun x => ?_, fun r notP notQ => ?_, left, cells.1, cells.2, recorded p (by simp), still,
      freed, answered, wait, changed, opened, shape⟩
    · rw [pairs, pairQ, verified_pair_same]
    · rw [pairs, pairP, verified_pair_other _ _ _ _ apart]
    · rw [worn, members]
      rfl
    · rw [pairs, pairR r notP notQ, verified_pair_other _ _ _ _ notQ]

end Sys2Proof.Machine

/-! PROOFS. The Commit Engine, VII: done closes and done tariffs. -/

namespace Sys2Proof.Machine

/-! ## Done closes (R16, R88, R107) -/

theorem doneOutcome_empty {s : State} {e : CommitEntry} {i : SlotNo} {img : PendingImage} (sequence : Word)
    (subject : e.subject = .accountEmpty i) (pending : (s.slot i).pending = some img) :
    doneOutcome e sequence s = doneEmpty i img e s := by
  rw [doneOutcome, subject]
  dsimp only
  rw [pending]

/-- What a done close of slot `i` leaves on the state `s` before the event, its copy verified in pair `q`, which is
handed back, with the pairs `worn` WORN besides. -/
structure CloseEvent (i : SlotNo) (img : PendingImage) (sequence : Word) (q : PairNo) (worn : List PairNo) (c : CopyName)
    (readBack : Copy) (s t : State) : Prop where
  slot : t.slot i = Slot.vacant
  others : OtherSlots i s t
  keys : ∀ x, x ∈ t.keyIndex ↔ x ∈ s.keyIndex ∧ some x.1 ≠ (s.slot i).key
  back : HandedBack q worn s t
  track : (t.pair q).track = ⟨(s.pair q).track.wear, some c, sequence⟩
  pairs : ∀ r, r ≠ q → t.pair r = (retireAll worn s).pair r
  alerts : AlertsLike (raiseRetired (worn ++ retiredBack [q] s) s) t
  cells : ReadBackIn (.account q) c readBack s t
  answered : Answered img.port img.tag img.change.kind .ok img.figures s t
  wait : WaitAfter s.commitQueue.tail s t
  shape : t = { s with
    slots := t.slots, keyIndex := t.keyIndex, commitQueue := s.commitQueue.tail, accountCells := t.accountCells,
    accountPairs := t.accountPairs, freeList := t.freeList, wornSet := t.wornSet, alerts := t.alerts,
    lost := t.lost, terminal := t.terminal, service := t.service, collectionWait := t.collectionWait }

theorem retiredBack_verified (p q : PairNo) (c : CopyName) (sequence : Word) (readBack : Copy) (s : State) :
    retiredBack [p] (verified q c sequence readBack s) = retiredBack [p] s := by
  refine List.filter_congr fun r _ => ?_
  rw [Bool.eq_iff_iff, atLimit_iff, atLimit_iff, verified_wear]

/-- A done close as the answer of the attempt that completes. -/
theorem doneEmpty_event {i : SlotNo} {img : PendingImage} {e : CommitEntry} {sequence : Word} {q : PairNo}
    {worn : List PairNo} {c : CopyName} {readBack : Copy} {s : State}
    (closed : ClosedAs i img .ok img.figures q worn (worn ++ retiredBack [q] (verified q c sequence readBack s))
      (verified q c sequence readBack s) (doneEmpty i img e (verified q c sequence readBack s))) :
    CloseEvent i img sequence q worn c readBack s
      (checkDrain (doneEmpty i img e (verified q c sequence readBack s))) := by
  obtain ⟨sl, ki, pa, fr, wo, al, lo, te, se, shape⟩ := doneEmpty_shape i img e (verified q c sequence readBack s)
  have written := fun {t : State} => verified_readBack (p := q) (c := c) (sequence := sequence) (readBack := readBack)
    (s := s) (t := t)
  have wear := fun r => verified_wear q r c sequence readBack s
  have own := verified_pair_same q c sequence readBack s
  have otherPairs := fun r (other : r ≠ q) => verified_pair_other c sequence readBack s other
  obtain ⟨ac, ap, seen⟩ := verified_shape q c sequence readBack s
  rw [retiredBack_verified] at closed
  generalize doneEmpty i img e (verified q c sequence readBack s) = y at *
  generalize verified q c sequence readBack s = r at *
  obtain ⟨slot, others, keys, back, track, pairs, alerts, answered⟩ := closed
  have drained := checkDrain_of_responses y answered.responses
  generalize checkDrain y = t at *
  have base : AlertsLike (raiseRetired (worn ++ retiredBack [q] s) s) (raiseRetired (worn ++ retiredBack [q] s) r) :=
    raiseRetired_like _ (by rw [seen]) (by rw [seen]; exact ⟨rfl, rfl⟩)
  have sameSlots : r.slots = s.slots := by rw [seen]
  refine ⟨?_, fun j other => ?_, fun x => ?_,
    back.congr (fun p => (wear p).symm) ?_ ?_ ?_ ?_ ?_, ?_, fun p other => ?_, (base.trans alerts).trans ?_, written ?_ ?_,
    answered.congr (fun p => ?_) (fun p => ?_), ?_, ?_⟩
  · rw [drained]
    exact slot
  · rw [drained]
    exact (others j other).trans (slot_congr sameSlots j)
  · rw [drained, keys, slot_congr sameSlots, seen]
  · rw [seen]
  · rw [seen]
  · rw [drained]
    rfl
  · rw [drained]
  · rw [drained]
  · rw [drained]
    exact track.trans (congrArg PairRecord.track own)
  · rw [drained]
    refine (pairs p other).trans ?_
    rw [retireAll_pair, retireAll_pair, otherPairs p other]
  · rw [drained]
    exact ⟨rfl, rfl⟩
  · rw [drained, shape]
  · rw [drained, shape, seen]
  · rw [seen]
    cases p <;> rfl
  · rw [drained]
    cases p <;> rfl
  · rw [drained, shape, seen]
    rfl
  · rw [drained, shape, seen]

theorem exec_doneEmpty {s : State} {e : CommitEntry} {rest : List CommitEntry} {a : Attempt} {q : PairNo} {c : CopyName}
    {i : SlotNo} {img : PendingImage} {worn : List PairNo} {readBack : Copy} (running : s.inReset = false)
    (queue : s.commitQueue = e :: rest) (subject : e.subject = .accountEmpty i) (underWay : a.underWay = true)
    (attempt : e.stage.attempt = some a) (site : e.stage.site = some (.account q, c))
    (pending : (s.slot i).pending = some img)
    (passes : verifyPasses e.image a.sequence (s.pair q).track.wear readBack = true)
    (closed : ClosedAs i img .ok img.figures q worn (worn ++ retiredBack [q] (verified q c a.sequence readBack s))
      (verified q c a.sequence readBack s) (doneEmpty i img e (verified q c a.sequence readBack s))) :
    ∃ t, exec (.attemptComplete readBack) s = .next t ∧ CloseEvent i img a.sequence q worn c readBack s t := by
  have run := exec_verified running queue underWay attempt site passes
  rw [doneOutcome_empty (s := verified q c a.sequence readBack s) a.sequence subject pending] at run
  exact ⟨_, run, doneEmpty_event closed⟩

/-- The alerts of a done close in an incoming pair (R110). -/
theorem relocatedClose_alerts {p q : PairNo} {s t : State}
    (alerts : AlertsLike (raiseRetired ([p] ++ retiredBack [q] s) s) t) :
    ((s.pair q).track.wear.toNat < 400000 → AlertsLike (raiseAlert .pairRetired (.pair p) s) t
      ∧ Recorded (.pairRetired, .pair p) t)
    ∧ (400000 ≤ (s.pair q).track.wear.toNat →
      (p < q → AlertsLike (raiseAlert .pairRetired (.pair q) (raiseAlert .pairRetired (.pair p) s)) t)
      ∧ (q < p → AlertsLike (raiseAlert .pairRetired (.pair p) (raiseAlert .pairRetired (.pair q) s)) t)
      ∧ Recorded (.pairRetired, .pair p) t ∧ Recorded (.pairRetired, .pair q) t) := by
  refine ⟨fun below => ?_, fun at_limit => ?_⟩
  · rw [retiredBack_below below, List.append_nil, raiseRetired_one] at alerts
    exact ⟨alerts, (raiseAlert_recorded _ _ s).like alerts⟩
  · rw [retiredBack_at at_limit, List.singleton_append] at alerts
    exact ⟨fun order => raiseRetired_two p q s order ▸ alerts, fun order => raiseRetired_two_swapped p q s order ▸ alerts,
      (raiseRetired_recorded [p, q] p s (by simp)).like alerts, (raiseRetired_recorded [p, q] q s (by simp)).like alerts⟩

/-! ## Done tariffs (R50) -/

theorem doneOutcome_tariff {s : State} {e : CommitEntry} {n : ClassNo} {img : PendingTariff} (sequence : Word)
    (subject : e.subject = .tariffImage n) (pending : (s.tariff n).pending = some img) :
    doneOutcome e sequence s = doneTariff n img sequence s := by
  rw [doneOutcome, subject]
  dsimp only
  rw [pending]

/-- A done tariff as the answer of the attempt that completes. -/
theorem exec_doneTariff {s : State} {e : CommitEntry} {rest : List CommitEntry} {a : Attempt} {readBack : Copy}
    {n : ClassNo} {img : PendingTariff} (running : s.inReset = false) (queue : s.commitQueue = e :: rest)
    (underWay : a.underWay = true) (stage : e.stage = .programming a)
    (passes : verifyPasses e.image a.sequence (s.track a.target).wear readBack = true)
    (subject : e.subject = .tariffImage n) (target : a.target = .tariff n) (pending : (s.tariff n).pending = some img) :
    ∃ t, exec (.attemptComplete readBack) s = .next t
      ∧ t.tariff n = { s.tariff n with
          state := .defined, rates := img.rates, sequence := some a.sequence, pending := none }
      ∧ (∀ m, m ≠ n → t.tariff m = s.tariff m) ∧ t.commitQueue = rest
      ∧ ReadBackIn (.tariff n) a.copy readBack s t
      ∧ t.tariffPairs.get n = ⟨(s.tariffPairs.get n).wear, some a.copy, a.sequence⟩
      ∧ (∀ q, q ≠ .tariff n → t.track q = s.track q)
      ∧ Answered img.port img.tag .setTariff .ok .zeros s t ∧ WaitAfter rest s t
      ∧ t = { s with
          tariffs := t.tariffs, commitQueue := rest, tariffCells := t.tariffCells, tariffPairs := t.tariffPairs,
          terminal := t.terminal, service := t.service, collectionWait := t.collectionWait } := by
  have run := exec_attemptComplete readBack running queue underWay (p := .tariff n) (c := a.copy)
    (by rw [stage]; rfl) (by rw [stage, ← target]; rfl)
  rw [completeAttempt_passed (target ▸ passes)] at run
  generalize programmed : recordVerified (.tariff n) a.copy a.sequence (s.setCopy (.tariff n) a.copy readBack) = r at run
  have seen : r = { s with
      tariffCells := (s.setCopy (.tariff n) a.copy readBack).tariffCells, tariffPairs := r.tariffPairs } := by
    rw [← programmed]
    rfl
  have own : r.track (.tariff n) = ⟨(s.tariffPairs.get n).wear, some a.copy, a.sequence⟩ := by
    rw [← programmed]
    exact track_setTrack_same _ _ _
  have others : ∀ q, q ≠ .tariff n → r.track q = s.track q := fun q other => by
    rw [← programmed]
    exact (track_setTrack_other _ _ _ _ other.symm).trans (track_setCopy _ _ _ _ _)
  have tariffs : r.tariffs = s.tariffs := by rw [seen]
  rw [doneOutcome_tariff a.sequence subject ((congrArg TariffClass.pending (tariff_congr tariffs n)).trans pending),
    doneTariff] at run
  rw [tariff_congr tariffs] at run
  generalize placed : r.leaveHead.setTariff n { s.tariff n with
    state := .defined, rates := img.rates, sequence := some a.sequence, pending := none } = x at run
  have answered := answer_answered img.port img.tag .setTariff .ok .zeros x
  obtain ⟨te, se, shape⟩ := answer_shape img.port img.tag .setTariff .ok .zeros x
  generalize answer img.port img.tag .setTariff .ok .zeros x = y at *
  have drained := checkDrain_of_responses y answered.responses
  generalize checkDrain y = t at *
  have tTariffs : t.tariffs = x.tariffs := by rw [drained, shape]
  have left : x.commitQueue = rest := by
    rw [← placed, seen]
    exact congrArg List.tail queue
  have tracks : ∀ q, t.track q = r.track q := fun q => by
    rw [drained, shape, ← placed]
    cases q <;> rfl
  refine ⟨t, run, ?_, fun m other => ?_, ?_, .of ?_ ?_, (tracks (.tariff n)).trans own,
    fun q other => (tracks q).trans (others q other), answered.congr (fun p => ?_) (fun p => ?_), ?_, ?_⟩
  · rw [tariff_congr tTariffs, ← placed]
    exact tariff_setTariff_same _ n _
  · rw [tariff_congr tTariffs, ← placed]
    exact (tariff_setTariff_other _ n m _ other.symm).trans (tariff_congr tariffs m)
  · rw [drained, shape]
    exact left
  · rw [drained, shape, ← placed, seen]
    rfl
  · rw [drained, shape, ← placed, seen]
    rfl
  · rw [← placed, seen]
    cases p <;> rfl
  · rw [drained]
    cases p <;> rfl
  · rw [drained, shape]
    simp only [WaitAfter, left]
    rw [← placed, seen]
    rfl
  · rw [drained, shape]
    simp only [left]
    rw [← placed, seen]
    rfl

/-- Settles O35: the done outcomes of the two closes and of a tariff. -/
theorem doneCloseAndDoneTariff : Obligations.DoneCloseAndDoneTariff := by
  intro s e rest a readBack running queue underWay
  refine ⟨fun i img p stage passes subject target current pending => ?_,
    fun i img p q c stage passes subject apart current pending => ?_,
    fun n img stage passes subject target pending =>
      exec_doneTariff running queue underWay stage passes subject target pending⟩
  · have track : s.track a.target = (s.pair p).track := by rw [target]; rfl
    rw [track] at passes
    obtain ⟨t, run, event⟩ := exec_doneEmpty running queue subject underWay (q := p) (c := a.copy) (worn := [])
      (by rw [stage]; rfl) (by rw [stage, ← target]; rfl) pending passes
      (doneEmpty_own i img e p (verified p a.copy a.sequence readBack s) (by rw [stage]; rfl) current)
    obtain ⟨slot, others, keys, back, track, pairs, alerts, cells, answered, wait, shape⟩ := event
    obtain ⟨below, at_limit⟩ := handedBack_alerts alerts
    rw [queue, List.tail_cons] at wait shape
    exact ⟨t, run, slot, others, keys, back, pairs, track, below, at_limit, cells.1, cells.2, answered, wait, shape⟩
  · obtain ⟨t, run, event⟩ := exec_doneEmpty running queue subject underWay (q := q) (c := c) (worn := [p])
      (by rw [stage]; rfl) (by rw [stage]; rfl) pending passes
      (doneEmpty_relocated i img e p q (verified q c a.sequence readBack s) (by rw [stage]; rfl) current)
    obtain ⟨slot, others, keys, back, track, pairs, alerts, cells, answered, wait, shape⟩ := event
    obtain ⟨below, at_limit⟩ := relocatedClose_alerts alerts
    rw [queue, List.tail_cons] at wait shape
    refine ⟨t, run, slot, others, keys, ?_, back, fun r notP notQ => ?_, track, below, at_limit, cells.1, cells.2, answered,
      wait, shape⟩
    · rw [pairs p apart, retireAll_pair, if_pos (by simp)]
    · rw [pairs r notQ, retireAll_pair, if_neg (by simpa using notP)]

end Sys2Proof.Machine

/-! PROOFS. The scan: the roles it gives the pairs, the tables it builds, and the tidying it begins. -/

namespace Sys2Proof.Machine

/-! ## What is loaded and what is left over (R117, R118) -/

/-- The accounts the scan loads, in key order. -/
def loadedOf (s : State) : List Claimant := (winners (claimants s)).take 256

/-- The winners beyond the 256 that are loaded. -/
def excessOf (s : State) : List Claimant := (winners (claimants s)).drop 256

theorem loaded_excess (s : State) : loadedOf s ++ excessOf s = winners (claimants s) := List.take_append_drop _ _

theorem loaded_sorted (s : State) : (loadedOf s ++ excessOf s).Pairwise (fun x y => x.key.toNat < y.key.toNat) := by
  rw [loaded_excess]
  exact winners_sorted s

theorem mem_loaded_excess (s : State) (x : Claimant) :
    x ∈ loadedOf s ++ excessOf s ↔ x.isImage = true ∧ Winner s x := by
  rw [loaded_excess, mem_winners]

theorem loaded_nodup (s : State) : (loadedOf s ++ excessOf s).Nodup :=
  (loaded_sorted s).imp fun {_ _} less same => absurd (same ▸ less) (lt_irrefl _)

theorem loaded_length (s : State) : (loadedOf s).length ≤ 256 := List.length_take_le _ _

theorem excess_length {s : State} (more : excessOf s ≠ []) : (loadedOf s).length = 256 := by
  have beyond : 256 < (winners (claimants s)).length := by
    by_contra within
    exact more (List.drop_eq_nil_of_le (Nat.not_lt.mp within))
  rw [loadedOf, List.length_take]
  omega

theorem content_of_loaded {s : State} {x : Claimant} (mem : x ∈ loadedOf s) :
    Content s x ∧ x.isImage = true ∧ Winner s x := by
  obtain ⟨image, winner⟩ := (mem_loaded_excess s x).mp (List.mem_append_left _ mem)
  exact ⟨winner.1, image, winner⟩

theorem content_of_excess {s : State} {x : Claimant} (mem : x ∈ excessOf s) :
    Content s x ∧ x.isImage = true ∧ Winner s x := by
  obtain ⟨image, winner⟩ := (mem_loaded_excess s x).mp (List.mem_append_right _ mem)
  exact ⟨winner.1, image, winner⟩

theorem mem_of_numbered {l : List Claimant} {y : Claimant × SlotNo} (mem : y ∈ numbered l) : y.1 ∈ l :=
  List.mem_of_getElem? ((mem_numbered l y.1 y.2).mp mem)

/-! ## The role of a pair (R117 to R119) -/

/-- The role that the scan gives pair `p`, before the tidies. -/
def roleAtScan (s : State) (p : PairNo) (wear : Nat) : PairRole :=
  scannedRole (loadedOf s) (excessOf s) (losers (claimants s)) p wear

theorem find_loaded_none {s : State} {p : PairNo} (unloaded : ∀ x ∈ loadedOf s, x.pair ≠ p) :
    (numbered (loadedOf s)).find? (fun x => x.1.pair == p) = none := by
  refine List.find?_eq_none.mpr fun y mem => ?_
  simpa using unloaded y.1 (mem_of_numbered mem)

/-- A loaded pair is CURRENT for its slot. -/
theorem roleAtScan_loaded {s : State} {i : SlotNo} {x : Claimant} (wear : Nat) (loaded : (loadedOf s)[i.val]? = some x) :
    roleAtScan s x.pair wear = .current i := by
  have own : (x, i) ∈ numbered (loadedOf s) := (mem_numbered _ x i).mpr loaded
  obtain ⟨y, found⟩ : ∃ y, (numbered (loadedOf s)).find? (fun z => z.1.pair == x.pair) = some y :=
    Option.isSome_iff_exists.mp (List.find?_isSome.mpr ⟨(x, i), own, by simp⟩)
  have yMem := List.mem_of_find?_eq_some found
  have samePair : y.1.pair = x.pair := by simpa using List.find?_some found
  have same : y.1 = x := (content_of_loaded (mem_of_numbered yMem)).1.eq
    (content_of_loaded (mem_of_numbered own)).1 samePair
  have at_slot : (loadedOf s)[y.2.val]? = some x := same ▸ (mem_numbered _ y.1 y.2).mp yMem
  have distinct : (loadedOf s).Nodup := (List.nodup_append.mp (loaded_nodup s)).1
  have slot : y.2 = i := by
    obtain ⟨inside, is⟩ := List.getElem?_eq_some_iff.mp at_slot
    exact Fin.ext ((List.getElem?_inj inside distinct).mp (at_slot.trans loaded.symm))
  rw [roleAtScan, scannedRole, found, ← slot]

theorem roleAtScan_unloaded {s : State} {p : PairNo} (wear : Nat) (unloaded : ∀ x ∈ loadedOf s, x.pair ≠ p) :
    roleAtScan s p wear = if (excessOf s).any (fun x => x.pair == p) then .worn
      else if (losers (claimants s)).any (fun x => x.pair == p) then .stale
      else if Config.wearLimit ≤ wear then .worn
      else .free := by
  rw [roleAtScan, scannedRole, find_loaded_none unloaded]

/-- The pair of a winner beyond the 256 is WORN. -/
theorem roleAtScan_excess {s : State} {x : Claimant} (wear : Nat) (excess : x ∈ excessOf s) :
    roleAtScan s x.pair wear = .worn := by
  have unloaded : ∀ y ∈ loadedOf s, y.pair ≠ x.pair := fun y mem same => by
    have twice : y = x := (content_of_loaded mem).1.eq (content_of_excess excess).1 same
    exact (List.nodup_append.mp (loaded_nodup s)).2.2 y mem x excess twice
  rw [roleAtScan_unloaded wear unloaded, if_pos (List.any_eq_true.mpr ⟨x, excess, by simp⟩)]

/-- The pair of an image that is no winner is STALE. -/
theorem roleAtScan_loser {s : State} {x : Claimant} (wear : Nat) (content : Content s x) (image : x.isImage = true)
    (lost : ¬ Winner s x) : roleAtScan s x.pair wear = .stale := by
  have unloaded : ∀ y ∈ loadedOf s, y.pair ≠ x.pair := fun y mem same => by
    obtain ⟨yContent, -, winner⟩ := content_of_loaded mem
    exact lost (yContent.eq content same ▸ winner)
  have notExcess : ¬ (excessOf s).any (fun y => y.pair == x.pair) = true := fun found => by
    obtain ⟨y, mem, same⟩ := List.any_eq_true.mp found
    obtain ⟨yContent, -, winner⟩ := content_of_excess mem
    exact lost (yContent.eq content (by simpa using same) ▸ winner)
  have inLosers : (losers (claimants s)).any (fun y => y.pair == x.pair) = true :=
    List.any_eq_true.mpr ⟨x, (mem_losers s x).mpr ⟨content, image, lost⟩, by simp⟩
  rw [roleAtScan_unloaded wear unloaded, if_neg notExcess, if_pos inLosers]

/-- Every other pair is FREE below the wear limit and WORN at it. -/
theorem roleAtScan_other {s : State} {p : PairNo} (wear : Nat)
    (noImage : ∀ x, contentOf p (s.cells (.account p)) = some x → x.isImage = false) :
    roleAtScan s p wear = if wear < 400000 then .free else .worn := by
  have elsewhere : ∀ x, Content s x → x.isImage = true → x.pair ≠ p := fun x content image same => by
    have held : contentOf p (s.cells (.account p)) = some x := same ▸ content
    rw [noImage x held] at image
    exact absurd image (by decide)
  have notExcess : ¬ (excessOf s).any (fun y => y.pair == p) = true := fun found => by
    obtain ⟨y, mem, same⟩ := List.any_eq_true.mp found
    exact elsewhere y (content_of_excess mem).1 (content_of_excess mem).2.1 (by simpa using same)
  have notLoser : ¬ (losers (claimants s)).any (fun y => y.pair == p) = true := fun found => by
    obtain ⟨y, mem, same⟩ := List.any_eq_true.mp found
    obtain ⟨content, image, -⟩ := (mem_losers s y).mp mem
    exact elsewhere y content image (by simpa using same)
  have limit : Config.wearLimit ≤ wear ↔ ¬ wear < 400000 := Nat.not_lt.symm
  rw [roleAtScan_unloaded wear fun y mem => elsewhere y (content_of_loaded mem).1 (content_of_loaded mem).2.1,
    if_neg notExcess, if_neg notLoser]
  simp only [limit, ite_not]

/-! ## The tables before the tidies -/

/-- The state that the scan leaves before it takes the first STALE pair. -/
def scanned (s : State) : State := { buildLists (scanTables s) with phase := .tidying }

theorem exec_scan {s : State} (running : s.inReset = false) (scanning : s.phase = .scanning) :
    exec .scan s = .next (tidyNext (scanned s)) := congrArg Host.Outcome.next (if_pos ⟨running, scanning⟩)

theorem scanned_slot (s : State) (i : SlotNo) : (scanned s).slot i = scannedSlot (loadedOf s) i := get_tabulate _ i

theorem scanned_tariff (s : State) (n : ClassNo) : (scanned s).tariff n = loadedClass (s.cells (.tariff n)) :=
  get_tabulate _ n

theorem scanned_track (s : State) (p : PairId) : (scanned s).track p = scannedTrack s.freeUses p (s.cells p) := by
  cases p with
  | account p => exact congrArg PairRecord.track (get_tabulate _ p)
  | tariff n => exact get_tabulate _ n

theorem scanned_role (s : State) (p : PairNo) :
    ((scanned s).pair p).role = some (roleAtScan s p ((scanned s).pair p).track.wear.toNat) := by
  have record : (scanned s).pair p = scannedPair s (loadedOf s) (excessOf s) (losers (claimants s)) p := get_tabulate _ p
  rw [record]
  rfl

theorem mem_scanned_freeList (s : State) (p : PairNo) : p ∈ (scanned s).freeList ↔ ((scanned s).pair p).role = some .free :=
  ((foldr_insertFree (scanTables s) _ ((pairsWith_sorted _ _).imp fun {_ _} less => ne_of_lt less)).1 p).trans
    (mem_pairsWith (scanTables s) .free p)

theorem scanned_freeList_sorted (s : State) : (scanned s).freeList.Pairwise (standsBefore (scanned s)) :=
  (foldr_insertFree (scanTables s) _ ((pairsWith_sorted _ _).imp fun {_ _} less => ne_of_lt less)).2

theorem mem_scanned_wornSet (s : State) (p : PairNo) : p ∈ (scanned s).wornSet ↔ ((scanned s).pair p).role = some .worn :=
  mem_pairsWith (scanTables s) .worn p

theorem scanned_wornSet_sorted (s : State) : (scanned s).wornSet.Pairwise (fun x y => x < y) :=
  pairsWith_sorted (scanTables s) .worn

/-- A wear that does not pass its range is the wear read from the copies (R103). -/
theorem scannedTrack_wear {uses : Nat} {p : PairId} {c : CellPair} (within : scannedWear c ≤ 4294967295) :
    (scannedTrack uses p c).wear.toNat = scannedWear c := by
  have limit : scannedWear c ≤ maxWord := within
  have bound : maxWord = 4294967295 := rfl
  simp only [scannedTrack, if_pos limit, asWord, BitVec.toNat_ofNat]
  omega

/-! ## The slots and the key index (R2, R118) -/

theorem scannedSlot_vacant {l : List Claimant} {i : SlotNo} (beyond : l.length ≤ i.val) : scannedSlot l i = Slot.vacant := by
  rw [scannedSlot, List.getElem?_eq_none beyond]

/-- A loaded slot, by the values of its image. -/
theorem scannedSlot_loaded {s : State} {i : SlotNo} {x : Claimant} (loaded : (loadedOf s)[i.val]? = some x) :
    ∃ c : ClassNo, c.val = (bodyClass x.body).toNat ∧ scannedSlot (loadedOf s) i = {
      state := if bodyFrozen x.body then .frozen else .active
      key := some x.key, cls := c, balance := bodyBalance x.body, ceiling := bodyCeiling x.body,
      threshold := bodyThreshold x.body, frozenMark := bodyFrozen x.body, sequence := some x.sequence,
      currentPair := some x.pair, pending := none,
      low := lowCreditHolds (bodyThreshold x.body) (bodyBalance x.body).toNat,
      exhausted := exhaustedHolds (bodyBalance x.body).toNat } := by
  obtain ⟨content, image, -⟩ := content_of_loaded (List.mem_of_getElem? loaded)
  obtain ⟨n, -, -, -, -, -, -, kinds⟩ := (contentOf_iff _ _ x).mp content
  have small : (bodyClass x.body).toNat < 16 := by
    rcases kinds with ⟨-, -, small, -⟩ | ⟨-, notImage⟩
    · exact small
    · rw [notImage] at image
      exact absurd image (by decide)
  refine ⟨⟨_, small⟩, rfl, ?_⟩
  rw [scannedSlot, loaded]
  simp only [loadedSlot, classOf_eq_some (bodyClass x.body) ⟨_, small⟩ rfl, Option.getD_some]
  rfl

theorem mem_scanned_keyIndex (s : State) (e : Word × SlotNo) :
    e ∈ (scanned s).keyIndex ↔ ∃ (i : SlotNo) (x : Claimant), (loadedOf s)[i.val]? = some x ∧ e = (x.key, i) := by
  show e ∈ (numbered (loadedOf s)).map (fun x => (x.1.key, x.2)) ↔ _
  rw [List.mem_map]
  constructor
  · rintro ⟨⟨x, i⟩, mem, rfl⟩
    exact ⟨i, x, (mem_numbered _ x i).mp mem, rfl⟩
  · rintro ⟨i, x, loaded, rfl⟩
    exact ⟨(x, i), (mem_numbered _ x i).mpr loaded, rfl⟩

theorem scanned_keyIndexLaw (s : State) : KeyIndexLaw (scanned s) := by
  refine ⟨numbered_sorted _ (List.pairwise_append.mp (loaded_sorted s)).1, fun e mem => ?_⟩
  obtain ⟨i, x, loaded, rfl⟩ := (mem_scanned_keyIndex s e).mp mem
  obtain ⟨content, -⟩ := content_of_loaded (List.mem_of_getElem? loaded)
  obtain ⟨n, -, -, -, nonzero, -⟩ := (contentOf_iff _ _ x).mp content
  exact nonzero

/-! ## The tidying that begins (R120, R122) -/

/-- What the first taking of STALE pairs leaves of the tables that the scan has built. -/
structure TidyingBegun (w t : State) : Prop where
  tracks : ∀ q, (t.pair q).track = (w.pair q).track
  roles : ∀ q, (t.pair q).role = (w.pair q).role
    ∨ ((w.pair q).role = some .stale ∧ (t.pair q).role = some .worn ∧ 400000 ≤ (w.pair q).track.wear.toNat)
  worn : ∀ q, q ∈ t.wornSet ↔ (t.pair q).role = some .worn
  sorted : t.wornSet.Pairwise (fun x y => x < y)
  follows : ((∀ p, (t.pair p).role ≠ some .stale) ∧ t.phase = .open ∧ t.commitQueue = w.commitQueue
      ∧ t.report.wornCount = t.wornSet.length ∧ t.report.freeCount = t.freeList.length)
    ∨ ∃ p, (t.pair p).role = some .stale ∧ (t.pair p).track.wear.toNat < 400000 ∧ t.phase = .tidying
      ∧ (∀ q, q < p → (t.pair q).role ≠ some .stale)
      ∧ t.commitQueue = w.commitQueue ++ [⟨.tidyEmpty p, .empty none, none, none, .waiting⟩]
      ∧ t.report.wornCount = w.report.wornCount ∧ t.report.freeCount = w.report.freeCount

theorem tidyNext_begun {w : State} (tidying : w.phase = .tidying)
    (worn : ∀ q, q ∈ w.wornSet ↔ (w.pair q).role = some .worn) (sorted : w.wornSet.Pairwise (fun x y => x < y)) :
    TidyingBegun w (tidyNext w) := by
  rw [tidyNext_eq tidying]
  obtain ⟨tracks, roles, members, order, ends⟩ :=
    tidyFrom_spec (List.finRange 288) w (List.pairwise_lt_finRange 288)
  refine ⟨tracks, fun q => (roles q).imp_right fun passed => passed.2, members worn, order sorted, ?_⟩
  rcases ends with ⟨none_left, a, o, shape⟩ | ⟨p, -, stale, below, first, a, o, shape⟩
  · refine .inl ⟨fun p => none_left p (List.mem_finRange p), ?_⟩
    rw [shape]
    exact ⟨rfl, rfl, rfl, rfl⟩
  · refine .inr ⟨p, stale, by rw [tracks p]; exact below, ?_, fun q less => first q (List.mem_finRange q) less, ?_⟩
    · rw [shape]
      exact tidying
    · rw [shape]
      exact ⟨rfl, rfl, rfl⟩

/-- Settles O45: the tables of `scanTables` and `buildLists`, then the first taking of STALE pairs. -/
theorem scanBuildsTheTables : Obligations.ScanBuildsTheTables := by
  refine ⟨contentOf_iff, fun s running scanning => ?_⟩
  have run := exec_scan running scanning
  have begun := tidyNext_begun (w := scanned s) rfl (mem_scanned_wornSet s) (scanned_wornSet_sorted s)
  obtain ⟨-, shape⟩ := tidyNext_leaves (w := scanned s) rfl
  generalize tidyNext (scanned s) = t at *
  have slots : ∀ i, t.slot i = scannedSlot (loadedOf s) i := fun i =>
    (slot_congr (by rw [shape]) i).trans (scanned_slot s i)
  have keyIndex : t.keyIndex = (scanned s).keyIndex := by rw [shape]
  have freeList : t.freeList = (scanned s).freeList := by rw [shape]
  have role : ∀ p r, r ≠ .stale → roleAtScan s p ((scanned s).pair p).track.wear.toNat = r → (t.pair p).role = some r :=
    fun p r kept is => by
      rcases begun.roles p with same | ⟨stale, -⟩
      · rw [same, scanned_role, is]
      · rw [scanned_role, is] at stale
        exact absurd (Option.some.inj stale) kept
  have free : ∀ p, (t.pair p).role = some .free ↔ ((scanned s).pair p).role = some .free := fun p => by
    rcases begun.roles p with same | ⟨stale, worn, -⟩
    · rw [same]
    · rw [stale, worn]
      simp
  have tracks : ∀ p, t.track p = scannedTrack s.freeUses p (s.cells p) := fun p => by
    rw [← scanned_track]
    cases p with
    | account p => exact begun.tracks p
    | tariff n =>
      rw [shape]
      rfl
  refine ⟨t, loadedOf s, excessOf s, run, loaded_sorted s, mem_loaded_excess s, loaded_length s, excess_length,
    fun i beyond => (slots i).trans (scannedSlot_vacant beyond),
    fun i x loaded => ⟨role _ _ (by simp) (roleAtScan_loaded _ loaded), ?slot⟩, ?law, fun e => ?index,
    fun x excess => role _ _ (by simp) (roleAtScan_excess _ excess), fun x content image lost => ?stale,
    fun p noImage => ?other, fun p => ?freeMembers, ?freeOrder, begun.worn, begun.sorted,
    fun n => (tariff_congr (by rw [shape]) n).trans (scanned_tariff s n),
    fun p => ⟨by rw [tracks]; rfl, by rw [tracks]; rfl, fun within => by rw [tracks]; exact scannedTrack_wear within⟩,
    begun.follows, ?accounts, ?excess, ?torn, ?classes, ?duplicates, ?kind, ?tidied, ?failures, ?rest⟩
  case slot =>
    obtain ⟨c, cls, is⟩ := scannedSlot_loaded loaded
    exact ⟨c, cls, (slots i).trans is⟩
  case law =>
    obtain ⟨ascending, nonzero⟩ := scanned_keyIndexLaw s
    exact ⟨keyIndex ▸ ascending, keyIndex ▸ nonzero⟩
  case index => rw [keyIndex, mem_scanned_keyIndex]
  case stale =>
    have at_scan := scanned_role s x.pair
    rw [roleAtScan_loser _ content image lost] at at_scan
    rcases begun.roles x.pair with same | ⟨-, worn, limit⟩
    · exact .inl (same.trans at_scan)
    · exact .inr ⟨worn, by rw [begun.tracks]; exact limit⟩
  case other =>
    rw [begun.tracks, role p _ ?_ (roleAtScan_other _ noImage)]
    · split_ifs <;> rfl
    · split_ifs <;> simp
  case freeMembers => rw [freeList, mem_scanned_freeList, free]
  case freeOrder =>
    rw [freeList]
    refine (scanned_freeList_sorted s).imp fun {p q} before => ?_
    rw [begun.tracks, begun.tracks]
    exact before
  case duplicates =>
    obtain ⟨keys, distinct, count, members⟩ := duplicateKeys_eq s
    exact ⟨keys, distinct, by rw [shape]; exact count, members⟩
  all_goals
    rw [shape]
    rfl

end Sys2Proof.Machine
